-- ==== Sys2Proof/Word.lean ====
section
/-! DEFINITION. The bit-vector types of the block: queue slot values, stimulus words and sequencer codes. -/

namespace Sys2Proof

/-- A slot value, a frame or a data register: `SLOT_W = 9` bits (R7, R51, R64). A frame of `FRAME_W` bits is
held zero-extended to nine bits, as R65 stores it. -/
abbrev Slot := BitVec 9

/-- A stimulus word: one step of a trace, 16 bits (R68). -/
abbrev StimWord := BitVec 16

/-- A sequencer code: four bits (R72). -/
abbrev SeqCode := BitVec 4

end Sys2Proof
end

