-- ==== Sys2Proof/Config.lean ====
section
/-! DEFINITION. The implementation parameters of 00_scope.md section 5 (R6 to R13): fixed for a run, no step changes one. -/

namespace Sys2Proof

/-- `FRAME_W`, the data bits of one serial frame on both links: 8 or 9 (R8). -/
inductive FrameW where
  | w8
  | w9
deriving DecidableEq, Repr

/-- The number of bits `FRAME_W` names (R8). -/
def FrameW.bits : FrameW → Nat
  | .w8 => 8
  | .w9 => 9

/-- `PRIO_MODE`, the relative priority of the two request lines (R10). -/
inductive PrioMode where
  | equal
  | gOverD
  | dOverG
deriving DecidableEq, Repr

/-- `OVR_POLICY`, which frame a receive data register holds after an overrun (R11). -/
inductive OvrPolicy where
  | keepOld
  | keepNew
deriving DecidableEq, Repr

/-- A level of the output pin (R23): `on` is the set state, bit 1; `off` is the reset state, bit 0 (D34). -/
inductive PinLevel where
  | off
  | on
deriving DecidableEq, Repr

/-- The pin level as the bit R23 gives it. -/
def PinLevel.bit : PinLevel → Bool
  | .off => false
  | .on => true

/-- The parameters a run is made with (R6 to R12). They are configuration, not state (R18); the machine state
carries them so that every statement about a state holds for every parameter value (log entry 2). -/
structure Config where
  /-- `CAP`, the queue capacity; the spec asks for at least 1 (R6). -/
  cap : Nat
  /-- `FRAME_W` (R8). -/
  frameW : FrameW
  /-- `PRIO_MODE` (R10). -/
  prio : PrioMode
  /-- `OVR_POLICY` (R11). -/
  ovr : OvrPolicy
  /-- `PIN_RESET`, the pin's level after reset (R12). -/
  pinReset : PinLevel
deriving DecidableEq, Repr

/-- The default of every parameter that has one (the parameter summary of 00_scope.md section 5). -/
def Config.default : Config :=
  { cap := 64, frameW := .w8, prio := .equal, ovr := .keepOld, pinReset := .off }

/-- R6: `CAP >= 1`. Every other parameter takes only legal values by its type. -/
abbrev Config.wf (c : Config) : Prop := 1 ≤ c.cap

/-- `SLOT_W` (R7). -/
def Config.slotW : Nat := 9

/-- `CUR_W = ceil(log2(2*CAP))`, the width of a cursor (R9). -/
def Config.curW (c : Config) : Nat := (2 * c.cap - 1).log2 + 1

/-- `PIN_INDEX`, the pin's bit position in the GPIO set/reset register view (R13): OPEN, with no default, so
it has no value here. Only the register view of Machine/Registers.lean mentions it. -/
opaque Config.pinIndex : Fin 16

end Sys2Proof
end

