-- ==== Sys2Proof/Syntax.lean ====
section
/-! DEFINITION. The operation set (R2) as syntax: one constructor per row of spec/opcode_table.json. -/

namespace Sys2Proof

/-- A serial link of the block: the GPS link G, or link 2 (glossary of 00_scope.md). -/
inductive Link where
  | g
  | l2
deriving DecidableEq, Repr

/-- The rows of spec/opcode_table.json, in the table's order. Frames and slot values are nine-bit values; a
frame operand must fit `FRAME_W` (`Instr.wf`). -/
inductive Instr where
  -- stimulus words (R69)
  | gpsRx (d : Slot)
  | hostRx (d : Slot)
  | txDone
  | runG
  | runD
  | enterG
  | enterD
  | mstepG
  | mstepD
  | qPush (d : Slot)
  | qPop
  | reset
  -- reserved stimulus words (R70): bits 11:9 and 8:0 of a word whose op is reserved
  | reservedOp0 (zero : BitVec 3) (d : Slot)
  | reservedOpC (zero : BitVec 3) (d : Slot)
  | reservedOpD (zero : BitVec 3) (d : Slot)
  | reservedOpE (zero : BitVec 3) (d : Slot)
  -- a word with bits 11:9 not zero, given by its three fields (R70)
  | reservedBits (op : BitVec 4) (zero : BitVec 3) (d : Slot)
  -- ingest data classes (R66) and command classes (R67)
  | ingNull
  | ingData (v : Slot)
  | cmdPinOff
  | cmdPinOn
  | cmdOther (v : Slot)
  -- ingest micro-ops (R95 to R102)
  | ig1
  | ig2
  | ig3
  | ig4
  | ig5
  | ig6
  | ig7
  | ig8
  -- dispatch micro-ops (R107 to R121)
  | dp1
  | dp2
  | dp3
  | dp4
  | dp5
  | dp6
  | dp7
  | dp8
  | dp9
  | dp10
  | dp11
  | dp12
  | dp13
  -- the other sequencer codes (R72)
  | idleG
  | idleD
  | unusedG (code : SeqCode)
  | unusedD (code : SeqCode)
  -- queue functions (R85, R86)
  | push (v : Slot)
  | pop
  -- register primitives (R125, R126, R135 to R139)
  | setTxeie
  | clearTxeie
  | readRdr (link : Link)
  | writeTdr (v : Slot)
  | clearOre (link : Link)
  | pinSet
  | pinReset
  -- pseudo-instructions (R76)
  | feed (v : Slot)
  | feeds (s : List Slot)
  | cmd (v : Slot)
  | xmit
  | stepallG
  | stepallD
deriving DecidableEq, Repr

/-- The rows that a stimulus word encodes: the twelve operations of R69. -/
def Instr.isStimulus : Instr → Bool
  | .gpsRx _ | .hostRx _ | .txDone | .runG | .runD | .enterG | .enterD | .mstepG | .mstepD
  | .qPush _ | .qPop | .reset => true
  | _ => false

/-- The rows that stand for words the decoder refuses (R70). -/
def Instr.isReserved : Instr → Bool
  | .reservedOp0 _ _ | .reservedOpC _ _ | .reservedOpD _ _ | .reservedOpE _ _ | .reservedBits _ _ _ => true
  | _ => false

end Sys2Proof
end

