-- ==== Sys2Proof/WellFormed.lean ====
section
/-! DEFINITION. Which terms of `Instr` are operations of the block, for given parameters. -/

namespace Sys2Proof

/-- A frame has `FRAME_W` bits (R8): as an operand it is below `2^FRAME_W` (R69). -/
def Instr.frameWf (cfg : Config) (d : Slot) : Bool := decide (d.toNat < 2 ^ cfg.frameW.bits)

/-- The terms that are operations. A frame operand fits `FRAME_W` (R70 case 4); a value of a data class lies in
that class (R66, R67); an unused sequencer code is one R72 marks unused; a reserved stimulus word encodes no
operation at all (R70). -/
def Instr.wf (cfg : Config) : Instr → Bool
  | .gpsRx d | .hostRx d | .feed d | .cmd d => Instr.frameWf cfg d
  | .feeds s => s.all (Instr.frameWf cfg)
  | .ingData v => v != 0x000#9
  | .cmdOther v => v != 0x030#9 && v != 0x031#9
  | .unusedG c => decide (9 ≤ c.toNat)
  | .unusedD c => decide (14 ≤ c.toNat)
  | .reservedOp0 _ _ | .reservedOpC _ _ | .reservedOpD _ _ | .reservedOpE _ _ | .reservedBits _ _ _ => false
  | .txDone | .runG | .runD | .enterG | .enterD | .mstepG | .mstepD | .qPush _ | .qPop | .reset
  | .ingNull | .cmdPinOff | .cmdPinOn
  | .ig1 | .ig2 | .ig3 | .ig4 | .ig5 | .ig6 | .ig7 | .ig8
  | .dp1 | .dp2 | .dp3 | .dp4 | .dp5 | .dp6 | .dp7 | .dp8 | .dp9 | .dp10 | .dp11 | .dp12 | .dp13
  | .idleG | .idleD | .push _ | .pop | .setTxeie | .clearTxeie | .readRdr _ | .writeTdr _ | .clearOre _
  | .pinSet | .pinReset | .xmit | .stepallG | .stepallD => true

end Sys2Proof
end

