-- ==== Sys2Proof/Decode.lean ====
section
/-! DEFINITION. The encodings of 30_encoding.md: the stimulus decoder (R71), the two data-class decoders (R66, R67),
the two sequencer-code decoders (R72), and the encoder written from the same tables. -/

namespace Sys2Proof

/-- Why a stimulus word is refused (R70). -/
inductive DecodeError where
  /-- `w[11:9] != 0`; tested first (R71). -/
  | reservedBits
  /-- a `GPS_RX` or `HOST_RX` operand of `2^FRAME_W` or more. -/
  | frameRange
  /-- an SN word with `w[8:0] != 0`. -/
  | nonzeroOperand
  /-- an op in `{0x0, 0xC, 0xD, 0xE}`. -/
  | reservedOp
deriving DecidableEq, Repr

/-! ### The fields of a stimulus word (R68) -/

/-- `w[15:12]`. -/
def wordOp (w : StimWord) : BitVec 4 := w.extractLsb' 12 4

/-- `w[11:9]`. -/
def wordZero (w : StimWord) : BitVec 3 := w.extractLsb' 9 3

/-- `w[8:0]`. -/
def wordOperand (w : StimWord) : Slot := w.extractLsb' 0 9

/-- A nine-bit value is a frame of `FRAME_W` bits (R69, R70 case 4). -/
def frameFits (cfg : Config) (d : Slot) : Bool := decide (d.toNat < 2 ^ cfg.frameW.bits)

/-- An SD word whose operand is a frame (R71). -/
def frameWord (cfg : Config) (d : Slot) (i : Instr) : Except DecodeError Instr :=
  if frameFits cfg d then .ok i else .error .frameRange

/-- An SN word: its nine operand bits are zero (R71). -/
def plainWord (d : Slot) (i : Instr) : Except DecodeError Instr :=
  if d = 0#9 then .ok i else .error .nonzeroOperand

/-- The decoder of R71, total on all words. -/
def decodeStimulus (cfg : Config) (w : StimWord) : Except DecodeError Instr :=
  if wordZero w ≠ 0#3 then .error .reservedBits
  else
    match (wordOp w).toNat with
    | 0x1 => frameWord cfg (wordOperand w) (.gpsRx (wordOperand w))
    | 0x2 => frameWord cfg (wordOperand w) (.hostRx (wordOperand w))
    | 0x3 => plainWord (wordOperand w) .txDone
    | 0x4 => plainWord (wordOperand w) .runG
    | 0x5 => plainWord (wordOperand w) .runD
    | 0x6 => plainWord (wordOperand w) .enterG
    | 0x7 => plainWord (wordOperand w) .enterD
    | 0x8 => plainWord (wordOperand w) .mstepG
    | 0x9 => plainWord (wordOperand w) .mstepD
    | 0xA => .ok (.qPush (wordOperand w))
    | 0xB => plainWord (wordOperand w) .qPop
    | 0xF => plainWord (wordOperand w) .reset
    | _ => .error .reservedOp

/-! ### Data classes -/

/-- The ingest class of a value, on all nine bits (R66). -/
def decodeIngest (v : Slot) : Instr := if v = 0x000#9 then .ingNull else .ingData v

/-- The command class of a value, on all nine bits (R67, R116). -/
def decodeCommand (c : Slot) : Instr :=
  if c = 0x030#9 then .cmdPinOff else if c = 0x031#9 then .cmdPinOn else .cmdOther c

/-! ### Sequencer codes (R72) -/

@[simp] abbrev Seq.idle : SeqCode := 0#4
@[simp] abbrev Seq.ig1 : SeqCode := 1#4
@[simp] abbrev Seq.ig2 : SeqCode := 2#4
@[simp] abbrev Seq.ig3 : SeqCode := 3#4
@[simp] abbrev Seq.ig4 : SeqCode := 4#4
@[simp] abbrev Seq.ig5 : SeqCode := 5#4
@[simp] abbrev Seq.ig6 : SeqCode := 6#4
@[simp] abbrev Seq.ig7 : SeqCode := 7#4
@[simp] abbrev Seq.ig8 : SeqCode := 8#4
@[simp] abbrev Seq.dp1 : SeqCode := 1#4
@[simp] abbrev Seq.dp2 : SeqCode := 2#4
@[simp] abbrev Seq.dp3 : SeqCode := 3#4
@[simp] abbrev Seq.dp4 : SeqCode := 4#4
@[simp] abbrev Seq.dp5 : SeqCode := 5#4
@[simp] abbrev Seq.dp6 : SeqCode := 6#4
@[simp] abbrev Seq.dp7 : SeqCode := 7#4
@[simp] abbrev Seq.dp8 : SeqCode := 8#4
@[simp] abbrev Seq.dp9 : SeqCode := 9#4
@[simp] abbrev Seq.dp10 : SeqCode := 10#4
@[simp] abbrev Seq.dp11 : SeqCode := 11#4
@[simp] abbrev Seq.dp12 : SeqCode := 12#4
@[simp] abbrev Seq.dp13 : SeqCode := 13#4

/-- What a code in `seq_G` names (R72). -/
def decodeSeqG (c : SeqCode) : Instr :=
  match c.toNat with
  | 0 => .idleG
  | 1 => .ig1
  | 2 => .ig2
  | 3 => .ig3
  | 4 => .ig4
  | 5 => .ig5
  | 6 => .ig6
  | 7 => .ig7
  | 8 => .ig8
  | _ => .unusedG c

/-- What a code in `seq_D` names (R72). -/
def decodeSeqD (c : SeqCode) : Instr :=
  match c.toNat with
  | 0 => .idleD
  | 1 => .dp1
  | 2 => .dp2
  | 3 => .dp3
  | 4 => .dp4
  | 5 => .dp5
  | 6 => .dp6
  | 7 => .dp7
  | 8 => .dp8
  | 9 => .dp9
  | 10 => .dp10
  | 11 => .dp11
  | 12 => .dp12
  | 13 => .dp13
  | _ => .unusedD c

/-! ### The encoder -/

/-- A word of op `op` with operand `d` and bits 11:9 equal to `zero` (R68). -/
def stimWord (op : BitVec 4) (zero : BitVec 3) (d : Slot) : StimWord :=
  op.setWidth 16 <<< 12 ||| zero.setWidth 16 <<< 9 ||| d.setWidth 16

/-- How a row is encoded. The table has five encoding spaces; a pseudo-instruction stands for several words
(R76), and a queue function or primitive has "no encoding of its own". -/
inductive Encoding where
  /-- one stimulus word (R69) -/
  | stimulus (w : StimWord)
  /-- a value read from `RDR_G` (R66) -/
  | ingestValue (v : Slot)
  /-- a value read from `RDR_2` (R67) -/
  | commandValue (v : Slot)
  /-- a code of `seq_G` (R72) -/
  | seqG (c : SeqCode)
  /-- a code of `seq_D` (R72) -/
  | seqD (c : SeqCode)
  /-- the words a pseudo-instruction expands to (R76) -/
  | expansion (ws : List StimWord)
  /-- one word, then another until the engine is idle (`STEPALL_G`, `STEPALL_D`; R76) -/
  | untilIdle (first again : StimWord)
  /-- no encoding of its own -/
  | unencoded
deriving DecidableEq, Repr

/-- The encoder, from the match values of the opcode table. -/
def encode : Instr → Encoding
  | .gpsRx d => .stimulus (0x1000#16 ||| d.setWidth 16)
  | .hostRx d => .stimulus (0x2000#16 ||| d.setWidth 16)
  | .txDone => .stimulus 0x3000#16
  | .runG => .stimulus 0x4000#16
  | .runD => .stimulus 0x5000#16
  | .enterG => .stimulus 0x6000#16
  | .enterD => .stimulus 0x7000#16
  | .mstepG => .stimulus 0x8000#16
  | .mstepD => .stimulus 0x9000#16
  | .qPush d => .stimulus (0xA000#16 ||| d.setWidth 16)
  | .qPop => .stimulus 0xB000#16
  | .reset => .stimulus 0xF000#16
  | .reservedOp0 z d => .stimulus (stimWord 0x0#4 z d)
  | .reservedOpC z d => .stimulus (stimWord 0xC#4 z d)
  | .reservedOpD z d => .stimulus (stimWord 0xD#4 z d)
  | .reservedOpE z d => .stimulus (stimWord 0xE#4 z d)
  | .reservedBits op z d => .stimulus (stimWord op z d)
  | .ingNull => .ingestValue 0x000#9
  | .ingData v => .ingestValue v
  | .cmdPinOff => .commandValue 0x030#9
  | .cmdPinOn => .commandValue 0x031#9
  | .cmdOther v => .commandValue v
  | .ig1 => .seqG 0x1#4
  | .ig2 => .seqG 0x2#4
  | .ig3 => .seqG 0x3#4
  | .ig4 => .seqG 0x4#4
  | .ig5 => .seqG 0x5#4
  | .ig6 => .seqG 0x6#4
  | .ig7 => .seqG 0x7#4
  | .ig8 => .seqG 0x8#4
  | .dp1 => .seqD 0x1#4
  | .dp2 => .seqD 0x2#4
  | .dp3 => .seqD 0x3#4
  | .dp4 => .seqD 0x4#4
  | .dp5 => .seqD 0x5#4
  | .dp6 => .seqD 0x6#4
  | .dp7 => .seqD 0x7#4
  | .dp8 => .seqD 0x8#4
  | .dp9 => .seqD 0x9#4
  | .dp10 => .seqD 0xA#4
  | .dp11 => .seqD 0xB#4
  | .dp12 => .seqD 0xC#4
  | .dp13 => .seqD 0xD#4
  | .idleG => .seqG 0x0#4
  | .idleD => .seqD 0x0#4
  | .unusedG c => .seqG c
  | .unusedD c => .seqD c
  | .push _ => .unencoded
  | .pop => .unencoded
  | .setTxeie => .unencoded
  | .clearTxeie => .unencoded
  | .readRdr _ => .unencoded
  | .writeTdr _ => .unencoded
  | .clearOre _ => .unencoded
  | .pinSet => .unencoded
  | .pinReset => .unencoded
  | .feed v => .expansion [0x1000#16 ||| v.setWidth 16, 0x4000#16]
  | .feeds s => .expansion (s.flatMap fun v => [0x1000#16 ||| v.setWidth 16, 0x4000#16])
  | .cmd v => .expansion [0x2000#16 ||| v.setWidth 16, 0x5000#16]
  | .xmit => .expansion [0x5000#16, 0x3000#16]
  | .stepallG => .untilIdle 0x6000#16 0x8000#16
  | .stepallD => .untilIdle 0x7000#16 0x9000#16

/-! ### The opcode table's own numbering -/

/-- The instruction the decoder reads from the bits of one table row, under the default parameters. A row of
more than eight bits is read as a stimulus word, a row of at most eight bits as a sequencer code: the ingest
engine's for codes 0 to 8, the dispatch engine's for the codes above (log entry 15). -/
def decodeTableWord (nbits w : Nat) : Option Instr :=
  if nbits ≤ 8 then
    if w ≤ 8 then some (decodeSeqG (BitVec.ofNat 4 w))
    else if w < 16 then some (decodeSeqD (BitVec.ofNat 4 w))
    else none
  else if w < 65536 then
    match decodeStimulus Config.default (BitVec.ofNat 16 w) with
    | .ok i => some i
    | .error _ => none
  else none

end Sys2Proof
end

