-- ==== Sys2Proof/Machine/State.lean ====
section
/-! DEFINITION. The state of the block as plain data (10_state.md, R18 to R34), its reset value (R171, R172), and the reasons a
step has no next state. -/

namespace Sys2Proof.Machine

/-- A register or slot as R171 treats it: `unwritten` since the event that last made it so (reset, or the start
of the activation for an engine local), or holding a value. `unwritten` is the spec's own reset value
("RDR_G <- unwritten"), and R144 makes a read of it a fault (log entry 4). -/
inductive Reg (α : Type) where
  | unwritten
  | holds (v : α)
deriving DecidableEq, Repr

/-- Whether a register has been written. -/
def Reg.isWritten {α : Type} : Reg α → Bool
  | .unwritten => false
  | .holds _ => true

/-- The queue slots `BUF` (R19): the written slots as (index, value) pairs, indices strictly rising. An unlisted
slot is unwritten. Slots are nine bits wide, so a cell is not a byte (log entry 13). -/
abbrev Memory := List (Nat × Slot)

/-- The ingest engine's locals `G.*` (R26). -/
structure GRegs where
  rx : Reg Bool
  v : Reg Slot
  h : Reg Nat
  t : Reg Nat
  o : Reg Bool
deriving DecidableEq, Repr

/-- `G.* <- unwritten` (R149, R157, R171). -/
def GRegs.unwritten : GRegs :=
  { rx := .unwritten, v := .unwritten, h := .unwritten, t := .unwritten, o := .unwritten }

/-- The dispatch engine's locals `D.*` (R27). -/
structure DRegs where
  te : Reg Bool
  h : Reg Nat
  t : Reg Nat
  v : Reg Slot
  rn : Reg Bool
  c : Reg Slot
  o : Reg Bool
deriving DecidableEq, Repr

/-- `D.* <- unwritten` (R150, R157, R171). -/
def DRegs.unwritten : DRegs :=
  { te := .unwritten, h := .unwritten, t := .unwritten, v := .unwritten, rn := .unwritten, c := .unwritten,
    o := .unwritten }

/-- An element of `PINLOG` (R31). -/
inductive PinWrite where
  | set
  | reset
deriving DecidableEq, Repr

/-- The result register `RES` of the harness operations (R32). -/
inductive Res where
  | none
  | ok
  | rejected
  | value (v : Slot)
  | empty
deriving DecidableEq, Repr

/-- The fault reasons of R144. -/
inductive FaultReason where
  | lenRange
  | tdrOverwrite
  | seqCode
  | index
  | unwritten
deriving DecidableEq, Repr

/-- The micro-op label or stimulus mnemonic whose rule raised a fault (R34), for every rule that can raise one.
`push`, `pop` and `readRdr` name a queue function or primitive run alone (log entry 9). -/
inductive Site where
  | ig2
  | ig3
  | ig4
  | ig5
  | dp2
  | dp3
  | dp4
  | dp5
  | dp9
  | mstepG
  | mstepD
  | qPush
  | qPop
  | txDone
  | push
  | pop
  | readRdr
deriving DecidableEq, Repr

/-- A fault record `(reason, site)` (R34). -/
structure FaultRecord where
  reason : FaultReason
  site : Site
deriving DecidableEq, Repr

/-- The state of the machine: the parameters of the run, the elements of R19 to R34, and the stimulus words
still to come (the scheduler's and the environment's choices, which are inputs, not block state; R5, R77). -/
structure State where
  /-- the parameters of the run (R6 to R12); no step writes them (log entry 2) -/
  cfg : Config
  /-- `BUF` (R19) -/
  buf : Memory
  /-- `HEAD`, `0 .. 2*CAP-1` (R21) -/
  head : Nat
  /-- `TAIL`, `0 .. 2*CAP-1` (R20) -/
  tail : Nat
  /-- `TXEIE` (R22) -/
  txeie : Bool
  /-- `PIN` (R23) -/
  pin : PinLevel
  /-- `seq_G` (R24) -/
  seqG : SeqCode
  /-- `seq_D` (R24) -/
  seqD : SeqCode
  /-- `G.*` (R26) -/
  g : GRegs
  /-- `D.*` (R27) -/
  d : DRegs
  /-- `RXNE_G` (R28) -/
  rxneG : Bool
  /-- `ORE_G` (R28) -/
  oreG : Bool
  /-- `RDR_G` (R28) -/
  rdrG : Reg Slot
  /-- `RXNEIE_G` (R28) -/
  rxneieG : Bool
  /-- `RXNE_2` (R29) -/
  rxne2 : Bool
  /-- `ORE_2` (R29) -/
  ore2 : Bool
  /-- `RDR_2` (R29) -/
  rdr2 : Reg Slot
  /-- `TXE_2` (R29) -/
  txe2 : Bool
  /-- `TDR_2` (R29) -/
  tdr2 : Reg Slot
  /-- `RXNEIE_2` (R29) -/
  rxneie2 : Bool
  /-- `OUT`, oldest first (R30) -/
  out : List Slot
  /-- `PINLOG`, oldest first (R31) -/
  pinlog : List PinWrite
  /-- `RES` (R32) -/
  res : Res
  /-- `PEND_G` (R33) -/
  pendG : Bool
  /-- `PEND_D` (R33) -/
  pendD : Bool
  /-- `FAULT` (R34): `none` is the spec's `NONE` -/
  fault : Option FaultRecord
  /-- the stimulus words of the trace not yet applied, next first (R77; the model's own input, log entry 3) -/
  trace : List StimWord
deriving DecidableEq, Repr

/-- Why a step is not enabled. The host's word for a step that stops is `fault`; these are the spec's **stuck**
outcomes (R17, R170). The spec's own Fault is a next state with `FAULT` set (R15, R34; log entry 1). Every one is
SAFE: the spec gives the step no next state either, and nothing can be proved of a state after it. -/
inductive Fault where
  /-- R170, R144: any step with `FAULT != NONE`. Raised by every meaning but the refused words. Safe. -/
  | faultRecorded
  /-- R170: `TX_DONE` with `TXE_2 = 1`. Raised by TX_DONE and XMIT. Safe. -/
  | transmitterEmpty
  /-- R170: `ENTER_X` with `PEND_X = 0`. Raised by ENTER_X, RUN_X and the pseudo-instructions. Safe. -/
  | notPending
  /-- R170: `ENTER_X` with `seq_X != IDLE`. Raised by ENTER_X, RUN_X and the pseudo-instructions. Safe. -/
  | engineActive
  /-- R170: `ENTER_X` against the priority condition. Raised by ENTER_X, RUN_X and the pseudo-instructions. Safe. -/
  | priorityBlocked
  /-- R170: `MSTEP_X` with `seq_X = IDLE`. Raised by MSTEP_X and the IDLE rows. Safe. -/
  | engineIdle
  /-- R170: `MSTEP_X` while a higher-priority engine is active. Raised by MSTEP_X and every micro-op, class and
  code row. Safe. -/
  | preempted
  /-- R170: `Q_PUSH` or `Q_POP` while an engine is active. Raised by Q_PUSH and Q_POP. Safe. -/
  | harnessBusy
  /-- A micro-op, class or code row whose code the engine's sequencer does not hold (R151, R152; log entries 6 and
  8). Raised by those rows. Safe. -/
  | otherMicroOp
  /-- A data-class row whose value the receive register does not hold (R66, R67; log entry 8). Raised by those
  rows. Safe. -/
  | otherValue
  /-- The trace holds no further word (R77; log entry 3). Raised by `step`. Safe. -/
  | endOfTrace
deriving DecidableEq, Repr

/-- Why a word or row is refused: it encodes no operation (R17, R70). Every one but `notModelled` is the spec's
own refusal, and SAFE. -/
inductive Refusal where
  /-- An instruction that has no meaning in this model yet. Raised by no arm of this model. Safe. -/
  | notModelled (mnemonic : String)
  /-- R70 case 1, RESERVED_OP. Raised by `step` and the reserved op rows. -/
  | reservedOp
  /-- R70 case 2, RESERVED_BITS. Raised by `step` and the reserved rows. -/
  | reservedBits
  /-- R70 case 3, NONZERO_OPERAND. Raised by `step`. -/
  | nonzeroOperand
  /-- R70 case 4, FRAME_RANGE. Raised by `step`, GPS_RX, HOST_RX, FEED, FEEDS and CMD. -/
  | frameRange
deriving DecidableEq, Repr

/-- The outcome of a step of this machine. -/
abbrev Out := Host.Outcome State Fault Refusal

/-- The state RESET leaves, with `OUT`, `PINLOG` and `FAULT` as at power-on, for parameters `cfg` (R171, R172). -/
def State.start (cfg : Config) : State :=
  { cfg := cfg
    buf := []
    head := 0
    tail := 0
    txeie := false
    pin := cfg.pinReset
    seqG := Seq.idle
    seqD := Seq.idle
    g := GRegs.unwritten
    d := DRegs.unwritten
    rxneG := false
    oreG := false
    rdrG := .unwritten
    rxneieG := true
    rxne2 := false
    ore2 := false
    rdr2 := .unwritten
    txe2 := true
    tdr2 := .unwritten
    rxneie2 := true
    out := []
    pinlog := []
    res := .none
    pendG := false
    pendD := false
    fault := none
    trace := [] }

/-- The start state under the default parameters (R172): CleanStart, with no trace loaded. -/
def State.reset : State := State.start Config.default

end Sys2Proof.Machine
end

