-- ==== Sys2Proof/Machine/Operands.lean ====
section
/-! DEFINITION. Operand forms: frames, slot indices, cursor arithmetic modulo 2*CAP, and the stimulus word a step fetches. -/

namespace Sys2Proof.Machine

/-- The bits of a register value that go on the wire: `v[FRAME_W-1:0]`, as a nine-bit value (R65, R142). -/
def frameOf (cfg : Config) (v : Slot) : Slot :=
  match cfg.frameW with
  | .w8 => (v.extractLsb' 0 8).setWidth 9
  | .w9 => v

/-- The slot a cursor names: `c mod CAP` (R78). -/
def slotIndex (cfg : Config) (c : Nat) : Nat := c % cfg.cap

/-- `(t - h) mod (2*CAP)`, the mathematical remainder in `0 .. 2*CAP-1` (R79, R84, R14). -/
def cursorDiff (cfg : Config) (h t : Nat) : Nat :=
  (((t : Int) - (h : Int)) % (2 * (cfg.cap : Int))).toNat

/-- `(c + 1) mod (2*CAP)`, a cursor's successor (R84). -/
def nextCursor (cfg : Config) (c : Nat) : Nat := (c + 1) % (2 * cfg.cap)

/-- `EMPTY(h, t)` (R82). -/
def isEmpty (h t : Nat) : Bool := h == t

/-- `FULL(h, t)` (R83). -/
def isFull (cfg : Config) (h t : Nat) : Bool := cursorDiff cfg h t == cfg.cap

/-- The next stimulus word of the trace, and the state with it taken off (R77). -/
def fetch (s : State) : Option (StimWord × State) :=
  match s.trace with
  | [] => none
  | w :: rest => some (w, { s with trace := rest })

end Sys2Proof.Machine
end

