-- ==== Sys2Proof/Machine/Flags.lean ====
section
/-! DEFINITION. Flag computations: the link flags by link, the two request lines (R145, R146), the pending update that follows a
step (R148), and the priority conditions (R149 to R152). -/

namespace Sys2Proof.Machine

/-! ### The flags and data registers of a link (R28, R29) -/

/-- `RXNE_L`. -/
def rxne (l : Link) (s : State) : Bool :=
  match l with
  | .g => s.rxneG
  | .l2 => s.rxne2

/-- `ORE_L`. -/
def ore (l : Link) (s : State) : Bool :=
  match l with
  | .g => s.oreG
  | .l2 => s.ore2

/-- `RDR_L`. -/
def rdr (l : Link) (s : State) : Reg Slot :=
  match l with
  | .g => s.rdrG
  | .l2 => s.rdr2

/-- `RXNE_L <- b`. -/
def setRxne (l : Link) (b : Bool) (s : State) : State :=
  match l with
  | .g => { s with rxneG := b }
  | .l2 => { s with rxne2 := b }

/-- `ORE_L <- b`. -/
def setOre (l : Link) (b : Bool) (s : State) : State :=
  match l with
  | .g => { s with oreG := b }
  | .l2 => { s with ore2 := b }

/-- `RDR_L <- v`. -/
def setRdr (l : Link) (v : Slot) (s : State) : State :=
  match l with
  | .g => { s with rdrG := .holds v }
  | .l2 => { s with rdr2 := .holds v }

/-! ### Request lines -/

/-- `IRQ_G = RXNEIE_G and (RXNE_G or ORE_G)` (R145). -/
def irqG (s : State) : Bool := s.rxneieG && (s.rxneG || s.oreG)

/-- `IRQ_2 = (TXEIE and TXE_2) or (RXNEIE_2 and (RXNE_2 or ORE_2))` (R146). -/
def irq2 (s : State) : Bool := (s.txeie && s.txe2) || (s.rxneie2 && (s.rxne2 || s.ore2))

/-- The pending update after a step `s -> s'`: a latch is set when its line rises, or is asserted while its
engine is idle (R148). -/
def pendUpdate (s s' : State) : State :=
  { s' with
    pendG := s'.pendG || (irqG s' && (!irqG s || s'.seqG == Seq.idle))
    pendD := s'.pendD || (irq2 s' && (!irq2 s || s'.seqD == Seq.idle)) }

/-- What follows a rule: the pending update, unless the rule raised a fault. R148 updates after a step to a next
state, and a fault is another outcome (R17; log entry 5). -/
def afterRule (s s' : State) : State := if s'.fault.isSome then s' else pendUpdate s s'

/-! ### Priority -/

/-- The priority condition of `ENTER_G` (R149). -/
def mayEnterG (s : State) : Bool :=
  match s.cfg.prio with
  | .equal => s.seqD == Seq.idle
  | .gOverD => true
  | .dOverG => s.seqD == Seq.idle

/-- The priority condition of `ENTER_D` (R150). -/
def mayEnterD (s : State) : Bool :=
  match s.cfg.prio with
  | .equal => s.seqG == Seq.idle
  | .gOverD => s.seqG == Seq.idle
  | .dOverG => true

/-- The ingest engine is held off by an active dispatch engine of higher priority (R151). -/
def preemptedG (s : State) : Bool :=
  match s.cfg.prio with
  | .dOverG => s.seqD != Seq.idle
  | .equal => false
  | .gOverD => false

/-- The dispatch engine is held off by an active ingest engine of higher priority (R152). -/
def preemptedD (s : State) : Bool :=
  match s.cfg.prio with
  | .gOverD => s.seqG != Seq.idle
  | .equal => false
  | .dOverG => false

end Sys2Proof.Machine
end

