-- ==== Sys2Proof/Machine/Ops.lean ====
section
/-! DEFINITION. The named operations the meanings share: outcomes, queue storage, raising a fault, reading what may be unwritten,
PUSH and POP, the register primitives, and taking and leaving an activation. -/

namespace Sys2Proof.Machine

/-! ### Outcomes -/

/-- Run `k` on the next state of `o`; a step that is stuck or refused stays so. -/
def andThen (o : Out) (k : State → Out) : Out :=
  match o with
  | .next s => k s
  | .fault r => .fault r
  | .refused r => .refused r

/-- A step whose enabling condition is `b`: stuck for reason `why` when it fails (R17, R77). -/
def requires (b : Bool) (why : Fault) (o : Out) : Out := if b then o else .fault why

/-- Every step needs `FAULT == NONE` (R144, R170). -/
def requiresNoFault (s : State) (o : Out) : Out := requires s.fault.isNone .faultRecorded o

/-- The refusal that goes with a decoder error (R70). -/
def refusalOf : DecodeError → Refusal
  | .reservedBits => .reservedBits
  | .frameRange => .frameRange
  | .nonzeroOperand => .nonzeroOperand
  | .reservedOp => .reservedOp

/-! ### Queue storage (R19, R48, R52) -/

/-- `BUF[i]`: the value listed for slot `i`; an unlisted slot is unwritten. -/
def Memory.read (m : Memory) (i : Nat) : Reg Slot :=
  match m with
  | [] => .unwritten
  | (j, v) :: rest => if i = j then .holds v else Memory.read rest i

/-- `BUF[i] <- v`, kept in rising order of index. -/
def Memory.write (m : Memory) (i : Nat) (v : Slot) : Memory :=
  match m with
  | [] => [(i, v)]
  | (j, u) :: rest =>
    if i < j then (i, v) :: (j, u) :: rest
    else if i = j then (i, v) :: rest
    else (j, u) :: Memory.write rest i v

/-- The canonical form of the queue storage: indices strictly rising. -/
abbrev Memory.wf (m : Memory) : Prop := m.Pairwise fun a b => a.1 < b.1

/-! ### Faults (R144) -/

/-- `raise Fault(reason)` at `site`: enter the fault state, with what the rule wrote before it (R15, R34). -/
def raise (reason : FaultReason) (site : Site) (s : State) : State :=
  { s with fault := some { reason := reason, site := site } }

/-- Read a register or local and go on with its value; `Fault(UNWRITTEN)` when it is unwritten (R26, R144). -/
def readReg {α : Type} (r : Reg α) (site : Site) (s : State) (k : α → State) : State :=
  match r with
  | .unwritten => raise .unwritten site s
  | .holds v => k v

/-- Read slot `i` and go on with its value: `Fault(INDEX)` outside `0 .. CAP-1` (R52), `Fault(UNWRITTEN)` for a
slot not written since reset (R144). -/
def readSlot (i : Nat) (site : Site) (s : State) (k : Slot → State) : State :=
  if i < s.cfg.cap then readReg (s.buf.read i) site s k else raise .index site s

/-- Write slot `i` and go on: `Fault(INDEX)` outside `0 .. CAP-1` (R52). -/
def writeSlot (i : Nat) (v : Slot) (site : Site) (s : State) (k : State → State) : State :=
  if i < s.cfg.cap then k { s with buf := s.buf.write i v } else raise .index site s

/-! ### The queue functions -/

/-- PUSH(v) as one atomic function (R85). `k` takes its result, `OK` or `REJECTED`, and the state it leaves. -/
def pushSlot (v : Slot) (site : Site) (s : State) (k : Res → State → State) : State :=
  if s.cfg.cap < cursorDiff s.cfg s.head s.tail then raise .lenRange site s
  else if isFull s.cfg s.head s.tail then k .rejected s
  else writeSlot (slotIndex s.cfg s.tail) v site s fun s' =>
    k .ok { s' with tail := nextCursor s.cfg s.tail }

/-- POP() as one atomic function (R86). `k` takes its result, `VALUE(v)` or `EMPTY`, and the state it leaves. -/
def popSlot (site : Site) (s : State) (k : Res → State → State) : State :=
  if s.cfg.cap < cursorDiff s.cfg s.head s.tail then raise .lenRange site s
  else if cursorDiff s.cfg s.head s.tail = 0 then k .empty s
  else readSlot (slotIndex s.cfg s.head) site s fun v =>
    k (.value v) { s with head := nextCursor s.cfg s.head }

/-! ### Register primitives (43_arbiter.md, 44_links.md) -/

/-- SetTXEIE() (R125). -/
def setTxeieBit (s : State) : State := { s with txeie := true }

/-- ClearTXEIE() (R126). -/
def clearTxeieBit (s : State) : State := { s with txeie := false }

/-- ReadRDR(L): the value read, with `RXNE_L` cleared (R135). -/
def readRdrOf (l : Link) (site : Site) (s : State) (k : Slot → State → State) : State :=
  readReg (rdr l s) site s fun v => k v (setRxne l false s)

/-- WriteTDR(v) (R136). -/
def writeTdrReg (v : Slot) (s : State) : State := { s with tdr2 := .holds v, txe2 := false }

/-- ClearORE(L) (R137). -/
def clearOreOf (l : Link) (s : State) : State := setOre l false s

/-- PinSet() (R138). -/
def pinSetStrobe (s : State) : State := { s with pin := .on, pinlog := s.pinlog ++ [.set] }

/-- PinReset() (R139). -/
def pinResetStrobe (s : State) : State := { s with pin := .off, pinlog := s.pinlog ++ [.reset] }

/-- A frame arrives at link L (R140, R141): stored when the previous one was read, an overrun otherwise. -/
def receiveFrame (l : Link) (f : Slot) (s : State) : State :=
  if rxne l s then
    match s.cfg.ovr with
    | .keepOld => setOre l true s
    | .keepNew => setRdr l f (setOre l true s)
  else setRxne l true (setRdr l f s)

/-- `emit(v)`: link 2 has sent a frame (R15, R30). -/
def emit (v : Slot) (s : State) : State := { s with out := s.out ++ [v] }

/-! ### Taking and leaving an activation (R149, R150, R157, R158) -/

/-- Taking IRQ_G: nothing is saved, `PEND_G` is cleared, the locals become unwritten, and control goes to IG1
(R149, R157). No pending update follows (R148). -/
def takeG (s : State) : State := { s with pendG := false, g := GRegs.unwritten, seqG := Seq.ig1 }

/-- Taking IRQ_2 (R150, R157). -/
def takeD (s : State) : State := { s with pendD := false, d := DRegs.unwritten, seqD := Seq.dp1 }

/-- `ENTER_G` with its enabling condition (R149, R170). -/
def enterG (s : State) : Out :=
  requiresNoFault s <|
  requires s.pendG .notPending <|
  requires (s.seqG == Seq.idle) .engineActive <|
  requires (mayEnterG s) .priorityBlocked <|
  .next (takeG s)

/-- `ENTER_D` with its enabling condition (R150, R170). -/
def enterD (s : State) : Out :=
  requiresNoFault s <|
  requires s.pendD .notPending <|
  requires (s.seqD == Seq.idle) .engineActive <|
  requires (mayEnterD s) .priorityBlocked <|
  .next (takeD s)

/-- The end of an ingest activation: `seq_G <- IDLE`, and nothing to restore (R158). -/
def leaveG (s : State) : State := { s with seqG := Seq.idle }

/-- The end of a dispatch activation (R158). -/
def leaveD (s : State) : State := { s with seqD := Seq.idle }

/-! ### Steps of an engine -/

/-- An ingest micro-op as a step: enabled while the ingest engine is active and not preempted (R151). -/
def microStepG (rule : State → State) (s : State) : Out :=
  requiresNoFault s <|
  requires (s.seqG != Seq.idle) .engineIdle <|
  requires (!preemptedG s) .preempted <|
  .next (afterRule s (rule s))

/-- A dispatch micro-op as a step (R152). -/
def microStepD (rule : State → State) (s : State) : Out :=
  requiresNoFault s <|
  requires (s.seqD != Seq.idle) .engineIdle <|
  requires (!preemptedD s) .preempted <|
  .next (afterRule s (rule s))

/-- The step of the micro-op whose code is `c`: it is a step when `seq_G` holds that code (R72, R151). -/
def microAtG (c : SeqCode) (rule : State → State) (s : State) : Out :=
  requiresNoFault s <| requires (s.seqG == c) .otherMicroOp <| microStepG rule s

/-- The same for `seq_D` (R72, R152). -/
def microAtD (c : SeqCode) (rule : State → State) (s : State) : Out :=
  requiresNoFault s <| requires (s.seqD == c) .otherMicroOp <| microStepD rule s

/-- Repeat `step` until `stop` holds, at most `fuel` times. -/
def repeatUntil (stop : State → Bool) (step : State → Out) : Nat → State → Out
  | 0, s => .next s
  | fuel + 1, s => if stop s then .next s else andThen (step s) (repeatUntil stop step fuel)

end Sys2Proof.Machine
end

