-- ==== Sys2Proof/Machine/Ingest.lean ====
section
/-! DEFINITION. The ingest engine (41_ingest.md): micro-ops IG1 to IG8, MSTEP_G, ENTER_G, RUN_G, STEPALL_G, the ingest data
classes and the codes of seq_G. -/

namespace Sys2Proof.Machine

/-! ### The micro-op rules: the pseudocode of R95 to R102 -/

/-- IG1: test receive-ready (R95). -/
def ruleIg1 (s : State) : State :=
  { s with
    g := { s.g with rx := .holds s.rxneG }
    seqG := if s.rxneG then Seq.ig2 else Seq.ig7 }

/-- IG2: read the received frame and filter nulls (R96). -/
def ruleIg2 (s : State) : State :=
  readRdrOf .g .ig2 s fun v s' =>
    { s' with
      g := { s'.g with v := .holds v }
      seqG := if v = 0x000#9 then Seq.ig7 else Seq.ig3 }

/-- IG3: the full test (R97). -/
def ruleIg3 (s : State) : State :=
  let s' := { s with g := { s.g with h := .holds s.head, t := .holds s.tail } }
  if s.cfg.cap < cursorDiff s.cfg s.head s.tail then raise .lenRange .ig3 s'
  else { s' with seqG := if isFull s.cfg s.head s.tail then Seq.ig7 else Seq.ig4 }

/-- IG4: write the slot (R98). -/
def ruleIg4 (s : State) : State :=
  readReg s.g.t .ig4 s fun t =>
    readReg s.g.v .ig4 s fun v =>
      writeSlot (slotIndex s.cfg t) v .ig4 s fun s' => { s' with seqG := Seq.ig5 }

/-- IG5: publish TAIL (R99). -/
def ruleIg5 (s : State) : State :=
  readReg s.g.t .ig5 s fun t => { s with tail := nextCursor s.cfg t, seqG := Seq.ig6 }

/-- IG6: enable the transmit-empty interrupt (R100). -/
def ruleIg6 (s : State) : State := { setTxeieBit s with seqG := Seq.ig7 }

/-- IG7: test overrun (R101). -/
def ruleIg7 (s : State) : State :=
  let s' := { s with g := { s.g with o := .holds s.oreG } }
  if s.oreG then { s' with seqG := Seq.ig8 } else leaveG s'

/-- IG8: clear overrun (R102). -/
def ruleIg8 (s : State) : State := leaveG (clearOreOf .g s)

/-- The rule of the micro-op `seq_G` holds; an unused code is `Fault(SEQ_CODE)` (R72, R151). -/
def ruleG (s : State) : State :=
  match s.seqG.toNat with
  | 1 => ruleIg1 s
  | 2 => ruleIg2 s
  | 3 => ruleIg3 s
  | 4 => ruleIg4 s
  | 5 => ruleIg5 s
  | 6 => ruleIg6 s
  | 7 => ruleIg7 s
  | 8 => ruleIg8 s
  | _ => raise .seqCode .mstepG s

/-- One step of the ingest engine (R151). -/
def stepG (s : State) : Out := microStepG ruleG s

/-- The whole activation as one function: INGEST() at the head of 41_ingest.md, with PUSH atomic. It leaves the
locals alone. The model runs the micro-ops; this is what R103 says their run comes to. -/
def ingest (s : State) : State :=
  let s₁ :=
    if s.rxneG then
      readRdrOf .g .ig2 s fun v s' =>
        if v = 0x000#9 then s'
        else pushSlot v .ig3 s' fun r s'' => if r = .ok then setTxeieBit s'' else s''
    else s
  if s₁.oreG then clearOreOf .g s₁ else s₁

/-! ### Meanings of the micro-op rows -/

/-- IG1 as a step (R95, R151). -/
def execIg1 (s : State) : Out := microAtG Seq.ig1 ruleIg1 s

/-- IG2 as a step (R96, R151). -/
def execIg2 (s : State) : Out := microAtG Seq.ig2 ruleIg2 s

/-- IG3 as a step (R97, R151). -/
def execIg3 (s : State) : Out := microAtG Seq.ig3 ruleIg3 s

/-- IG4 as a step (R98, R151). -/
def execIg4 (s : State) : Out := microAtG Seq.ig4 ruleIg4 s

/-- IG5 as a step (R99, R151). -/
def execIg5 (s : State) : Out := microAtG Seq.ig5 ruleIg5 s

/-- IG6 as a step (R100, R151). -/
def execIg6 (s : State) : Out := microAtG Seq.ig6 ruleIg6 s

/-- IG7 as a step (R101, R151). -/
def execIg7 (s : State) : Out := microAtG Seq.ig7 ruleIg7 s

/-- IG8 as a step (R102, R151). -/
def execIg8 (s : State) : Out := microAtG Seq.ig8 ruleIg8 s

/-- The code IDLE in `seq_G`: no activation is in progress and the engine takes no micro-op (R24, R151, R170). -/
def execIdleG (s : State) : Out := microAtG Seq.idle ruleG s

/-- A code R72 marks unused, held in `seq_G`: `Fault(SEQ_CODE)` at MSTEP_G (R72, R151). -/
def execUnusedG (code : SeqCode) (s : State) : Out :=
  requiresNoFault s <| requires (decide (9 ≤ code.toNat)) .otherMicroOp <| microAtG code (raise .seqCode .mstepG) s

/-! ### Meanings of the stimulus words of the ingest engine -/

/-- ENTER_G (R149). -/
def execEnterG (s : State) : Out := enterG s

/-- MSTEP_G (R151). -/
def execMstepG (s : State) : Out := stepG s

/-- RUN_G: ENTER_G, then MSTEP_G until `seq_G == IDLE` (R103). A fault inside ends the run in the fault state.
An activation takes at most 8 micro-ops (R104 item 7), so the bound is never what ends it. -/
def execRunG (s : State) : Out :=
  andThen (enterG s) (repeatUntil (fun t => t.seqG == Seq.idle || t.fault.isSome) stepG 8)

/-- STEPALL_G: the words ENTER_G, MSTEP_G, MSTEP_G, … until `seq_G = IDLE`; stuck if any word is stuck (R76). -/
def execStepallG (s : State) : Out :=
  andThen (enterG s) (repeatUntil (fun t => t.seqG == Seq.idle) stepG 8)

/-! ### Meanings of the ingest data classes (R66)

A value of a class is met where the engine reads it: at IG2, with the value in RDR_G. The row's meaning is the
run of micro-ops by which the engine deals with it (log entry 8). -/

/-- The ingest engine stands at IG2 and RDR_G holds `v`. -/
def ingestMeets (v : Slot) (s : State) (o : Out) : Out :=
  requiresNoFault s <|
  requires (s.seqG == Seq.ig2) .otherMicroOp <|
  requires (s.rdrG == .holds v) .otherValue o

/-- ING_NULL: the value is read and discarded (R66, R96). -/
def execIngNull (s : State) : Out := ingestMeets 0x000#9 s (stepG s)

/-- ING_DATA: the value is read and offered to the queue: IG2, then IG3 to IG5 (R66, R97, R87). It ends at IG6
after a push that returned OK, at IG7 after one that was rejected. -/
def execIngData (v : Slot) (s : State) : Out :=
  ingestMeets v s <|
  requires (v != 0x000#9) .otherValue <|
  repeatUntil (fun t => t.seqG == Seq.ig6 || t.seqG == Seq.ig7 || t.fault.isSome) stepG 4 s

end Sys2Proof.Machine
end

