-- ==== Sys2Proof/Machine/Links.lean ====
section
/-! DEFINITION. The boundary events of 44_links.md, the register primitives of 43_arbiter.md and 44_links.md run alone, RESET, and
the reserved stimulus words. -/

namespace Sys2Proof.Machine

/-! ### Boundary events -/

/-- A frame arrives at a link, enabled always while no fault is recorded; an operand that is no frame is refused
(R70 case 4, R140, R141; log entry 11). -/
def arrive (l : Link) (f : Slot) (s : State) : Out :=
  if frameFits s.cfg f then requiresNoFault s <| .next (afterRule s (receiveFrame l f s))
  else .refused .frameRange

/-- GPS_RX f (R140). -/
def execGpsRx (d : Slot) (s : State) : Out := arrive .g d s

/-- HOST_RX f (R141). -/
def execHostRx (d : Slot) (s : State) : Out := arrive .l2 d s

/-- The rule of TX_DONE: the frame is sent and the holding register is empty (R142). -/
def ruleTxDone (s : State) : State :=
  readReg s.tdr2 .txDone s fun v => { emit (frameOf s.cfg v) s with txe2 := true }

/-- TX_DONE: enabled iff `TXE_2 == 0` (R142). -/
def execTxDone (s : State) : Out :=
  requiresNoFault s <|
  requires (!s.txe2) .transmitterEmpty <|
  .next (afterRule s (ruleTxDone s))

/-! ### Register primitives run alone

A primitive is part of a micro-op and no step of its own, so its pseudocode is all it does: no pending update
follows, and the value ReadRDR returns goes to no state element (R15, R16; log entry 9). -/

/-- SetTXEIE() (R125). -/
def execSetTxeie (s : State) : Out := requiresNoFault s <| .next (setTxeieBit s)

/-- ClearTXEIE() (R126). -/
def execClearTxeie (s : State) : Out := requiresNoFault s <| .next (clearTxeieBit s)

/-- ReadRDR(L) (R135). -/
def execReadRdr (l : Link) (s : State) : Out :=
  requiresNoFault s <| .next (readRdrOf l .readRdr s fun _ s' => s')

/-- WriteTDR(v) (R136). -/
def execWriteTdr (v : Slot) (s : State) : Out := requiresNoFault s <| .next (writeTdrReg v s)

/-- ClearORE(L) (R137). -/
def execClearOre (l : Link) (s : State) : Out := requiresNoFault s <| .next (clearOreOf l s)

/-- PinSet() (R138). -/
def execPinSet (s : State) : Out := requiresNoFault s <| .next (pinSetStrobe s)

/-- PinReset() (R139). -/
def execPinReset (s : State) : Out := requiresNoFault s <| .next (pinResetStrobe s)

/-! ### RESET -/

/-- The rule of RESET: every element at its reset value but OUT, PINLOG and FAULT. The parameters and the trace
are no elements of the block (R171). -/
def ruleReset (s : State) : State :=
  { State.start s.cfg with out := s.out, pinlog := s.pinlog, fault := s.fault, trace := s.trace }

/-- RESET: enabled in any engine state while no fault is recorded (R171). -/
def execReset (s : State) : Out := requiresNoFault s <| .next (afterRule s (ruleReset s))

/-! ### Reserved stimulus words (R70, R71) -/

/-- A word whose op is reserved: RESERVED_BITS when bits 11:9 are not zero, tested first, else RESERVED_OP. -/
def refuseReservedOp (zero : BitVec 3) : Out :=
  if zero = 0#3 then .refused .reservedOp else .refused .reservedBits

/-- A word of op 0x0 (R70). -/
def execReservedOp0 (zero : BitVec 3) (_s : State) : Out := refuseReservedOp zero

/-- A word of op 0xC (R70). -/
def execReservedOpC (zero : BitVec 3) (_s : State) : Out := refuseReservedOp zero

/-- A word of op 0xD (R70). -/
def execReservedOpD (zero : BitVec 3) (_s : State) : Out := refuseReservedOp zero

/-- A word of op 0xE (R70). -/
def execReservedOpE (zero : BitVec 3) (_s : State) : Out := refuseReservedOp zero

/-- A word with bits 11:9 not zero, whatever its op (R70 case 2). -/
def execReservedBits (_s : State) : Out := .refused .reservedBits

end Sys2Proof.Machine
end

