-- ==== Sys2Proof/Machine/Uplink.lean ====
section
/-! DEFINITION. The dispatch engine (42_dispatch.md, the source's Uplink Dispatch Handler): micro-ops DP1 to DP13, MSTEP_D,
ENTER_D, RUN_D, STEPALL_D, the command classes and the codes of seq_D. -/

namespace Sys2Proof.Machine

/-! ### The micro-op rules: the pseudocode of R107 to R121 -/

/-- DP1: test transmit-empty, TXE_2 alone (R106, R107). -/
def ruleDp1 (s : State) : State :=
  { s with
    d := { s.d with te := .holds s.txe2 }
    seqD := if s.txe2 then Seq.dp2 else Seq.dp8 }

/-- DP2: the empty test (R108). -/
def ruleDp2 (s : State) : State :=
  let s' := { s with d := { s.d with t := .holds s.tail, h := .holds s.head } }
  if s.cfg.cap < cursorDiff s.cfg s.head s.tail then raise .lenRange .dp2 s'
  else { s' with seqD := if cursorDiff s.cfg s.head s.tail = 0 then Seq.dp7 else Seq.dp3 }

/-- DP3: read the slot (R109). -/
def ruleDp3 (s : State) : State :=
  readReg s.d.h .dp3 s fun h =>
    readSlot (slotIndex s.cfg h) .dp3 s fun v =>
      { s with d := { s.d with v := .holds v }, seqD := Seq.dp4 }

/-- DP4: publish HEAD (R110). -/
def ruleDp4 (s : State) : State :=
  readReg s.d.h .dp4 s fun h => { s with head := nextCursor s.cfg h, seqD := Seq.dp5 }

/-- DP5: write the transmit register; `Fault(TDR_OVERWRITE)` over an unsent value (R111). -/
def ruleDp5 (s : State) : State :=
  if s.txe2 then readReg s.d.v .dp5 s fun v => { writeTdrReg v s with seqD := Seq.dp6 }
  else raise .tdrOverwrite .dp5 s

/-- DP6: the now-empty test, on a fresh TAIL (R89, R112). -/
def ruleDp6 (s : State) : State :=
  { s with
    d := { s.d with t := .holds s.tail }
    seqD := if isEmpty s.head s.tail then Seq.dp7 else Seq.dp8 }

/-- DP7: disable the transmit-empty interrupt (R113). -/
def ruleDp7 (s : State) : State := { clearTxeieBit s with seqD := Seq.dp8 }

/-- DP8: test receive-ready (R114). -/
def ruleDp8 (s : State) : State :=
  { s with
    d := { s.d with rn := .holds s.rxne2 }
    seqD := if s.rxne2 then Seq.dp9 else Seq.dp12 }

/-- The micro-op a command value leads to (R115, R116). -/
def commandTarget (c : Slot) : SeqCode :=
  if c = 0x030#9 then Seq.dp10 else if c = 0x031#9 then Seq.dp11 else Seq.dp12

/-- DP9: read the command frame and decode it (R115, R119). -/
def ruleDp9 (s : State) : State :=
  readRdrOf .l2 .dp9 s fun c s' =>
    { s' with d := { s'.d with c := .holds c }, seqD := commandTarget c }

/-- DP10: command '0', pin OFF (R117). -/
def ruleDp10 (s : State) : State := { pinResetStrobe s with seqD := Seq.dp12 }

/-- DP11: command '1', pin ON (R118). -/
def ruleDp11 (s : State) : State := { pinSetStrobe s with seqD := Seq.dp12 }

/-- DP12: test overrun (R120). -/
def ruleDp12 (s : State) : State :=
  let s' := { s with d := { s.d with o := .holds s.ore2 } }
  if s.ore2 then { s' with seqD := Seq.dp13 } else leaveD s'

/-- DP13: clear overrun (R121). -/
def ruleDp13 (s : State) : State := leaveD (clearOreOf .l2 s)

/-- The rule of the micro-op `seq_D` holds; an unused code is `Fault(SEQ_CODE)` (R72, R152). -/
def ruleD (s : State) : State :=
  match s.seqD.toNat with
  | 1 => ruleDp1 s
  | 2 => ruleDp2 s
  | 3 => ruleDp3 s
  | 4 => ruleDp4 s
  | 5 => ruleDp5 s
  | 6 => ruleDp6 s
  | 7 => ruleDp7 s
  | 8 => ruleDp8 s
  | 9 => ruleDp9 s
  | 10 => ruleDp10 s
  | 11 => ruleDp11 s
  | 12 => ruleDp12 s
  | 13 => ruleDp13 s
  | _ => raise .seqCode .mstepD s

/-- One step of the dispatch engine (R152). -/
def stepD (s : State) : Out := microStepD ruleD s

/-- The whole activation as one function: DISPATCH() at the head of 42_dispatch.md, with POP atomic. It leaves
the locals alone. The model runs the micro-ops; this is what R122 says their run comes to. -/
def dispatch (s : State) : State :=
  let s₁ :=
    if s.txe2 then
      popSlot .dp2 s fun r s' =>
        match r with
        | .value v =>
          let s'' := writeTdrReg v s'
          if isEmpty s''.head s''.tail then clearTxeieBit s'' else s''
        | .empty => clearTxeieBit s'
        | .none => s'
        | .ok => s'
        | .rejected => s'
    else s
  let s₂ :=
    if s₁.rxne2 then
      readRdrOf .l2 .dp9 s₁ fun c s' =>
        if c = 0x030#9 then pinResetStrobe s'
        else if c = 0x031#9 then pinSetStrobe s'
        else s'
    else s₁
  if s₂.ore2 then clearOreOf .l2 s₂ else s₂

/-! ### Meanings of the micro-op rows -/

/-- DP1 as a step (R107, R152). -/
def execDp1 (s : State) : Out := microAtD Seq.dp1 ruleDp1 s

/-- DP2 as a step (R108, R152). -/
def execDp2 (s : State) : Out := microAtD Seq.dp2 ruleDp2 s

/-- DP3 as a step (R109, R152). -/
def execDp3 (s : State) : Out := microAtD Seq.dp3 ruleDp3 s

/-- DP4 as a step (R110, R152). -/
def execDp4 (s : State) : Out := microAtD Seq.dp4 ruleDp4 s

/-- DP5 as a step (R111, R152). -/
def execDp5 (s : State) : Out := microAtD Seq.dp5 ruleDp5 s

/-- DP6 as a step (R112, R152). -/
def execDp6 (s : State) : Out := microAtD Seq.dp6 ruleDp6 s

/-- DP7 as a step (R113, R152). -/
def execDp7 (s : State) : Out := microAtD Seq.dp7 ruleDp7 s

/-- DP8 as a step (R114, R152). -/
def execDp8 (s : State) : Out := microAtD Seq.dp8 ruleDp8 s

/-- DP9 as a step (R115, R152). -/
def execDp9 (s : State) : Out := microAtD Seq.dp9 ruleDp9 s

/-- DP10 as a step (R117, R152). -/
def execDp10 (s : State) : Out := microAtD Seq.dp10 ruleDp10 s

/-- DP11 as a step (R118, R152). -/
def execDp11 (s : State) : Out := microAtD Seq.dp11 ruleDp11 s

/-- DP12 as a step (R120, R152). -/
def execDp12 (s : State) : Out := microAtD Seq.dp12 ruleDp12 s

/-- DP13 as a step (R121, R152). -/
def execDp13 (s : State) : Out := microAtD Seq.dp13 ruleDp13 s

/-- The code IDLE in `seq_D`: no activation is in progress and the engine takes no micro-op (R24, R152, R170). -/
def execIdleD (s : State) : Out := microAtD Seq.idle ruleD s

/-- A code R72 marks unused, held in `seq_D`: `Fault(SEQ_CODE)` at MSTEP_D (R72, R152). -/
def execUnusedD (code : SeqCode) (s : State) : Out :=
  requiresNoFault s <| requires (decide (14 ≤ code.toNat)) .otherMicroOp <| microAtD code (raise .seqCode .mstepD) s

/-! ### Meanings of the stimulus words of the dispatch engine -/

/-- ENTER_D (R150). -/
def execEnterD (s : State) : Out := enterD s

/-- MSTEP_D (R152). -/
def execMstepD (s : State) : Out := stepD s

/-- RUN_D: ENTER_D, then MSTEP_D until `seq_D == IDLE` (R122). A fault inside ends the run in the fault state. An
activation takes at most 12 micro-ops (R123 item 7), so the bound is never what ends it. -/
def execRunD (s : State) : Out :=
  andThen (enterD s) (repeatUntil (fun t => t.seqD == Seq.idle || t.fault.isSome) stepD 12)

/-- STEPALL_D: the words ENTER_D, MSTEP_D, MSTEP_D, … until `seq_D = IDLE`; stuck if any word is stuck (R76). -/
def execStepallD (s : State) : Out :=
  andThen (enterD s) (repeatUntil (fun t => t.seqD == Seq.idle) stepD 12)

/-! ### Meanings of the command classes (R67, R116)

A command is met where the interpreter reads it: at DP9, with the value in RDR_2 (log entry 8). -/

/-- The dispatch engine stands at DP9 and RDR_2 holds `c`. -/
def commandMeets (c : Slot) (s : State) (o : Out) : Out :=
  requiresNoFault s <|
  requires (s.seqD == Seq.dp9) .otherMicroOp <|
  requires (s.rdr2 == .holds c) .otherValue o

/-- CMD_PIN_OFF: the command is read, and the pin is driven OFF: DP9, DP10 (R67, R117). -/
def execCmdPinOff (s : State) : Out :=
  commandMeets 0x030#9 s (repeatUntil (fun t => t.seqD == Seq.dp12) stepD 2 s)

/-- CMD_PIN_ON: the command is read, and the pin is driven ON: DP9, DP11 (R67, R118). -/
def execCmdPinOn (s : State) : Out :=
  commandMeets 0x031#9 s (repeatUntil (fun t => t.seqD == Seq.dp12) stepD 2 s)

/-- CMD_OTHER: the command is read and ignored: DP9 alone (R67, R119). -/
def execCmdOther (v : Slot) (s : State) : Out :=
  commandMeets v s <| requires (v != 0x030#9 && v != 0x031#9) .otherValue <| stepD s

end Sys2Proof.Machine
end

