-- ==== Sys2Proof/Machine/Pseudo.lean ====
section
/-! DEFINITION. The pseudo-instructions of R76 that are a fixed list of words: FEED, FEEDS, CMD and XMIT. STEPALL_G and STEPALL_D
stand with their engines. -/

namespace Sys2Proof.Machine

/-- FEED v: `GPS_RX v ; RUN_G` (R76). -/
def execFeed (v : Slot) (s : State) : Out := andThen (execGpsRx v s) execRunG

/-- FEEDS "s": `FEED c` for each character c of s in order (R76). An empty string has no word and changes
nothing. -/
def execFeeds (cs : List Slot) (s : State) : Out :=
  match cs with
  | [] => requiresNoFault s (.next s)
  | [c] => execFeed c s
  | c :: c' :: rest => andThen (execFeed c s) (execFeeds (c' :: rest))

/-- CMD v: `HOST_RX v ; RUN_D` (R76). -/
def execCmd (v : Slot) (s : State) : Out := andThen (execHostRx v s) execRunD

/-- XMIT: `RUN_D ; TX_DONE` (R76). -/
def execXmit (s : State) : Out := andThen (execRunD s) execTxDone

end Sys2Proof.Machine
end

