-- ==== Sys2Proof/Machine/Queue.lean ====
section
/-! DEFINITION. The bounded queue (40_queue.md): PUSH and POP run alone, and the harness words Q_PUSH and Q_POP. -/

namespace Sys2Proof.Machine

/-- PUSH(v) run alone: the state the function leaves. Its result goes to no state element (R85; log entry 9). -/
def execPush (v : Slot) (s : State) : Out :=
  requiresNoFault s <| .next (pushSlot v .push s fun _ s' => s')

/-- POP() run alone: the state the function leaves. Its result goes to no state element (R86; log entry 9). -/
def execPop (s : State) : Out :=
  requiresNoFault s <| .next (popSlot .pop s fun _ s' => s')

/-- The enabling condition of the harness words: both engines IDLE and no fault (R92, R93). -/
def harnessStep (s : State) (rule : State → State) : Out :=
  requiresNoFault s <|
  requires (s.seqG == Seq.idle && s.seqD == Seq.idle) .harnessBusy <|
  .next (afterRule s (rule s))

/-- Q_PUSH d: `RES <- PUSH(d)` (R92). -/
def execQPush (d : Slot) (s : State) : Out :=
  harnessStep s fun s => pushSlot d .qPush s fun r s' => { s' with res := r }

/-- Q_POP: `RES <- POP()` (R93). -/
def execQPop (s : State) : Out :=
  harnessStep s fun s => popSlot .qPop s fun r s' => { s' with res := r }

end Sys2Proof.Machine
end

