-- ==== Sys2Proof/Machine/Dispatch.lean ====
section
/-! DEFINITION. The meaning of every row of the opcode table: one arm per constructor of Instr. -/

namespace Sys2Proof.Machine

/-- What an instruction does in a state. -/
def exec (i : Instr) (s : State) : Host.Outcome State Fault Refusal :=
  match i with
  -- stimulus words
  | .gpsRx d => Sys2Proof.Machine.execGpsRx d s
  | .hostRx d => Sys2Proof.Machine.execHostRx d s
  | .txDone => Sys2Proof.Machine.execTxDone s
  | .runG => Sys2Proof.Machine.execRunG s
  | .runD => Sys2Proof.Machine.execRunD s
  | .enterG => Sys2Proof.Machine.execEnterG s
  | .enterD => Sys2Proof.Machine.execEnterD s
  | .mstepG => Sys2Proof.Machine.execMstepG s
  | .mstepD => Sys2Proof.Machine.execMstepD s
  | .qPush d => Sys2Proof.Machine.execQPush d s
  | .qPop => Sys2Proof.Machine.execQPop s
  | .reset => Sys2Proof.Machine.execReset s
  -- reserved stimulus words
  | .reservedOp0 zero _ => Sys2Proof.Machine.execReservedOp0 zero s
  | .reservedOpC zero _ => Sys2Proof.Machine.execReservedOpC zero s
  | .reservedOpD zero _ => Sys2Proof.Machine.execReservedOpD zero s
  | .reservedOpE zero _ => Sys2Proof.Machine.execReservedOpE zero s
  | .reservedBits _ _ _ => Sys2Proof.Machine.execReservedBits s
  -- data classes
  | .ingNull => Sys2Proof.Machine.execIngNull s
  | .ingData v => Sys2Proof.Machine.execIngData v s
  | .cmdPinOff => Sys2Proof.Machine.execCmdPinOff s
  | .cmdPinOn => Sys2Proof.Machine.execCmdPinOn s
  | .cmdOther v => Sys2Proof.Machine.execCmdOther v s
  -- ingest micro-ops
  | .ig1 => Sys2Proof.Machine.execIg1 s
  | .ig2 => Sys2Proof.Machine.execIg2 s
  | .ig3 => Sys2Proof.Machine.execIg3 s
  | .ig4 => Sys2Proof.Machine.execIg4 s
  | .ig5 => Sys2Proof.Machine.execIg5 s
  | .ig6 => Sys2Proof.Machine.execIg6 s
  | .ig7 => Sys2Proof.Machine.execIg7 s
  | .ig8 => Sys2Proof.Machine.execIg8 s
  -- dispatch micro-ops
  | .dp1 => Sys2Proof.Machine.execDp1 s
  | .dp2 => Sys2Proof.Machine.execDp2 s
  | .dp3 => Sys2Proof.Machine.execDp3 s
  | .dp4 => Sys2Proof.Machine.execDp4 s
  | .dp5 => Sys2Proof.Machine.execDp5 s
  | .dp6 => Sys2Proof.Machine.execDp6 s
  | .dp7 => Sys2Proof.Machine.execDp7 s
  | .dp8 => Sys2Proof.Machine.execDp8 s
  | .dp9 => Sys2Proof.Machine.execDp9 s
  | .dp10 => Sys2Proof.Machine.execDp10 s
  | .dp11 => Sys2Proof.Machine.execDp11 s
  | .dp12 => Sys2Proof.Machine.execDp12 s
  | .dp13 => Sys2Proof.Machine.execDp13 s
  -- the other sequencer codes
  | .idleG => Sys2Proof.Machine.execIdleG s
  | .idleD => Sys2Proof.Machine.execIdleD s
  | .unusedG code => Sys2Proof.Machine.execUnusedG code s
  | .unusedD code => Sys2Proof.Machine.execUnusedD code s
  -- queue functions and register primitives
  | .push v => Sys2Proof.Machine.execPush v s
  | .pop => Sys2Proof.Machine.execPop s
  | .setTxeie => Sys2Proof.Machine.execSetTxeie s
  | .clearTxeie => Sys2Proof.Machine.execClearTxeie s
  | .readRdr link => Sys2Proof.Machine.execReadRdr link s
  | .writeTdr v => Sys2Proof.Machine.execWriteTdr v s
  | .clearOre link => Sys2Proof.Machine.execClearOre link s
  | .pinSet => Sys2Proof.Machine.execPinSet s
  | .pinReset => Sys2Proof.Machine.execPinReset s
  -- pseudo-instructions
  | .feed v => Sys2Proof.Machine.execFeed v s
  | .feeds cs => Sys2Proof.Machine.execFeeds cs s
  | .cmd v => Sys2Proof.Machine.execCmd v s
  | .xmit => Sys2Proof.Machine.execXmit s
  | .stepallG => Sys2Proof.Machine.execStepallG s
  | .stepallD => Sys2Proof.Machine.execStepallD s

end Sys2Proof.Machine
end

