-- ==== Sys2Proof/Machine/Fetch.lean ====
section
/-! DEFINITION. Placing the bits of a table row where the next step finds them. -/

namespace Sys2Proof.Machine

/-- A row of at most eight bits is a sequencer code, run by its engine's MSTEP word; any other row is a stimulus
word. The choice of engine is `decodeTableWord`'s (log entry 15). -/
def placeTableWord (s : State) (nbits w : Nat) : State :=
  if nbits ≤ 8 then
    if w ≤ 8 then { s with seqG := BitVec.ofNat 4 w, trace := 0x8000#16 :: s.trace }
    else { s with seqD := BitVec.ofNat 4 w, trace := 0x9000#16 :: s.trace }
  else { s with trace := BitVec.ofNat 16 w :: s.trace }

end Sys2Proof.Machine
end

