-- ==== Sys2Proof/Machine/Step.lean ====
section
/-! DEFINITION. One step of a trace: the next stimulus word is decoded and its rule applied (R77). -/

namespace Sys2Proof.Machine

/-- Apply the next stimulus word of the trace (R77). A refused word is no step (R70); with no word left there is
no step (log entry 3). -/
def step (s : State) : Host.Outcome State Fault Refusal :=
  match fetch s with
  | none => .fault .endOfTrace
  | some (w, s') =>
    match decodeStimulus s.cfg w with
    | .ok i => exec i s'
    | .error e => .refused (refusalOf e)

/-- `s` with the bits `w` of a table row placed where the next step finds them: a stimulus word at the front of
the trace, or a sequencer code in its engine's sequencer with that engine's MSTEP word at the front of the trace
(log entries 3 and 15). -/
def State.withFetchWord (s : State) (nbits w : Nat) : State := placeTableWord s nbits w

end Sys2Proof.Machine
end

