-- ==== Sys2Proof/Machine/Assembler.lean ====
section
/-! DEFINITION. The text of a stimulus trace (R75) and the words it stands for (R76). -/

namespace Sys2Proof.Machine

/-- The value of a hexadecimal digit. -/
def hexDigit (c : Char) : Option Nat :=
  if '0' ≤ c ∧ c ≤ '9' then some (c.toNat - 48)
  else if 'a' ≤ c ∧ c ≤ 'f' then some (c.toNat - 87)
  else if 'A' ≤ c ∧ c ≤ 'F' then some (c.toNat - 55)
  else none

/-- The value of a decimal digit. -/
def decDigit (c : Char) : Option Nat := if '0' ≤ c ∧ c ≤ '9' then some (c.toNat - 48) else none

/-- The number a digit list spells in a base, after the digits read so far. -/
def readDigits (digit : Char → Option Nat) (base acc : Nat) : List Char → Option Nat
  | [] => some acc
  | c :: cs =>
    match digit c with
    | some n => readDigits digit base (base * acc + n) cs
    | none => none

/-- The single quote. -/
def quoteChar : Char := Char.ofNat 39

/-- The double quote. -/
def stringQuote : Char := Char.ofNat 34

/-- The value of an ASCII character. R75 knows no other; what a character outside ASCII stands for the spec does not
say, and here it stands for nothing, so the line that holds one is malformed (DESIGN CHOICE, log entry 24). -/
def asciiValue (c : Char) : Option Nat := if c.toNat < 128 then some c.toNat else none

/-- An operand: hex, decimal, or one ASCII character in single quotes (R75). -/
def readOperand (cs : List Char) : Option Nat :=
  match cs with
  | [] => none
  | ['0'] => some 0
  | '0' :: 'x' :: d :: ds => readDigits hexDigit 16 0 (d :: ds)
  | [a, b, c] => if a = quoteChar ∧ c = quoteChar then asciiValue b else readDigits decDigit 10 0 cs
  | _ => readDigits decDigit 10 0 cs

/-- An operand as a nine-bit value; a larger number has no SD word (R68). -/
def readSlotOperand (cs : List Char) : Option Slot :=
  match readOperand cs with
  | some n => if n < 512 then some (BitVec.ofNat 9 n) else none
  | none => none

/-- The characters of a quoted string, in order, each as its ASCII value (R76; log entry 24). The first double quote
after the opening one must end the line: R76 does not say whether a string may hold a double quote, and here a line
whose string holds one is malformed (DESIGN CHOICE, log entry 24). -/
def readStringBody : List Char → Option (List Slot)
  | [] => none
  | [c] => if c = stringQuote then some [] else none
  | c :: cs =>
    match asciiValue c, readStringBody cs with
    | some n, some vs => if c = stringQuote then none else some (BitVec.ofNat 9 n :: vs)
    | some _, none => none
    | none, _ => none

/-- A string operand (R76). -/
def readString : List Char → Option (List Slot)
  | [] => none
  | c :: cs => if c = stringQuote then readStringBody cs else none

/-- The text before a comment: `;` starts one (R75). -/
def dropComment : List Char → List Char
  | [] => []
  | c :: cs => if c = ';' then [] else c :: dropComment cs

/-- Drop leading blanks. -/
def dropBlanks : List Char → List Char
  | [] => []
  | c :: cs => if c = ' ' then dropBlanks cs else c :: cs

/-- The first blank-free run of characters, and the rest. -/
def takeToken : List Char → List Char × List Char
  | [] => ([], [])
  | c :: cs => if c = ' ' then ([], cs) else (c :: (takeToken cs).1, (takeToken cs).2)

/-- Drop blanks at both ends. -/
def trimBlanks (cs : List Char) : List Char := (dropBlanks (dropBlanks cs).reverse).reverse

/-- A line without an operand. -/
def plainLine (i : Instr) (operand : List Char) : Option Instr := if operand = [] then some i else none

/-- A line with one operand. -/
def slotLine (f : Slot → Instr) (operand : List Char) : Option Instr := (readSlotOperand operand).map f

/-- The instruction a mnemonic and an operand text name; mnemonics are upper case (R69, R75, R76). -/
def readInstr (mnemonic operand : List Char) : Option Instr :=
  if mnemonic = ['G', 'P', 'S', '_', 'R', 'X'] then slotLine .gpsRx operand
  else if mnemonic = ['H', 'O', 'S', 'T', '_', 'R', 'X'] then slotLine .hostRx operand
  else if mnemonic = ['T', 'X', '_', 'D', 'O', 'N', 'E'] then plainLine .txDone operand
  else if mnemonic = ['R', 'U', 'N', '_', 'G'] then plainLine .runG operand
  else if mnemonic = ['R', 'U', 'N', '_', 'D'] then plainLine .runD operand
  else if mnemonic = ['E', 'N', 'T', 'E', 'R', '_', 'G'] then plainLine .enterG operand
  else if mnemonic = ['E', 'N', 'T', 'E', 'R', '_', 'D'] then plainLine .enterD operand
  else if mnemonic = ['M', 'S', 'T', 'E', 'P', '_', 'G'] then plainLine .mstepG operand
  else if mnemonic = ['M', 'S', 'T', 'E', 'P', '_', 'D'] then plainLine .mstepD operand
  else if mnemonic = ['Q', '_', 'P', 'U', 'S', 'H'] then slotLine .qPush operand
  else if mnemonic = ['Q', '_', 'P', 'O', 'P'] then plainLine .qPop operand
  else if mnemonic = ['R', 'E', 'S', 'E', 'T'] then plainLine .reset operand
  else if mnemonic = ['F', 'E', 'E', 'D'] then slotLine .feed operand
  else if mnemonic = ['F', 'E', 'E', 'D', 'S'] then (readString operand).map .feeds
  else if mnemonic = ['C', 'M', 'D'] then slotLine .cmd operand
  else if mnemonic = ['X', 'M', 'I', 'T'] then plainLine .xmit operand
  else if mnemonic = ['S', 'T', 'E', 'P', 'A', 'L', 'L', '_', 'G'] then plainLine .stepallG operand
  else if mnemonic = ['S', 'T', 'E', 'P', 'A', 'L', 'L', '_', 'D'] then plainLine .stepallD operand
  else none

/-- What one line of a trace says (R75). -/
inductive TraceLine where
  /-- a blank or comment line -/
  | blank
  /-- a stimulus word or a pseudo-instruction -/
  | instr (i : Instr)
  /-- the same word or pseudo-instruction `count` times over, as the programs of 95_test_vectors.md write it -/
  | repeated (count : Nat) (i : Instr)
  /-- no line of the trace syntax -/
  | malformed
deriving DecidableEq, Repr

/-- A repeat count, `x7`. R75 does not list it; the programs of 95_test_vectors.md, whose syntax it is, write it after
a mnemonic that takes no operand. -/
def readCount (cs : List Char) : Option Nat :=
  match cs with
  | 'x' :: d :: ds => readDigits decDigit 10 0 (d :: ds)
  | _ => none

/-- A mnemonic and what follows it. A mnemonic with no operand may have a repeat count in its place, which stands for
that many lines (DESIGN CHOICE, log entry 24). -/
def readTokens (mnemonic operand : List Char) : TraceLine :=
  match readInstr mnemonic operand with
  | some i => .instr i
  | none =>
    match readCount operand, readInstr mnemonic [] with
    | some n, some i => .repeated n i
    | some _, none => .malformed
    | none, _ => .malformed

/-- Read one line (R75). -/
def readLine (line : List Char) : TraceLine :=
  match trimBlanks (dropComment line) with
  | [] => .blank
  | c :: cs => readTokens (takeToken (c :: cs)).1 (trimBlanks (takeToken (c :: cs)).2)

/-- The words of a stimulus mnemonic or of a pseudo-instruction with a fixed expansion (R69, R76). STEPALL_G and
STEPALL_D have no fixed number of words, so they stand for none here. -/
def assemble (i : Instr) : Option (List StimWord) :=
  match encode i with
  | .stimulus w => some [w]
  | .expansion ws => some ws
  | .ingestValue _ => none
  | .commandValue _ => none
  | .seqG _ => none
  | .seqD _ => none
  | .untilIdle _ _ => none
  | .unencoded => none

/-- The words of a line: none for a blank one, no answer for a malformed one or for STEPALL_X (R75, R76). -/
def assembleLine (line : TraceLine) : Option (List StimWord) :=
  match line with
  | .blank => some []
  | .instr i => assemble i
  | .repeated n i => (assemble i).map fun ws => (List.replicate n ws).flatten
  | .malformed => none

/-- The words of a trace: those of its lines, in order (R75, R77). -/
def assembleTrace : List (List Char) → Option (List StimWord)
  | [] => some []
  | line :: lines =>
    match assembleLine (readLine line), assembleTrace lines with
    | some ws, some rest => some (ws ++ rest)
    | some _, none => none
    | none, _ => none

end Sys2Proof.Machine
end

