-- ==== Sys2Proof/Machine/Registers.lean ====
section
/-! DEFINITION. The register view of 10_state.md section 6 (R36 to R45), as views of the state. No rule's outcome depends on
it; it says how the register primitives look at register level. Its registers are 32 bits wide (PRESUMED, log entry 14). -/

namespace Sys2Proof.Machine

/-- The registers of the view, named by link and register (R36 to R45). -/
inductive RegName where
  | gIsr
  | gIcr
  | gRdr
  | gCr1
  | l2Isr
  | l2Icr
  | l2Rdr
  | l2Tdr
  | l2Cr1
  | pBsrr
deriving DecidableEq, Repr

/-- `w` with bit `k` replaced by `b`. -/
def withBit (w : BitVec 32) (k : Nat) (b : Bool) : BitVec 32 :=
  (w &&& ~~~(1#32 <<< k)) ||| (if b then 1#32 <<< k else 0#32)

/-- The value a read of a receive data register gives and the state it leaves: bits above 8 read 0, and the read
is ReadRDR(L) (R38, R42). -/
def viewReadRdr (l : Link) (any : BitVec 32) (s : State) : BitVec 32 × State :=
  match rdr l s with
  | .unwritten => (any, raise .unwritten .readRdr s)
  | .holds v => (v.setWidth 32, setRxne l false s)

/-- A read at register level. `any` is what the bits the view does not list read as: an arbitrary value, as is
the whole of a write-only register (93_implementation_defined.md U4, U5; log entry 14). -/
def viewRead (n : RegName) (any : BitVec 32) (s : State) : BitVec 32 × State :=
  match n with
  | .gIsr => (withBit (withBit any 3 s.oreG) 5 s.rxneG, s)
  | .gIcr => (any, s)
  | .gRdr => viewReadRdr .g any s
  | .gCr1 => (withBit any 5 s.rxneieG, s)
  | .l2Isr => (withBit (withBit (withBit any 3 s.ore2) 5 s.rxne2) 7 s.txe2, s)
  | .l2Icr => (any, s)
  | .l2Rdr => viewReadRdr .l2 any s
  | .l2Tdr => (any, s)
  | .l2Cr1 => (withBit (withBit any 5 s.rxneie2) 7 s.txeie, s)
  | .pBsrr => (any, s)

/-- `w` is 0 in every bit outside `mask`. -/
def onlyBits (mask w : BitVec 32) : Bool := w &&& ~~~mask == 0#32

/-- A write of an interrupt-clear register: bit 3, ORECF, is the one bit listed; 1 there is ClearORE(L) and 0 has no
effect (R37, R41). -/
def viewWriteIcr (l : Link) (w : BitVec 32) (s : State) : Option State :=
  if onlyBits (1#32 <<< 3) w then some (if w.getLsbD 3 then clearOreOf l s else s) else none

/-- A write of the pin's set/reset register: 1 in bit PIN_INDEX is PinSet, 1 in bit PIN_INDEX+16 is PinReset, and 0
in both has no effect (R45). -/
def viewWritePin (w : BitVec 32) (s : State) : Option State :=
  if onlyBits ((1#32 <<< Config.pinIndex.val) ||| (1#32 <<< (Config.pinIndex.val + 16))) w then
    match w.getLsbD Config.pinIndex.val, w.getLsbD (Config.pinIndex.val + 16) with
    | false, false => some s
    | true, false => some (pinSetStrobe s)
    | false, true => some (pinResetStrobe s)
    | true, true => none
  else none

/-- A whole-register write the block may make, `none` for one it never makes: a read-only register (R36, R38, R40,
R42), a control register, whose bits are written one at a time or by the excluded initialization alone (R39, R44),
bits of L2.TDR above 8 (R43), both halves of the pin's set/reset pair at once (R45), and a 1 in a bit that G.ICR,
L2.ICR or P.BSRR does not list (R37, R41, R45). The spec gives these writes no effect, and says of the unlisted bits
only that the block must not write them; that they have no result is the model's choice (DESIGN CHOICE, log entry
29). -/
def viewWrite (n : RegName) (w : BitVec 32) (s : State) : Option State :=
  match n with
  | .gIsr => none
  | .gIcr => viewWriteIcr .g w s
  | .gRdr => none
  | .gCr1 => none
  | .l2Isr => none
  | .l2Icr => viewWriteIcr .l2 w s
  | .l2Rdr => none
  | .l2Tdr => if w.toNat < 512 then some (writeTdrReg (w.setWidth 9) s) else none
  | .l2Cr1 => none
  | .pBsrr => viewWritePin w s

/-- The one control bit the block writes: L2.CR1 bit 7, TXEIE, as a single atomic bit (R44, R61). -/
def viewWriteTxeie (b : Bool) (s : State) : State := if b then setTxeieBit s else clearTxeieBit s

end Sys2Proof.Machine
end

