-- ==== Sys2Proof/Machine/Signals.lean ====
section
/-! DEFINITION. The block's interface as signals (R133): the levels of its ports, a view of the state, and the strobes a step
pulses, a function of the step and the state it is taken in. No step reads either. -/

namespace Sys2Proof.Machine

/-! ### Levels -/

/-- The levels of the block's ports. -/
structure Ports where
  gRxne : Bool
  gOre : Bool
  gRdr : Reg Slot
  l2Txe : Bool
  l2Tdr : Reg Slot
  l2Rxne : Bool
  l2Rdr : Reg Slot
  l2Ore : Bool
  l2Txeie : Bool
  irqG : Bool
  irq2 : Bool
deriving DecidableEq, Repr

/-- The port levels in a state (R133). R133 gives `l2_tdr` no level when no write is made: it is the value TDR_2 holds,
so a written value is seen after the step that pulses `l2_tdr_wr` (DESIGN CHOICE, log entry 30). -/
def ports (s : State) : Ports :=
  { gRxne := s.rxneG, gOre := s.oreG, gRdr := s.rdrG, l2Txe := s.txe2, l2Tdr := s.tdr2, l2Rxne := s.rxne2,
    l2Rdr := s.rdr2, l2Ore := s.ore2, l2Txeie := s.txeie, irqG := irqG s, irq2 := irq2 s }

/-! ### Strobes -/

/-- The strobes: each is the access itself, in the step that makes it (R133). -/
inductive Strobe where
  | gRdrRd
  | gOreClr
  | l2TdrWr
  | l2RdrRd
  | l2OreClr
  | pinSet
  | pinReset
  | enterG
  | enterD
deriving DecidableEq, Repr

/-- The strobe of ReadRDR(L): none where the read is `Fault(UNWRITTEN)`, which makes no access (R135; log entry 28). -/
def pulseReadRdr (l : Link) (s : State) : List Strobe :=
  if (rdr l s).isWritten then
    match l with
    | .g => [.gRdrRd]
    | .l2 => [.l2RdrRd]
  else []

/-- The strobe of ClearORE(L) (R137). -/
def pulseClearOre (l : Link) : List Strobe :=
  match l with
  | .g => [.gOreClr]
  | .l2 => [.l2OreClr]

/-- The strobes of the ingest micro-op `seq_G` holds (R133, column "used at"). -/
def pulseG (s : State) : List Strobe :=
  match s.seqG.toNat with
  | 2 => pulseReadRdr .g s
  | 8 => pulseClearOre .g
  | _ => []

/-- The strobes of the dispatch micro-op `seq_D` holds. A DP5 that faults raises before it calls WriteTDR and makes
no write (R111, R136). -/
def pulseD (s : State) : List Strobe :=
  match s.seqD.toNat with
  | 5 => if s.txe2 && s.d.v.isWritten then [.l2TdrWr] else []
  | 9 => pulseReadRdr .l2 s
  | 10 => [.pinReset]
  | 11 => [.pinSet]
  | 13 => pulseClearOre .l2
  | _ => []

/-- The strobes of what follows a step: none if the step has no next state. -/
def pulsesAfter (o : Out) (k : State → List Strobe) : List Strobe :=
  match o with
  | .next s => k s
  | .fault _ => []
  | .refused _ => []

/-- The strobes of `repeatUntil`, in the order of its steps. -/
def pulsesUntil (stop : State → Bool) (step : State → Out) (pulse : State → List Strobe) :
    Nat → State → List Strobe
  | 0, _ => []
  | fuel + 1, s =>
    if stop s then [] else pulsesAfter (step s) fun t => pulse s ++ pulsesUntil stop step pulse fuel t

/-- The strobes of a whole ingest activation (R103). -/
def pulsesRunG (s : State) : List Strobe :=
  .enterG :: pulsesUntil (fun t => t.seqG == Seq.idle || t.fault.isSome) stepG pulseG 8 (takeG s)

/-- The strobes of a whole dispatch activation (R122). -/
def pulsesRunD (s : State) : List Strobe :=
  .enterD :: pulsesUntil (fun t => t.seqD == Seq.idle || t.fault.isSome) stepD pulseD 12 (takeD s)

/-- The strobes of FEED (R76). -/
def pulsesFeed (v : Slot) (s : State) : List Strobe := pulsesAfter (execGpsRx v s) pulsesRunG

/-- The strobes of FEEDS (R76). -/
def pulsesFeeds (cs : List Slot) (s : State) : List Strobe :=
  match cs with
  | [] => []
  | c :: rest => pulsesFeed c s ++ pulsesAfter (execFeed c s) (pulsesFeeds rest)

/-- The strobes of a row, in order, where the row has a next state. -/
def pulses (i : Instr) (s : State) : List Strobe :=
  match i with
  | .gpsRx _ => []
  | .hostRx _ => []
  | .txDone => []
  | .runG => pulsesRunG s
  | .runD => pulsesRunD s
  | .enterG => [.enterG]
  | .enterD => [.enterD]
  | .mstepG => pulseG s
  | .mstepD => pulseD s
  | .qPush _ => []
  | .qPop => []
  | .reset => []
  | .reservedOp0 _ _ => []
  | .reservedOpC _ _ => []
  | .reservedOpD _ _ => []
  | .reservedOpE _ _ => []
  | .reservedBits _ _ _ => []
  | .ingNull => pulseG s
  | .ingData _ =>
    pulsesUntil (fun t => t.seqG == Seq.ig6 || t.seqG == Seq.ig7 || t.fault.isSome) stepG pulseG 4 s
  | .cmdPinOff => pulsesUntil (fun t => t.seqD == Seq.dp12) stepD pulseD 2 s
  | .cmdPinOn => pulsesUntil (fun t => t.seqD == Seq.dp12) stepD pulseD 2 s
  | .cmdOther _ => pulseD s
  | .ig1 => pulseG s
  | .ig2 => pulseG s
  | .ig3 => pulseG s
  | .ig4 => pulseG s
  | .ig5 => pulseG s
  | .ig6 => pulseG s
  | .ig7 => pulseG s
  | .ig8 => pulseG s
  | .dp1 => pulseD s
  | .dp2 => pulseD s
  | .dp3 => pulseD s
  | .dp4 => pulseD s
  | .dp5 => pulseD s
  | .dp6 => pulseD s
  | .dp7 => pulseD s
  | .dp8 => pulseD s
  | .dp9 => pulseD s
  | .dp10 => pulseD s
  | .dp11 => pulseD s
  | .dp12 => pulseD s
  | .dp13 => pulseD s
  | .idleG => []
  | .idleD => []
  | .unusedG _ => []
  | .unusedD _ => []
  | .push _ => []
  | .pop => []
  | .setTxeie => []
  | .clearTxeie => []
  | .readRdr l => pulseReadRdr l s
  | .writeTdr _ => [.l2TdrWr]
  | .clearOre l => pulseClearOre l
  | .pinSet => [.pinSet]
  | .pinReset => [.pinReset]
  | .feed v => pulsesFeed v s
  | .feeds cs => pulsesFeeds cs s
  | .cmd v => pulsesAfter (execHostRx v s) pulsesRunD
  | .xmit => pulsesRunD s
  | .stepallG => .enterG :: pulsesUntil (fun t => t.seqG == Seq.idle) stepG pulseG 8 (takeG s)
  | .stepallD => .enterD :: pulsesUntil (fun t => t.seqD == Seq.idle) stepD pulseD 12 (takeD s)

/-- The strobes of the step of row `i` in state `s`, in order: every access with a strobe that the step makes, and
none where the row is stuck or refused (R133; log entry 28). -/
def strobes (i : Instr) (s : State) : List Strobe := pulsesAfter (exec i s) fun _ => pulses i s

/-- The pin access a strobe is, as PINLOG records it (R31, R138, R139). -/
def Strobe.pinWrite : Strobe → Option PinWrite
  | .pinSet => some .set
  | .pinReset => some .reset
  | .gRdrRd => none
  | .gOreClr => none
  | .l2TdrWr => none
  | .l2RdrRd => none
  | .l2OreClr => none
  | .enterG => none
  | .enterD => none

end Sys2Proof.Machine
end

