-- ==== Sys2Proof/Safety.lean ====
section
/-! DEFINITION. What a claim is stated with: the queue's contents, quiescence, the final states and the observation of a run, the
invariants of the block, and runs with their fairness. -/

namespace Sys2Proof.Machine

/-! ### The queue (R79, R81) -/

/-- The occupancy `LEN = (TAIL - HEAD) mod (2*CAP)` (R79). -/
def len (s : State) : Nat := cursorDiff s.cfg s.head s.tail

/-- Slot `k` of the queue, counted from the head: `BUF[(HEAD + k) mod (2*CAP) mod CAP]` (R81). -/
def queueSlot (s : State) (k : Nat) : Reg Slot :=
  s.buf.read (slotIndex s.cfg ((s.head + k) % (2 * s.cfg.cap)))

/-- The abstract contents `Q` of the queue, head first (R81). -/
def contents (s : State) : List (Reg Slot) := (List.range (len s)).map (queueSlot s)

/-! ### Kinds of state and of outcome -/

/-- Both engines IDLE (00_scope.md, glossary). -/
abbrev Quiescent (s : State) : Prop := s.seqG = Seq.idle ∧ s.seqD = Seq.idle

/-- No fault is recorded: the premise R144 gives every claim. -/
abbrev NoFault (s : State) : Prop := s.fault = none

/-- The final states (R168). -/
abbrev Final (s : State) : Prop :=
  NoFault s ∧ Quiescent s ∧ s.pendG = false ∧ s.pendD = false ∧ irqG s = false ∧ irq2 s = false ∧ s.txe2 = true

/-- The observation of a run at a final state: `(OUT, PIN, PINLOG, Q)` (R168). -/
def observe (s : State) : List Slot × PinLevel × List PinWrite × List (Reg Slot) :=
  (s.out, s.pin, s.pinlog, contents s)

/-- The launch premise CleanStart (R172). -/
abbrev CleanStart (s : State) : Prop :=
  s.head = 0 ∧ s.tail = 0 ∧ s.txeie = false ∧ s.pin = s.cfg.pinReset ∧ Quiescent s ∧
  s.rxneG = false ∧ s.oreG = false ∧ s.rxne2 = false ∧ s.ore2 = false ∧ s.txe2 = true ∧
  s.rxneieG = true ∧ s.rxneie2 = true ∧ s.pendG = false ∧ s.pendD = false ∧ s.res = .none ∧
  s.out = [] ∧ s.pinlog = [] ∧ NoFault s

/-- The four outcomes of R17. -/
inductive Verdict where
  | nextState
  | fault
  | stuck
  | refused
deriving DecidableEq, Repr

/-- Which of R17's outcomes an outcome of this machine is (log entry 1). -/
def verdict (o : Out) : Verdict :=
  match o with
  | .next s => if s.fault.isSome then .fault else .nextState
  | .fault _ => .stuck
  | .refused _ => .refused

/-! ### Enabling conditions in the rules' own words -/

/-- The ingest engine may take the micro-op of code `c` (R151): no fault, `seq_G` holds `c`, and under D_OVER_G the
dispatch engine is IDLE. -/
abbrev GoesG (c : SeqCode) (s : State) : Prop :=
  NoFault s ∧ s.seqG = c ∧ (s.cfg.prio = .dOverG → s.seqD = Seq.idle)

/-- The dispatch engine may take the micro-op of code `c` (R152). -/
abbrev GoesD (c : SeqCode) (s : State) : Prop :=
  NoFault s ∧ s.seqD = c ∧ (s.cfg.prio = .gOverD → s.seqG = Seq.idle)

/-- `ENTER_G` is enabled (R149). -/
abbrev CanEnterG (s : State) : Prop :=
  NoFault s ∧ s.pendG = true ∧ s.seqG = Seq.idle ∧ (s.cfg.prio = .gOverD ∨ s.seqD = Seq.idle)

/-- `ENTER_D` is enabled (R150). -/
abbrev CanEnterD (s : State) : Prop :=
  NoFault s ∧ s.pendD = true ∧ s.seqD = Seq.idle ∧ (s.cfg.prio = .dOverG ∨ s.seqG = Seq.idle)

/-- `ENTER_G` has been taken: what R149 leaves. -/
abbrev enteredG (s : State) : State := { s with pendG := false, g := GRegs.unwritten, seqG := Seq.ig1 }

/-- `ENTER_D` has been taken: what R150 leaves. -/
abbrev enteredD (s : State) : State := { s with pendD := false, d := DRegs.unwritten, seqD := Seq.dp1 }

/-- A nine-bit value is a frame: below `2^FRAME_W` (R8). -/
abbrev IsFrame (cfg : Config) (v : Slot) : Prop := v.toNat < 2 ^ cfg.frameW.bits

/-! ### The safety invariant

What every step keeps, in every PRIO_MODE, and what makes every fault of R144 unreachable. -/

/-- The state's own facts: legal parameters, cursors in range (R20, R21), `LEN <= CAP` (R80), the queue storage in
canonical form within `0 .. CAP-1` (R19, R52) with every slot of the queue written (R81), receive registers written
while they hold an unread frame (R28, R29), the receive interrupts enabled as R147 leaves them, and sequencers on
codes R72 uses. -/
structure DataInv (s : State) : Prop where
  cap_pos : s.cfg.wf
  head_lt : s.head < 2 * s.cfg.cap
  tail_lt : s.tail < 2 * s.cfg.cap
  len_le : len s ≤ s.cfg.cap
  buf_wf : s.buf.wf
  buf_index : ∀ p ∈ s.buf, p.1 < s.cfg.cap
  queue_written : ∀ k, k < len s → (queueSlot s k).isWritten = true
  rdrG_written : s.rxneG = true → s.rdrG.isWritten = true
  rdr2_written : s.rxne2 = true → s.rdr2.isWritten = true
  tdr2_written : s.txe2 = false → s.tdr2.isWritten = true
  rxneieG_set : s.rxneieG = true
  rxneie2_set : s.rxneie2 = true
  seqG_used : s.seqG.toNat ≤ 8
  seqD_used : s.seqD.toNat ≤ 13

/-- What the ingest engine's sequencer says of the state: R26's write-before-read, the snapshot TAIL is the live one,
which no other agent writes (R46), and from IG4 to IG5 the slot TAIL names holds the local `G.v` (R98). -/
structure IngestInv (s : State) : Prop where
  ig2 : s.seqG = Seq.ig2 → s.rxneG = true
  ig3 : s.seqG = Seq.ig3 → s.g.v.isWritten = true
  ig4 : s.seqG = Seq.ig4 → s.g.v.isWritten = true ∧ s.g.t = .holds s.tail ∧ len s < s.cfg.cap
  ig5 : s.seqG = Seq.ig5 → s.g.t = .holds s.tail ∧ len s < s.cfg.cap ∧ s.g.v.isWritten = true ∧
    s.buf.read (slotIndex s.cfg s.tail) = s.g.v

/-- What the dispatch engine's sequencer says of the state: DP1 saw `TXE_2 = 1` and only DP5 clears it (R111), the
snapshot HEAD is the live one (R46), and from DP3 to DP4 the local `D.v` is the value at the head of the queue, which
no producer overwrites before HEAD is published (R58, R109). -/
structure DispatchInv (s : State) : Prop where
  dp2 : s.seqD = Seq.dp2 → s.txe2 = true
  dp3 : s.seqD = Seq.dp3 → s.txe2 = true ∧ s.d.h = .holds s.head ∧ 0 < len s
  dp4 : s.seqD = Seq.dp4 → s.txe2 = true ∧ s.d.h = .holds s.head ∧ 0 < len s ∧ s.d.v.isWritten = true ∧
    s.d.v = s.buf.read (slotIndex s.cfg s.head)
  dp5 : s.seqD = Seq.dp5 → s.txe2 = true ∧ s.d.v.isWritten = true
  dp9 : s.seqD = Seq.dp9 → s.rxne2 = true

/-- The safety invariant. -/
structure SafeInv (s : State) : Prop where
  data : DataInv s
  ingest : IngestInv s
  dispatch : DispatchInv s
  noFault : NoFault s

/-- No request is lost: a line asserted while its engine is IDLE has its latch set (R33, R148). -/
structure PendInv (s : State) : Prop where
  lineG : s.seqG = Seq.idle → irqG s = true → s.pendG = true
  lineD : s.seqD = Seq.idle → irq2 s = true → s.pendD = true

/-- The arbiter's coherence (R129), carried through an activation: at most one engine is active (R153); TXEIE says
whether the queue holds a value, except between the step that changes one and the step that brings the other in
line. -/
structure Coherent (s : State) : Prop where
  one_active : s.seqG = Seq.idle ∨ s.seqD = Seq.idle
  settled : s.seqG ≠ Seq.ig6 → s.seqD ≠ Seq.dp5 → s.seqD ≠ Seq.dp6 → s.seqD ≠ Seq.dp7 →
    (s.txeie = true ↔ 0 < len s)
  published : s.seqG = Seq.ig6 → 0 < len s
  popped : s.seqD = Seq.dp5 ∨ s.seqD = Seq.dp6 → s.txeie = true
  emptied : s.seqD = Seq.dp7 → len s = 0

/-- `OUT` holds frames of `FRAME_W` bits (R30, R65). -/
abbrev OutFrames (s : State) : Prop := ∀ v ∈ s.out, IsFrame s.cfg v

/-! ### Runs of the harness words (R90, R91) -/

/-- A harness word. -/
inductive QueueOp where
  | push (v : Slot)
  | pop
deriving DecidableEq, Repr

/-- The instruction of a harness word. -/
def QueueOp.instr : QueueOp → Instr
  | .push v => .qPush v
  | .pop => .qPop

/-- The values of a list of harness words run in order that were pushed with `RES = OK`, then those popped with
`RES = VALUE`, each oldest first, and the state at the end; `none` if a word is stuck. -/
def runQueue : List QueueOp → State → Option (List Slot × List Slot × State)
  | [], s => some ([], [], s)
  | op :: ops, s =>
    match exec op.instr s with
    | .next t =>
      match runQueue ops t with
      | some (pushed, popped, u) =>
        match op, t.res with
        | .push v, .ok => some (v :: pushed, popped, u)
        | .pop, .value v => some (pushed, v :: popped, u)
        | _, _ => some (pushed, popped, u)
      | none => none
    | .fault _ => none
    | .refused _ => none

/-! ### What a run of any words does to the queue and the transmitter (R90, R109, R111, R142) -/

/-- The value a step put into the queue and the value it took out, told by the cursors it moved: a push that
returned OK is the only thing that moves TAIL, a pop that returned a value the only thing that moves HEAD, and no
step but RESET moves either by more than one (R85, R86, R104, R123). -/
def queueMoved (s t : State) : List (Reg Slot) × List (Reg Slot) :=
  (if t.tail = s.tail then [] else [t.buf.read (slotIndex s.cfg s.tail)],
    if t.head = s.head then [] else [s.buf.read (slotIndex s.cfg s.head)])

/-- The value a step wrote to TDR_2: DP5 is the only step that takes TXE_2 from 1 to 0 (R111, R46). -/
def transmitted (s t : State) : List (Reg Slot) := if s.txe2 = true ∧ t.txe2 = false then [t.tdr2] else []

/-- What a list of steps put into the queue, took out of it and wrote to TDR_2, each oldest first. -/
structure Moved where
  pushed : List (Reg Slot)
  popped : List (Reg Slot)
  written : List (Reg Slot)
deriving DecidableEq, Repr

/-- What a list of instructions run in order moved, and the state at the end; `none` if one has no next state. -/
def runMoved : List Instr → State → Option (Moved × State)
  | [], s => some (⟨[], [], []⟩, s)
  | i :: is, s =>
    match exec i s with
    | .next t =>
      match runMoved is t with
      | some (m, u) =>
        some (⟨(queueMoved s t).1 ++ m.pushed, (queueMoved s t).2 ++ m.popped, transmitted s t ++ m.written⟩, u)
      | none => none
    | .fault _ => none
    | .refused _ => none

/-- The value popped and not yet written to TDR_2: between DP4 and DP5 the local `D.v` holds it (R110, R111). -/
def inHand (s : State) : List (Reg Slot) := if s.seqD = Seq.dp5 then [s.d.v] else []

/-- The value written to TDR_2 and not yet sent: the holding register is full while TXE_2 = 0 (R111, R142). -/
def inHolding (s : State) : List (Reg Slot) := if s.txe2 = false then [s.tdr2] else []

/-- The frame that is sent of a register's value: its low FRAME_W bits (R65, R142). -/
def sentFrame (cfg : Config) : Reg Slot → Reg Slot
  | .unwritten => .unwritten
  | .holds v => .holds (frameOf cfg v)

/-! ### Runs and fairness (R77, R167, R168) -/

/-- An infinite run: every state follows from the one before it by its word, or nothing happens, at a place `n` with
`words n = none`. A run that ends is one in which nothing happens from some place on, which fairness allows in a
state with no step of the block alone (R168). -/
def IsRun (states : Nat → State) (words : Nat → Option Instr) : Prop :=
  ∀ n, (words n = none ∧ states (n + 1) = states n) ∨
    ∃ i, words n = some i ∧ i.isStimulus = true ∧ exec i (states n) = .next (states (n + 1))

/-- An instruction is enabled when it has a next state. -/
def Enabled (i : Instr) (s : State) : Prop := ∃ t, exec i s = .next t

/-- Weak fairness of one step, which the words `by_` take: if it stays enabled it is eventually taken (R167). -/
def WeaklyFair (i : Instr) (by_ : List Instr) (states : Nat → State) (words : Nat → Option Instr) : Prop :=
  ∀ n, (∀ m, n ≤ m → Enabled i (states m)) → ∃ m, n ≤ m ∧ ∃ j ∈ by_, words m = some j

/-- Weak fairness of an entry counted between activations: a latch whose entry is enabled in every quiescent state from
some place on is eventually taken, where quiescent states keep coming. It is R167's item 2 for the runs R153 says a
run under EQUAL is equivalent to, in which every activation is one step (DEDUCED, log entry 27). -/
def FairBetweenActivations (i : Instr) (by_ : List Instr) (states : Nat → State) (words : Nat → Option Instr) :
    Prop :=
  ∀ n, (∀ m, n ≤ m → Quiescent (states m) → Enabled i (states m)) →
    (∀ m, n ≤ m → ∃ k, m ≤ k ∧ Quiescent (states k)) → ∃ m, n ≤ m ∧ ∃ j ∈ by_, words m = some j

/-- The fairness the model assumes, and only this (R167), word for word. RUN_X takes ENTER_X and then micro-ops. Under
EQUAL it brings every accepted value to OUT (R131), arrivals without end included, where ingest activations are whole
RUN_G words or GPS arrivals end; where they are written out in micro-ops and never end, `ENTER_D` does not *stay*
enabled through them, and R131 takes R167's item 2 as `FairBetweenActivations` has it (DEDUCED, log entry 27).
`Obligations.NoStallUnderEqualPriority` states all three. -/
structure Fair (states : Nat → State) (words : Nat → Option Instr) : Prop where
  mstepG : WeaklyFair .mstepG [.mstepG] states words
  mstepD : WeaklyFair .mstepD [.mstepD] states words
  enterG : WeaklyFair .enterG [.enterG, .runG] states words
  enterD : WeaklyFair .enterD [.enterD, .runD] states words
  txDone : WeaklyFair .txDone [.txDone] states words

/-- The run has finitely many arrivals (R168): none from some place on. -/
def FinitelyManyArrivals (words : Nat → Option Instr) : Prop :=
  ∃ n, ∀ m, n ≤ m → ∀ f, words m ≠ some (.gpsRx f) ∧ words m ≠ some (.hostRx f)

/-- GPS frames stop arriving from some place on; commands may arrive without end. -/
def FinitelyManyGpsArrivals (words : Nat → Option Instr) : Prop :=
  ∃ n, ∀ m, n ≤ m → ∀ f, words m ≠ some (.gpsRx f)

/-- Every ingest activation of the run is one RUN_G word (R103, R153). -/
def WholeIngestActivations (states : Nat → State) (words : Nat → Option Instr) : Prop :=
  (states 0).seqG = Seq.idle ∧ ∀ n, words n ≠ some .enterG ∧ words n ≠ some .mstepG

/-- What keeps a request of the dispatch engine from being passed over without end, beside `Fair` (log entry 27). -/
def DispatchIsServed (states : Nat → State) (words : Nat → Option Instr) : Prop :=
  FinitelyManyGpsArrivals words ∨ WholeIngestActivations states words ∨
    FairBetweenActivations .enterD [.enterD, .runD] states words

/-- The run uses neither RESET nor a harness word: the premise of R129, counted from the last RESET. -/
def NoResetNoHarness (words : Nat → Option Instr) : Prop :=
  ∀ n, words n ≠ some .reset ∧ words n ≠ some .qPop ∧ ∀ d, words n ≠ some (.qPush d)

/-- The words of the first `n` places of a run, in order. -/
def wordsBefore (words : Nat → Option Instr) (n : Nat) : List Instr := (List.range n).filterMap words

end Sys2Proof.Machine
end

