-- ==== Sys2Proof/Certificates/Slice0/Obligations.lean ====
section
/-! DEFINITION. The statements for the provers: what the numbered rules of spec/ say the machine does, and the invariants and
whole-machine rules that follow from them. Each docstring says what it states and the rules it formalises. -/

open Sys2Proof Sys2Proof.Machine

/-! ### Encodings (30_encoding.md) -/

/-- A word of every stimulus operation, written out from the table of R69, decodes to that operation, and one word
of each refused kind is refused for its reason; the frame range depends on FRAME_W. [30_encoding.md section 4;
95_test_vectors.md section 2.8] -/
def Obligations.KnownStimulusWordsDecode : Prop :=
  decodeStimulus Config.default 0x1047#16 = .ok (.gpsRx 0x047#9) ∧
  decodeStimulus Config.default 0x20FF#16 = .ok (.hostRx 0x0FF#9) ∧
  decodeStimulus Config.default 0x3000#16 = .ok .txDone ∧
  decodeStimulus Config.default 0x4000#16 = .ok .runG ∧
  decodeStimulus Config.default 0x5000#16 = .ok .runD ∧
  decodeStimulus Config.default 0x6000#16 = .ok .enterG ∧
  decodeStimulus Config.default 0x7000#16 = .ok .enterD ∧
  decodeStimulus Config.default 0x8000#16 = .ok .mstepG ∧
  decodeStimulus Config.default 0x9000#16 = .ok .mstepD ∧
  decodeStimulus Config.default 0xA1FF#16 = .ok (.qPush 0x1FF#9) ∧
  decodeStimulus Config.default 0xB000#16 = .ok .qPop ∧
  decodeStimulus Config.default 0xF000#16 = .ok .reset ∧
  decodeStimulus Config.default 0x1147#16 = .error .frameRange ∧
  decodeStimulus { Config.default with frameW := .w9 } 0x1147#16 = .ok (.gpsRx 0x147#9) ∧
  decodeStimulus Config.default 0x1247#16 = .error .reservedBits ∧
  decodeStimulus Config.default 0x3001#16 = .error .nonzeroOperand ∧
  decodeStimulus Config.default 0xC000#16 = .error .reservedOp ∧
  decodeStimulus Config.default 0xEE00#16 = .error .reservedBits

/-- For every word and every parameter choice: the decoder refuses for RESERVED_BITS iff bits 11:9 are not zero; for
RESERVED_OP iff they are zero and the op is 0x0, 0xC, 0xD or 0xE; for NONZERO_OPERAND iff they are zero, the op
is one of the SN ops and bits 8:0 are not zero; for FRAME_RANGE iff they are zero, the op is GPS_RX or HOST_RX
and bits 8:0 are 2^FRAME_W or more. A refused word at the front of the trace makes the step a refusal. [R70] -/
def Obligations.StimulusWordsRefusedExactlyWhen : Prop :=
  (∀ (cfg : Config) (w : StimWord),
    (decodeStimulus cfg w = .error .reservedBits ↔ w.extractLsb' 9 3 ≠ 0#3) ∧
    (decodeStimulus cfg w = .error .reservedOp ↔
      w.extractLsb' 9 3 = 0#3 ∧ w.extractLsb' 12 4 ∈ [0x0#4, 0xC#4, 0xD#4, 0xE#4]) ∧
    (decodeStimulus cfg w = .error .nonzeroOperand ↔
      w.extractLsb' 9 3 = 0#3 ∧
      w.extractLsb' 12 4 ∈ [0x3#4, 0x4#4, 0x5#4, 0x6#4, 0x7#4, 0x8#4, 0x9#4, 0xB#4, 0xF#4] ∧
      w.extractLsb' 0 9 ≠ 0#9) ∧
    (decodeStimulus cfg w = .error .frameRange ↔
      w.extractLsb' 9 3 = 0#3 ∧ w.extractLsb' 12 4 ∈ [0x1#4, 0x2#4] ∧
      2 ^ cfg.frameW.bits ≤ (w.extractLsb' 0 9).toNat)) ∧
  (∀ (s : State) (w : StimWord) (rest : List StimWord) (e : DecodeError),
    s.trace = w :: rest → decodeStimulus s.cfg w = .error e → step s = .refused (refusalOf e))

/-- For every parameter choice, every well-formed stimulus operation is encoded by one word, and that word decodes
to the operation with every operand; and every word that decodes to an operation is that operation's encoding,
and the operation is well formed. [30_encoding.md section 4] -/
def Obligations.StimulusEncodeDecodeAgree : Prop :=
  (∀ (cfg : Config) (i : Instr), i.isStimulus = true → i.wf cfg = true →
    ∃ w, encode i = .stimulus w ∧ decodeStimulus cfg w = .ok i) ∧
  (∀ (cfg : Config) (w : StimWord) (i : Instr), decodeStimulus cfg w = .ok i →
    i.isStimulus = true ∧ i.wf cfg = true ∧ encode i = .stimulus w)

/-- Every well-formed row of a data class or a sequencer code is the row its encoding decodes to, and every nine-bit
value and every four-bit code is the encoding of a well-formed row of its own space: ingest classes (R66),
command classes (R67), seq_G and seq_D codes (R72). A value is ING_NULL iff it is 0x000, CMD_PIN_OFF iff 0x030,
CMD_PIN_ON iff 0x031. [30_encoding.md sections 2, 3 and 5] -/
def Obligations.ClassAndSequencerCodesRoundTrip : Prop :=
  (∀ (cfg : Config) (i : Instr), i.wf cfg = true →
    (∀ v, encode i = .ingestValue v → decodeIngest v = i) ∧
    (∀ v, encode i = .commandValue v → decodeCommand v = i) ∧
    (∀ c, encode i = .seqG c → decodeSeqG c = i) ∧
    (∀ c, encode i = .seqD c → decodeSeqD c = i)) ∧
  (∀ (cfg : Config) (v : Slot),
    encode (decodeIngest v) = .ingestValue v ∧ (decodeIngest v).wf cfg = true ∧
    (decodeIngest v = .ingNull ↔ v = 0x000#9) ∧
    encode (decodeCommand v) = .commandValue v ∧ (decodeCommand v).wf cfg = true ∧
    (decodeCommand v = .cmdPinOff ↔ v = 0x030#9) ∧ (decodeCommand v = .cmdPinOn ↔ v = 0x031#9)) ∧
  (∀ (cfg : Config) (c : SeqCode),
    encode (decodeSeqG c) = .seqG c ∧ (decodeSeqG c).wf cfg = true ∧
    encode (decodeSeqD c) = .seqD c ∧ (decodeSeqD c).wf cfg = true)

/-- Every row of a reserved op is refused in every state, for RESERVED_BITS when its bits 11:9 are not zero and
RESERVED_OP otherwise, a row of reserved bits for RESERVED_BITS; and the decoder refuses the words of these rows
for the same reasons. [30_encoding.md section 4] -/
def Obligations.ReservedRowsAreRefused : Prop :=
  ∀ (cfg : Config) (s : State) (op : BitVec 4) (z : BitVec 3) (d : Slot),
    (∀ i, i ∈ [Instr.reservedOp0 z d, .reservedOpC z d, .reservedOpD z d, .reservedOpE z d] →
      (z = 0#3 → exec i s = .refused .reservedOp) ∧ (z ≠ 0#3 → exec i s = .refused .reservedBits) ∧
      ∃ w, encode i = .stimulus w ∧ (z = 0#3 → decodeStimulus cfg w = .error .reservedOp) ∧
        (z ≠ 0#3 → decodeStimulus cfg w = .error .reservedBits)) ∧
    exec (.reservedBits op z d) s = .refused .reservedBits ∧
    ∃ w, encode (.reservedBits op z d) = .stimulus w ∧
      (z ≠ 0#3 → decodeStimulus cfg w = .error .reservedBits)

/-- When the next word of the trace decodes to an operation, the step is that operation's exec in the state with the
word taken off the trace; with no word left the step is stuck (the model's own input convention, log entry 3).
[30_encoding.md section 7 (R77); notes/assumptions/3.md] -/
def Obligations.StepRunsTheNextWord : Prop :=
  ∀ s : State,
    (∀ w rest i, s.trace = w :: rest → decodeStimulus s.cfg w = .ok i → step s = exec i { s with trace := rest }) ∧
    (s.trace = [] → step s = .fault .endOfTrace)

/-- In every state, running the two words of FEED v, CMD v or XMIT from the trace gives the outcome of the pseudo-
instruction, stuck and refused outcomes included; so do the words of a FEEDS string that is not empty; and
whenever STEPALL_G or STEPALL_D has a next state, some number of MSTEP words, at most 8 or 12, after the ENTER
word gives the same state, with the engine IDLE. [30_encoding.md section 7 (R76)] -/
def Obligations.PseudoInstructionsAreTheirWords : Prop :=
  (∀ (s : State) (v : Slot),
    Sys2Proof.core.run 2 { s with trace := [0x1000#16 ||| v.setWidth 16, 0x4000#16] } =
      exec (.feed v) { s with trace := [] } ∧
    Sys2Proof.core.run 2 { s with trace := [0x2000#16 ||| v.setWidth 16, 0x5000#16] } =
      exec (.cmd v) { s with trace := [] } ∧
    Sys2Proof.core.run 2 { s with trace := [0x5000#16, 0x3000#16] } = exec .xmit { s with trace := [] }) ∧
  (∀ (s : State) (cs : List Slot) (ws : List StimWord), cs ≠ [] → encode (.feeds cs) = .expansion ws →
    Sys2Proof.core.run ws.length { s with trace := ws } = exec (.feeds cs) { s with trace := [] }) ∧
  (∀ s t : State, exec .stepallG { s with trace := [] } = .next t → t.seqG = Seq.idle ∧ ∃ n, n ≤ 8 ∧
    Sys2Proof.core.run (n + 1) { s with trace := 0x6000#16 :: List.replicate n 0x8000#16 } = .next t) ∧
  (∀ s t : State, exec .stepallD { s with trace := [] } = .next t → t.seqD = Seq.idle ∧ ∃ n, n ≤ 12 ∧
    Sys2Proof.core.run (n + 1) { s with trace := 0x7000#16 :: List.replicate n 0x9000#16 } = .next t)

/-! ### Request lines, latches and scheduling (60_exceptions.md) -/

/-- IRQ_G is asserted iff RXNEIE_G is set and RXNE_G or ORE_G is; IRQ_2 iff TXEIE and TXE_2 are set, or RXNEIE_2 is
set and RXNE_2 or ORE_2 is. With TXEIE = 0 the transmitter's state does not matter. [60_exceptions.md section 2
(R145, R146); 43_arbiter.md (R128)] -/
def Obligations.RequestLinesFollowTheirFlags : Prop :=
  ∀ s : State,
    ((ports s).irqG = true ↔ s.rxneieG = true ∧ (s.rxneG = true ∨ s.oreG = true)) ∧
    ((ports s).irq2 = true ↔
      (s.txeie = true ∧ s.txe2 = true) ∨ (s.rxneie2 = true ∧ (s.rxne2 = true ∨ s.ore2 = true))) ∧
    (s.txeie = false → ∀ b, (ports { s with txe2 := b }).irq2 = (ports s).irq2)

/-- After every step of one micro-op, boundary event or harness word, to a state with no fault, each latch is set
iff it was set before, or its line is asserted and it rose in the step or its engine is IDLE. ENTER_G and
ENTER_D are followed by no update: each clears its own latch and leaves the other. RESET leaves both latches
clear. [R148] -/
def Obligations.LatchesAreSetByTheirLines : Prop :=
  (∀ (i : Instr) (s t : State),
    i ∈ [Instr.txDone, .mstepG, .mstepD, .qPop] ∨ (∃ d, i = .gpsRx d ∨ i = .hostRx d ∨ i = .qPush d) →
    exec i s = .next t → NoFault t →
    (t.pendG = true ↔ s.pendG = true ∨ (irqG t = true ∧ (irqG s = false ∨ t.seqG = Seq.idle))) ∧
    (t.pendD = true ↔ s.pendD = true ∨ (irq2 t = true ∧ (irq2 s = false ∨ t.seqD = Seq.idle)))) ∧
  (∀ s t : State, exec .enterG s = .next t → t.pendG = false ∧ t.pendD = s.pendD) ∧
  (∀ s t : State, exec .enterD s = .next t → t.pendD = false ∧ t.pendG = s.pendG) ∧
  (∀ s t : State, exec .reset s = .next t → t.pendG = false ∧ t.pendD = false)

/-- ENTER_G is enabled iff no fault is recorded, PEND_G is set, the ingest engine is IDLE and, unless PRIO_MODE is
G_OVER_D, the dispatch engine is IDLE; it clears PEND_G, makes the ingest locals unwritten, sets seq_G to IG1
and changes nothing else. Otherwise it is stuck. [R149] -/
def Obligations.EnterGStartsAnIngestActivation : Prop :=
  ∀ s : State,
    (CanEnterG s → exec .enterG s = .next { s with pendG := false, g := GRegs.unwritten, seqG := Seq.ig1 }) ∧
    (¬ CanEnterG s → ∃ r, exec .enterG s = .fault r)

/-- ENTER_D is enabled iff no fault is recorded, PEND_D is set, the dispatch engine is IDLE and, unless PRIO_MODE is
D_OVER_G, the ingest engine is IDLE; it clears PEND_D, makes the dispatch locals unwritten, sets seq_D to DP1
and changes nothing else. Otherwise it is stuck. [R150] -/
def Obligations.EnterDStartsADispatchActivation : Prop :=
  ∀ s : State,
    (CanEnterD s → exec .enterD s = .next { s with pendD := false, d := DRegs.unwritten, seqD := Seq.dp1 }) ∧
    (¬ CanEnterD s → ∃ r, exec .enterD s = .fault r)

/-- MSTEP_G is enabled iff no fault is recorded, seq_G is not IDLE and, under D_OVER_G, the dispatch engine is IDLE;
it then has the next state of the row that the code in seq_G names. MSTEP_D is the same with the engines
exchanged and G_OVER_D. Otherwise each is stuck. [60_exceptions.md section 3 (R151, R152)] -/
def Obligations.MstepTakesTheCurrentMicroOp : Prop :=
  ∀ s : State,
    (NoFault s ∧ s.seqG ≠ Seq.idle ∧ (s.cfg.prio = .dOverG → s.seqD = Seq.idle) →
      ∃ t, exec .mstepG s = .next t ∧ exec (decodeSeqG s.seqG) s = .next t) ∧
    (¬ (NoFault s ∧ s.seqG ≠ Seq.idle ∧ (s.cfg.prio = .dOverG → s.seqD = Seq.idle)) →
      ∃ r, exec .mstepG s = .fault r) ∧
    (NoFault s ∧ s.seqD ≠ Seq.idle ∧ (s.cfg.prio = .gOverD → s.seqG = Seq.idle) →
      ∃ t, exec .mstepD s = .next t ∧ exec (decodeSeqD s.seqD) s = .next t) ∧
    (¬ (NoFault s ∧ s.seqD ≠ Seq.idle ∧ (s.cfg.prio = .gOverD → s.seqG = Seq.idle)) →
      ∃ r, exec .mstepD s = .fault r)

/-- An engine that may step and whose sequencer holds a code R72 marks unused goes to the fault state with the
record (SEQ_CODE, MSTEP_G) or (SEQ_CODE, MSTEP_D) and nothing else changed, by the code's row and by MSTEP
alike. That nothing else changes, and no pending update follows, is the model's reading of a fault (log entry
5). [30_encoding.md section 5 (R72); 60_exceptions.md section 1 (R144); notes/assumptions/5.md] -/
def Obligations.UnusedCodesRaiseSeqCode : Prop :=
  ∀ (s : State) (c : SeqCode),
    (GoesG c s → 9 ≤ c.toNat →
      exec (.unusedG c) s = .next { s with fault := some ⟨.seqCode, .mstepG⟩ } ∧
      exec .mstepG s = .next { s with fault := some ⟨.seqCode, .mstepG⟩ }) ∧
    (GoesD c s → 14 ≤ c.toNat →
      exec (.unusedD c) s = .next { s with fault := some ⟨.seqCode, .mstepD⟩ } ∧
      exec .mstepD s = .next { s with fault := some ⟨.seqCode, .mstepD⟩ })

/-- The row IDLE of seq_G or seq_D is stuck in every state, and with no fault recorded and the engine IDLE both that
row and MSTEP are stuck because the engine is idle. That the row IDLE is stuck also where the sequencer holds
another code is the model's reading (log entry 7), and so is the reason named where PRIO_MODE blocks the engine
too (log entry 21). [60_exceptions.md section 6 (R170); 60_exceptions.md section 3 (R151, R152);
notes/assumptions/7.md; notes/assumptions/21.md] -/
def Obligations.IdleEnginesTakeNoMicroOp : Prop :=
  ∀ s : State,
    (∃ r, exec .idleG s = .fault r) ∧ (∃ r, exec .idleD s = .fault r) ∧
    (NoFault s → s.seqG = Seq.idle →
      exec .idleG s = .fault .engineIdle ∧ exec .mstepG s = .fault .engineIdle) ∧
    (NoFault s → s.seqD = Seq.idle →
      exec .idleD s = .fault .engineIdle ∧ exec .mstepD s = .fault .engineIdle)

/-- RUN_X and STEPALL_X are stuck whenever ENTER_X is not enabled; Q_PUSH and Q_POP whenever an engine is active;
TX_DONE whenever TXE_2 = 1. [60_exceptions.md section 6 (R170)] -/
def Obligations.RunAndHarnessWordsStuckWhen : Prop :=
  ∀ s : State,
    (¬ CanEnterG s → (∃ r, exec .runG s = .fault r) ∧ ∃ r, exec .stepallG s = .fault r) ∧
    (¬ CanEnterD s → (∃ r, exec .runD s = .fault r) ∧ ∃ r, exec .stepallD s = .fault r) ∧
    (¬ Quiescent s → (∀ d, ∃ r, exec (.qPush d) s = .fault r) ∧ ∃ r, exec .qPop s = .fault r) ∧
    (s.txe2 = true → ∃ r, exec .txDone s = .fault r)

/-- In a state with FAULT set, every well-formed row of the table is stuck, because a fault is recorded; so is the
step of every word that decodes. [60_exceptions.md section 1 (R144); 10_state.md section 4 (R34)] -/
def Obligations.FaultedStateHasNoStep : Prop :=
  ∀ s : State, s.fault ≠ none →
    (∀ i : Instr, i.wf s.cfg = true → exec i s = .fault .faultRecorded) ∧
    (∀ w rest i, s.trace = w :: rest → decodeStimulus s.cfg w = .ok i → step s = .fault .faultRecorded)

/-- In a final state (R168) ENTER_G, ENTER_D, MSTEP_G, MSTEP_D, RUN_G, RUN_D and TX_DONE are all stuck; and a final
state in which the arbiter is coherent has an empty queue. [60_exceptions.md section 6 (R168); 43_arbiter.md
(R129)] -/
def Obligations.FinalStatesHaveNoStepOfTheBlock : Prop :=
  ∀ s : State, Final s →
    (∀ i ∈ [Instr.enterG, .enterD, .mstepG, .mstepD, .runG, .runD, .txDone], ∃ r, exec i s = .fault r) ∧
    (Coherent s → contents s = [])

/-! ### The ingest engine (41_ingest.md) -/

/-- IG1 writes RXNE_G to G.rx and goes to IG2 if it is set, to IG7 if not. IG7 writes ORE_G to G.o and goes to IG8
if it is set, to IDLE if not. Nothing else changes but by the pending update. [R95; R101] -/
def Obligations.Ig1AndIg7TestTheirFlags : Prop :=
  ∀ s : State,
    (GoesG Seq.ig1 s → exec .ig1 s = .next (pendUpdate s
      { s with g := { s.g with rx := .holds s.rxneG }, seqG := if s.rxneG then Seq.ig2 else Seq.ig7 })) ∧
    (GoesG Seq.ig7 s → exec .ig7 s = .next (pendUpdate s
      { s with g := { s.g with o := .holds s.oreG }, seqG := if s.oreG then Seq.ig8 else Seq.idle }))

/-- IG2 with RDR_G holding v writes v to G.v, clears RXNE_G and goes to IG7 if v is 0x000 on all nine bits, to IG3
otherwise; RDR_G keeps its value. Nothing else changes but by the pending update. With RDR_G unwritten it raises
UNWRITTEN at IG2 (R135, R144), and changes nothing else, which is the model's reading of a fault (log entry 5).
[41_ingest.md (R96); 44_links.md section 2 (R135); 60_exceptions.md section 1 (R144); notes/assumptions/5.md] -/
def Obligations.Ig2ReadsOnceAndFiltersNulls : Prop :=
  ∀ (s : State) (v : Slot), GoesG Seq.ig2 s →
    (s.rdrG = .holds v → exec .ig2 s = .next (pendUpdate s
      { s with
        rxneG := false
        g := { s.g with v := .holds v }
        seqG := if v = 0x000#9 then Seq.ig7 else Seq.ig3 })) ∧
    (s.rdrG = .unwritten → exec .ig2 s = .next { s with fault := some ⟨.unwritten, .ig2⟩ })

/-- IG3 writes HEAD to G.h and TAIL to G.t. If LEN is CAP it goes to IG7 and the value is dropped; if LEN is below
CAP it goes to IG4; if the pair gives more than CAP it raises LEN_RANGE at IG3. Nothing else changes but by the
pending update. [R97] -/
def Obligations.Ig3TestsFull : Prop :=
  ∀ s : State, GoesG Seq.ig3 s →
    (len s = s.cfg.cap → exec .ig3 s = .next (pendUpdate s
      { s with g := { s.g with h := .holds s.head, t := .holds s.tail }, seqG := Seq.ig7 })) ∧
    (len s < s.cfg.cap → exec .ig3 s = .next (pendUpdate s
      { s with g := { s.g with h := .holds s.head, t := .holds s.tail }, seqG := Seq.ig4 })) ∧
    (s.cfg.cap < len s → ∃ t, exec .ig3 s = .next t ∧ t.fault = some ⟨.lenRange, .ig3⟩)

/-- IG4 with G.t holding t and G.v holding v writes v to slot t mod CAP, every other slot keeping its value, and
goes to IG5. IG5 with G.t holding t sets TAIL to (t + 1) mod (2*CAP) and goes to IG6. Nothing else changes but
by the pending update. With a local they read unwritten they raise UNWRITTEN at their own site (R26, R144), and
change nothing else, which is the model's reading of a fault (log entry 5). In a state that meets the safety
invariant IG4 leaves the queue's contents as they are, the slot being outside the queue, and IG5 appends the
value of G.v to them. [41_ingest.md (R98, R99); 10_state.md section 2 (R26); 40_queue.md section 1 (R81);
60_exceptions.md section 1 (R144); notes/assumptions/5.md] -/
def Obligations.Ig4WritesAndIg5PublishesTheSlot : Prop :=
  (∀ (s : State) (t : Nat) (v : Slot), GoesG Seq.ig4 s → s.cfg.wf → s.g.t = .holds t → s.g.v = .holds v →
    ∃ b : Memory, b.read (t % s.cfg.cap) = .holds v ∧ (∀ j, j ≠ t % s.cfg.cap → b.read j = s.buf.read j) ∧
      exec .ig4 s = .next (pendUpdate s { s with buf := b, seqG := Seq.ig5 })) ∧
  (∀ s : State, GoesG Seq.ig4 s → s.g.t = .unwritten ∨ s.g.v = .unwritten →
    exec .ig4 s = .next { s with fault := some ⟨.unwritten, .ig4⟩ }) ∧
  (∀ (s : State) (t : Nat), GoesG Seq.ig5 s → s.g.t = .holds t →
    exec .ig5 s = .next (pendUpdate s { s with tail := (t + 1) % (2 * s.cfg.cap), seqG := Seq.ig6 })) ∧
  (∀ s : State, GoesG Seq.ig5 s → s.g.t = .unwritten →
    exec .ig5 s = .next { s with fault := some ⟨.unwritten, .ig5⟩ }) ∧
  (∀ s : State, SafeInv s →
    (GoesG Seq.ig4 s → ∃ t, exec .ig4 s = .next t ∧ contents t = contents s) ∧
    (GoesG Seq.ig5 s → ∃ t, exec .ig5 s = .next t ∧ contents t = contents s ++ [s.g.v]))

/-- IG6 sets TXEIE, whatever it was, and goes to IG7. IG8 clears ORE_G and ends the activation; RXNE_G and RDR_G do
not change. Nothing else changes but by the pending update. [R100; R102] -/
def Obligations.Ig6SetsTxeieAndIg8ClearsOre : Prop :=
  ∀ s : State,
    (GoesG Seq.ig6 s → exec .ig6 s = .next (pendUpdate s { s with txeie := true, seqG := Seq.ig7 })) ∧
    (GoesG Seq.ig8 s → exec .ig8 s = .next (pendUpdate s { s with oreG := false, seqG := Seq.idle }))

/-- From every state that meets the safety invariant and in which ENTER_G is enabled, RUN_G has a next state with
the ingest engine IDLE and no fault; apart from the ingest locals it is what INGEST() of 41_ingest.md, with PUSH
as one atomic function, makes of the state ENTER_G leaves, followed by one pending update. When ENTER_G is not
enabled RUN_G is stuck. [R103] -/
def Obligations.RunGIsTheIngestFunction : Prop :=
  ∀ s : State,
    (SafeInv s → CanEnterG s → ∃ t, exec .runG s = .next t ∧ NoFault t ∧ t.seqG = Seq.idle ∧
      { t with g := GRegs.unwritten } =
        pendUpdate (enteredG s) { ingest (enteredG s) with seqG := Seq.idle }) ∧
    (¬ CanEnterG s → ∃ r, exec .runG s = .fault r)

/-- RUN_G, from a state that meets the safety invariant, leaves everything but BUF, TAIL, TXEIE, RXNE_G, ORE_G, the
ingest locals and the latches as it was: HEAD, PIN, PINLOG, OUT, RES, every link 2 flag and register but TXEIE,
and the dispatch engine among the rest. It ends with RXNE_G and ORE_G clear; and either the queue and TXEIE are
unchanged, or RXNE_G was set, RDR_G held a value v that is not 0x000, v is now at the tail of the queue, TXEIE
is set and no slot but the one TAIL named is written. [41_ingest.md (R104)] -/
def Obligations.IngestActivationProperties : Prop :=
  ∀ s t : State, SafeInv s → exec .runG s = .next t →
    { t with
      buf := s.buf, tail := s.tail, txeie := s.txeie, rxneG := s.rxneG, oreG := s.oreG, g := s.g
      pendG := s.pendG, pendD := s.pendD } = s ∧
    t.rxneG = false ∧ t.oreG = false ∧
    ((contents t = contents s ∧ t.buf = s.buf ∧ t.tail = s.tail ∧ t.txeie = s.txeie) ∨
      ∃ v, s.rxneG = true ∧ s.rdrG = .holds v ∧ v ≠ 0x000#9 ∧ len s < s.cfg.cap ∧
        contents t = contents s ++ [.holds v] ∧ t.txeie = true ∧
        ∀ j, j ≠ slotIndex s.cfg s.tail → t.buf.read j = s.buf.read j)

/-- At IG2 with 0x000 in RDR_G, ING_NULL writes it to G.v, clears RXNE_G and goes to IG7, and nothing else changes
but by the pending update. At IG2 with v other than 0x000 in RDR_G, and the safety invariant, ING_DATA v clears
RXNE_G and leads, without a fault, to IG6 with v at the tail of the queue when the queue was not full, no slot
but the one TAIL named being written, and to IG7 with the queue unchanged when it was; everything but BUF, TAIL,
RXNE_G, the ingest engine and the latches is unchanged. That a data-class row is a step at all, the run of
micro-ops from IG2 to IG6 or IG7, is the model's choice (log entry 8). [30_encoding.md section 2 (R66);
41_ingest.md (R96, R97); notes/assumptions/8.md] -/
def Obligations.IngestClassesAreFilteredOrOffered : Prop :=
  (∀ s : State, GoesG Seq.ig2 s → s.rdrG = .holds 0x000#9 →
    exec .ingNull s = .next (pendUpdate s
      { s with rxneG := false, g := { s.g with v := .holds 0x000#9 }, seqG := Seq.ig7 })) ∧
  (∀ (s : State) (v : Slot), SafeInv s → GoesG Seq.ig2 s → s.rdrG = .holds v → v ≠ 0x000#9 →
    ∃ t, exec (.ingData v) s = .next t ∧ NoFault t ∧ t.rxneG = false ∧
      (len s < s.cfg.cap → t.seqG = Seq.ig6 ∧ contents t = contents s ++ [.holds v] ∧
        ∀ j, j ≠ slotIndex s.cfg s.tail → t.buf.read j = s.buf.read j) ∧
      (len s = s.cfg.cap → t.seqG = Seq.ig7 ∧ contents t = contents s ∧ t.tail = s.tail ∧ t.buf = s.buf) ∧
      { t with
        buf := s.buf, tail := s.tail, rxneG := s.rxneG, g := s.g, seqG := s.seqG, pendG := s.pendG
        pendD := s.pendD } = s)

/-! ### The dispatch engine (42_dispatch.md) -/

/-- DP1 writes TXE_2 to D.te and goes to DP2 if it is set, whatever TXEIE is, to DP8 if not. DP8 writes RXNE_2 to
D.rn and goes to DP9 or DP12. DP12 writes ORE_2 to D.o and goes to DP13 or IDLE. Nothing else changes but by the
pending update. [R107; R114; R120] -/
def Obligations.DpFlagTestsBranch : Prop :=
  ∀ s : State,
    (GoesD Seq.dp1 s → exec .dp1 s = .next (pendUpdate s
      { s with d := { s.d with te := .holds s.txe2 }, seqD := if s.txe2 then Seq.dp2 else Seq.dp8 })) ∧
    (GoesD Seq.dp8 s → exec .dp8 s = .next (pendUpdate s
      { s with d := { s.d with rn := .holds s.rxne2 }, seqD := if s.rxne2 then Seq.dp9 else Seq.dp12 })) ∧
    (GoesD Seq.dp12 s → exec .dp12 s = .next (pendUpdate s
      { s with d := { s.d with o := .holds s.ore2 }, seqD := if s.ore2 then Seq.dp13 else Seq.idle }))

/-- DP2 writes TAIL to D.t and HEAD to D.h. If LEN is 0 it goes to DP7; if LEN is between 1 and CAP it goes to DP3;
if the pair gives more than CAP it raises LEN_RANGE at DP2. Nothing else changes but by the pending update.
[R108] -/
def Obligations.Dp2TestsEmpty : Prop :=
  ∀ s : State, GoesD Seq.dp2 s →
    (len s = 0 → exec .dp2 s = .next (pendUpdate s
      { s with d := { s.d with t := .holds s.tail, h := .holds s.head }, seqD := Seq.dp7 })) ∧
    (0 < len s → len s ≤ s.cfg.cap → exec .dp2 s = .next (pendUpdate s
      { s with d := { s.d with t := .holds s.tail, h := .holds s.head }, seqD := Seq.dp3 })) ∧
    (s.cfg.cap < len s → ∃ t, exec .dp2 s = .next t ∧ t.fault = some ⟨.lenRange, .dp2⟩)

/-- DP3 with D.h holding h and slot h mod CAP holding v writes v to D.v and goes to DP4. DP4 with D.h holding h sets
HEAD to (h + 1) mod (2*CAP) and goes to DP5; the slot keeps its value. Nothing else changes but by the pending
update. With the local or the slot unwritten they raise UNWRITTEN at their own site (R26, R144), and change
nothing else, which is the model's reading of a fault (log entry 5). In a state that meets the safety invariant
DP3 copies the value at the head of the queue to D.v, the queue staying as it is, and DP4 takes off the queue
exactly the value D.v holds, in every PRIO_MODE. [42_dispatch.md section 1 (R109, R110); 10_state.md section 2
(R26); 20_memory.md section 3 (R58); 60_exceptions.md section 1 (R144); notes/assumptions/5.md] -/
def Obligations.Dp3ReadsAndDp4ReleasesTheSlot : Prop :=
  (∀ (s : State) (h : Nat), GoesD Seq.dp3 s → s.cfg.wf → s.d.h = .holds h →
    (∀ v, s.buf.read (h % s.cfg.cap) = .holds v →
      exec .dp3 s = .next (pendUpdate s { s with d := { s.d with v := .holds v }, seqD := Seq.dp4 })) ∧
    (s.buf.read (h % s.cfg.cap) = .unwritten →
      exec .dp3 s = .next { s with fault := some ⟨.unwritten, .dp3⟩ })) ∧
  (∀ (s : State) (h : Nat), GoesD Seq.dp4 s → s.d.h = .holds h →
    exec .dp4 s = .next (pendUpdate s { s with head := (h + 1) % (2 * s.cfg.cap), seqD := Seq.dp5 })) ∧
  (∀ s : State, s.d.h = .unwritten →
    (GoesD Seq.dp3 s → exec .dp3 s = .next { s with fault := some ⟨.unwritten, .dp3⟩ }) ∧
    (GoesD Seq.dp4 s → exec .dp4 s = .next { s with fault := some ⟨.unwritten, .dp4⟩ })) ∧
  (∀ s : State, SafeInv s →
    (GoesD Seq.dp3 s → ∃ x rest t, contents s = x :: rest ∧ exec .dp3 s = .next t ∧ t.d.v = x ∧
      contents t = contents s) ∧
    (GoesD Seq.dp4 s → ∃ t, exec .dp4 s = .next t ∧ contents s = s.d.v :: contents t ∧ t.d = s.d))

/-- DP5 with TXE_2 = 1 and D.v holding v writes v to TDR_2, clears TXE_2 and goes to DP6, and nothing else changes
but by the pending update. With TXE_2 = 0 it raises TDR_OVERWRITE at DP5 and writes nothing else; with TXE_2 = 1
and D.v unwritten it raises UNWRITTEN (R144). That a fault here leaves everything else as it was, the latches
included, is the model's reading (log entry 5). [42_dispatch.md section 1 (R111); 60_exceptions.md section 1
(R144); notes/assumptions/5.md] -/
def Obligations.Dp5WritesTheTransmitRegister : Prop :=
  ∀ s : State, GoesD Seq.dp5 s →
    (∀ v, s.txe2 = true → s.d.v = .holds v → exec .dp5 s = .next (pendUpdate s
      { s with tdr2 := .holds v, txe2 := false, seqD := Seq.dp6 })) ∧
    (s.txe2 = false → exec .dp5 s = .next { s with fault := some ⟨.tdrOverwrite, .dp5⟩ }) ∧
    (s.txe2 = true → s.d.v = .unwritten → exec .dp5 s = .next { s with fault := some ⟨.unwritten, .dp5⟩ })

/-- DP6 writes TAIL to D.t and goes to DP7 if it equals HEAD, to DP8 if not, TXEIE staying as it is. DP7 clears
TXEIE, whatever it was, and goes to DP8. Nothing else changes but by the pending update. [R112; R113] -/
def Obligations.Dp6RetestsEmptyAndDp7ClearsTxeie : Prop :=
  ∀ s : State,
    (GoesD Seq.dp6 s → exec .dp6 s = .next (pendUpdate s
      { s with d := { s.d with t := .holds s.tail }, seqD := if s.head = s.tail then Seq.dp7 else Seq.dp8 })) ∧
    (GoesD Seq.dp7 s → exec .dp7 s = .next (pendUpdate s { s with txeie := false, seqD := Seq.dp8 }))

/-- DP9 with RDR_2 holding c writes c to D.c, clears RXNE_2 and goes to DP10 if c is 0x030, to DP11 if c is 0x031,
to DP12 for every other value, 0x130 and 0x131 included. Nothing else changes but by the pending update. With
RDR_2 unwritten it raises UNWRITTEN at DP9 (R135, R144), and changes nothing else, which is the model's reading
of a fault (log entry 5). [42_dispatch.md section 2 (R115, R116); 44_links.md section 2 (R135); 60_exceptions.md
section 1 (R144); notes/assumptions/5.md] -/
def Obligations.Dp9ReadsAndDecodesTheCommand : Prop :=
  ∀ s : State, GoesD Seq.dp9 s →
    (∀ c, s.rdr2 = .holds c → exec .dp9 s = .next (pendUpdate s
      { s with
        rxne2 := false
        d := { s.d with c := .holds c }
        seqD := if c = 0x030#9 then Seq.dp10 else if c = 0x031#9 then Seq.dp11 else Seq.dp12 })) ∧
    (s.rdr2 = .unwritten → exec .dp9 s = .next { s with fault := some ⟨.unwritten, .dp9⟩ })

/-- DP10 drives the pin OFF and appends RESET to PINLOG, DP11 drives it ON and appends SET, whatever the pin was,
and both go to DP12. DP13 clears ORE_2 and ends the activation. Nothing else changes but by the pending update.
[R117; R118; R121] -/
def Obligations.DpPinAndOverrunStrobes : Prop :=
  ∀ s : State,
    (GoesD Seq.dp10 s → exec .dp10 s = .next (pendUpdate s
      { s with pin := .off, pinlog := s.pinlog ++ [.reset], seqD := Seq.dp12 })) ∧
    (GoesD Seq.dp11 s → exec .dp11 s = .next (pendUpdate s
      { s with pin := .on, pinlog := s.pinlog ++ [.set], seqD := Seq.dp12 })) ∧
    (GoesD Seq.dp13 s → exec .dp13 s = .next (pendUpdate s { s with ore2 := false, seqD := Seq.idle }))

/-- From every state that meets the safety invariant and in which ENTER_D is enabled, RUN_D has a next state with
the dispatch engine IDLE and no fault; apart from the dispatch locals it is what DISPATCH() of 42_dispatch.md,
with POP as one atomic function, makes of the state ENTER_D leaves, followed by one pending update. When ENTER_D
is not enabled RUN_D is stuck. [R122] -/
def Obligations.RunDIsTheDispatchFunction : Prop :=
  ∀ s : State,
    (SafeInv s → CanEnterD s → ∃ t, exec .runD s = .next t ∧ NoFault t ∧ t.seqD = Seq.idle ∧
      { t with d := DRegs.unwritten } =
        pendUpdate (enteredD s) { dispatch (enteredD s) with seqD := Seq.idle }) ∧
    (¬ CanEnterD s → ∃ r, exec .runD s = .fault r)

/-- RUN_D, from a state that meets the safety invariant, leaves everything but HEAD, TXEIE, PIN, PINLOG, RXNE_2,
ORE_2, TXE_2, TDR_2, the dispatch locals and the latches as it was (TAIL, BUF, the GPS link, RXNEIE_2, OUT, RES
and the ingest engine among the rest) and ends with RXNE_2 and ORE_2 clear. If TXE_2 was 0, or the queue was
empty, it pops and transmits nothing, and clears TXEIE only in the second case. If TXE_2 was 1 and the queue
held x at its head, x is popped and written to TDR_2, TXE_2 is cleared, and TXEIE is cleared if the queue is now
empty and unchanged if not. The pin is written at most once: OFF for the command 0x030, ON for 0x031, and not at
all otherwise. [42_dispatch.md section 4 (R123); 90_conflicts.md C2] -/
def Obligations.DispatchActivationProperties : Prop :=
  ∀ s t : State, SafeInv s → exec .runD s = .next t →
    { t with
      head := s.head, txeie := s.txeie, pin := s.pin, pinlog := s.pinlog, rxne2 := s.rxne2, ore2 := s.ore2
      txe2 := s.txe2, tdr2 := s.tdr2, d := s.d, pendG := s.pendG, pendD := s.pendD } = s ∧
    t.rxne2 = false ∧ t.ore2 = false ∧
    (s.txe2 = false → t.head = s.head ∧ t.txe2 = false ∧ t.tdr2 = s.tdr2 ∧ t.txeie = s.txeie) ∧
    (s.txe2 = true → contents s = [] → t.head = s.head ∧ t.txe2 = true ∧ t.tdr2 = s.tdr2 ∧ t.txeie = false) ∧
    (∀ x rest, s.txe2 = true → contents s = x :: rest →
      contents t = rest ∧ t.tdr2 = x ∧ t.txe2 = false ∧
      (rest = [] → t.txeie = false) ∧ (rest ≠ [] → t.txeie = s.txeie)) ∧
    (s.rxne2 = true → s.rdr2 = .holds 0x030#9 → t.pin = .off ∧ t.pinlog = s.pinlog ++ [.reset]) ∧
    (s.rxne2 = true → s.rdr2 = .holds 0x031#9 → t.pin = .on ∧ t.pinlog = s.pinlog ++ [.set]) ∧
    (s.rxne2 = false ∨ (s.rdr2 ≠ .holds 0x030#9 ∧ s.rdr2 ≠ .holds 0x031#9) →
      t.pin = s.pin ∧ t.pinlog = s.pinlog)

/-- At DP9 with the class's value in RDR_2: CMD_PIN_OFF reads the command, drives the pin OFF with one strobe and
reaches DP12; CMD_PIN_ON does the same with ON; CMD_OTHER v reads the command, goes to DP12 and changes nothing
else. RXNE_2 is clear after each; the queue, TXEIE, the transmitter, the GPS link, OUT and the ingest engine do
not change. That a command-class row is a step at all, DP9 and then DP10 or DP11, or DP9 alone, is the model's
choice (log entry 8). [30_encoding.md section 3 (R67); 42_dispatch.md section 2 (R117, R118, R119);
notes/assumptions/8.md] -/
def Obligations.CommandsDriveThePinOrDoNothing : Prop :=
  ∀ s : State, GoesD Seq.dp9 s →
    (s.rdr2 = .holds 0x030#9 → ∃ t, exec .cmdPinOff s = .next t ∧
      { t with pendG := s.pendG, pendD := s.pendD } =
        { s with rxne2 := false, d := { s.d with c := .holds 0x030#9 }, pin := .off,
                 pinlog := s.pinlog ++ [.reset], seqD := Seq.dp12 }) ∧
    (s.rdr2 = .holds 0x031#9 → ∃ t, exec .cmdPinOn s = .next t ∧
      { t with pendG := s.pendG, pendD := s.pendD } =
        { s with rxne2 := false, d := { s.d with c := .holds 0x031#9 }, pin := .on,
                 pinlog := s.pinlog ++ [.set], seqD := Seq.dp12 }) ∧
    (∀ v, s.rdr2 = .holds v → v ≠ 0x030#9 → v ≠ 0x031#9 →
      exec (.cmdOther v) s = .next (pendUpdate s
        { s with rxne2 := false, d := { s.d with c := .holds v }, seqD := Seq.dp12 }))

/-- From IG1, no more than 8 MSTEP_G words bring the ingest engine to IDLE or to a fault; from DP1, no more than 12
MSTEP_D words bring the dispatch engine to IDLE or to a fault. No step of an activation waits. [41_ingest.md
(R104); 42_dispatch.md section 4 (R123); 70_reset_and_hazards.md section 3 (R177)] -/
def Obligations.ActivationsEndInTime : Prop :=
  (∀ s : State, GoesG Seq.ig1 s → ∃ n t, n ≤ 8 ∧
    Sys2Proof.core.run n { s with trace := List.replicate n 0x8000#16 } = .next t ∧
    (t.seqG = Seq.idle ∨ t.fault ≠ none)) ∧
  (∀ s : State, GoesD Seq.dp1 s → ∃ n t, n ≤ 12 ∧
    Sys2Proof.core.run n { s with trace := List.replicate n 0x9000#16 } = .next t ∧
    (t.seqD = Seq.idle ∨ t.fault ≠ none))

/-- From every state that meets the safety invariant, STEPALL_G and RUN_G have the same outcome, a next state when
ENTER_G is enabled; so have STEPALL_D and RUN_D. [30_encoding.md section 7 (R76)] -/
def Obligations.StepallTakesTheStepsOfRun : Prop :=
  ∀ s : State, SafeInv s →
    (exec .stepallG s = exec .runG s ∧ (CanEnterG s → ∃ t, exec .stepallG s = .next t ∧ NoFault t)) ∧
    (exec .stepallD s = exec .runD s ∧ (CanEnterD s → ∃ t, exec .stepallD s = .next t ∧ NoFault t))

/-! ### The bounded queue (40_queue.md) -/

/-- With no fault recorded and CAP at least 1, PUSH(v) on a queue that is not full writes v to slot TAIL mod CAP,
every other slot keeping its value, and advances TAIL modulo 2*CAP; on a full queue it changes nothing; on a
cursor pair with more than CAP it raises LEN_RANGE. v may be 0x000. Nothing else changes. With both engines IDLE
Q_PUSH does the same in the three cases and writes the result to RES, OK or REJECTED, and the pending update
follows; its fault is at the site Q_PUSH, on every state, not only a reachable one. That PUSH run alone is
followed by no pending update and faults at its own site is the model's reading (log entry 9). [40_queue.md
sections 2 and 3 (R85, R92); notes/assumptions/9.md] -/
def Obligations.PushIsAtomicPush : Prop :=
  ∀ (s : State) (v : Slot), NoFault s → s.cfg.wf →
    (len s < s.cfg.cap → ∃ b : Memory, b.read (s.tail % s.cfg.cap) = .holds v ∧
      (∀ j, j ≠ s.tail % s.cfg.cap → b.read j = s.buf.read j) ∧
      exec (.push v) s = .next { s with buf := b, tail := (s.tail + 1) % (2 * s.cfg.cap) } ∧
      (∀ site k, pushSlot v site s k = k .ok { s with buf := b, tail := (s.tail + 1) % (2 * s.cfg.cap) }) ∧
      (Quiescent s → exec (.qPush v) s = .next (pendUpdate s
        { s with buf := b, tail := (s.tail + 1) % (2 * s.cfg.cap), res := .ok }))) ∧
    (len s = s.cfg.cap → exec (.push v) s = .next s ∧ (∀ site k, pushSlot v site s k = k .rejected s) ∧
      (Quiescent s → exec (.qPush v) s = .next (pendUpdate s { s with res := .rejected }))) ∧
    (s.cfg.cap < len s → exec (.push v) s = .next { s with fault := some ⟨.lenRange, .push⟩ } ∧
      (∀ site k, pushSlot v site s k = { s with fault := some ⟨.lenRange, site⟩ }) ∧
      (Quiescent s → ∃ t, exec (.qPush v) s = .next t ∧ t.fault = some ⟨.lenRange, .qPush⟩))

/-- With no fault recorded and CAP at least 1, POP() on a queue whose head slot holds v advances HEAD modulo 2*CAP,
with the result VALUE(v), and leaves the slot as it was; on an empty queue it changes nothing, with the result
EMPTY; on a cursor pair with more than CAP it raises LEN_RANGE, and on a head slot never written UNWRITTEN.
Nothing else changes. With both engines IDLE Q_POP does the same in the four cases and writes the result to RES,
VALUE(v) or EMPTY, and the pending update follows; its faults are at the site Q_POP, on every state, not only a
reachable one. That POP run alone is followed by no pending update and faults at its own site is the model's
reading (log entry 9); the fault on a slot never written is R144's. [40_queue.md sections 2 and 3 (R86, R93);
60_exceptions.md section 1 (R144); notes/assumptions/9.md] -/
def Obligations.PopIsAtomicPop : Prop :=
  ∀ s : State, NoFault s → s.cfg.wf →
    (∀ v, 0 < len s → len s ≤ s.cfg.cap → s.buf.read (s.head % s.cfg.cap) = .holds v →
      exec .pop s = .next { s with head := (s.head + 1) % (2 * s.cfg.cap) } ∧
      (∀ site k, popSlot site s k = k (.value v) { s with head := (s.head + 1) % (2 * s.cfg.cap) }) ∧
      (Quiescent s → exec .qPop s = .next (pendUpdate s
        { s with head := (s.head + 1) % (2 * s.cfg.cap), res := .value v }))) ∧
    (len s = 0 → exec .pop s = .next s ∧ (∀ site k, popSlot site s k = k .empty s) ∧
      (Quiescent s → exec .qPop s = .next (pendUpdate s { s with res := .empty }))) ∧
    (s.cfg.cap < len s → exec .pop s = .next { s with fault := some ⟨.lenRange, .pop⟩ } ∧
      (∀ site k, popSlot site s k = { s with fault := some ⟨.lenRange, site⟩ }) ∧
      (Quiescent s → ∃ t, exec .qPop s = .next t ∧ t.fault = some ⟨.lenRange, .qPop⟩)) ∧
    (0 < len s → len s ≤ s.cfg.cap → s.buf.read (s.head % s.cfg.cap) = .unwritten →
      exec .pop s = .next { s with fault := some ⟨.unwritten, .pop⟩ } ∧
      (Quiescent s → ∃ t, exec .qPop s = .next t ∧ t.fault = some ⟨.unwritten, .qPop⟩))

/-- In a quiescent state that meets the safety invariant, Q_PUSH d appends d to the queue with RES = OK when it is
not full, and leaves the queue with RES = REJECTED when it is; Q_POP takes the head value off with RES = VALUE
of it when the queue is not empty, and leaves it with RES = EMPTY when it is. TXEIE, the pin, the links, OUT and
the engines do not change; HEAD does not change under Q_PUSH, nor any slot but the one TAIL named, TAIL and BUF
not under Q_POP. [R92; R93] -/
def Obligations.HarnessWordsActOnTheQueue : Prop :=
  ∀ s : State, SafeInv s → Quiescent s →
    (∀ d, ∃ t, exec (.qPush d) s = .next t ∧
      (len s < s.cfg.cap → contents t = contents s ++ [.holds d] ∧ t.res = .ok ∧
        ∀ j, j ≠ slotIndex s.cfg s.tail → t.buf.read j = s.buf.read j) ∧
      (len s = s.cfg.cap → contents t = contents s ∧ t.res = .rejected ∧ t.buf = s.buf ∧ t.tail = s.tail) ∧
      { t with buf := s.buf, tail := s.tail, res := s.res, pendG := s.pendG, pendD := s.pendD } = s) ∧
    (∃ t, exec .qPop s = .next t ∧
      (∀ x rest, contents s = x :: rest → ∃ v, x = .holds v ∧ contents t = rest ∧ t.res = .value v) ∧
      (contents s = [] → contents t = [] ∧ t.res = .empty ∧ t.head = s.head) ∧
      { t with head := s.head, res := s.res, pendG := s.pendG, pendD := s.pendD } = s)

/-- For every run of stimulus words but RESET, engines, arrivals and preemption included, from a state that meets
the safety invariant: what was in the queue followed by the values put into it is what was taken out followed by
what is in the queue at the end, so that from an empty queue the values taken out are the first ones put in, in
order. For harness words run from a quiescent state the same holds with the results RES reports, and no word is
stuck. [R90] -/
def Obligations.QueueIsFifo : Prop :=
  (∀ (is : List Instr) (s t : State) (m : Moved), SafeInv s →
    (∀ i ∈ is, i.isStimulus = true ∧ i ≠ .reset) → runMoved is s = some (m, t) →
    SafeInv t ∧ contents s ++ m.pushed = m.popped ++ contents t ∧
    (contents s = [] → m.popped = m.pushed.take m.popped.length)) ∧
  (∀ (ops : List QueueOp) (s : State), SafeInv s → Quiescent s →
    ∃ pushed popped t, runQueue ops s = some (pushed, popped, t) ∧ SafeInv t ∧ Quiescent t ∧
      contents s ++ pushed.map Reg.holds = popped.map Reg.holds ++ contents t ∧
      (contents s = [] → popped = pushed.take popped.length))

/-- From an empty queue, in a quiescent state that meets the safety invariant, CAP + 1 pushes with no pop in between
are accepted CAP times and then rejected; the queue then holds the first CAP values in order. [R91] -/
def Obligations.QueueSaturates : Prop :=
  ∀ (vs : List Slot) (s : State), SafeInv s → Quiescent s → contents s = [] → vs.length = s.cfg.cap + 1 →
    ∃ t, runQueue (vs.map QueueOp.push) s = some (vs.take s.cfg.cap, [], t) ∧ t.res = .rejected ∧
      contents t = (vs.take s.cfg.cap).map Reg.holds

/-! ### Links, pin and arbiter (43_arbiter.md, 44_links.md) -/

/-- With no fault recorded, a frame that arrives while RXNE_L = 0 is stored in RDR_L and sets RXNE_L, ORE_L staying
as it is; one that arrives while RXNE_L = 1 sets ORE_L, and RDR_L keeps the old frame under KEEP_OLD and takes
the new one under KEEP_NEW. Nothing else changes but by the pending update. An operand of 2^FRAME_W or more
encodes no operation (R70), so exec refuses it too, which is the model's reading (log entry 11). [44_links.md
section 3 (R140, R141); 30_encoding.md section 4 (R70); notes/assumptions/11.md] -/
def Obligations.FramesArriveOrOverrun : Prop :=
  ∀ (s : State) (f : Slot),
    (NoFault s → IsFrame s.cfg f →
      exec (.gpsRx f) s = .next (pendUpdate s
        (if s.rxneG = false then { s with rdrG := .holds f, rxneG := true }
          else { s with oreG := true, rdrG := if s.cfg.ovr = .keepNew then .holds f else s.rdrG })) ∧
      exec (.hostRx f) s = .next (pendUpdate s
        (if s.rxne2 = false then { s with rdr2 := .holds f, rxne2 := true }
          else { s with ore2 := true, rdr2 := if s.cfg.ovr = .keepNew then .holds f else s.rdr2 }))) ∧
    (¬ IsFrame s.cfg f → exec (.gpsRx f) s = .refused .frameRange ∧ exec (.hostRx f) s = .refused .frameRange)

/-- With no fault recorded and TXE_2 = 0, TX_DONE with TDR_2 holding v appends the low FRAME_W bits of v to OUT and
sets TXE_2; TDR_2 keeps its value and nothing else changes but by the pending update. With TDR_2 unwritten it
raises UNWRITTEN (R144) and changes nothing else, which is the model's reading of a fault (log entry 5); with
TXE_2 = 1 it is stuck. [44_links.md section 3 (R142); 60_exceptions.md section 1 (R144); notes/assumptions/5.md] -/
def Obligations.TxDoneSendsTheHeldFrame : Prop :=
  ∀ s : State, NoFault s →
    (∀ v, s.txe2 = false → s.tdr2 = .holds v → exec .txDone s = .next (pendUpdate s
      { s with out := s.out ++ [BitVec.ofNat 9 (v.toNat % 2 ^ s.cfg.frameW.bits)], txe2 := true })) ∧
    (s.txe2 = false → s.tdr2 = .unwritten → exec .txDone s = .next { s with fault := some ⟨.unwritten, .txDone⟩ }) ∧
    (s.txe2 = true → exec .txDone s = .fault .transmitterEmpty)

/-- With no fault recorded, run alone: SetTXEIE sets TXEIE and ClearTXEIE clears it; WriteTDR(v) writes v to TDR_2
and clears TXE_2; ClearORE clears the link's overrun flag; PinSet drives the pin ON and logs SET, PinReset
drives it OFF and logs RESET. Each changes nothing else. That one run alone is followed by no pending update, so
that the latches stay too, is the model's reading (log entry 9). [43_arbiter.md (R125, R126); 44_links.md
section 2 (R136 to R139); notes/assumptions/9.md] -/
def Obligations.PrimitivesDoTheirOneAccess : Prop :=
  ∀ (s : State) (v : Slot), NoFault s →
    exec .setTxeie s = .next { s with txeie := true } ∧
    exec .clearTxeie s = .next { s with txeie := false } ∧
    exec (.writeTdr v) s = .next { s with tdr2 := .holds v, txe2 := false } ∧
    exec (.clearOre .g) s = .next { s with oreG := false } ∧
    exec (.clearOre .l2) s = .next { s with ore2 := false } ∧
    exec .pinSet s = .next { s with pin := .on, pinlog := s.pinlog ++ [.set] } ∧
    exec .pinReset s = .next { s with pin := .off, pinlog := s.pinlog ++ [.reset] }

/-- With no fault recorded, ReadRDR(L) with RDR_L holding v gives v and clears RXNE_L, and RDR_L, ORE_L and
everything else keep their values; with RDR_L unwritten since reset it raises UNWRITTEN and clears nothing. That
ReadRDR run alone is followed by no pending update, faults at its own site and then changes nothing else is the
model's reading (log entries 5 and 9). [44_links.md section 2 (R135); 60_exceptions.md section 1 (R144);
notes/assumptions/5.md; notes/assumptions/9.md] -/
def Obligations.ReadRdrClearsReceiveReady : Prop :=
  ∀ s : State, NoFault s →
    (∀ v, s.rdrG = .holds v → exec (.readRdr .g) s = .next { s with rxneG := false } ∧
      ∀ site k, readRdrOf .g site s k = k v { s with rxneG := false }) ∧
    (∀ v, s.rdr2 = .holds v → exec (.readRdr .l2) s = .next { s with rxne2 := false } ∧
      ∀ site k, readRdrOf .l2 site s k = k v { s with rxne2 := false }) ∧
    (s.rdrG = .unwritten → exec (.readRdr .g) s = .next { s with fault := some ⟨.unwritten, .readRdr⟩ }) ∧
    (s.rdr2 = .unwritten → exec (.readRdr .l2) s = .next { s with fault := some ⟨.unwritten, .readRdr⟩ })

/-- For every value of the unlisted bits: the status and control registers read the flags at the bits of R36, R39,
R40 and R44, the unlisted bits read that value, and these reads change nothing; a read of a receive data
register that holds v gives v with zeros above bit 8 and is ReadRDR, and one of a register never written is
ReadRDR's fault; a read of a write-only register gives that value; writing 1 to ORECF is ClearORE and writing 0
there changes nothing; a write of the transmit register with zeros above bit 8 is WriteTDR; and writing only the
pin's set bit is PinSet, only its reset bit PinReset, for whatever PIN_INDEX is; the one control bit the block
writes, bit 7 of L2.CR1, is SetTXEIE when written 1 and ClearTXEIE when written 0. Every write the block never
makes has no result: of a read-only register, of a control register whole, of bits of L2.TDR above 8, of both
halves of the pin's pair at once, and of a 1 in a bit that G.ICR, L2.ICR or P.BSRR does not list. The width of
32 bits (log entry 14), and that those writes have no result (log entry 29), are the model's choice.
[10_state.md section 6 (R36 to R45); 20_memory.md section 4 (R61); notes/assumptions/14.md;
notes/assumptions/29.md] -/
def Obligations.RegisterViewShowsFlagsAndPrimitives : Prop :=
  ∀ (s : State) (any : BitVec 32),
    ((viewRead .gIsr any s).2 = s ∧ (viewRead .l2Isr any s).2 = s ∧ (viewRead .gCr1 any s).2 = s ∧
      (viewRead .l2Cr1 any s).2 = s) ∧
    (∀ k, k < 32 →
      (viewRead .gIsr any s).1.getLsbD k = (if k = 3 then s.oreG else if k = 5 then s.rxneG else any.getLsbD k) ∧
      (viewRead .gCr1 any s).1.getLsbD k = (if k = 5 then s.rxneieG else any.getLsbD k) ∧
      (viewRead .l2Isr any s).1.getLsbD k =
        (if k = 3 then s.ore2 else if k = 5 then s.rxne2 else if k = 7 then s.txe2 else any.getLsbD k) ∧
      (viewRead .l2Cr1 any s).1.getLsbD k =
        (if k = 5 then s.rxneie2 else if k = 7 then s.txeie else any.getLsbD k)) ∧
    (∀ v, s.rdrG = .holds v → viewRead .gRdr any s = (v.setWidth 32, { s with rxneG := false })) ∧
    (∀ v, s.rdr2 = .holds v → viewRead .l2Rdr any s = (v.setWidth 32, { s with rxne2 := false })) ∧
    (s.rdrG = .unwritten → viewRead .gRdr any s = (any, { s with fault := some ⟨.unwritten, .readRdr⟩ })) ∧
    (s.rdr2 = .unwritten → viewRead .l2Rdr any s = (any, { s with fault := some ⟨.unwritten, .readRdr⟩ })) ∧
    (∀ n ∈ [RegName.gIcr, .l2Icr, .l2Tdr, .pBsrr], viewRead n any s = (any, s)) ∧
    (viewWrite .gIcr 0x8#32 s = some { s with oreG := false } ∧ viewWrite .gIcr 0#32 s = some s ∧
      viewWrite .l2Icr 0x8#32 s = some { s with ore2 := false } ∧ viewWrite .l2Icr 0#32 s = some s) ∧
    (viewWriteTxeie true s = { s with txeie := true } ∧ viewWriteTxeie false s = { s with txeie := false }) ∧
    (∀ w : BitVec 32,
      (∀ n ∈ [RegName.gIsr, .gRdr, .gCr1, .l2Isr, .l2Rdr, .l2Cr1], viewWrite n w s = none) ∧
      (∀ k, 9 ≤ k → w.getLsbD k = true → viewWrite .l2Tdr w s = none) ∧
      (∀ k, k ≠ 3 → w.getLsbD k = true → viewWrite .gIcr w s = none ∧ viewWrite .l2Icr w s = none) ∧
      (∀ k, k ≠ Config.pinIndex.val → k ≠ Config.pinIndex.val + 16 → w.getLsbD k = true →
        viewWrite .pBsrr w s = none) ∧
      (w.getLsbD Config.pinIndex.val = true → w.getLsbD (Config.pinIndex.val + 16) = true →
        viewWrite .pBsrr w s = none)) ∧
    (∀ v : Slot, viewWrite .l2Tdr (v.setWidth 32) s = some { s with tdr2 := .holds v, txe2 := false }) ∧
    viewWrite .pBsrr (1#32 <<< Config.pinIndex.val) s = some { s with pin := .on, pinlog := s.pinlog ++ [.set] } ∧
    viewWrite .pBsrr (1#32 <<< (Config.pinIndex.val + 16)) s =
      some { s with pin := .off, pinlog := s.pinlog ++ [.reset] } ∧
    viewWrite .pBsrr 0#32 s = some s

/-! ### Reset and the start state (70_reset_and_hazards.md) -/

/-- With no fault recorded, whatever the engines are doing, RESET empties the queue storage and both cursors,
disables TXEIE, sets the pin to PIN_RESET, idles both engines with their locals unwritten, puts every link flag
at its reset value and the data registers unwritten, sets RXNEIE_G and RXNEIE_2, clears both latches and sets
RES to NONE; OUT, PINLOG and FAULT are unchanged. [R171] -/
def Obligations.ResetRestoresTheResetTable : Prop :=
  ∀ s : State, NoFault s → exec .reset s = .next
    { s with
      head := 0, tail := 0, buf := [], txeie := false, pin := s.cfg.pinReset
      seqG := Seq.idle, seqD := Seq.idle, g := GRegs.unwritten, d := DRegs.unwritten
      rxneG := false, oreG := false, rdrG := .unwritten
      rxne2 := false, ore2 := false, rdr2 := .unwritten
      txe2 := true, tdr2 := .unwritten
      rxneieG := true, rxneie2 := true, pendG := false, pendD := false, res := .none }

/-- For every legal choice of parameters and every trace loaded, the start state is CleanStart (R172) and meets the
safety invariant, the arbiter's coherence and the invariant that no request is lost, its queue is empty, and
both request lines are low. [R172] -/
def Obligations.StartStateIsCleanStart : Prop :=
  ∀ (cfg : Config) (ws : List StimWord) (s : State), cfg.wf → s = { State.start cfg with trace := ws } →
    CleanStart s ∧ SafeInv s ∧ Coherent s ∧ PendInv s ∧ OutFrames s ∧ contents s = [] ∧
    irqG s = false ∧ irq2 s = false ∧ Final s

/-! ### Invariants and whole-machine rules -/

/-- For every state that meets the safety invariant and every word: if the step has a next state, that state meets
the invariant again, so no fault is recorded in it. In every PRIO_MODE. [60_exceptions.md section 1 (R144);
40_queue.md section 1 (R80); 70_reset_and_hazards.md section 3 (R184)] -/
def Obligations.EveryStepKeepsSafety : Prop :=
  ∀ s t : State, SafeInv s → step s = .next t → SafeInv t ∧ NoFault t ∧ len t ≤ t.cfg.cap

/-- Under PRIO_MODE = EQUAL, from every state that meets the safety invariant and the arbiter's coherence, a step of
any word but Q_PUSH and Q_POP leads to a state that meets them again; and in such a state at most one engine is
active, and with both engines IDLE TXEIE is set iff LEN is above 0. [43_arbiter.md (R129); 60_exceptions.md
section 3 (R153)] -/
def Obligations.EqualPriorityKeepsCoherence : Prop :=
  (∀ s t : State, s.cfg.prio = .equal → SafeInv s → Coherent s →
    (∀ w rest, s.trace = w :: rest → w.extractLsb' 12 4 ≠ 0xA#4 ∧ w.extractLsb' 12 4 ≠ 0xB#4) →
    step s = .next t → t.cfg.prio = .equal ∧ SafeInv t ∧ Coherent t) ∧
  (∀ s : State, Coherent s → (s.seqG = Seq.idle ∨ s.seqD = Seq.idle) ∧
    (Quiescent s → (s.txeie = true ↔ 0 < len s)))

/-- From every state that meets the safety invariant and in which a line asserted while its engine is IDLE has its
latch set, every step with a next state leads to a state of the same kind. [60_exceptions.md section 2 (R148)] -/
def Obligations.RequestsAreNotLost : Prop :=
  ∀ s t : State, SafeInv s → PendInv s → step s = .next t → PendInv t

/-- Of the words of one step: TXEIE is set only by IG6 and cleared only by DP7 and RESET; BUF is written only by
IG4, Q_PUSH and RESET, TAIL only by IG5, Q_PUSH and RESET, HEAD only by DP4, Q_POP and RESET; PINLOG only by
DP10 and DP11, PIN only by those and RESET; OUT only by TX_DONE; RDR_G only by GPS_RX and RESET; TDR_2 only by
DP5 and RESET; RES only by Q_PUSH, Q_POP and RESET; the ingest engine's sequencer and locals only by MSTEP_G,
ENTER_G and RESET, the dispatch engine's only by MSTEP_D, ENTER_D and RESET; RXNEIE_G and RXNEIE_2 by none but
RESET; the parameters by none. A link flag is cleared by RESET or by its strobe alone, RXNE_L by a read strobe,
ORE_L by a clear strobe, TXE_2 by the write strobe, and each of these strobes leaves its flag clear; the enter
strobes are those of ENTER_G and ENTER_D. That a faulting access pulses no strobe is the model's reading (log
entry 28). [10_state.md section 7 (R46); 43_arbiter.md (R127); 44_links.md section 1 (R133);
notes/assumptions/28.md] -/
def Obligations.EachElementHasItsWriters : Prop :=
  ∀ (i : Instr) (s t : State), i.isStimulus = true → i ≠ .runG → i ≠ .runD → exec i s = .next t →
    (s.txeie = false → t.txeie = true → i = .mstepG ∧ s.seqG = Seq.ig6) ∧
    (s.txeie = true → t.txeie = false → i = .reset ∨ (i = .mstepD ∧ s.seqD = Seq.dp7)) ∧
    (t.buf ≠ s.buf → i = .reset ∨ (∃ d, i = .qPush d) ∨ (i = .mstepG ∧ s.seqG = Seq.ig4)) ∧
    (t.tail ≠ s.tail → i = .reset ∨ (∃ d, i = .qPush d) ∨ (i = .mstepG ∧ s.seqG = Seq.ig5)) ∧
    (t.head ≠ s.head → i = .reset ∨ i = .qPop ∨ (i = .mstepD ∧ s.seqD = Seq.dp4)) ∧
    (t.pinlog ≠ s.pinlog → i = .mstepD ∧ (s.seqD = Seq.dp10 ∨ s.seqD = Seq.dp11)) ∧
    (t.pin ≠ s.pin → i = .reset ∨ (i = .mstepD ∧ (s.seqD = Seq.dp10 ∨ s.seqD = Seq.dp11))) ∧
    (t.out ≠ s.out → i = .txDone) ∧
    (t.rdrG ≠ s.rdrG → i = .reset ∨ ∃ d, i = .gpsRx d) ∧
    (t.rdr2 ≠ s.rdr2 → i = .reset ∨ ∃ d, i = .hostRx d) ∧
    (t.rxneG ≠ s.rxneG → i = .reset ∨ (∃ d, i = .gpsRx d) ∨ (i = .mstepG ∧ s.seqG = Seq.ig2)) ∧
    (t.oreG ≠ s.oreG → i = .reset ∨ (∃ d, i = .gpsRx d) ∨ (i = .mstepG ∧ s.seqG = Seq.ig8)) ∧
    (t.rxne2 ≠ s.rxne2 → i = .reset ∨ (∃ d, i = .hostRx d) ∨ (i = .mstepD ∧ s.seqD = Seq.dp9)) ∧
    (t.ore2 ≠ s.ore2 → i = .reset ∨ (∃ d, i = .hostRx d) ∨ (i = .mstepD ∧ s.seqD = Seq.dp13)) ∧
    (t.txe2 ≠ s.txe2 → i = .reset ∨ i = .txDone ∨ (i = .mstepD ∧ s.seqD = Seq.dp5)) ∧
    (t.tdr2 ≠ s.tdr2 → i = .reset ∨ (i = .mstepD ∧ s.seqD = Seq.dp5)) ∧
    (t.res ≠ s.res → i = .reset ∨ i = .qPop ∨ ∃ d, i = .qPush d) ∧
    (t.seqG ≠ s.seqG ∨ t.g ≠ s.g → i = .reset ∨ i = .enterG ∨ i = .mstepG) ∧
    (t.seqD ≠ s.seqD ∨ t.d ≠ s.d → i = .reset ∨ i = .enterD ∨ i = .mstepD) ∧
    (t.rxneieG ≠ s.rxneieG ∨ t.rxneie2 ≠ s.rxneie2 → i = .reset) ∧
    (s.rxneG = true → t.rxneG = false → i = .reset ∨ Strobe.gRdrRd ∈ strobes i s) ∧
    (s.oreG = true → t.oreG = false → i = .reset ∨ Strobe.gOreClr ∈ strobes i s) ∧
    (s.rxne2 = true → t.rxne2 = false → i = .reset ∨ Strobe.l2RdrRd ∈ strobes i s) ∧
    (s.ore2 = true → t.ore2 = false → i = .reset ∨ Strobe.l2OreClr ∈ strobes i s) ∧
    (s.txe2 = true → t.txe2 = false → Strobe.l2TdrWr ∈ strobes i s) ∧
    (Strobe.gRdrRd ∈ strobes i s → t.rxneG = false) ∧ (Strobe.gOreClr ∈ strobes i s → t.oreG = false) ∧
    (Strobe.l2RdrRd ∈ strobes i s → t.rxne2 = false) ∧ (Strobe.l2OreClr ∈ strobes i s → t.ore2 = false) ∧
    (Strobe.l2TdrWr ∈ strobes i s → t.txe2 = false) ∧
    (Strobe.enterG ∈ strobes i s ↔ i = .enterG) ∧ (Strobe.enterD ∈ strobes i s ↔ i = .enterD) ∧
    t.cfg = s.cfg

/-- Every step, of every word, leaves the parameters as they are, appends to OUT only frames of FRAME_W bits, and
appends to PINLOG; neither sequence ever loses or changes an element. PINLOG grows by exactly the pin strobes of
the step, in order, for every row. For every run of stimulus words but RESET and Q_POP, preemption included,
from a state that meets the safety invariant: the value in hand at DP5 followed by the values taken off the
queue is what was written to TDR_2 followed by the value in hand at the end; and the value in the holding
register followed by those written is, frame by frame, what OUT gained followed by the value in the holding
register at the end. [10_state.md section 4 (R30, R31); 30_encoding.md section 1 (R65); 42_dispatch.md section 1
(R109, R110, R111); 20_memory.md section 3 (R58); 44_links.md sections 1, 2 and 3 (R133, R138, R139, R142)] -/
def Obligations.ObservationsOnlyGrow : Prop :=
  (∀ s t : State, step s = .next t →
    t.cfg = s.cfg ∧ (∃ fs : List Slot, t.out = s.out ++ fs ∧ ∀ f ∈ fs, IsFrame s.cfg f) ∧
    (∃ ws : List PinWrite, t.pinlog = s.pinlog ++ ws) ∧ (OutFrames s → OutFrames t)) ∧
  (∀ (i : Instr) (s t : State), exec i s = .next t →
    t.pinlog = s.pinlog ++ (strobes i s).filterMap Strobe.pinWrite) ∧
  (∀ (is : List Instr) (s t : State) (m : Moved), SafeInv s →
    (∀ i ∈ is, i.isStimulus = true ∧ i ≠ .reset ∧ i ≠ .qPop) → runMoved is s = some (m, t) →
    inHand s ++ m.popped = m.written ++ inHand t ∧
    ∃ fs : List Slot, t.out = s.out ++ fs ∧
      (inHolding s ++ m.written).map (sentFrame s.cfg) =
        fs.map Reg.holds ++ (inHolding t).map (sentFrame s.cfg))

/-- From a state that meets the safety invariant, with the ingest engine IDLE and free to enter, FEED v for a frame
v has a next state with no fault and the ingest engine IDLE. The frame that survives the receiver is v, or the
unread frame that was there before under KEEP_OLD; it is appended to the queue, with TXEIE set, if it is not
0x000 and the queue was not full, no slot but the one TAIL named being written, and the queue and TXEIE are
unchanged otherwise. RXNE_G and ORE_G end clear. Everything but BUF, TAIL, TXEIE, the GPS link, the ingest
locals and the latches is unchanged. [30_encoding.md section 7 (R76); 41_ingest.md (R96, R97, R103); 44_links.md
section 3 (R140)] -/
def Obligations.FeedPassesOneFrameThrough : Prop :=
  ∀ (s : State) (v w : Slot), SafeInv s → s.seqG = Seq.idle → (s.cfg.prio = .gOverD ∨ s.seqD = Seq.idle) →
    IsFrame s.cfg v → (if s.rxneG = true ∧ s.cfg.ovr = .keepOld then s.rdrG = .holds w else w = v) →
    ∃ t, exec (.feed v) s = .next t ∧ SafeInv t ∧ t.seqG = Seq.idle ∧ t.rxneG = false ∧ t.oreG = false ∧
      t.rdrG = .holds w ∧
      (w ≠ 0x000#9 ∧ len s < s.cfg.cap → contents t = contents s ++ [.holds w] ∧ t.txeie = true ∧
        ∀ j, j ≠ slotIndex s.cfg s.tail → t.buf.read j = s.buf.read j) ∧
      (¬ (w ≠ 0x000#9 ∧ len s < s.cfg.cap) → contents t = contents s ∧ t.buf = s.buf ∧ t.txeie = s.txeie) ∧
      { t with
        buf := s.buf, tail := s.tail, txeie := s.txeie, rxneG := s.rxneG, oreG := s.oreG, rdrG := s.rdrG
        g := s.g, pendG := s.pendG, pendD := s.pendD } = s

/-- From a quiescent state that meets the safety invariant with no frame unread, FEEDS of any list of frames has a
next state with no fault, both engines IDLE and no frame unread; the queue holds what it held followed by the
frames that are not 0x000, in order, as many as fit below CAP. TXEIE is set if the queue grew and unchanged if
not, no slot is written but those from TAIL on that the new values fill, and everything but BUF, TAIL, TXEIE,
the GPS link, the ingest locals and the latches is unchanged. [30_encoding.md section 7 (R76);
70_reset_and_hazards.md section 3 (R185)] -/
def Obligations.FeedsQueuesTheNonNullFramesThatFit : Prop :=
  ∀ (cs : List Slot) (s : State), SafeInv s → Quiescent s → s.rxneG = false → (∀ c ∈ cs, IsFrame s.cfg c) →
    ∃ t, exec (.feeds cs) s = .next t ∧ SafeInv t ∧ Quiescent t ∧ t.rxneG = false ∧
      contents t = contents s ++
        (((cs.filter fun c => c != 0x000#9).take (s.cfg.cap - len s)).map Reg.holds) ∧
      (contents t = contents s → t.txeie = s.txeie) ∧ (contents t ≠ contents s → t.txeie = true) ∧
      (∀ j, (∀ k, k < len t - len s → j ≠ slotIndex s.cfg (s.tail + k)) → t.buf.read j = s.buf.read j) ∧
      { t with
        buf := s.buf, tail := s.tail, txeie := s.txeie, rxneG := s.rxneG, oreG := s.oreG, rdrG := s.rdrG
        g := s.g, pendG := s.pendG, pendD := s.pendD } = s

/-- From a state that meets the safety invariant, with the dispatch engine IDLE and free to enter, CMD v for a frame
v has a next state with no fault and the dispatch engine IDLE. The command that survives the receiver is v, or
the unread one that was there before under KEEP_OLD; the pin is OFF after 0x030 and ON after 0x031, with one
strobe logged, and it and PINLOG are unchanged after any other frame, and RXNE_2 and ORE_2 end clear; with the
transmitter busy the queue and TXEIE are unchanged too; with it free, the head value is popped into TDR_2 as in
any dispatch activation. Everything but HEAD, TXEIE, PIN, PINLOG, link 2, the dispatch locals and the latches is
unchanged, BUF and TAIL included. [30_encoding.md section 7 (R76); 42_dispatch.md section 2 (R117, R118, R119);
44_links.md section 3 (R141)] -/
def Obligations.CmdRunsOneCommand : Prop :=
  ∀ (s : State) (v w : Slot), SafeInv s → s.seqD = Seq.idle → (s.cfg.prio = .dOverG ∨ s.seqG = Seq.idle) →
    IsFrame s.cfg v → (if s.rxne2 = true ∧ s.cfg.ovr = .keepOld then s.rdr2 = .holds w else w = v) →
    ∃ t, exec (.cmd v) s = .next t ∧ SafeInv t ∧ t.seqD = Seq.idle ∧ t.rxne2 = false ∧ t.ore2 = false ∧
      t.rdr2 = .holds w ∧
      (w = 0x030#9 → t.pin = .off ∧ t.pinlog = s.pinlog ++ [.reset]) ∧
      (w = 0x031#9 → t.pin = .on ∧ t.pinlog = s.pinlog ++ [.set]) ∧
      (w ≠ 0x030#9 → w ≠ 0x031#9 → t.pin = s.pin ∧ t.pinlog = s.pinlog) ∧
      (s.txe2 = false → contents t = contents s ∧ t.txe2 = false ∧ t.txeie = s.txeie ∧ t.tdr2 = s.tdr2) ∧
      (s.txe2 = true → contents s = [] →
        contents t = [] ∧ t.txe2 = true ∧ t.txeie = false ∧ t.tdr2 = s.tdr2) ∧
      (∀ x rest, s.txe2 = true → contents s = x :: rest →
        contents t = rest ∧ t.txe2 = false ∧ t.tdr2 = x ∧ (rest = [] → t.txeie = false) ∧
        (rest ≠ [] → t.txeie = s.txeie)) ∧
      { t with
        head := s.head, txeie := s.txeie, pin := s.pin, pinlog := s.pinlog, rxne2 := s.rxne2, ore2 := s.ore2
        rdr2 := s.rdr2, txe2 := s.txe2, tdr2 := s.tdr2, d := s.d, pendG := s.pendG, pendD := s.pendD } = s

/-- From a state that meets the safety invariant, with the dispatch engine IDLE and free to enter and PEND_D set,
XMIT has a next state with no fault and appends to OUT the low FRAME_W bits of one value. With TXE_2 = 1 and x
at the head of the queue that value is x, which has left the queue; TXEIE is cleared if the queue is now empty
and unchanged if not. With TXE_2 = 0 the transmit branch is skipped and that value is the one in TDR_2, the
frame in flight; the queue and TXEIE are unchanged. TXE_2 ends 1. An unread command is executed and link 2's
overrun flag cleared, as in any dispatch activation. Everything but HEAD, TXEIE, PIN, PINLOG, OUT, RXNE_2,
ORE_2, TXE_2, TDR_2, the dispatch locals and the latches is unchanged, BUF and TAIL included. With the queue
empty and TXE_2 = 1, XMIT is stuck at TX_DONE; with PEND_D clear it is stuck at RUN_D. [30_encoding.md section 7
(R76); 42_dispatch.md section 1 (R107, R111); 44_links.md section 3 (R142)] -/
def Obligations.XmitSendsTheHeadOfTheQueue : Prop :=
  ∀ s : State, SafeInv s → s.seqD = Seq.idle → (s.cfg.prio = .dOverG ∨ s.seqG = Seq.idle) →
    (∀ x later, s.pendD = true →
      (if s.txe2 = true then contents s = x :: later else s.tdr2 = x ∧ contents s = later) →
      ∃ v t, x = .holds v ∧ exec .xmit s = .next t ∧ SafeInv t ∧ t.seqD = Seq.idle ∧ contents t = later ∧
        t.out = s.out ++ [BitVec.ofNat 9 (v.toNat % 2 ^ s.cfg.frameW.bits)] ∧ t.txe2 = true ∧ t.tdr2 = x ∧
        (s.txe2 = true → later = [] → t.txeie = false) ∧
        (s.txe2 = false ∨ later ≠ [] → t.txeie = s.txeie) ∧
        (s.txe2 = false → t.head = s.head) ∧ t.rxne2 = false ∧ t.ore2 = false ∧
        (s.rxne2 = true → s.rdr2 = .holds 0x030#9 → t.pin = .off ∧ t.pinlog = s.pinlog ++ [.reset]) ∧
        (s.rxne2 = true → s.rdr2 = .holds 0x031#9 → t.pin = .on ∧ t.pinlog = s.pinlog ++ [.set]) ∧
        (s.rxne2 = false ∨ (s.rdr2 ≠ .holds 0x030#9 ∧ s.rdr2 ≠ .holds 0x031#9) →
          t.pin = s.pin ∧ t.pinlog = s.pinlog) ∧
        { t with
          head := s.head, txeie := s.txeie, pin := s.pin, pinlog := s.pinlog, out := s.out, rxne2 := s.rxne2
          ore2 := s.ore2, txe2 := s.txe2, tdr2 := s.tdr2, d := s.d, pendG := s.pendG, pendD := s.pendD } = s) ∧
    (s.pendD = true → s.txe2 = true → contents s = [] → exec .xmit s = .fault .transmitterEmpty) ∧
    (s.pendD = false → ∃ r, exec .xmit s = .fault r)

/-- In every quiescent state under PRIO_MODE = EQUAL that meets the safety invariant, the arbiter's coherence and
the invariant that no request is lost: if the queue holds a value and TXE_2 = 1 then IRQ_2 is asserted and
PEND_D is set, and RUN_D then takes exactly the head value off the queue into TDR_2. If TXE_2 = 0, TX_DONE has a
next state, and it has IRQ_2 asserted and PEND_D set. In every PRIO_MODE, a fair run without RESET and harness
words, with finitely many arrivals, from a state that meets the safety invariant and the invariant that no
request is lost, reaches a final state and stays there; there, what was in the holding register, in hand and in
the queue at the start, followed by every value pushed since, is frame by frame what OUT gained, in order,
followed by what is left in the queue; and under EQUAL, from a coherent state, nothing is left, so every
accepted value has been sent. Under EQUAL, from a state that meets all three invariants, in every fair run
without RESET and harness words, arrivals without end included, every value pushed at any place is at some later
place in OUT, with those before it, in push order, if one of these holds: every ingest activation is one RUN_G
word, whatever else lands where; or GPS frames stop arriving at some place; or ENTER_D is fair as counted
between activations, as R153 lets R167 be read, which is the model's reading (log entry 27). [43_arbiter.md
(R131); 60_exceptions.md section 3 (R153); 60_exceptions.md section 6 (R167, R168); notes/assumptions/27.md] -/
def Obligations.NoStallUnderEqualPriority : Prop :=
  (∀ s : State, s.cfg.prio = .equal → SafeInv s → Coherent s → PendInv s → Quiescent s → 0 < len s →
    (s.txe2 = true → irq2 s = true ∧ s.pendD = true ∧
      ∃ x rest t, contents s = x :: rest ∧ exec .runD s = .next t ∧ contents t = rest ∧ t.tdr2 = x ∧
        t.txe2 = false ∧ NoFault t) ∧
    (s.txe2 = false → ∃ t, exec .txDone s = .next t ∧ irq2 t = true ∧ t.pendD = true ∧ t.txe2 = true)) ∧
  (∀ (states : Nat → State) (words : Nat → Option Instr), IsRun states words → Fair states words →
    NoResetNoHarness words → FinitelyManyArrivals words → SafeInv (states 0) → PendInv (states 0) →
    ∃ n m fs, Final (states n) ∧ (∀ k, n ≤ k → states k = states n) ∧
      runMoved (wordsBefore words n) (states 0) = some (m, states n) ∧ (states n).out = (states 0).out ++ fs ∧
      (inHolding (states 0) ++ inHand (states 0) ++ contents (states 0) ++ m.pushed).map
          (sentFrame (states 0).cfg) =
        fs.map Reg.holds ++ (contents (states n)).map (sentFrame (states 0).cfg) ∧
      ((states 0).cfg.prio = .equal → Coherent (states 0) → contents (states n) = [])) ∧
  (∀ (states : Nat → State) (words : Nat → Option Instr), IsRun states words → Fair states words →
    NoResetNoHarness words → DispatchIsServed states words → (states 0).cfg.prio = .equal → SafeInv (states 0) →
    PendInv (states 0) → Coherent (states 0) → ∀ n, ∃ k m fs, n ≤ k ∧
      runMoved (wordsBefore words n) (states 0) = some (m, states n) ∧ (states k).out = (states 0).out ++ fs ∧
      (inHolding (states 0) ++ inHand (states 0) ++ contents (states 0) ++ m.pushed).map
          (sentFrame (states 0).cfg) <+: fs.map Reg.holds)

/-- Under G_OVER_D some trace from the start state, with no harness word in it, ends in a final state with TXEIE = 0
and a value still in the queue (the lost wake-up); under D_OVER_G some trace from the start state, with no
harness word in it, reaches a quiescent state with TXEIE = 1 and an empty queue (the spurious enable).
[43_arbiter.md (R132); 70_reset_and_hazards.md section 3 (R179)] -/
def Obligations.PreemptionBreaksCoherence : Prop :=
  (∃ (ws : List StimWord) (t : State),
    Sys2Proof.core.run ws.length
      { State.start { Config.default with prio := .gOverD } with trace := ws } = .next t ∧
    (∀ w ∈ ws, w.extractLsb' 12 4 ≠ 0xA#4 ∧ w.extractLsb' 12 4 ≠ 0xB#4) ∧
    Final t ∧ t.txeie = false ∧ contents t ≠ []) ∧
  (∃ (ws : List StimWord) (t : State),
    Sys2Proof.core.run ws.length
      { State.start { Config.default with prio := .dOverG } with trace := ws } = .next t ∧
    (∀ w ∈ ws, w.extractLsb' 12 4 ≠ 0xA#4 ∧ w.extractLsb' 12 4 ≠ 0xB#4) ∧
    NoFault t ∧ Quiescent t ∧ t.txeie = true ∧ contents t = [])
end

