-- ==== Sys2Proof/Laws/Memory.lean ====
section
/-! SUPPORT. The laws of the queue storage: reading after a write, and the canonical form every write keeps. -/

namespace Sys2Proof.Machine

@[simp] theorem Memory.read_nil (i : Nat) : Memory.read [] i = .unwritten := rfl

@[simp] theorem Memory.read_write_same (m : Memory) (i : Nat) (v : Slot) : (m.write i v).read i = .holds v := by
  induction m with
  | nil => simp [Memory.write, Memory.read]
  | cons p rest ih =>
    obtain ⟨j, u⟩ := p
    simp only [Memory.write]
    split
    · simp [Memory.read]
    · split
      · simp [Memory.read]
      · simp [Memory.read, *]

theorem Memory.read_write_other (m : Memory) {i j : Nat} (v : Slot) (h : j ≠ i) :
    (m.write i v).read j = m.read j := by
  induction m with
  | nil => simp [Memory.write, Memory.read, h]
  | cons p rest ih =>
    obtain ⟨k, u⟩ := p
    simp only [Memory.write]
    split
    · simp [Memory.read, h]
    · split
      · next hik => subst hik; simp [Memory.read, h]
      · simp [Memory.read, ih]

theorem Memory.read_write (m : Memory) (i j : Nat) (v : Slot) :
    (m.write i v).read j = if j = i then .holds v else m.read j := by
  split
  · next h => subst h; simp
  · next h => exact Memory.read_write_other m v h

/-- A write never makes a slot unwritten. -/
theorem Memory.isWritten_write (m : Memory) (i j : Nat) (v : Slot) (h : (m.read j).isWritten = true) :
    ((m.write i v).read j).isWritten = true := by
  rw [Memory.read_write]
  split
  · rfl
  · exact h

/-- The keys after a write are the old ones and the one written. -/
theorem Memory.mem_write (m : Memory) (i : Nat) (v : Slot) (p : Nat × Slot) (h : p ∈ m.write i v) :
    p = (i, v) ∨ p ∈ m := by
  induction m with
  | nil => simpa [Memory.write] using h
  | cons q rest ih =>
    obtain ⟨j, u⟩ := q
    simp only [Memory.write] at h
    split at h
    · simpa using h
    · split at h
      · simp only [List.mem_cons] at h ⊢; tauto
      · simp only [List.mem_cons] at h ⊢
        rcases h with h | h
        · exact .inr (.inl h)
        · rcases ih h with h | h <;> tauto

/-- Every write keeps the canonical form. -/
theorem Memory.wf_write (m : Memory) (i : Nat) (v : Slot) (h : m.wf) : (m.write i v).wf := by
  induction m with
  | nil => simp [Memory.write, Memory.wf]
  | cons q rest ih =>
    obtain ⟨j, u⟩ := q
    have hq := List.pairwise_cons.1 h
    simp only [Memory.write]
    split
    · next hij =>
      refine List.pairwise_cons.2 ⟨fun p hp => ?_, h⟩
      rcases List.mem_cons.1 hp with rfl | hp
      · exact hij
      · exact lt_trans hij (hq.1 p hp)
    · split
      · next hij => subst hij; exact List.pairwise_cons.2 ⟨hq.1, hq.2⟩
      · next h1 h2 =>
        refine List.pairwise_cons.2 ⟨fun p hp => ?_, ih hq.2⟩
        rcases Memory.mem_write rest i v p hp with rfl | hp
        · simp only; omega
        · exact hq.1 p hp

/-- The storage of the start state and of the reset state has the canonical form (R171). -/
theorem Memory.wf_start (cfg : Config) : (State.start cfg).buf.wf := List.Pairwise.nil

theorem Memory.wf_reset : State.reset.buf.wf := List.Pairwise.nil

end Sys2Proof.Machine
end

