-- ==== Sys2Proof/Laws/Cursor.lean ====
section
/-! SUPPORT. The laws of cursor arithmetic (R78 to R84) and of the queue's contents under a push, a pop and a slot write. -/

namespace Sys2Proof.Machine

/-- The cursor difference of two cursors in range, without the remainder. -/
theorem cursorDiff_eq (cfg : Config) {h t : Nat} (hh : h < 2 * cfg.cap) (ht : t < 2 * cfg.cap) :
    cursorDiff cfg h t = if h ≤ t then t - h else t + 2 * cfg.cap - h := by
  unfold cursorDiff
  split
  · next hle =>
    rw [Int.emod_eq_of_lt (by omega) (by omega)]; omega
  · next hle =>
    have e : ((t : Int) - h) % (2 * (cfg.cap : Int)) = (t : Int) - h + 2 * cfg.cap := by
      rw [← Int.add_emod_right, Int.emod_eq_of_lt (by omega) (by omega)]
    rw [e]; omega

theorem cursorDiff_lt (cfg : Config) (h t : Nat) (hc : 0 < cfg.cap) : cursorDiff cfg h t < 2 * cfg.cap := by
  unfold cursorDiff
  have h1 := Int.emod_nonneg ((t : Int) - h) (b := 2 * (cfg.cap : Int)) (by omega)
  have h2 := Int.emod_lt_of_pos ((t : Int) - h) (b := 2 * (cfg.cap : Int)) (by omega)
  omega

/-- The successor of a cursor in range, without the remainder. -/
theorem nextCursor_eq (cfg : Config) {c : Nat} (h : c < 2 * cfg.cap) :
    nextCursor cfg c = if c + 1 = 2 * cfg.cap then 0 else c + 1 := by
  unfold nextCursor
  split
  · next e => simp [e]
  · exact Nat.mod_eq_of_lt (by omega)

theorem nextCursor_lt (cfg : Config) (c : Nat) (h : 0 < cfg.cap) : nextCursor cfg c < 2 * cfg.cap :=
  Nat.mod_lt _ (by omega)

theorem slotIndex_lt (cfg : Config) (c : Nat) (h : 0 < cfg.cap) : slotIndex cfg c < cfg.cap := Nat.mod_lt _ h

/-- Reducing a cursor modulo 2*CAP does not change the slot it names. -/
@[simp] theorem slotIndex_mod (cfg : Config) (c : Nat) : slotIndex cfg (c % (2 * cfg.cap)) = slotIndex cfg c :=
  Nat.mod_mod_of_dvd c ⟨2, by ring⟩

@[simp] theorem slotIndex_nextCursor (cfg : Config) (c : Nat) :
    slotIndex cfg (nextCursor cfg c) = slotIndex cfg (c + 1) := slotIndex_mod cfg (c + 1)

/-- Two cursors less than CAP apart name different slots. -/
theorem slotIndex_ne (cfg : Config) {a k l : Nat} (hk : k < l) (hl : l < cfg.cap + k) :
    slotIndex cfg (a + k) ≠ slotIndex cfg (a + l) := by
  unfold slotIndex
  intro e
  have := (Nat.modEq_iff_dvd' (by omega : a + k ≤ a + l)).1 e
  obtain ⟨c, hc⟩ := this
  rcases Nat.eq_zero_or_pos c with rfl | hp
  · simp at hc; omega
  · have := Nat.le_mul_of_pos_right cfg.cap hp
    omega

/-- The slot TAIL names is the one just past the queue. -/
theorem slotIndex_tail (cfg : Config) {h t : Nat} (hh : h < 2 * cfg.cap) (ht : t < 2 * cfg.cap) :
    slotIndex cfg t = slotIndex cfg (h + cursorDiff cfg h t) := by
  rw [cursorDiff_eq cfg hh ht]
  split
  · congr 1; omega
  · have : h + (t + 2 * cfg.cap - h) = t + 2 * cfg.cap := by omega
    rw [this, ← slotIndex_mod cfg (t + 2 * cfg.cap)]; simp

/-- LEN after TAIL advances, when the queue is not full (R79). -/
theorem cursorDiff_push (cfg : Config) {h t : Nat} (hh : h < 2 * cfg.cap) (ht : t < 2 * cfg.cap)
    (hl : cursorDiff cfg h t < cfg.cap) :
    cursorDiff cfg h (nextCursor cfg t) = cursorDiff cfg h t + 1 := by
  have hc : 0 < cfg.cap := by omega
  rw [cursorDiff_eq cfg hh (nextCursor_lt cfg t hc), cursorDiff_eq cfg hh ht, nextCursor_eq cfg ht] at *
  split_ifs at * <;> omega

/-- LEN after HEAD advances, when the queue is not empty (R79). -/
theorem cursorDiff_pop (cfg : Config) {h t : Nat} (hh : h < 2 * cfg.cap) (ht : t < 2 * cfg.cap)
    (hl : 0 < cursorDiff cfg h t) :
    cursorDiff cfg (nextCursor cfg h) t = cursorDiff cfg h t - 1 := by
  have hc : 0 < cfg.cap := by omega
  rw [cursorDiff_eq cfg (nextCursor_lt cfg h hc) ht, cursorDiff_eq cfg hh ht, nextCursor_eq cfg hh] at *
  split_ifs at * <;> omega

/-- The queue is empty iff the cursors are equal (R82). -/
theorem cursorDiff_eq_zero (cfg : Config) {h t : Nat} (hh : h < 2 * cfg.cap) (ht : t < 2 * cfg.cap) :
    cursorDiff cfg h t = 0 ↔ h = t := by
  rw [cursorDiff_eq cfg hh ht]
  split_ifs <;> omega

end Sys2Proof.Machine
end

