-- ==== Sys2Proof/Laws/State.lean ====
section
/-! SUPPORT. What each named update leaves in each field of the state, one lemma a field, and the small laws of the
outcome operations. -/

namespace Sys2Proof.Machine

/-! ### `raise` -/

@[simp] theorem raise_cfg (reason : FaultReason) (site : Site) (s : State) : (raise reason site s).cfg = s.cfg := rfl
@[simp] theorem raise_buf (reason : FaultReason) (site : Site) (s : State) : (raise reason site s).buf = s.buf := rfl
@[simp] theorem raise_head (reason : FaultReason) (site : Site) (s : State) : (raise reason site s).head = s.head := rfl
@[simp] theorem raise_tail (reason : FaultReason) (site : Site) (s : State) : (raise reason site s).tail = s.tail := rfl
@[simp] theorem raise_txeie (reason : FaultReason) (site : Site) (s : State) : (raise reason site s).txeie = s.txeie := rfl
@[simp] theorem raise_pin (reason : FaultReason) (site : Site) (s : State) : (raise reason site s).pin = s.pin := rfl
@[simp] theorem raise_seqG (reason : FaultReason) (site : Site) (s : State) : (raise reason site s).seqG = s.seqG := rfl
@[simp] theorem raise_seqD (reason : FaultReason) (site : Site) (s : State) : (raise reason site s).seqD = s.seqD := rfl
@[simp] theorem raise_g (reason : FaultReason) (site : Site) (s : State) : (raise reason site s).g = s.g := rfl
@[simp] theorem raise_d (reason : FaultReason) (site : Site) (s : State) : (raise reason site s).d = s.d := rfl
@[simp] theorem raise_rxneG (reason : FaultReason) (site : Site) (s : State) : (raise reason site s).rxneG = s.rxneG := rfl
@[simp] theorem raise_oreG (reason : FaultReason) (site : Site) (s : State) : (raise reason site s).oreG = s.oreG := rfl
@[simp] theorem raise_rdrG (reason : FaultReason) (site : Site) (s : State) : (raise reason site s).rdrG = s.rdrG := rfl
@[simp] theorem raise_rxneieG (reason : FaultReason) (site : Site) (s : State) : (raise reason site s).rxneieG = s.rxneieG := rfl
@[simp] theorem raise_rxne2 (reason : FaultReason) (site : Site) (s : State) : (raise reason site s).rxne2 = s.rxne2 := rfl
@[simp] theorem raise_ore2 (reason : FaultReason) (site : Site) (s : State) : (raise reason site s).ore2 = s.ore2 := rfl
@[simp] theorem raise_rdr2 (reason : FaultReason) (site : Site) (s : State) : (raise reason site s).rdr2 = s.rdr2 := rfl
@[simp] theorem raise_txe2 (reason : FaultReason) (site : Site) (s : State) : (raise reason site s).txe2 = s.txe2 := rfl
@[simp] theorem raise_tdr2 (reason : FaultReason) (site : Site) (s : State) : (raise reason site s).tdr2 = s.tdr2 := rfl
@[simp] theorem raise_rxneie2 (reason : FaultReason) (site : Site) (s : State) : (raise reason site s).rxneie2 = s.rxneie2 := rfl
@[simp] theorem raise_out (reason : FaultReason) (site : Site) (s : State) : (raise reason site s).out = s.out := rfl
@[simp] theorem raise_pinlog (reason : FaultReason) (site : Site) (s : State) : (raise reason site s).pinlog = s.pinlog := rfl
@[simp] theorem raise_res (reason : FaultReason) (site : Site) (s : State) : (raise reason site s).res = s.res := rfl
@[simp] theorem raise_pendG (reason : FaultReason) (site : Site) (s : State) : (raise reason site s).pendG = s.pendG := rfl
@[simp] theorem raise_pendD (reason : FaultReason) (site : Site) (s : State) : (raise reason site s).pendD = s.pendD := rfl
@[simp] theorem raise_fault (reason : FaultReason) (site : Site) (s : State) : (raise reason site s).fault = some { reason := reason, site := site } := rfl
@[simp] theorem raise_trace (reason : FaultReason) (site : Site) (s : State) : (raise reason site s).trace = s.trace := rfl

/-! ### `pendUpdate` -/

@[simp] theorem pendUpdate_cfg (s s₁ : State) : (pendUpdate s s₁).cfg = s₁.cfg := rfl
@[simp] theorem pendUpdate_buf (s s₁ : State) : (pendUpdate s s₁).buf = s₁.buf := rfl
@[simp] theorem pendUpdate_head (s s₁ : State) : (pendUpdate s s₁).head = s₁.head := rfl
@[simp] theorem pendUpdate_tail (s s₁ : State) : (pendUpdate s s₁).tail = s₁.tail := rfl
@[simp] theorem pendUpdate_txeie (s s₁ : State) : (pendUpdate s s₁).txeie = s₁.txeie := rfl
@[simp] theorem pendUpdate_pin (s s₁ : State) : (pendUpdate s s₁).pin = s₁.pin := rfl
@[simp] theorem pendUpdate_seqG (s s₁ : State) : (pendUpdate s s₁).seqG = s₁.seqG := rfl
@[simp] theorem pendUpdate_seqD (s s₁ : State) : (pendUpdate s s₁).seqD = s₁.seqD := rfl
@[simp] theorem pendUpdate_g (s s₁ : State) : (pendUpdate s s₁).g = s₁.g := rfl
@[simp] theorem pendUpdate_d (s s₁ : State) : (pendUpdate s s₁).d = s₁.d := rfl
@[simp] theorem pendUpdate_rxneG (s s₁ : State) : (pendUpdate s s₁).rxneG = s₁.rxneG := rfl
@[simp] theorem pendUpdate_oreG (s s₁ : State) : (pendUpdate s s₁).oreG = s₁.oreG := rfl
@[simp] theorem pendUpdate_rdrG (s s₁ : State) : (pendUpdate s s₁).rdrG = s₁.rdrG := rfl
@[simp] theorem pendUpdate_rxneieG (s s₁ : State) : (pendUpdate s s₁).rxneieG = s₁.rxneieG := rfl
@[simp] theorem pendUpdate_rxne2 (s s₁ : State) : (pendUpdate s s₁).rxne2 = s₁.rxne2 := rfl
@[simp] theorem pendUpdate_ore2 (s s₁ : State) : (pendUpdate s s₁).ore2 = s₁.ore2 := rfl
@[simp] theorem pendUpdate_rdr2 (s s₁ : State) : (pendUpdate s s₁).rdr2 = s₁.rdr2 := rfl
@[simp] theorem pendUpdate_txe2 (s s₁ : State) : (pendUpdate s s₁).txe2 = s₁.txe2 := rfl
@[simp] theorem pendUpdate_tdr2 (s s₁ : State) : (pendUpdate s s₁).tdr2 = s₁.tdr2 := rfl
@[simp] theorem pendUpdate_rxneie2 (s s₁ : State) : (pendUpdate s s₁).rxneie2 = s₁.rxneie2 := rfl
@[simp] theorem pendUpdate_out (s s₁ : State) : (pendUpdate s s₁).out = s₁.out := rfl
@[simp] theorem pendUpdate_pinlog (s s₁ : State) : (pendUpdate s s₁).pinlog = s₁.pinlog := rfl
@[simp] theorem pendUpdate_res (s s₁ : State) : (pendUpdate s s₁).res = s₁.res := rfl
@[simp] theorem pendUpdate_pendG (s s₁ : State) : (pendUpdate s s₁).pendG = (s₁.pendG || (irqG s₁ && (!irqG s || s₁.seqG == Seq.idle))) := rfl
@[simp] theorem pendUpdate_pendD (s s₁ : State) : (pendUpdate s s₁).pendD = (s₁.pendD || (irq2 s₁ && (!irq2 s || s₁.seqD == Seq.idle))) := rfl
@[simp] theorem pendUpdate_fault (s s₁ : State) : (pendUpdate s s₁).fault = s₁.fault := rfl
@[simp] theorem pendUpdate_trace (s s₁ : State) : (pendUpdate s s₁).trace = s₁.trace := rfl

/-! ### `takeG` -/

@[simp] theorem takeG_cfg (s : State) : (takeG s).cfg = s.cfg := rfl
@[simp] theorem takeG_buf (s : State) : (takeG s).buf = s.buf := rfl
@[simp] theorem takeG_head (s : State) : (takeG s).head = s.head := rfl
@[simp] theorem takeG_tail (s : State) : (takeG s).tail = s.tail := rfl
@[simp] theorem takeG_txeie (s : State) : (takeG s).txeie = s.txeie := rfl
@[simp] theorem takeG_pin (s : State) : (takeG s).pin = s.pin := rfl
@[simp] theorem takeG_seqG (s : State) : (takeG s).seqG = Seq.ig1 := rfl
@[simp] theorem takeG_seqD (s : State) : (takeG s).seqD = s.seqD := rfl
@[simp] theorem takeG_g (s : State) : (takeG s).g = GRegs.unwritten := rfl
@[simp] theorem takeG_d (s : State) : (takeG s).d = s.d := rfl
@[simp] theorem takeG_rxneG (s : State) : (takeG s).rxneG = s.rxneG := rfl
@[simp] theorem takeG_oreG (s : State) : (takeG s).oreG = s.oreG := rfl
@[simp] theorem takeG_rdrG (s : State) : (takeG s).rdrG = s.rdrG := rfl
@[simp] theorem takeG_rxneieG (s : State) : (takeG s).rxneieG = s.rxneieG := rfl
@[simp] theorem takeG_rxne2 (s : State) : (takeG s).rxne2 = s.rxne2 := rfl
@[simp] theorem takeG_ore2 (s : State) : (takeG s).ore2 = s.ore2 := rfl
@[simp] theorem takeG_rdr2 (s : State) : (takeG s).rdr2 = s.rdr2 := rfl
@[simp] theorem takeG_txe2 (s : State) : (takeG s).txe2 = s.txe2 := rfl
@[simp] theorem takeG_tdr2 (s : State) : (takeG s).tdr2 = s.tdr2 := rfl
@[simp] theorem takeG_rxneie2 (s : State) : (takeG s).rxneie2 = s.rxneie2 := rfl
@[simp] theorem takeG_out (s : State) : (takeG s).out = s.out := rfl
@[simp] theorem takeG_pinlog (s : State) : (takeG s).pinlog = s.pinlog := rfl
@[simp] theorem takeG_res (s : State) : (takeG s).res = s.res := rfl
@[simp] theorem takeG_pendG (s : State) : (takeG s).pendG = false := rfl
@[simp] theorem takeG_pendD (s : State) : (takeG s).pendD = s.pendD := rfl
@[simp] theorem takeG_fault (s : State) : (takeG s).fault = s.fault := rfl
@[simp] theorem takeG_trace (s : State) : (takeG s).trace = s.trace := rfl

/-! ### `takeD` -/

@[simp] theorem takeD_cfg (s : State) : (takeD s).cfg = s.cfg := rfl
@[simp] theorem takeD_buf (s : State) : (takeD s).buf = s.buf := rfl
@[simp] theorem takeD_head (s : State) : (takeD s).head = s.head := rfl
@[simp] theorem takeD_tail (s : State) : (takeD s).tail = s.tail := rfl
@[simp] theorem takeD_txeie (s : State) : (takeD s).txeie = s.txeie := rfl
@[simp] theorem takeD_pin (s : State) : (takeD s).pin = s.pin := rfl
@[simp] theorem takeD_seqG (s : State) : (takeD s).seqG = s.seqG := rfl
@[simp] theorem takeD_seqD (s : State) : (takeD s).seqD = Seq.dp1 := rfl
@[simp] theorem takeD_g (s : State) : (takeD s).g = s.g := rfl
@[simp] theorem takeD_d (s : State) : (takeD s).d = DRegs.unwritten := rfl
@[simp] theorem takeD_rxneG (s : State) : (takeD s).rxneG = s.rxneG := rfl
@[simp] theorem takeD_oreG (s : State) : (takeD s).oreG = s.oreG := rfl
@[simp] theorem takeD_rdrG (s : State) : (takeD s).rdrG = s.rdrG := rfl
@[simp] theorem takeD_rxneieG (s : State) : (takeD s).rxneieG = s.rxneieG := rfl
@[simp] theorem takeD_rxne2 (s : State) : (takeD s).rxne2 = s.rxne2 := rfl
@[simp] theorem takeD_ore2 (s : State) : (takeD s).ore2 = s.ore2 := rfl
@[simp] theorem takeD_rdr2 (s : State) : (takeD s).rdr2 = s.rdr2 := rfl
@[simp] theorem takeD_txe2 (s : State) : (takeD s).txe2 = s.txe2 := rfl
@[simp] theorem takeD_tdr2 (s : State) : (takeD s).tdr2 = s.tdr2 := rfl
@[simp] theorem takeD_rxneie2 (s : State) : (takeD s).rxneie2 = s.rxneie2 := rfl
@[simp] theorem takeD_out (s : State) : (takeD s).out = s.out := rfl
@[simp] theorem takeD_pinlog (s : State) : (takeD s).pinlog = s.pinlog := rfl
@[simp] theorem takeD_res (s : State) : (takeD s).res = s.res := rfl
@[simp] theorem takeD_pendG (s : State) : (takeD s).pendG = s.pendG := rfl
@[simp] theorem takeD_pendD (s : State) : (takeD s).pendD = false := rfl
@[simp] theorem takeD_fault (s : State) : (takeD s).fault = s.fault := rfl
@[simp] theorem takeD_trace (s : State) : (takeD s).trace = s.trace := rfl

/-! ### `leaveG` -/

@[simp] theorem leaveG_cfg (s : State) : (leaveG s).cfg = s.cfg := rfl
@[simp] theorem leaveG_buf (s : State) : (leaveG s).buf = s.buf := rfl
@[simp] theorem leaveG_head (s : State) : (leaveG s).head = s.head := rfl
@[simp] theorem leaveG_tail (s : State) : (leaveG s).tail = s.tail := rfl
@[simp] theorem leaveG_txeie (s : State) : (leaveG s).txeie = s.txeie := rfl
@[simp] theorem leaveG_pin (s : State) : (leaveG s).pin = s.pin := rfl
@[simp] theorem leaveG_seqG (s : State) : (leaveG s).seqG = Seq.idle := rfl
@[simp] theorem leaveG_seqD (s : State) : (leaveG s).seqD = s.seqD := rfl
@[simp] theorem leaveG_g (s : State) : (leaveG s).g = s.g := rfl
@[simp] theorem leaveG_d (s : State) : (leaveG s).d = s.d := rfl
@[simp] theorem leaveG_rxneG (s : State) : (leaveG s).rxneG = s.rxneG := rfl
@[simp] theorem leaveG_oreG (s : State) : (leaveG s).oreG = s.oreG := rfl
@[simp] theorem leaveG_rdrG (s : State) : (leaveG s).rdrG = s.rdrG := rfl
@[simp] theorem leaveG_rxneieG (s : State) : (leaveG s).rxneieG = s.rxneieG := rfl
@[simp] theorem leaveG_rxne2 (s : State) : (leaveG s).rxne2 = s.rxne2 := rfl
@[simp] theorem leaveG_ore2 (s : State) : (leaveG s).ore2 = s.ore2 := rfl
@[simp] theorem leaveG_rdr2 (s : State) : (leaveG s).rdr2 = s.rdr2 := rfl
@[simp] theorem leaveG_txe2 (s : State) : (leaveG s).txe2 = s.txe2 := rfl
@[simp] theorem leaveG_tdr2 (s : State) : (leaveG s).tdr2 = s.tdr2 := rfl
@[simp] theorem leaveG_rxneie2 (s : State) : (leaveG s).rxneie2 = s.rxneie2 := rfl
@[simp] theorem leaveG_out (s : State) : (leaveG s).out = s.out := rfl
@[simp] theorem leaveG_pinlog (s : State) : (leaveG s).pinlog = s.pinlog := rfl
@[simp] theorem leaveG_res (s : State) : (leaveG s).res = s.res := rfl
@[simp] theorem leaveG_pendG (s : State) : (leaveG s).pendG = s.pendG := rfl
@[simp] theorem leaveG_pendD (s : State) : (leaveG s).pendD = s.pendD := rfl
@[simp] theorem leaveG_fault (s : State) : (leaveG s).fault = s.fault := rfl
@[simp] theorem leaveG_trace (s : State) : (leaveG s).trace = s.trace := rfl

/-! ### `leaveD` -/

@[simp] theorem leaveD_cfg (s : State) : (leaveD s).cfg = s.cfg := rfl
@[simp] theorem leaveD_buf (s : State) : (leaveD s).buf = s.buf := rfl
@[simp] theorem leaveD_head (s : State) : (leaveD s).head = s.head := rfl
@[simp] theorem leaveD_tail (s : State) : (leaveD s).tail = s.tail := rfl
@[simp] theorem leaveD_txeie (s : State) : (leaveD s).txeie = s.txeie := rfl
@[simp] theorem leaveD_pin (s : State) : (leaveD s).pin = s.pin := rfl
@[simp] theorem leaveD_seqG (s : State) : (leaveD s).seqG = s.seqG := rfl
@[simp] theorem leaveD_seqD (s : State) : (leaveD s).seqD = Seq.idle := rfl
@[simp] theorem leaveD_g (s : State) : (leaveD s).g = s.g := rfl
@[simp] theorem leaveD_d (s : State) : (leaveD s).d = s.d := rfl
@[simp] theorem leaveD_rxneG (s : State) : (leaveD s).rxneG = s.rxneG := rfl
@[simp] theorem leaveD_oreG (s : State) : (leaveD s).oreG = s.oreG := rfl
@[simp] theorem leaveD_rdrG (s : State) : (leaveD s).rdrG = s.rdrG := rfl
@[simp] theorem leaveD_rxneieG (s : State) : (leaveD s).rxneieG = s.rxneieG := rfl
@[simp] theorem leaveD_rxne2 (s : State) : (leaveD s).rxne2 = s.rxne2 := rfl
@[simp] theorem leaveD_ore2 (s : State) : (leaveD s).ore2 = s.ore2 := rfl
@[simp] theorem leaveD_rdr2 (s : State) : (leaveD s).rdr2 = s.rdr2 := rfl
@[simp] theorem leaveD_txe2 (s : State) : (leaveD s).txe2 = s.txe2 := rfl
@[simp] theorem leaveD_tdr2 (s : State) : (leaveD s).tdr2 = s.tdr2 := rfl
@[simp] theorem leaveD_rxneie2 (s : State) : (leaveD s).rxneie2 = s.rxneie2 := rfl
@[simp] theorem leaveD_out (s : State) : (leaveD s).out = s.out := rfl
@[simp] theorem leaveD_pinlog (s : State) : (leaveD s).pinlog = s.pinlog := rfl
@[simp] theorem leaveD_res (s : State) : (leaveD s).res = s.res := rfl
@[simp] theorem leaveD_pendG (s : State) : (leaveD s).pendG = s.pendG := rfl
@[simp] theorem leaveD_pendD (s : State) : (leaveD s).pendD = s.pendD := rfl
@[simp] theorem leaveD_fault (s : State) : (leaveD s).fault = s.fault := rfl
@[simp] theorem leaveD_trace (s : State) : (leaveD s).trace = s.trace := rfl

/-! ### `setTxeieBit` -/

@[simp] theorem setTxeieBit_cfg (s : State) : (setTxeieBit s).cfg = s.cfg := rfl
@[simp] theorem setTxeieBit_buf (s : State) : (setTxeieBit s).buf = s.buf := rfl
@[simp] theorem setTxeieBit_head (s : State) : (setTxeieBit s).head = s.head := rfl
@[simp] theorem setTxeieBit_tail (s : State) : (setTxeieBit s).tail = s.tail := rfl
@[simp] theorem setTxeieBit_txeie (s : State) : (setTxeieBit s).txeie = true := rfl
@[simp] theorem setTxeieBit_pin (s : State) : (setTxeieBit s).pin = s.pin := rfl
@[simp] theorem setTxeieBit_seqG (s : State) : (setTxeieBit s).seqG = s.seqG := rfl
@[simp] theorem setTxeieBit_seqD (s : State) : (setTxeieBit s).seqD = s.seqD := rfl
@[simp] theorem setTxeieBit_g (s : State) : (setTxeieBit s).g = s.g := rfl
@[simp] theorem setTxeieBit_d (s : State) : (setTxeieBit s).d = s.d := rfl
@[simp] theorem setTxeieBit_rxneG (s : State) : (setTxeieBit s).rxneG = s.rxneG := rfl
@[simp] theorem setTxeieBit_oreG (s : State) : (setTxeieBit s).oreG = s.oreG := rfl
@[simp] theorem setTxeieBit_rdrG (s : State) : (setTxeieBit s).rdrG = s.rdrG := rfl
@[simp] theorem setTxeieBit_rxneieG (s : State) : (setTxeieBit s).rxneieG = s.rxneieG := rfl
@[simp] theorem setTxeieBit_rxne2 (s : State) : (setTxeieBit s).rxne2 = s.rxne2 := rfl
@[simp] theorem setTxeieBit_ore2 (s : State) : (setTxeieBit s).ore2 = s.ore2 := rfl
@[simp] theorem setTxeieBit_rdr2 (s : State) : (setTxeieBit s).rdr2 = s.rdr2 := rfl
@[simp] theorem setTxeieBit_txe2 (s : State) : (setTxeieBit s).txe2 = s.txe2 := rfl
@[simp] theorem setTxeieBit_tdr2 (s : State) : (setTxeieBit s).tdr2 = s.tdr2 := rfl
@[simp] theorem setTxeieBit_rxneie2 (s : State) : (setTxeieBit s).rxneie2 = s.rxneie2 := rfl
@[simp] theorem setTxeieBit_out (s : State) : (setTxeieBit s).out = s.out := rfl
@[simp] theorem setTxeieBit_pinlog (s : State) : (setTxeieBit s).pinlog = s.pinlog := rfl
@[simp] theorem setTxeieBit_res (s : State) : (setTxeieBit s).res = s.res := rfl
@[simp] theorem setTxeieBit_pendG (s : State) : (setTxeieBit s).pendG = s.pendG := rfl
@[simp] theorem setTxeieBit_pendD (s : State) : (setTxeieBit s).pendD = s.pendD := rfl
@[simp] theorem setTxeieBit_fault (s : State) : (setTxeieBit s).fault = s.fault := rfl
@[simp] theorem setTxeieBit_trace (s : State) : (setTxeieBit s).trace = s.trace := rfl

/-! ### `clearTxeieBit` -/

@[simp] theorem clearTxeieBit_cfg (s : State) : (clearTxeieBit s).cfg = s.cfg := rfl
@[simp] theorem clearTxeieBit_buf (s : State) : (clearTxeieBit s).buf = s.buf := rfl
@[simp] theorem clearTxeieBit_head (s : State) : (clearTxeieBit s).head = s.head := rfl
@[simp] theorem clearTxeieBit_tail (s : State) : (clearTxeieBit s).tail = s.tail := rfl
@[simp] theorem clearTxeieBit_txeie (s : State) : (clearTxeieBit s).txeie = false := rfl
@[simp] theorem clearTxeieBit_pin (s : State) : (clearTxeieBit s).pin = s.pin := rfl
@[simp] theorem clearTxeieBit_seqG (s : State) : (clearTxeieBit s).seqG = s.seqG := rfl
@[simp] theorem clearTxeieBit_seqD (s : State) : (clearTxeieBit s).seqD = s.seqD := rfl
@[simp] theorem clearTxeieBit_g (s : State) : (clearTxeieBit s).g = s.g := rfl
@[simp] theorem clearTxeieBit_d (s : State) : (clearTxeieBit s).d = s.d := rfl
@[simp] theorem clearTxeieBit_rxneG (s : State) : (clearTxeieBit s).rxneG = s.rxneG := rfl
@[simp] theorem clearTxeieBit_oreG (s : State) : (clearTxeieBit s).oreG = s.oreG := rfl
@[simp] theorem clearTxeieBit_rdrG (s : State) : (clearTxeieBit s).rdrG = s.rdrG := rfl
@[simp] theorem clearTxeieBit_rxneieG (s : State) : (clearTxeieBit s).rxneieG = s.rxneieG := rfl
@[simp] theorem clearTxeieBit_rxne2 (s : State) : (clearTxeieBit s).rxne2 = s.rxne2 := rfl
@[simp] theorem clearTxeieBit_ore2 (s : State) : (clearTxeieBit s).ore2 = s.ore2 := rfl
@[simp] theorem clearTxeieBit_rdr2 (s : State) : (clearTxeieBit s).rdr2 = s.rdr2 := rfl
@[simp] theorem clearTxeieBit_txe2 (s : State) : (clearTxeieBit s).txe2 = s.txe2 := rfl
@[simp] theorem clearTxeieBit_tdr2 (s : State) : (clearTxeieBit s).tdr2 = s.tdr2 := rfl
@[simp] theorem clearTxeieBit_rxneie2 (s : State) : (clearTxeieBit s).rxneie2 = s.rxneie2 := rfl
@[simp] theorem clearTxeieBit_out (s : State) : (clearTxeieBit s).out = s.out := rfl
@[simp] theorem clearTxeieBit_pinlog (s : State) : (clearTxeieBit s).pinlog = s.pinlog := rfl
@[simp] theorem clearTxeieBit_res (s : State) : (clearTxeieBit s).res = s.res := rfl
@[simp] theorem clearTxeieBit_pendG (s : State) : (clearTxeieBit s).pendG = s.pendG := rfl
@[simp] theorem clearTxeieBit_pendD (s : State) : (clearTxeieBit s).pendD = s.pendD := rfl
@[simp] theorem clearTxeieBit_fault (s : State) : (clearTxeieBit s).fault = s.fault := rfl
@[simp] theorem clearTxeieBit_trace (s : State) : (clearTxeieBit s).trace = s.trace := rfl

/-! ### `writeTdrReg` -/

@[simp] theorem writeTdrReg_cfg (v : Slot) (s : State) : (writeTdrReg v s).cfg = s.cfg := rfl
@[simp] theorem writeTdrReg_buf (v : Slot) (s : State) : (writeTdrReg v s).buf = s.buf := rfl
@[simp] theorem writeTdrReg_head (v : Slot) (s : State) : (writeTdrReg v s).head = s.head := rfl
@[simp] theorem writeTdrReg_tail (v : Slot) (s : State) : (writeTdrReg v s).tail = s.tail := rfl
@[simp] theorem writeTdrReg_txeie (v : Slot) (s : State) : (writeTdrReg v s).txeie = s.txeie := rfl
@[simp] theorem writeTdrReg_pin (v : Slot) (s : State) : (writeTdrReg v s).pin = s.pin := rfl
@[simp] theorem writeTdrReg_seqG (v : Slot) (s : State) : (writeTdrReg v s).seqG = s.seqG := rfl
@[simp] theorem writeTdrReg_seqD (v : Slot) (s : State) : (writeTdrReg v s).seqD = s.seqD := rfl
@[simp] theorem writeTdrReg_g (v : Slot) (s : State) : (writeTdrReg v s).g = s.g := rfl
@[simp] theorem writeTdrReg_d (v : Slot) (s : State) : (writeTdrReg v s).d = s.d := rfl
@[simp] theorem writeTdrReg_rxneG (v : Slot) (s : State) : (writeTdrReg v s).rxneG = s.rxneG := rfl
@[simp] theorem writeTdrReg_oreG (v : Slot) (s : State) : (writeTdrReg v s).oreG = s.oreG := rfl
@[simp] theorem writeTdrReg_rdrG (v : Slot) (s : State) : (writeTdrReg v s).rdrG = s.rdrG := rfl
@[simp] theorem writeTdrReg_rxneieG (v : Slot) (s : State) : (writeTdrReg v s).rxneieG = s.rxneieG := rfl
@[simp] theorem writeTdrReg_rxne2 (v : Slot) (s : State) : (writeTdrReg v s).rxne2 = s.rxne2 := rfl
@[simp] theorem writeTdrReg_ore2 (v : Slot) (s : State) : (writeTdrReg v s).ore2 = s.ore2 := rfl
@[simp] theorem writeTdrReg_rdr2 (v : Slot) (s : State) : (writeTdrReg v s).rdr2 = s.rdr2 := rfl
@[simp] theorem writeTdrReg_txe2 (v : Slot) (s : State) : (writeTdrReg v s).txe2 = false := rfl
@[simp] theorem writeTdrReg_tdr2 (v : Slot) (s : State) : (writeTdrReg v s).tdr2 = .holds v := rfl
@[simp] theorem writeTdrReg_rxneie2 (v : Slot) (s : State) : (writeTdrReg v s).rxneie2 = s.rxneie2 := rfl
@[simp] theorem writeTdrReg_out (v : Slot) (s : State) : (writeTdrReg v s).out = s.out := rfl
@[simp] theorem writeTdrReg_pinlog (v : Slot) (s : State) : (writeTdrReg v s).pinlog = s.pinlog := rfl
@[simp] theorem writeTdrReg_res (v : Slot) (s : State) : (writeTdrReg v s).res = s.res := rfl
@[simp] theorem writeTdrReg_pendG (v : Slot) (s : State) : (writeTdrReg v s).pendG = s.pendG := rfl
@[simp] theorem writeTdrReg_pendD (v : Slot) (s : State) : (writeTdrReg v s).pendD = s.pendD := rfl
@[simp] theorem writeTdrReg_fault (v : Slot) (s : State) : (writeTdrReg v s).fault = s.fault := rfl
@[simp] theorem writeTdrReg_trace (v : Slot) (s : State) : (writeTdrReg v s).trace = s.trace := rfl

/-! ### `pinSetStrobe` -/

@[simp] theorem pinSetStrobe_cfg (s : State) : (pinSetStrobe s).cfg = s.cfg := rfl
@[simp] theorem pinSetStrobe_buf (s : State) : (pinSetStrobe s).buf = s.buf := rfl
@[simp] theorem pinSetStrobe_head (s : State) : (pinSetStrobe s).head = s.head := rfl
@[simp] theorem pinSetStrobe_tail (s : State) : (pinSetStrobe s).tail = s.tail := rfl
@[simp] theorem pinSetStrobe_txeie (s : State) : (pinSetStrobe s).txeie = s.txeie := rfl
@[simp] theorem pinSetStrobe_pin (s : State) : (pinSetStrobe s).pin = .on := rfl
@[simp] theorem pinSetStrobe_seqG (s : State) : (pinSetStrobe s).seqG = s.seqG := rfl
@[simp] theorem pinSetStrobe_seqD (s : State) : (pinSetStrobe s).seqD = s.seqD := rfl
@[simp] theorem pinSetStrobe_g (s : State) : (pinSetStrobe s).g = s.g := rfl
@[simp] theorem pinSetStrobe_d (s : State) : (pinSetStrobe s).d = s.d := rfl
@[simp] theorem pinSetStrobe_rxneG (s : State) : (pinSetStrobe s).rxneG = s.rxneG := rfl
@[simp] theorem pinSetStrobe_oreG (s : State) : (pinSetStrobe s).oreG = s.oreG := rfl
@[simp] theorem pinSetStrobe_rdrG (s : State) : (pinSetStrobe s).rdrG = s.rdrG := rfl
@[simp] theorem pinSetStrobe_rxneieG (s : State) : (pinSetStrobe s).rxneieG = s.rxneieG := rfl
@[simp] theorem pinSetStrobe_rxne2 (s : State) : (pinSetStrobe s).rxne2 = s.rxne2 := rfl
@[simp] theorem pinSetStrobe_ore2 (s : State) : (pinSetStrobe s).ore2 = s.ore2 := rfl
@[simp] theorem pinSetStrobe_rdr2 (s : State) : (pinSetStrobe s).rdr2 = s.rdr2 := rfl
@[simp] theorem pinSetStrobe_txe2 (s : State) : (pinSetStrobe s).txe2 = s.txe2 := rfl
@[simp] theorem pinSetStrobe_tdr2 (s : State) : (pinSetStrobe s).tdr2 = s.tdr2 := rfl
@[simp] theorem pinSetStrobe_rxneie2 (s : State) : (pinSetStrobe s).rxneie2 = s.rxneie2 := rfl
@[simp] theorem pinSetStrobe_out (s : State) : (pinSetStrobe s).out = s.out := rfl
@[simp] theorem pinSetStrobe_pinlog (s : State) : (pinSetStrobe s).pinlog = s.pinlog ++ [.set] := rfl
@[simp] theorem pinSetStrobe_res (s : State) : (pinSetStrobe s).res = s.res := rfl
@[simp] theorem pinSetStrobe_pendG (s : State) : (pinSetStrobe s).pendG = s.pendG := rfl
@[simp] theorem pinSetStrobe_pendD (s : State) : (pinSetStrobe s).pendD = s.pendD := rfl
@[simp] theorem pinSetStrobe_fault (s : State) : (pinSetStrobe s).fault = s.fault := rfl
@[simp] theorem pinSetStrobe_trace (s : State) : (pinSetStrobe s).trace = s.trace := rfl

/-! ### `pinResetStrobe` -/

@[simp] theorem pinResetStrobe_cfg (s : State) : (pinResetStrobe s).cfg = s.cfg := rfl
@[simp] theorem pinResetStrobe_buf (s : State) : (pinResetStrobe s).buf = s.buf := rfl
@[simp] theorem pinResetStrobe_head (s : State) : (pinResetStrobe s).head = s.head := rfl
@[simp] theorem pinResetStrobe_tail (s : State) : (pinResetStrobe s).tail = s.tail := rfl
@[simp] theorem pinResetStrobe_txeie (s : State) : (pinResetStrobe s).txeie = s.txeie := rfl
@[simp] theorem pinResetStrobe_pin (s : State) : (pinResetStrobe s).pin = .off := rfl
@[simp] theorem pinResetStrobe_seqG (s : State) : (pinResetStrobe s).seqG = s.seqG := rfl
@[simp] theorem pinResetStrobe_seqD (s : State) : (pinResetStrobe s).seqD = s.seqD := rfl
@[simp] theorem pinResetStrobe_g (s : State) : (pinResetStrobe s).g = s.g := rfl
@[simp] theorem pinResetStrobe_d (s : State) : (pinResetStrobe s).d = s.d := rfl
@[simp] theorem pinResetStrobe_rxneG (s : State) : (pinResetStrobe s).rxneG = s.rxneG := rfl
@[simp] theorem pinResetStrobe_oreG (s : State) : (pinResetStrobe s).oreG = s.oreG := rfl
@[simp] theorem pinResetStrobe_rdrG (s : State) : (pinResetStrobe s).rdrG = s.rdrG := rfl
@[simp] theorem pinResetStrobe_rxneieG (s : State) : (pinResetStrobe s).rxneieG = s.rxneieG := rfl
@[simp] theorem pinResetStrobe_rxne2 (s : State) : (pinResetStrobe s).rxne2 = s.rxne2 := rfl
@[simp] theorem pinResetStrobe_ore2 (s : State) : (pinResetStrobe s).ore2 = s.ore2 := rfl
@[simp] theorem pinResetStrobe_rdr2 (s : State) : (pinResetStrobe s).rdr2 = s.rdr2 := rfl
@[simp] theorem pinResetStrobe_txe2 (s : State) : (pinResetStrobe s).txe2 = s.txe2 := rfl
@[simp] theorem pinResetStrobe_tdr2 (s : State) : (pinResetStrobe s).tdr2 = s.tdr2 := rfl
@[simp] theorem pinResetStrobe_rxneie2 (s : State) : (pinResetStrobe s).rxneie2 = s.rxneie2 := rfl
@[simp] theorem pinResetStrobe_out (s : State) : (pinResetStrobe s).out = s.out := rfl
@[simp] theorem pinResetStrobe_pinlog (s : State) : (pinResetStrobe s).pinlog = s.pinlog ++ [.reset] := rfl
@[simp] theorem pinResetStrobe_res (s : State) : (pinResetStrobe s).res = s.res := rfl
@[simp] theorem pinResetStrobe_pendG (s : State) : (pinResetStrobe s).pendG = s.pendG := rfl
@[simp] theorem pinResetStrobe_pendD (s : State) : (pinResetStrobe s).pendD = s.pendD := rfl
@[simp] theorem pinResetStrobe_fault (s : State) : (pinResetStrobe s).fault = s.fault := rfl
@[simp] theorem pinResetStrobe_trace (s : State) : (pinResetStrobe s).trace = s.trace := rfl

/-! ### `emit` -/

@[simp] theorem emit_cfg (v : Slot) (s : State) : (emit v s).cfg = s.cfg := rfl
@[simp] theorem emit_buf (v : Slot) (s : State) : (emit v s).buf = s.buf := rfl
@[simp] theorem emit_head (v : Slot) (s : State) : (emit v s).head = s.head := rfl
@[simp] theorem emit_tail (v : Slot) (s : State) : (emit v s).tail = s.tail := rfl
@[simp] theorem emit_txeie (v : Slot) (s : State) : (emit v s).txeie = s.txeie := rfl
@[simp] theorem emit_pin (v : Slot) (s : State) : (emit v s).pin = s.pin := rfl
@[simp] theorem emit_seqG (v : Slot) (s : State) : (emit v s).seqG = s.seqG := rfl
@[simp] theorem emit_seqD (v : Slot) (s : State) : (emit v s).seqD = s.seqD := rfl
@[simp] theorem emit_g (v : Slot) (s : State) : (emit v s).g = s.g := rfl
@[simp] theorem emit_d (v : Slot) (s : State) : (emit v s).d = s.d := rfl
@[simp] theorem emit_rxneG (v : Slot) (s : State) : (emit v s).rxneG = s.rxneG := rfl
@[simp] theorem emit_oreG (v : Slot) (s : State) : (emit v s).oreG = s.oreG := rfl
@[simp] theorem emit_rdrG (v : Slot) (s : State) : (emit v s).rdrG = s.rdrG := rfl
@[simp] theorem emit_rxneieG (v : Slot) (s : State) : (emit v s).rxneieG = s.rxneieG := rfl
@[simp] theorem emit_rxne2 (v : Slot) (s : State) : (emit v s).rxne2 = s.rxne2 := rfl
@[simp] theorem emit_ore2 (v : Slot) (s : State) : (emit v s).ore2 = s.ore2 := rfl
@[simp] theorem emit_rdr2 (v : Slot) (s : State) : (emit v s).rdr2 = s.rdr2 := rfl
@[simp] theorem emit_txe2 (v : Slot) (s : State) : (emit v s).txe2 = s.txe2 := rfl
@[simp] theorem emit_tdr2 (v : Slot) (s : State) : (emit v s).tdr2 = s.tdr2 := rfl
@[simp] theorem emit_rxneie2 (v : Slot) (s : State) : (emit v s).rxneie2 = s.rxneie2 := rfl
@[simp] theorem emit_out (v : Slot) (s : State) : (emit v s).out = s.out ++ [v] := rfl
@[simp] theorem emit_pinlog (v : Slot) (s : State) : (emit v s).pinlog = s.pinlog := rfl
@[simp] theorem emit_res (v : Slot) (s : State) : (emit v s).res = s.res := rfl
@[simp] theorem emit_pendG (v : Slot) (s : State) : (emit v s).pendG = s.pendG := rfl
@[simp] theorem emit_pendD (v : Slot) (s : State) : (emit v s).pendD = s.pendD := rfl
@[simp] theorem emit_fault (v : Slot) (s : State) : (emit v s).fault = s.fault := rfl
@[simp] theorem emit_trace (v : Slot) (s : State) : (emit v s).trace = s.trace := rfl

/-! ### The link accessors -/

@[simp] theorem rxne_g (s : State) : rxne .g s = s.rxneG := rfl
@[simp] theorem rxne_l2 (s : State) : rxne .l2 s = s.rxne2 := rfl
@[simp] theorem ore_g (s : State) : ore .g s = s.oreG := rfl
@[simp] theorem ore_l2 (s : State) : ore .l2 s = s.ore2 := rfl
@[simp] theorem rdr_g (s : State) : rdr .g s = s.rdrG := rfl
@[simp] theorem rdr_l2 (s : State) : rdr .l2 s = s.rdr2 := rfl
@[simp] theorem setRxne_g (b : Bool) (s : State) : setRxne .g b s = { s with rxneG := b } := rfl
@[simp] theorem setRxne_l2 (b : Bool) (s : State) : setRxne .l2 b s = { s with rxne2 := b } := rfl
@[simp] theorem setOre_g (b : Bool) (s : State) : setOre .g b s = { s with oreG := b } := rfl
@[simp] theorem setOre_l2 (b : Bool) (s : State) : setOre .l2 b s = { s with ore2 := b } := rfl
@[simp] theorem setRdr_g (v : Slot) (s : State) : setRdr .g v s = { s with rdrG := .holds v } := rfl
@[simp] theorem setRdr_l2 (v : Slot) (s : State) : setRdr .l2 v s = { s with rdr2 := .holds v } := rfl
@[simp] theorem clearOreOf_g (s : State) : clearOreOf .g s = { s with oreG := false } := rfl
@[simp] theorem clearOreOf_l2 (s : State) : clearOreOf .l2 s = { s with ore2 := false } := rfl

/-! ### Registers that may be unwritten -/

@[simp] theorem Reg.isWritten_unwritten {α : Type} : (Reg.unwritten : Reg α).isWritten = false := rfl
@[simp] theorem Reg.isWritten_holds {α : Type} (v : α) : (Reg.holds v).isWritten = true := rfl

theorem Reg.isWritten_iff {α : Type} {r : Reg α} : r.isWritten = true ↔ ∃ v, r = .holds v := by
  cases r <;> simp

@[simp] theorem readReg_holds {α : Type} (v : α) (site : Site) (s : State) (k : α → State) :
    readReg (.holds v) site s k = k v := rfl
@[simp] theorem readReg_unwritten {α : Type} (site : Site) (s : State) (k : α → State) :
    readReg .unwritten site s k = raise .unwritten site s := rfl

/-! ### Outcomes -/

@[simp] theorem andThen_next (s : State) (k : State → Out) : andThen (.next s) k = k s := rfl
@[simp] theorem andThen_fault (r : Fault) (k : State → Out) : andThen (.fault r) k = .fault r := rfl
@[simp] theorem andThen_refused (r : Refusal) (k : State → Out) : andThen (.refused r) k = .refused r := rfl
@[simp] theorem requires_true (why : Fault) (o : Out) : requires true why o = o := rfl
@[simp] theorem requires_false (why : Fault) (o : Out) : requires false why o = .fault why := rfl

/-- A step that has a next state meets its enabling condition. -/
theorem requires_eq_next {b : Bool} {why : Fault} {o : Out} {t : State} :
    requires b why o = .next t ↔ b = true ∧ o = .next t := by
  cases b <;> simp

theorem requiresNoFault_eq_next {s : State} {o : Out} {t : State} :
    requiresNoFault s o = .next t ↔ s.fault = none ∧ o = .next t := by
  unfold requiresNoFault
  rw [requires_eq_next, Option.isNone_iff_eq_none]

theorem requiresNoFault_of_noFault {s : State} (h : s.fault = none) (o : Out) : requiresNoFault s o = o := by
  simp [requiresNoFault, h]

theorem requiresNoFault_of_fault {s : State} (h : s.fault ≠ none) (o : Out) :
    requiresNoFault s o = .fault .faultRecorded := by
  cases hf : s.fault with
  | none => exact absurd hf h
  | some r => simp [requiresNoFault, hf]

theorem andThen_eq_next {o : Out} {k : State → Out} {t : State} :
    andThen o k = .next t ↔ ∃ s, o = .next s ∧ k s = .next t := by
  cases o <;> simp [andThen]

/-- A rule that raised no fault is followed by the pending update (R148). -/
theorem afterRule_of_noFault (s : State) {s₁ : State} (h : s₁.fault = none) : afterRule s s₁ = pendUpdate s s₁ := by
  simp [afterRule, h]

/-- A rule that raised a fault ends there (log entry 5). -/
theorem afterRule_of_fault (s : State) {s₁ : State} (h : s₁.fault ≠ none) : afterRule s s₁ = s₁ := by
  cases hf : s₁.fault with
  | none => exact absurd hf h
  | some r => simp [afterRule, hf]

@[simp] theorem afterRule_fault (s s₁ : State) : (afterRule s s₁).fault = s₁.fault := by
  unfold afterRule; split <;> rfl

/-- When a micro-op of the ingest engine has a next state, and which (R151). -/
theorem microStepG_eq_next {rule : State → State} {s t : State} :
    microStepG rule s = .next t ↔
      s.fault = none ∧ s.seqG ≠ Seq.idle ∧ preemptedG s = false ∧ t = afterRule s (rule s) := by
  rw [@eq_comm _ t]; simp [microStepG, requiresNoFault_eq_next, requires_eq_next]

/-- When a micro-op of the dispatch engine has a next state, and which (R152). -/
theorem microStepD_eq_next {rule : State → State} {s t : State} :
    microStepD rule s = .next t ↔
      s.fault = none ∧ s.seqD ≠ Seq.idle ∧ preemptedD s = false ∧ t = afterRule s (rule s) := by
  rw [@eq_comm _ t]; simp [microStepD, requiresNoFault_eq_next, requires_eq_next]

/-- When a micro-op row of the ingest engine has a next state (R72, R151). -/
theorem microAtG_eq_next {c : SeqCode} {rule : State → State} {s t : State} :
    microAtG c rule s = .next t ↔ s.seqG = c ∧ microStepG rule s = .next t := by
  simp only [microAtG, requiresNoFault_eq_next, requires_eq_next, microStepG_eq_next, beq_iff_eq]
  tauto

/-- When a micro-op row of the dispatch engine has a next state (R72, R152). -/
theorem microAtD_eq_next {c : SeqCode} {rule : State → State} {s t : State} :
    microAtD c rule s = .next t ↔ s.seqD = c ∧ microStepD rule s = .next t := by
  simp only [microAtD, requiresNoFault_eq_next, requires_eq_next, microStepD_eq_next, beq_iff_eq]
  tauto

/-- Everything ENTER_G does when it has a next state (R149). -/
theorem enterG_eq_next {s t : State} :
    enterG s = .next t ↔
      s.fault = none ∧ s.pendG = true ∧ s.seqG = Seq.idle ∧ mayEnterG s = true ∧ t = takeG s := by
  rw [@eq_comm _ t]; simp [enterG, requiresNoFault_eq_next, requires_eq_next]

/-- Everything ENTER_D does when it has a next state (R150). -/
theorem enterD_eq_next {s t : State} :
    enterD s = .next t ↔
      s.fault = none ∧ s.pendD = true ∧ s.seqD = Seq.idle ∧ mayEnterD s = true ∧ t = takeD s := by
  rw [@eq_comm _ t]; simp [enterD, requiresNoFault_eq_next, requires_eq_next]

/-- What a repeated step keeps, its result has. -/
theorem repeatUntil_keeps {P : State → Prop} {stop : State → Bool} {f : State → Out}
    (hf : ∀ s t, P s → f s = .next t → P t) :
    ∀ (n : Nat) (s t : State), P s → repeatUntil stop f n s = .next t → P t
  | 0, s, t, hs, h => by simp only [repeatUntil, Host.Outcome.next.injEq] at h; exact h ▸ hs
  | n + 1, s, t, hs, h => by
    simp only [repeatUntil] at h
    split at h
    · simp only [Host.Outcome.next.injEq] at h; exact h ▸ hs
    · obtain ⟨u, hu, ht⟩ := andThen_eq_next.1 h
      exact repeatUntil_keeps hf n u t (hf s u hs hu) ht

end Sys2Proof.Machine
end

