-- ==== Sys2Proof/Laws/Fetch.lean ====
section
/-! SUPPORT. The laws of a step: what the next word of the trace makes of a state, how steps chain, and how a repeated step unrolls. -/

namespace Sys2Proof.Machine

/-- A step runs the operation its word decodes to (R77). -/
theorem step_of_decode {s : State} {w : StimWord} {rest : List StimWord} {i : Instr}
    (ht : s.trace = w :: rest) (hd : decodeStimulus s.cfg w = .ok i) : step s = exec i { s with trace := rest } := by
  simp [step, fetch, ht, hd]

/-- A word that does not decode is refused (R70). -/
theorem step_of_error {s : State} {w : StimWord} {rest : List StimWord} {e : DecodeError}
    (ht : s.trace = w :: rest) (hd : decodeStimulus s.cfg w = .error e) : step s = .refused (refusalOf e) := by
  simp [step, fetch, ht, hd]

/-- With no word left there is no step (log entry 3). -/
theorem step_of_nil {s : State} (ht : s.trace = []) : step s = .fault .endOfTrace := by
  simp [step, fetch, ht]

@[simp] theorem core_run_zero (s : State) : Sys2Proof.core.run 0 s = .next s := rfl

/-- `k + 1` steps are one step, then `k`. -/
theorem core_run_succ (k : Nat) (s : State) :
    Sys2Proof.core.run (k + 1) s = andThen (step s) (fun t => Sys2Proof.core.run k t) := by
  have h := Host.Core.run.eq_2 Sys2Proof.core s k
  refine h.trans ?_
  cases e : step s with
  | next t => have e' : Sys2Proof.core.step s = .next t := e; rw [e']; rfl
  | fault r => have e' : Sys2Proof.core.step s = .fault r := e; rw [e']; rfl
  | refused r => have e' : Sys2Proof.core.step s = .refused r := e; rw [e']; rfl

@[simp] theorem repeatUntil_zero (stop : State → Bool) (f : State → Out) (s : State) :
    repeatUntil stop f 0 s = .next s := rfl

/-- A repetition that has reached its end. -/
theorem repeatUntil_stop {stop : State → Bool} {s : State} (h : stop s = true) (f : State → Out) (n : Nat) :
    repeatUntil stop f n s = .next s := by
  cases n <;> simp [repeatUntil, h]

/-- A repetition that has not reached its end takes one step. -/
theorem repeatUntil_step {stop : State → Bool} {s t : State} {f : State → Out} (h : stop s = false)
    (hf : f s = .next t) (n : Nat) : repeatUntil stop f (n + 1) s = repeatUntil stop f n t := by
  simp [repeatUntil, h, hf]

/-- A stimulus word's bits placed for the next step are fetched by it. -/
theorem fetch_withFetchWord (s : State) {nbits : Nat} (w : Nat) (h : ¬ nbits ≤ 8) :
    fetch (s.withFetchWord nbits w) = some (BitVec.ofNat 16 w, s) := by
  simp [State.withFetchWord, placeTableWord, h, fetch]

end Sys2Proof.Machine
end

