-- ==== Sys2Proof/Laws/Flags.lean ====
section
/-! SUPPORT. The laws of scheduling: the priority conditions in the rules' words, when a micro-op or an entry is taken and when it is
stuck, and what the pending update leaves in the latches. -/

namespace Sys2Proof.Machine

/-! ### Priority (R149 to R152) -/

theorem preemptedG_eq_false {s : State} :
    preemptedG s = false ↔ (s.cfg.prio = .dOverG → s.seqD = Seq.idle) := by
  unfold preemptedG; cases h : s.cfg.prio <;> simp

theorem preemptedD_eq_false {s : State} :
    preemptedD s = false ↔ (s.cfg.prio = .gOverD → s.seqG = Seq.idle) := by
  unfold preemptedD; cases h : s.cfg.prio <;> simp

theorem mayEnterG_iff {s : State} : mayEnterG s = true ↔ s.cfg.prio = .gOverD ∨ s.seqD = Seq.idle := by
  unfold mayEnterG; cases h : s.cfg.prio <;> simp

theorem mayEnterD_iff {s : State} : mayEnterD s = true ↔ s.cfg.prio = .dOverG ∨ s.seqG = Seq.idle := by
  unfold mayEnterD; cases h : s.cfg.prio <;> simp

/-! ### Micro-ops -/

/-- A micro-op the ingest engine may take has a next state: its rule, and what follows the rule (R151). -/
theorem microStepG_next {s : State} (hf : NoFault s) (hne : s.seqG ≠ Seq.idle)
    (hp : s.cfg.prio = .dOverG → s.seqD = Seq.idle) (rule : State → State) :
    microStepG rule s = .next (afterRule s (rule s)) :=
  microStepG_eq_next.2 ⟨hf, hne, preemptedG_eq_false.2 hp, rfl⟩

/-- The same for the dispatch engine (R152). -/
theorem microStepD_next {s : State} (hf : NoFault s) (hne : s.seqD ≠ Seq.idle)
    (hp : s.cfg.prio = .gOverD → s.seqG = Seq.idle) (rule : State → State) :
    microStepD rule s = .next (afterRule s (rule s)) :=
  microStepD_eq_next.2 ⟨hf, hne, preemptedD_eq_false.2 hp, rfl⟩

/-- The row of the micro-op the ingest engine may take has a next state (R72, R151). -/
theorem microAtG_next {c : SeqCode} {s : State} (h : GoesG c s) (hc : c ≠ Seq.idle) (rule : State → State) :
    microAtG c rule s = .next (afterRule s (rule s)) :=
  microAtG_eq_next.2 ⟨h.2.1, microStepG_next h.1 (h.2.1 ▸ hc) h.2.2 rule⟩

/-- The same for the dispatch engine (R72, R152). -/
theorem microAtD_next {c : SeqCode} {s : State} (h : GoesD c s) (hc : c ≠ Seq.idle) (rule : State → State) :
    microAtD c rule s = .next (afterRule s (rule s)) :=
  microAtD_eq_next.2 ⟨h.2.1, microStepD_next h.1 (h.2.1 ▸ hc) h.2.2 rule⟩

/-- A micro-op the ingest engine may not take is stuck (R170). -/
theorem microStepG_stuck {s : State}
    (h : ¬ (NoFault s ∧ s.seqG ≠ Seq.idle ∧ (s.cfg.prio = .dOverG → s.seqD = Seq.idle)))
    (rule : State → State) : ∃ r, microStepG rule s = .fault r := by
  rw [← preemptedG_eq_false] at h
  by_cases h1 : s.fault = none
  · by_cases h2 : s.seqG = Seq.idle
    · exact ⟨.engineIdle, by simp [microStepG, requiresNoFault_of_noFault h1, h2]⟩
    · have h3 : preemptedG s = true := by
        cases h3 : preemptedG s
        · exact absurd ⟨h1, h2, h3⟩ h
        · rfl
      have h2' : (s.seqG != Seq.idle) = true := by simpa using h2
      exact ⟨.preempted, by rw [microStepG, requiresNoFault_of_noFault h1, h2', h3]; rfl⟩
  · exact ⟨.faultRecorded, by simp [microStepG, requiresNoFault_of_fault h1]⟩

/-- A micro-op the dispatch engine may not take is stuck (R170). -/
theorem microStepD_stuck {s : State}
    (h : ¬ (NoFault s ∧ s.seqD ≠ Seq.idle ∧ (s.cfg.prio = .gOverD → s.seqG = Seq.idle)))
    (rule : State → State) : ∃ r, microStepD rule s = .fault r := by
  rw [← preemptedD_eq_false] at h
  by_cases h1 : s.fault = none
  · by_cases h2 : s.seqD = Seq.idle
    · exact ⟨.engineIdle, by simp [microStepD, requiresNoFault_of_noFault h1, h2]⟩
    · have h3 : preemptedD s = true := by
        cases h3 : preemptedD s
        · exact absurd ⟨h1, h2, h3⟩ h
        · rfl
      have h2' : (s.seqD != Seq.idle) = true := by simpa using h2
      exact ⟨.preempted, by rw [microStepD, requiresNoFault_of_noFault h1, h2', h3]; rfl⟩
  · exact ⟨.faultRecorded, by simp [microStepD, requiresNoFault_of_fault h1]⟩

/-! ### Entries -/

/-- An entry that is enabled is taken (R149). -/
theorem enterG_next {s : State} (h : CanEnterG s) : enterG s = .next (enteredG s) :=
  enterG_eq_next.2 ⟨h.1, h.2.1, h.2.2.1, mayEnterG_iff.2 h.2.2.2, rfl⟩

/-- An entry that is enabled is taken (R150). -/
theorem enterD_next {s : State} (h : CanEnterD s) : enterD s = .next (enteredD s) :=
  enterD_eq_next.2 ⟨h.1, h.2.1, h.2.2.1, mayEnterD_iff.2 h.2.2.2, rfl⟩

/-- An entry that is not enabled is stuck (R149, R170). -/
theorem enterG_stuck {s : State} (h : ¬ CanEnterG s) : ∃ r, enterG s = .fault r := by
  cases hs : enterG s with
  | next t =>
    obtain ⟨h1, h2, h3, h4, _⟩ := enterG_eq_next.1 hs
    exact absurd ⟨h1, h2, h3, mayEnterG_iff.1 h4⟩ h
  | fault r => exact ⟨r, rfl⟩
  | refused r => exact absurd hs (by
      unfold enterG requiresNoFault requires; split <;> [skip; simp]
      split <;> [skip; simp]
      split <;> [skip; simp]
      split <;> simp)

/-- An entry that is not enabled is stuck (R150, R170). -/
theorem enterD_stuck {s : State} (h : ¬ CanEnterD s) : ∃ r, enterD s = .fault r := by
  cases hs : enterD s with
  | next t =>
    obtain ⟨h1, h2, h3, h4, _⟩ := enterD_eq_next.1 hs
    exact absurd ⟨h1, h2, h3, mayEnterD_iff.1 h4⟩ h
  | fault r => exact ⟨r, rfl⟩
  | refused r => exact absurd hs (by
      unfold enterD requiresNoFault requires; split <;> [skip; simp]
      split <;> [skip; simp]
      split <;> [skip; simp]
      split <;> simp)

/-! ### Latches (R148) -/

/-- The pending update leaves every asserted line of an idle engine latched. -/
theorem pendInv_pendUpdate (s t : State) : PendInv (pendUpdate s t) where
  lineG h hi := by
    have hi : irqG t = true := hi
    simp only [pendUpdate_seqG] at h
    simp [h, hi]
  lineD h hi := by
    have hi : irq2 t = true := hi
    simp only [pendUpdate_seqD] at h
    simp [h, hi]

/-- The pending update reads and writes no other part of the invariant. -/
theorem safeInv_pendUpdate {s t : State} (h : SafeInv t) : SafeInv (pendUpdate s t) :=
  ⟨{ h.data with }, { h.ingest with }, { h.dispatch with }, h.noFault⟩

theorem safeInv_afterRule {s t : State} (h : SafeInv t) : SafeInv (afterRule s t) := by
  rw [afterRule_of_noFault _ h.noFault]; exact safeInv_pendUpdate h

theorem coherent_pendUpdate {s t : State} (h : Coherent t) : Coherent (pendUpdate s t) := { h with }

theorem coherent_afterRule {s t : State} (h : Coherent t) : Coherent (afterRule s t) := by
  unfold afterRule; split
  · exact h
  · exact coherent_pendUpdate h

@[simp] theorem afterRule_cfg (s t : State) : (afterRule s t).cfg = t.cfg := by
  unfold afterRule; split <;> rfl

end Sys2Proof.Machine
end

