-- ==== Sys2Proof/Laws/Queue.lean ====
section
/-! SUPPORT. The laws of the queue: its contents under a push and a pop, and everything PUSH and POP can do. -/

namespace Sys2Proof.Machine

/-! ### Contents (R79, R81) -/

@[simp] theorem length_contents (s : State) : (contents s).length = len s := by simp [contents]

/-- The contents depend on the parameters, the storage and the cursors alone. -/
theorem contents_congr {s t : State} (hc : t.cfg = s.cfg) (hb : t.buf = s.buf) (hh : t.head = s.head)
    (ht : t.tail = s.tail) : contents t = contents s := by
  simp [contents, len, queueSlot, hc, hb, hh, ht]

theorem contents_eq_nil {s : State} : contents s = [] ↔ len s = 0 := by
  rw [← List.length_eq_zero_iff, length_contents]

/-- The head slot is the slot HEAD names. -/
@[simp] theorem queueSlot_zero (s : State) : queueSlot s 0 = s.buf.read (slotIndex s.cfg s.head) := by
  simp [queueSlot]

/-- Writing the slot TAIL names leaves every slot of a queue that is not full as it was. -/
theorem queueSlot_write_tail {s : State} (v : Slot) (hh : s.head < 2 * s.cfg.cap) (ht : s.tail < 2 * s.cfg.cap)
    (hl : len s < s.cfg.cap) {k : Nat} (hk : k < len s) :
    (s.buf.write (slotIndex s.cfg s.tail) v).read (slotIndex s.cfg ((s.head + k) % (2 * s.cfg.cap))) =
      queueSlot s k := by
  rw [Memory.read_write_other]
  · rfl
  · rw [slotIndex_mod, slotIndex_tail s.cfg hh ht]
    exact slotIndex_ne _ hk (by unfold len at *; omega)

/-- Writing the slot TAIL names leaves the head slot of a queue that is neither empty nor full as it was (R58). -/
theorem head_write_tail {s : State} (hd : DataInv s) (v : Slot) (hl : len s < s.cfg.cap) (h0 : 0 < len s) :
    (s.buf.write (slotIndex s.cfg s.tail) v).read (slotIndex s.cfg s.head) =
      s.buf.read (slotIndex s.cfg s.head) := by
  simpa using queueSlot_write_tail v hd.head_lt hd.tail_lt hl h0

/-- A push puts the value at the tail. -/
theorem contents_push {s t : State} (v : Slot) (hh : s.head < 2 * s.cfg.cap) (ht : s.tail < 2 * s.cfg.cap)
    (hl : len s < s.cfg.cap) (tc : t.cfg = s.cfg) (th : t.head = s.head)
    (tb : t.buf = s.buf.write (slotIndex s.cfg s.tail) v) (tt : t.tail = nextCursor s.cfg s.tail) :
    contents t = contents s ++ [.holds v] := by
  have hlen : len t = len s + 1 := by
    unfold len; rw [tc, th, tt]; exact cursorDiff_push s.cfg hh ht hl
  unfold contents
  rw [hlen, List.range_succ, List.map_append]
  congr 1
  · refine List.map_congr_left fun k hk => ?_
    rw [← queueSlot_write_tail v hh ht hl (List.mem_range.1 hk)]
    simp only [queueSlot, tc, th, tb]
  · simp only [List.map_cons, List.map_nil, queueSlot, tc, th, tb]
    rw [slotIndex_mod, slotIndex_tail s.cfg hh ht]
    simp [len]

/-- A pop takes the value at the head. -/
theorem contents_pop {s t : State} (hh : s.head < 2 * s.cfg.cap) (ht : s.tail < 2 * s.cfg.cap) (hl : 0 < len s)
    (tc : t.cfg = s.cfg) (tb : t.buf = s.buf) (tt : t.tail = s.tail) (th : t.head = nextCursor s.cfg s.head) :
    contents s = s.buf.read (slotIndex s.cfg s.head) :: contents t := by
  have hlen : len t = len s - 1 := by
    unfold len; rw [tc, th, tt]; exact cursorDiff_pop s.cfg hh ht hl
  obtain ⟨n, hn⟩ : ∃ n, len s = n + 1 := ⟨len s - 1, by omega⟩
  have hn' : len t = n := by omega
  unfold contents
  rw [hn, hn', List.range_succ_eq_map, List.map_cons, queueSlot_zero, List.map_map]
  congr 1
  refine List.map_congr_left fun k _ => ?_
  simp only [Function.comp, queueSlot, tc, tb, th, slotIndex_mod]
  congr 1
  have := slotIndex_nextCursor s.cfg s.head
  simp only [slotIndex] at *
  rw [Nat.add_mod (nextCursor s.cfg s.head), this, ← Nat.add_mod]
  congr 1; omega

/-! ### PUSH (R85) -/

/-- PUSH on a queue that is not full. -/
theorem pushSlot_ok {s : State} (hc : s.cfg.wf) (hl : len s < s.cfg.cap) (v : Slot) (site : Site)
    (k : Res → State → State) :
    pushSlot v site s k =
      k .ok { s with buf := s.buf.write (slotIndex s.cfg s.tail) v, tail := nextCursor s.cfg s.tail } := by
  unfold len at hl
  have h1 : ¬ s.cfg.cap < cursorDiff s.cfg s.head s.tail := by omega
  have h2 : isFull s.cfg s.head s.tail = false := by simp [isFull]; omega
  simp [pushSlot, h1, h2, writeSlot, slotIndex_lt s.cfg s.tail hc]

/-- PUSH on a full queue. -/
theorem pushSlot_full {s : State} (hl : len s = s.cfg.cap) (v : Slot) (site : Site) (k : Res → State → State) :
    pushSlot v site s k = k .rejected s := by
  unfold len at hl
  simp [pushSlot, isFull, hl]

/-- PUSH on cursors out of range. -/
theorem pushSlot_range {s : State} (hl : s.cfg.cap < len s) (v : Slot) (site : Site) (k : Res → State → State) :
    pushSlot v site s k = raise .lenRange site s := by
  unfold len at hl
  simp [pushSlot, hl]

/-! ### POP (R86) -/

/-- POP on a queue whose head slot is written. -/
theorem popSlot_value {s : State} (hc : s.cfg.wf) (h0 : 0 < len s) (hl : len s ≤ s.cfg.cap) {v : Slot}
    (hv : s.buf.read (slotIndex s.cfg s.head) = .holds v) (site : Site) (k : Res → State → State) :
    popSlot site s k = k (.value v) { s with head := nextCursor s.cfg s.head } := by
  unfold len at h0 hl
  have h1 : ¬ s.cfg.cap < cursorDiff s.cfg s.head s.tail := by omega
  have h2 : cursorDiff s.cfg s.head s.tail ≠ 0 := by omega
  simp [popSlot, h1, h2, readSlot, slotIndex_lt s.cfg s.head hc, hv]

/-- POP on an empty queue. -/
theorem popSlot_empty {s : State} (hl : len s = 0) (site : Site) (k : Res → State → State) :
    popSlot site s k = k .empty s := by
  unfold len at hl
  simp [popSlot, hl]

/-- POP on cursors out of range. -/
theorem popSlot_range {s : State} (hl : s.cfg.cap < len s) (site : Site) (k : Res → State → State) :
    popSlot site s k = raise .lenRange site s := by
  unfold len at hl
  simp [popSlot, hl]

/-- POP on a head slot never written. -/
theorem popSlot_unwritten {s : State} (hc : s.cfg.wf) (h0 : 0 < len s) (hl : len s ≤ s.cfg.cap)
    (hv : s.buf.read (slotIndex s.cfg s.head) = .unwritten) (site : Site) (k : Res → State → State) :
    popSlot site s k = raise .unwritten site s := by
  unfold len at h0 hl
  have h1 : ¬ s.cfg.cap < cursorDiff s.cfg s.head s.tail := by omega
  have h2 : cursorDiff s.cfg s.head s.tail ≠ 0 := by omega
  simp [popSlot, h1, h2, readSlot, slotIndex_lt s.cfg s.head hc, hv]

/-- The head slot of a queue that is not empty is written (R81). -/
theorem head_written {s : State} (hd : DataInv s) (h0 : 0 < len s) :
    ∃ v, s.buf.read (slotIndex s.cfg s.head) = .holds v := by
  have h := hd.queue_written 0 h0
  rw [queueSlot_zero] at h
  exact Reg.isWritten_iff.1 h

end Sys2Proof.Machine
end

