-- ==== Sys2Proof/Laws/Rules.lean ====
section
/-! SUPPORT. What each micro-op rule makes of a state, case by case, and which rule a sequencer code selects. -/

namespace Sys2Proof.Machine

/-! ### The rule a code selects (R72, R151, R152) -/

theorem ruleG_ig1 {s : State} (h : s.seqG = Seq.ig1) : ruleG s = ruleIg1 s := by simp [ruleG, h]
theorem ruleG_ig2 {s : State} (h : s.seqG = Seq.ig2) : ruleG s = ruleIg2 s := by simp [ruleG, h]
theorem ruleG_ig3 {s : State} (h : s.seqG = Seq.ig3) : ruleG s = ruleIg3 s := by simp [ruleG, h]
theorem ruleG_ig4 {s : State} (h : s.seqG = Seq.ig4) : ruleG s = ruleIg4 s := by simp [ruleG, h]
theorem ruleG_ig5 {s : State} (h : s.seqG = Seq.ig5) : ruleG s = ruleIg5 s := by simp [ruleG, h]
theorem ruleG_ig6 {s : State} (h : s.seqG = Seq.ig6) : ruleG s = ruleIg6 s := by simp [ruleG, h]
theorem ruleG_ig7 {s : State} (h : s.seqG = Seq.ig7) : ruleG s = ruleIg7 s := by simp [ruleG, h]
theorem ruleG_ig8 {s : State} (h : s.seqG = Seq.ig8) : ruleG s = ruleIg8 s := by simp [ruleG, h]

theorem ruleG_unused {s : State} (h : 9 ≤ s.seqG.toNat) : ruleG s = raise .seqCode .mstepG s := by
  unfold ruleG
  split
  all_goals first | rfl | omega

theorem ruleD_dp1 {s : State} (h : s.seqD = Seq.dp1) : ruleD s = ruleDp1 s := by simp [ruleD, h]
theorem ruleD_dp2 {s : State} (h : s.seqD = Seq.dp2) : ruleD s = ruleDp2 s := by simp [ruleD, h]
theorem ruleD_dp3 {s : State} (h : s.seqD = Seq.dp3) : ruleD s = ruleDp3 s := by simp [ruleD, h]
theorem ruleD_dp4 {s : State} (h : s.seqD = Seq.dp4) : ruleD s = ruleDp4 s := by simp [ruleD, h]
theorem ruleD_dp5 {s : State} (h : s.seqD = Seq.dp5) : ruleD s = ruleDp5 s := by simp [ruleD, h]
theorem ruleD_dp6 {s : State} (h : s.seqD = Seq.dp6) : ruleD s = ruleDp6 s := by simp [ruleD, h]
theorem ruleD_dp7 {s : State} (h : s.seqD = Seq.dp7) : ruleD s = ruleDp7 s := by simp [ruleD, h]
theorem ruleD_dp8 {s : State} (h : s.seqD = Seq.dp8) : ruleD s = ruleDp8 s := by simp [ruleD, h]
theorem ruleD_dp9 {s : State} (h : s.seqD = Seq.dp9) : ruleD s = ruleDp9 s := by simp [ruleD, h]
theorem ruleD_dp10 {s : State} (h : s.seqD = Seq.dp10) : ruleD s = ruleDp10 s := by simp [ruleD, h]
theorem ruleD_dp11 {s : State} (h : s.seqD = Seq.dp11) : ruleD s = ruleDp11 s := by simp [ruleD, h]
theorem ruleD_dp12 {s : State} (h : s.seqD = Seq.dp12) : ruleD s = ruleDp12 s := by simp [ruleD, h]
theorem ruleD_dp13 {s : State} (h : s.seqD = Seq.dp13) : ruleD s = ruleDp13 s := by simp [ruleD, h]

theorem ruleD_unused {s : State} (h : 14 ≤ s.seqD.toNat) : ruleD s = raise .seqCode .mstepD s := by
  unfold ruleD
  split
  all_goals first | rfl | omega

/-- A used ingest code that is not IDLE is one of IG1 to IG8 (R72). -/
theorem seqG_cases {c : SeqCode} (hu : c.toNat ≤ 8) (h0 : c ≠ Seq.idle) :
    c = Seq.ig1 ∨ c = Seq.ig2 ∨ c = Seq.ig3 ∨ c = Seq.ig4 ∨ c = Seq.ig5 ∨ c = Seq.ig6 ∨ c = Seq.ig7 ∨
      c = Seq.ig8 := by
  revert c; decide

/-- A used dispatch code that is not IDLE is one of DP1 to DP13 (R72). -/
theorem seqD_cases {c : SeqCode} (hu : c.toNat ≤ 13) (h0 : c ≠ Seq.idle) :
    c = Seq.dp1 ∨ c = Seq.dp2 ∨ c = Seq.dp3 ∨ c = Seq.dp4 ∨ c = Seq.dp5 ∨ c = Seq.dp6 ∨ c = Seq.dp7 ∨
      c = Seq.dp8 ∨ c = Seq.dp9 ∨ c = Seq.dp10 ∨ c = Seq.dp11 ∨ c = Seq.dp12 ∨ c = Seq.dp13 := by
  revert c; decide

/-! ### The ingest rules with their operands at hand (R96 to R99) -/

theorem ruleIg2_holds {s : State} {v : Slot} (h : s.rdrG = .holds v) :
    ruleIg2 s = { s with
      rxneG := false
      g := { s.g with v := .holds v }
      seqG := if v = 0x000#9 then Seq.ig7 else Seq.ig3 } := by
  simp [ruleIg2, readRdrOf, h]

theorem ruleIg2_unwritten {s : State} (h : s.rdrG = .unwritten) : ruleIg2 s = raise .unwritten .ig2 s := by
  simp [ruleIg2, readRdrOf, h]

theorem ruleIg3_full {s : State} (h : len s = s.cfg.cap) :
    ruleIg3 s = { s with g := { s.g with h := .holds s.head, t := .holds s.tail }, seqG := Seq.ig7 } := by
  unfold len at h
  simp [ruleIg3, isFull, h]

theorem ruleIg3_room {s : State} (h : len s < s.cfg.cap) :
    ruleIg3 s = { s with g := { s.g with h := .holds s.head, t := .holds s.tail }, seqG := Seq.ig4 } := by
  unfold len at h
  have h1 : ¬ s.cfg.cap < cursorDiff s.cfg s.head s.tail := by omega
  have h2 : isFull s.cfg s.head s.tail = false := by simp [isFull]; omega
  simp [ruleIg3, h1, h2]

theorem ruleIg3_range {s : State} (h : s.cfg.cap < len s) :
    ruleIg3 s = raise .lenRange .ig3 { s with g := { s.g with h := .holds s.head, t := .holds s.tail } } := by
  unfold len at h
  simp [ruleIg3, h]

theorem ruleIg4_holds {s : State} (hc : s.cfg.wf) {t : Nat} {v : Slot} (ht : s.g.t = .holds t)
    (hv : s.g.v = .holds v) :
    ruleIg4 s = { s with buf := s.buf.write (slotIndex s.cfg t) v, seqG := Seq.ig5 } := by
  simp [ruleIg4, ht, hv, writeSlot, slotIndex_lt s.cfg t hc]

theorem ruleIg7_overrun {s : State} (h : s.oreG = true) :
    ruleIg7 s = { s with g := { s.g with o := .holds s.oreG }, seqG := Seq.ig8 } := by
  simp [ruleIg7, h]

theorem ruleIg7_idle {s : State} (h : s.oreG = false) :
    ruleIg7 s = { s with g := { s.g with o := .holds s.oreG }, seqG := Seq.idle } := by
  simp [ruleIg7, h, leaveG]

theorem ruleIg5_holds {s : State} {t : Nat} (ht : s.g.t = .holds t) :
    ruleIg5 s = { s with tail := nextCursor s.cfg t, seqG := Seq.ig6 } := by
  simp [ruleIg5, ht]

/-! ### The dispatch rules with their operands at hand (R108 to R115) -/

theorem ruleDp2_empty {s : State} (h : len s = 0) :
    ruleDp2 s = { s with d := { s.d with t := .holds s.tail, h := .holds s.head }, seqD := Seq.dp7 } := by
  unfold len at h
  simp [ruleDp2, h]

theorem ruleDp2_some {s : State} (h0 : 0 < len s) (h : len s ≤ s.cfg.cap) :
    ruleDp2 s = { s with d := { s.d with t := .holds s.tail, h := .holds s.head }, seqD := Seq.dp3 } := by
  unfold len at h0 h
  have h1 : ¬ s.cfg.cap < cursorDiff s.cfg s.head s.tail := by omega
  have h2 : cursorDiff s.cfg s.head s.tail ≠ 0 := by omega
  simp [ruleDp2, h1, h2]

theorem ruleDp2_range {s : State} (h : s.cfg.cap < len s) :
    ruleDp2 s = raise .lenRange .dp2 { s with d := { s.d with t := .holds s.tail, h := .holds s.head } } := by
  unfold len at h
  simp [ruleDp2, h]

theorem ruleDp3_holds {s : State} (hc : s.cfg.wf) {h : Nat} {v : Slot} (hh : s.d.h = .holds h)
    (hv : s.buf.read (slotIndex s.cfg h) = .holds v) :
    ruleDp3 s = { s with d := { s.d with v := .holds v }, seqD := Seq.dp4 } := by
  simp [ruleDp3, hh, readSlot, slotIndex_lt s.cfg h hc, hv]

theorem ruleDp4_holds {s : State} {h : Nat} (hh : s.d.h = .holds h) :
    ruleDp4 s = { s with head := nextCursor s.cfg h, seqD := Seq.dp5 } := by
  simp [ruleDp4, hh]

theorem ruleDp5_holds {s : State} {v : Slot} (ht : s.txe2 = true) (hv : s.d.v = .holds v) :
    ruleDp5 s = { s with tdr2 := .holds v, txe2 := false, seqD := Seq.dp6 } := by
  simp [ruleDp5, ht, hv, writeTdrReg]

theorem ruleDp9_holds {s : State} {c : Slot} (h : s.rdr2 = .holds c) :
    ruleDp9 s = { s with rxne2 := false, d := { s.d with c := .holds c }, seqD := commandTarget c } := by
  simp [ruleDp9, readRdrOf, h]

theorem ruleDp9_unwritten {s : State} (h : s.rdr2 = .unwritten) : ruleDp9 s = raise .unwritten .dp9 s := by
  simp [ruleDp9, readRdrOf, h]

theorem ruleDp12_overrun {s : State} (h : s.ore2 = true) :
    ruleDp12 s = { s with d := { s.d with o := .holds s.ore2 }, seqD := Seq.dp13 } := by
  simp [ruleDp12, h]

theorem ruleDp12_idle {s : State} (h : s.ore2 = false) :
    ruleDp12 s = { s with d := { s.d with o := .holds s.ore2 }, seqD := Seq.idle } := by
  simp [ruleDp12, h, leaveD]

/-- A command leads to DP10, DP11 or DP12 (R115). -/
theorem commandTarget_cases (c : Slot) :
    commandTarget c = Seq.dp10 ∨ commandTarget c = Seq.dp11 ∨ commandTarget c = Seq.dp12 := by
  unfold commandTarget; split_ifs <;> simp

/-! ### No rule writes the parameters (R18) -/

theorem readReg_cfg {α : Type} {r : Reg α} {site : Site} {s : State} {k : α → State} {c : Config}
    (hs : s.cfg = c) (hk : ∀ v, (k v).cfg = c) : (readReg r site s k).cfg = c := by
  cases r
  · exact hs
  · exact hk _

theorem ruleG_cfg (s : State) : (ruleG s).cfg = s.cfg := by
  unfold ruleG
  split
  · rfl
  · exact readReg_cfg rfl fun _ => rfl
  · simp only [ruleIg3]; split <;> rfl
  · exact readReg_cfg rfl fun _ => readReg_cfg rfl fun _ => by unfold writeSlot; split <;> rfl
  · exact readReg_cfg rfl fun _ => rfl
  · rfl
  · simp only [ruleIg7]; split <;> rfl
  · rfl
  · rfl

theorem ruleD_cfg (s : State) : (ruleD s).cfg = s.cfg := by
  unfold ruleD
  split
  · rfl
  · simp only [ruleDp2]; split <;> rfl
  · refine readReg_cfg rfl fun _ => ?_
    unfold readSlot; split
    · exact readReg_cfg rfl fun _ => rfl
    · rfl
  · exact readReg_cfg rfl fun _ => rfl
  · simp only [ruleDp5]; split
    · exact readReg_cfg rfl fun _ => rfl
    · rfl
  · rfl
  · rfl
  · rfl
  · exact readReg_cfg rfl fun _ => rfl
  · rfl
  · rfl
  · simp only [ruleDp12]; split <;> rfl
  · rfl
  · rfl

end Sys2Proof.Machine
end

