-- ==== Sys2Proof/Laws/Invariant.lean ====
section
/-! SUPPORT. The safety invariant (Safety.lean) is kept by every rule: micro-ops, PUSH, POP, arrivals, TX_DONE and RESET. -/

namespace Sys2Proof.Machine

theorem safeInv_ig1 {s : State} (h : SafeInv s) : SafeInv (ruleIg1 s) := by
  obtain ⟨hd, hi, hp, hn⟩ := h
  refine ⟨{ hd with seqG_used := ?_ }, ?_, { hp with }, hn⟩
  · simp only [ruleIg1]; split <;> decide
  · constructor <;> simp only [ruleIg1] <;> split <;> simp [*]

theorem safeInv_ig2 {s : State} (h : SafeInv s) (hq : s.seqG = Seq.ig2) : SafeInv (ruleIg2 s) := by
  obtain ⟨hd, hi, hp, hn⟩ := h
  obtain ⟨v, hv⟩ := Reg.isWritten_iff.1 (hd.rdrG_written (hi.ig2 hq))
  have e : ruleIg2 s = { s with rxneG := false, g := { s.g with v := .holds v }, seqG := if v = 0x000#9 then Seq.ig7 else Seq.ig3 } := by
    simp [ruleIg2, readRdrOf, hv]
  rw [e]
  refine ⟨{ hd with seqG_used := ?_, rdrG_written := ?_ }, ?_, { hp with }, hn⟩
  · simp
  · simp only; split <;> decide
  · constructor <;> simp only <;> split <;> simp_all

theorem safeInv_ig3 {s : State} (h : SafeInv s) (hq : s.seqG = Seq.ig3) : SafeInv (ruleIg3 s) := by
  obtain ⟨hd, hi, hp, hn⟩ := h
  have hl := hd.len_le
  have e : ruleIg3 s = { s with g := { s.g with h := .holds s.head, t := .holds s.tail }, seqG := if isFull s.cfg s.head s.tail then Seq.ig7 else Seq.ig4 } := by
    simp only [ruleIg3]; rw [if_neg (by simpa [len] using hl)]
  rw [e]
  refine ⟨{ hd with seqG_used := ?_ }, ?_, { hp with }, hn⟩
  · simp only; split <;> decide
  · constructor <;> simp only <;> split <;> simp_all [len, isFull]
    exact ⟨hi.ig3 ‹_›, lt_of_le_of_ne hl ‹_›⟩

theorem safeInv_ig4 {s : State} (h : SafeInv s) (hq : s.seqG = Seq.ig4) : SafeInv (ruleIg4 s) := by
  obtain ⟨hd, hi, hp, hn⟩ := h
  obtain ⟨hv, ht, hl⟩ := hi.ig4 hq
  obtain ⟨v, hv⟩ := Reg.isWritten_iff.1 hv
  have hc := hd.cap_pos
  have hlt := slotIndex_lt s.cfg s.tail hc
  have e : ruleIg4 s = { s with buf := s.buf.write (slotIndex s.cfg s.tail) v, seqG := Seq.ig5 } := by
    simp [ruleIg4, hv, ht, writeSlot, hlt]
  rw [e]
  refine ⟨{ hd with seqG_used := ?_, buf_wf := ?_, buf_index := ?_, queue_written := ?_ }, ?_, ?_, hn⟩
  · exact Memory.wf_write _ _ _ hd.buf_wf
  · intro p hp
    rcases Memory.mem_write _ _ _ _ hp with rfl | hp
    · exact hlt
    · exact hd.buf_index p hp
  · intro k hk; exact Memory.isWritten_write _ _ _ _ (hd.queue_written k hk)
  · simp
  · constructor <;> simp_all [len]
  · refine { hp with dp4 := fun e => ?_ }
    obtain ⟨h1, h2, h3, h4, h5⟩ := hp.dp4 e
    exact ⟨h1, h2, h3, h4, h5.trans (head_write_tail hd v hl h3).symm⟩

theorem safeInv_ig5 {s : State} (h : SafeInv s) (hq : s.seqG = Seq.ig5) : SafeInv (ruleIg5 s) := by
  obtain ⟨hd, hi, hp, hn⟩ := h
  obtain ⟨ht, hl, hv, hw⟩ := hi.ig5 hq
  have hc := hd.cap_pos
  have e : ruleIg5 s = { s with tail := nextCursor s.cfg s.tail, seqG := Seq.ig6 } := by
    simp [ruleIg5, ht]
  rw [e]
  have hlen : len { s with tail := nextCursor s.cfg s.tail, seqG := Seq.ig6 } = len s + 1 :=
    cursorDiff_push s.cfg hd.head_lt hd.tail_lt hl
  refine ⟨{ hd with seqG_used := ?_, tail_lt := ?_, len_le := ?_, queue_written := ?_ }, ?_, ?_, hn⟩
  · exact nextCursor_lt _ _ hc
  · rw [hlen]; exact hl
  · intro k hk
    rw [hlen] at hk
    rcases Nat.lt_succ_iff_lt_or_eq.1 hk with hk | rfl
    · exact hd.queue_written k hk
    · have := slotIndex_tail s.cfg hd.head_lt hd.tail_lt
      simp only [queueSlot, slotIndex_mod] at *
      rw [this] at hw; exact hw ▸ hv
  · simp
  · constructor <;> simp_all
  · constructor <;> simp only [hlen]
    · exact hp.dp2
    · exact fun e => ⟨(hp.dp3 e).1, (hp.dp3 e).2.1, by omega⟩
    · exact fun e => ⟨(hp.dp4 e).1, (hp.dp4 e).2.1, by omega, (hp.dp4 e).2.2.2⟩
    · exact hp.dp5
    · exact hp.dp9

theorem safeInv_ig6 {s : State} (h : SafeInv s) : SafeInv (ruleIg6 s) := by
  obtain ⟨hd, hi, hp, hn⟩ := h
  refine ⟨{ hd with seqG_used := ?_ }, ?_, { hp with }, hn⟩
  · simp [ruleIg6]
  · constructor <;> simp [ruleIg6]

theorem safeInv_ig7 {s : State} (h : SafeInv s) : SafeInv (ruleIg7 s) := by
  obtain ⟨hd, hi, hp, hn⟩ := h
  unfold ruleIg7
  simp only []
  split
  · refine ⟨{ hd with seqG_used := ?_ }, ?_, { hp with }, hn⟩
    · simp
    · constructor <;> simp
  · refine ⟨{ hd with seqG_used := ?_ }, ?_, { hp with }, hn⟩
    · simp
    · constructor <;> simp

theorem safeInv_ig8 {s : State} (h : SafeInv s) : SafeInv (ruleIg8 s) := by
  obtain ⟨hd, hi, hp, hn⟩ := h
  refine ⟨{ hd with seqG_used := ?_ }, ?_, { hp with }, hn⟩
  · simp [ruleIg8]
  · constructor <;> simp [ruleIg8]

/-- Every micro-op of the ingest engine keeps the safety invariant. -/
theorem safeInv_ruleG {s : State} (h : SafeInv s) (hne : s.seqG ≠ Seq.idle) : SafeInv (ruleG s) := by
  have hu := h.data.seqG_used
  have e : ∀ n, s.seqG.toNat = n → s.seqG = BitVec.ofNat 4 n := fun n hn => by subst hn; simp
  have h0 : s.seqG.toNat ≠ 0 := fun h0 => hne (by simpa using e 0 h0)
  unfold ruleG
  split
  · exact safeInv_ig1 h
  · exact safeInv_ig2 h (e _ ‹_›)
  · exact safeInv_ig3 h (e _ ‹_›)
  · exact safeInv_ig4 h (e _ ‹_›)
  · exact safeInv_ig5 h (e _ ‹_›)
  · exact safeInv_ig6 h
  · exact safeInv_ig7 h
  · exact safeInv_ig8 h
  · simp only [imp_false] at *; omega

theorem safeInv_dp1 {s : State} (h : SafeInv s) : SafeInv (ruleDp1 s) := by
  obtain ⟨hd, hi, hp, hn⟩ := h
  refine ⟨{ hd with seqD_used := ?_ }, { hi with }, ?_, hn⟩
  · simp only [ruleDp1]; split <;> decide
  · constructor <;> simp only [ruleDp1] <;> split <;> simp [*]

theorem safeInv_dp2 {s : State} (h : SafeInv s) (hq : s.seqD = Seq.dp2) : SafeInv (ruleDp2 s) := by
  obtain ⟨hd, hi, hp, hn⟩ := h
  have hl := hd.len_le
  have e : ruleDp2 s = { s with d := { s.d with h := .holds s.head, t := .holds s.tail }, seqD := if len s = 0 then Seq.dp7 else Seq.dp3 } := by
    simp only [ruleDp2]; rw [if_neg (by simpa [len] using hl)]; rfl
  have hx := hp.dp2 hq
  rw [e]
  refine ⟨{ hd with seqD_used := ?_ }, { hi with }, ?_, hn⟩
  · simp only; split <;> decide
  · constructor <;> simp only <;> split <;> simp_all [len]
    omega

theorem safeInv_dp3 {s : State} (h : SafeInv s) (hq : s.seqD = Seq.dp3) : SafeInv (ruleDp3 s) := by
  obtain ⟨hd, hi, hp, hn⟩ := h
  obtain ⟨hx, hh, hl⟩ := hp.dp3 hq
  have hw := hd.queue_written 0 hl
  simp only [queueSlot, Nat.add_zero, slotIndex_mod] at hw
  obtain ⟨v, hv⟩ := Reg.isWritten_iff.1 hw
  have hlt := slotIndex_lt s.cfg s.head hd.cap_pos
  have e : ruleDp3 s = { s with d := { s.d with v := .holds v }, seqD := Seq.dp4 } := by
    simp [ruleDp3, hh, readSlot, hlt, hv]
  rw [e]
  refine ⟨{ hd with seqD_used := ?_ }, { hi with }, ?_, hn⟩
  · simp
  · constructor <;> simp_all [len]

theorem safeInv_dp4 {s : State} (h : SafeInv s) (hq : s.seqD = Seq.dp4) : SafeInv (ruleDp4 s) := by
  obtain ⟨hd, hi, hp, hn⟩ := h
  obtain ⟨hx, hh, hl, hv, -⟩ := hp.dp4 hq
  have e : ruleDp4 s = { s with head := nextCursor s.cfg s.head, seqD := Seq.dp5 } := by
    simp [ruleDp4, hh]
  rw [e]
  have hlen : len { s with head := nextCursor s.cfg s.head, seqD := Seq.dp5 } = len s - 1 :=
    cursorDiff_pop s.cfg hd.head_lt hd.tail_lt hl
  have hle := hd.len_le
  refine ⟨{ hd with seqD_used := ?_, head_lt := ?_, len_le := ?_, queue_written := ?_ }, ?_, ?_, hn⟩
  · exact nextCursor_lt _ _ hd.cap_pos
  · rw [hlen]; simp only; omega
  · intro k hk
    rw [hlen] at hk
    have := hd.queue_written (k+1) (by omega)
    simp only [queueSlot, slotIndex_mod] at this ⊢
    have e2 : slotIndex s.cfg (nextCursor s.cfg s.head + k) = slotIndex s.cfg (s.head + (k+1)) := by
      have := slotIndex_nextCursor s.cfg s.head
      simp only [slotIndex] at *
      rw [Nat.add_mod, this, ← Nat.add_mod]; congr 1; omega
    rw [e2]; exact this
  · simp
  · constructor <;> simp only [hlen]
    · exact hi.ig2
    · exact hi.ig3
    · exact fun e => ⟨(hi.ig4 e).1, (hi.ig4 e).2.1, by have := (hi.ig4 e).2.2; omega⟩
    · exact fun e => ⟨(hi.ig5 e).1, by have := (hi.ig5 e).2.1; omega, (hi.ig5 e).2.2⟩
  · constructor <;> simp_all

theorem safeInv_dp5 {s : State} (h : SafeInv s) (hq : s.seqD = Seq.dp5) : SafeInv (ruleDp5 s) := by
  obtain ⟨hd, hi, hp, hn⟩ := h
  obtain ⟨hx, hv⟩ := hp.dp5 hq
  obtain ⟨v, hv⟩ := Reg.isWritten_iff.1 hv
  have e : ruleDp5 s = { s with tdr2 := .holds v, txe2 := false, seqD := Seq.dp6 } := by
    simp [ruleDp5, hx, hv, writeTdrReg]
  rw [e]
  refine ⟨{ hd with seqD_used := ?_, tdr2_written := ?_ }, { hi with }, ?_, hn⟩
  · simp
  · simp
  · constructor <;> simp

theorem safeInv_dp6 {s : State} (h : SafeInv s) : SafeInv (ruleDp6 s) := by
  obtain ⟨hd, hi, hp, hn⟩ := h
  refine ⟨{ hd with seqD_used := ?_ }, { hi with }, ?_, hn⟩
  · simp only [ruleDp6]; split <;> decide
  · constructor <;> simp only [ruleDp6] <;> split <;> simp

theorem safeInv_dp7 {s : State} (h : SafeInv s) : SafeInv (ruleDp7 s) := by
  obtain ⟨hd, hi, hp, hn⟩ := h
  refine ⟨{ hd with seqD_used := ?_ }, { hi with }, ?_, hn⟩
  · simp [ruleDp7]
  · constructor <;> simp [ruleDp7]

theorem safeInv_dp8 {s : State} (h : SafeInv s) : SafeInv (ruleDp8 s) := by
  obtain ⟨hd, hi, hp, hn⟩ := h
  refine ⟨{ hd with seqD_used := ?_ }, { hi with }, ?_, hn⟩
  · simp only [ruleDp8]; split <;> decide
  · constructor <;> simp only [ruleDp8] <;> split <;> simp [*]

theorem safeInv_dp9 {s : State} (h : SafeInv s) (hq : s.seqD = Seq.dp9) : SafeInv (ruleDp9 s) := by
  obtain ⟨hd, hi, hp, hn⟩ := h
  obtain ⟨v, hv⟩ := Reg.isWritten_iff.1 (hd.rdr2_written (hp.dp9 hq))
  have e : ruleDp9 s = { s with rxne2 := false, d := { s.d with c := .holds v }, seqD := commandTarget v } := by
    simp [ruleDp9, readRdrOf, hv]
  have ht : commandTarget v = 10#4 ∨ commandTarget v = 11#4 ∨ commandTarget v = 12#4 := by
    unfold commandTarget; split_ifs <;> simp
  rw [e]
  refine ⟨{ hd with seqD_used := ?_, rdr2_written := ?_ }, { hi with }, ?_, hn⟩
  · simp
  · rcases ht with h | h | h <;> simp [h]
  · rcases ht with h | h | h <;> constructor <;> simp [h]

theorem safeInv_dp10 {s : State} (h : SafeInv s) : SafeInv (ruleDp10 s) := by
  obtain ⟨hd, hi, hp, hn⟩ := h
  refine ⟨{ hd with seqD_used := ?_ }, { hi with }, ?_, hn⟩
  · simp [ruleDp10]
  · constructor <;> simp [ruleDp10]

theorem safeInv_dp11 {s : State} (h : SafeInv s) : SafeInv (ruleDp11 s) := by
  obtain ⟨hd, hi, hp, hn⟩ := h
  refine ⟨{ hd with seqD_used := ?_ }, { hi with }, ?_, hn⟩
  · simp [ruleDp11]
  · constructor <;> simp [ruleDp11]

theorem safeInv_dp12 {s : State} (h : SafeInv s) : SafeInv (ruleDp12 s) := by
  obtain ⟨hd, hi, hp, hn⟩ := h
  unfold ruleDp12
  simp only []
  split
  · refine ⟨{ hd with seqD_used := ?_ }, { hi with }, ?_, hn⟩
    · simp
    · constructor <;> simp
  · refine ⟨{ hd with seqD_used := ?_ }, { hi with }, ?_, hn⟩
    · simp
    · constructor <;> simp

theorem safeInv_dp13 {s : State} (h : SafeInv s) : SafeInv (ruleDp13 s) := by
  obtain ⟨hd, hi, hp, hn⟩ := h
  refine ⟨{ hd with seqD_used := ?_ }, { hi with }, ?_, hn⟩
  · simp [ruleDp13]
  · constructor <;> simp [ruleDp13]

/-- Every micro-op of the dispatch engine keeps the safety invariant. -/
theorem safeInv_ruleD {s : State} (h : SafeInv s) (hne : s.seqD ≠ Seq.idle) : SafeInv (ruleD s) := by
  have hu := h.data.seqD_used
  have e : ∀ n, s.seqD.toNat = n → s.seqD = BitVec.ofNat 4 n := fun n hn => by subst hn; simp
  have h0 : s.seqD.toNat ≠ 0 := fun h0 => hne (by simpa using e 0 h0)
  unfold ruleD
  split
  · exact safeInv_dp1 h
  · exact safeInv_dp2 h (e _ ‹_›)
  · exact safeInv_dp3 h (e _ ‹_›)
  · exact safeInv_dp4 h (e _ ‹_›)
  · exact safeInv_dp5 h (e _ ‹_›)
  · exact safeInv_dp6 h
  · exact safeInv_dp7 h
  · exact safeInv_dp8 h
  · exact safeInv_dp9 h (e _ ‹_›)
  · exact safeInv_dp10 h
  · exact safeInv_dp11 h
  · exact safeInv_dp12 h
  · exact safeInv_dp13 h
  · simp only [imp_false] at *; omega

/-- The start state meets the safety invariant, whatever trace is loaded (R172). -/
theorem safeInv_start (cfg : Config) (h : cfg.wf) (tr : List StimWord) : SafeInv { State.start cfg with trace := tr } := by
  refine ⟨?_, ?_, ?_, rfl⟩
  · constructor <;> simp [State.start, len, cursorDiff] <;> exact h
  · constructor <;> simp [State.start]
  · constructor <;> simp [State.start]

/-- Taking IRQ_G keeps the safety invariant (R149). -/
theorem safeInv_takeG {s : State} (h : SafeInv s) : SafeInv (takeG s) := by
  obtain ⟨hd, hi, hp, hn⟩ := h
  refine ⟨{ hd with seqG_used := ?_ }, ?_, { hp with }, hn⟩
  · simp
  · constructor <;> simp

/-- Taking IRQ_2 keeps the safety invariant (R150). -/
theorem safeInv_takeD {s : State} (h : SafeInv s) : SafeInv (takeD s) := by
  obtain ⟨hd, hi, hp, hn⟩ := h
  refine ⟨{ hd with seqD_used := ?_ }, { hi with }, ?_, hn⟩
  · simp
  · constructor <;> simp

/-- PUSH keeps the safety invariant while the ingest engine is IDLE, if what takes its result does. -/
theorem safeInv_pushSlot {s : State} (h : SafeInv s) (v : Slot) (site : Site) (hq : s.seqG = Seq.idle) (k : Res → State → State)
  (hk : ∀ r t, SafeInv t → SafeInv (k r t)) : SafeInv (pushSlot v site s k) := by
  have hl := h.data.len_le
  unfold pushSlot
  rw [if_neg (by simpa [len] using hl)]
  split
  · exact hk _ _ h
  · next hf =>
    have hlt : len s < s.cfg.cap := by simp [isFull, len] at *; omega
    rw [writeSlot, if_pos (slotIndex_lt _ _ h.data.cap_pos)]
    apply hk
    obtain ⟨hd, hi, hp, hn⟩ := h
    have hlen : len { s with buf := s.buf.write (slotIndex s.cfg s.tail) v, tail := nextCursor s.cfg s.tail } = len s + 1 :=
      cursorDiff_push s.cfg hd.head_lt hd.tail_lt hlt
    refine ⟨{ hd with tail_lt := ?_, len_le := ?_, buf_wf := ?_, buf_index := ?_, queue_written := ?_ }, ?_, ?_, hn⟩
    · exact nextCursor_lt _ _ hd.cap_pos
    · rw [hlen]; exact hlt
    · exact Memory.wf_write _ _ _ hd.buf_wf
    · intro p hp
      rcases Memory.mem_write _ _ _ _ hp with rfl | hp
      · exact slotIndex_lt _ _ hd.cap_pos
      · exact hd.buf_index p hp
    · intro k hk
      rw [hlen] at hk
      rcases Nat.lt_succ_iff_lt_or_eq.1 hk with hk | rfl
      · exact Memory.isWritten_write _ _ _ _ (hd.queue_written k hk)
      · have := slotIndex_tail s.cfg hd.head_lt hd.tail_lt
        simp only [queueSlot, slotIndex_mod] at *
        rw [this]; simp [len]
    · constructor <;> simp_all
    · constructor <;> simp only [hlen]
      · exact hp.dp2
      · exact fun e => ⟨(hp.dp3 e).1, (hp.dp3 e).2.1, by omega⟩
      · intro e
        obtain ⟨h1, h2, h3, h4, h5⟩ := hp.dp4 e
        exact ⟨h1, h2, by omega, h4, h5.trans (head_write_tail hd v hlt h3).symm⟩
      · exact hp.dp5
      · exact hp.dp9

/-- POP keeps the safety invariant while the dispatch engine is IDLE, if what takes its result does. -/
theorem safeInv_popSlot {s : State} (h : SafeInv s) (site : Site) (hq : s.seqD = Seq.idle) (k : Res → State → State)
  (hk : ∀ r t, SafeInv t → SafeInv (k r t)) : SafeInv (popSlot site s k) := by
  have hl := h.data.len_le
  unfold popSlot
  rw [if_neg (by simpa [len] using hl)]
  split
  · exact hk _ _ h
  · next hf =>
    have hpos : 0 < len s := by unfold len; omega
    have hw := h.data.queue_written 0 hpos
    simp only [queueSlot, Nat.add_zero, slotIndex_mod] at hw
    obtain ⟨v, hv⟩ := Reg.isWritten_iff.1 hw
    simp only [readSlot, slotIndex_lt _ _ h.data.cap_pos, hv, readReg_holds, if_true]
    apply hk
    obtain ⟨hd, hi, hp, hn⟩ := h
    have hle := hd.len_le
    have hlen : len { s with head := nextCursor s.cfg s.head } = len s - 1 :=
      cursorDiff_pop s.cfg hd.head_lt hd.tail_lt hpos
    refine ⟨{ hd with head_lt := ?_, len_le := ?_, queue_written := ?_ }, ?_, ?_, hn⟩
    · exact nextCursor_lt _ _ hd.cap_pos
    · rw [hlen]; simp only; omega
    · intro k hk
      rw [hlen] at hk
      have := hd.queue_written (k+1) (by omega)
      simp only [queueSlot, slotIndex_mod] at this ⊢
      have e2 : slotIndex s.cfg (nextCursor s.cfg s.head + k) = slotIndex s.cfg (s.head + (k+1)) := by
        have := slotIndex_nextCursor s.cfg s.head
        simp only [slotIndex] at *
        rw [Nat.add_mod, this, ← Nat.add_mod]; congr 1; omega
      rw [e2]; exact this
    · constructor <;> simp only [hlen]
      · exact hi.ig2
      · exact hi.ig3
      · exact fun e => ⟨(hi.ig4 e).1, (hi.ig4 e).2.1, by have := (hi.ig4 e).2.2; omega⟩
      · exact fun e => ⟨(hi.ig5 e).1, by have := (hi.ig5 e).2.1; omega, (hi.ig5 e).2.2⟩
    · constructor <;> simp_all

/-- A frame arriving keeps the safety invariant. -/
theorem safeInv_receiveFrame {s : State} (h : SafeInv s) (l : Link) (f : Slot) : SafeInv (receiveFrame l f s) := by
  obtain ⟨hd, hi, hp, hn⟩ := h
  cases l
  · by_cases hr : s.rxneG = true
    · cases ho : s.cfg.ovr <;> simp only [receiveFrame, rxne_g, hr, if_true, ho]
      · exact ⟨{ hd with }, { hi with }, { hp with }, hn⟩
      · exact ⟨{ hd with rdrG_written := fun _ => rfl }, { hi with }, { hp with }, hn⟩
    · simp only [receiveFrame, rxne_g, hr]
      exact ⟨{ hd with rdrG_written := fun _ => rfl }, { hi with ig2 := fun _ => rfl }, { hp with }, hn⟩
  · by_cases hr : s.rxne2 = true
    · cases ho : s.cfg.ovr <;> simp only [receiveFrame, rxne_l2, hr, if_true, ho]
      · exact ⟨{ hd with }, { hi with }, { hp with }, hn⟩
      · exact ⟨{ hd with rdr2_written := fun _ => rfl }, { hi with }, { hp with }, hn⟩
    · simp only [receiveFrame, rxne_l2, hr]
      exact ⟨{ hd with rdr2_written := fun _ => rfl }, { hi with }, { hp with dp9 := fun _ => rfl }, hn⟩

/-- TX_DONE, where it is enabled, keeps the safety invariant. -/
theorem safeInv_ruleTxDone {s : State} (h : SafeInv s) (hx : s.txe2 = false) : SafeInv (ruleTxDone s) := by
  obtain ⟨hd, hi, hp, hn⟩ := h
  obtain ⟨v, hv⟩ := Reg.isWritten_iff.1 (hd.tdr2_written hx)
  simp only [ruleTxDone, hv, readReg_holds]
  refine ⟨{ hd with tdr2_written := ?_ }, { hi with }, ?_, hn⟩
  · simp
  · exact { hp with dp2 := fun _ => rfl, dp3 := fun e => ⟨rfl, (hp.dp3 e).2⟩, dp4 := fun e => ⟨rfl, (hp.dp4 e).2⟩, dp5 := fun e => ⟨rfl, (hp.dp5 e).2⟩ }

/-- RESET keeps the safety invariant. -/
theorem safeInv_ruleReset {s : State} (h : SafeInv s) : SafeInv (ruleReset s) := by
  have := safeInv_start s.cfg h.data.cap_pos s.trace
  have hn := h.noFault
  exact ⟨{ this.data with }, { this.ingest with }, { this.dispatch with }, hn⟩

end Sys2Proof.Machine
end

