-- ==== Sys2Proof/Laws/Progress.lean ====
section
/-! SUPPORT. The work the block still has to do without another arrival, as a number, and that every step of the block or of the
transmitter lessens it (R104, R123, R168): the reason a run with finitely many arrivals ends. -/

namespace Sys2Proof.Machine

/-- What the ingest engine has to do: the micro-ops left of the activation, an activation for a latched request, and
one for a frame that arrived after this activation's read. -/
def workG (c : SeqCode) (rx pend : Bool) : Nat :=
  (if c = Seq.idle then 0 else 9 - c.toNat) + 9 * pend.toNat + 9 * (rx && decide (3 ≤ c.toNat)).toNat

/-- What the dispatch engine and the transmitter have to do, the queue's values apart: the micro-ops left of the
activation, the write of a value in hand, an activation for a latched request, for a command that arrived after this
activation's read and for a transmit request that rose after its test, and the sending of a frame in flight. -/
def workD (c : SeqCode) (rx txe txeie pend : Bool) : Nat :=
  (if c = Seq.idle then 0 else 14 - c.toNat) + 30 * (c == Seq.dp5).toNat + 14 * pend.toNat +
    14 * (rx && decide (10 ≤ c.toNat)).toNat +
    14 * (txeie && txe && (c == Seq.dp6 || decide (8 ≤ c.toNat))).toNat + 29 * (!txe).toNat

/-- The work left in a state: an ingest micro-op may make work for the dispatch engine, so it weighs more. -/
def work (s : State) : Nat :=
  100 * workG s.seqG s.rxneG s.pendG + workD s.seqD s.rxne2 s.txe2 s.txeie s.pendD + 40 * len s

/-- `PEND_D` after the pending update, from the flags before and after (R146, R148). -/
def pendDAfter (rx o txe txeie rx' o' txe' txeie' pend : Bool) (c' : SeqCode) : Bool :=
  pend || (((txeie' && txe') || (rx' || o')) && (!((txeie && txe) || (rx || o)) || c' == Seq.idle))

/-- `PEND_G` after the pending update, from the flags before and after (R145, R148). -/
def pendGAfter (rx o rx' o' pend : Bool) (c' : SeqCode) : Bool :=
  pend || ((rx' || o') && (!(rx || o) || c' == Seq.idle))

theorem pendUpdate_pendG_eq {s t : State} (hs : s.rxneieG = true) (ht : t.rxneieG = true) :
    (pendUpdate s t).pendG = pendGAfter s.rxneG s.oreG t.rxneG t.oreG t.pendG t.seqG := by
  simp [pendUpdate, pendGAfter, irqG, hs, ht]

theorem pendUpdate_pendD_eq {s t : State} (hs : s.rxneie2 = true) (ht : t.rxneie2 = true) :
    (pendUpdate s t).pendD =
      pendDAfter s.rxne2 s.ore2 s.txe2 s.txeie t.rxne2 t.ore2 t.txe2 t.txeie t.pendD t.seqD := by
  simp [pendUpdate, pendDAfter, irq2, hs, ht]

/-- A latch and a transmit request are at most two activations' worth of work for the dispatch engine. -/
theorem workD_le (c : SeqCode) (rx txe txeie txeie' pend pend' : Bool) :
    workD c rx txe txeie' pend' ≤ workD c rx txe txeie pend + 28 := by
  unfold workD
  have := Bool.toNat_le pend'
  have := Bool.toNat_le (txeie' && txe && (c == Seq.dp6 || decide (8 ≤ c.toNat)))
  omega

/-- A step of another agent latches no request of the ingest engine that was not latched. -/
theorem workG_of_other {s t : State} (hp : PendInv s) (hq : t.seqG = s.seqG) (hx : t.rxneG = s.rxneG)
    (ho : t.oreG = s.oreG) (hi : t.rxneieG = s.rxneieG) (hl : t.pendG = s.pendG) :
    workG (pendUpdate s t).seqG (pendUpdate s t).rxneG (pendUpdate s t).pendG = workG s.seqG s.rxneG s.pendG := by
  have h : (pendUpdate s t).pendG = s.pendG := by
    have hirq : irqG t = irqG s := by simp [irqG, hx, ho, hi]
    simp only [pendUpdate, hl, hirq, hq]
    cases hg : irqG s
    · simp
    · by_cases hc : s.seqG = Seq.idle
      · simp [hp.lineG hc hg]
      · simp [hc]
  rw [h]
  simp [pendUpdate, hq, hx]

/-- A step that leaves the ingest engine and its link alone lessens the work if it lessens the dispatch engine's. -/
theorem work_lt_of_dispatch {s t : State} (hp : PendInv s) (hi : s.rxneie2 = true) (ht : t.rxneie2 = true)
    (hg : t.seqG = s.seqG ∧ t.rxneG = s.rxneG ∧ t.oreG = s.oreG ∧ t.rxneieG = s.rxneieG ∧ t.pendG = s.pendG)
    (h : workD t.seqD t.rxne2 t.txe2 t.txeie
        (pendDAfter s.rxne2 s.ore2 s.txe2 s.txeie t.rxne2 t.ore2 t.txe2 t.txeie t.pendD t.seqD) + 40 * len t <
      workD s.seqD s.rxne2 s.txe2 s.txeie s.pendD + 40 * len s) :
    work (pendUpdate s t) < work s := by
  obtain ⟨h1, h2, h3, h4, h5⟩ := hg
  have hG := workG_of_other hp h1 h2 h3 h4 h5
  have hl : len (pendUpdate s t) = len t := rfl
  unfold work
  rw [hG, pendUpdate_pendD_eq hi ht, hl]
  simp only [pendUpdate_seqD, pendUpdate_rxne2, pendUpdate_txe2, pendUpdate_txeie]
  omega

/-- Every micro-op of the dispatch engine lessens the work (R123). -/
theorem work_ruleD {s : State} (h : SafeInv s) (hp : PendInv s) (hne : s.seqD ≠ Seq.idle) :
    work (pendUpdate s (ruleD s)) < work s := by
  have hi := h.data.rxneie2_set
  have key : ∀ {t : State}, ruleD s = t → t.rxneie2 = true →
      (t.seqG = s.seqG ∧ t.rxneG = s.rxneG ∧ t.oreG = s.oreG ∧ t.rxneieG = s.rxneieG ∧ t.pendG = s.pendG) →
      workD t.seqD t.rxne2 t.txe2 t.txeie
          (pendDAfter s.rxne2 s.ore2 s.txe2 s.txeie t.rxne2 t.ore2 t.txe2 t.txeie t.pendD t.seqD) + 40 * len t <
        workD s.seqD s.rxne2 s.txe2 s.txeie s.pendD + 40 * len s →
      work (pendUpdate s (ruleD s)) < work s := fun e ht hg h => e ▸ work_lt_of_dispatch hp hi ht hg h
  rcases seqD_cases h.data.seqD_used hne with e | e | e | e | e | e | e | e | e | e | e | e | e
  · refine key (ruleD_dp1 e) hi ⟨rfl, rfl, rfl, rfl, rfl⟩ (Nat.add_lt_add_right ?_ _)
    have hD : ∀ rx o txe txeie p : Bool, workD (if txe then Seq.dp2 else Seq.dp8) rx txe txeie
        (pendDAfter rx o txe txeie rx o txe txeie p (if txe then Seq.dp2 else Seq.dp8)) <
          workD Seq.dp1 rx txe txeie p := by decide
    rw [e]; exact hD ..
  · have hx := h.dispatch.dp2 e
    by_cases h0 : len s = 0
    · refine key ((ruleD_dp2 e).trans (ruleDp2_empty h0)) hi ⟨rfl, rfl, rfl, rfl, rfl⟩ (Nat.add_lt_add_right ?_ _)
      have hD : ∀ rx o txe txeie p : Bool, workD Seq.dp7 rx txe txeie (pendDAfter rx o txe txeie rx o txe txeie p Seq.dp7) <
          workD Seq.dp2 rx txe txeie p := by decide
      rw [e]; exact hD ..
    · refine key ((ruleD_dp2 e).trans (ruleDp2_some (Nat.pos_of_ne_zero h0) h.data.len_le)) hi
        ⟨rfl, rfl, rfl, rfl, rfl⟩ (Nat.add_lt_add_right ?_ _)
      have hD : ∀ rx o txe txeie p : Bool, workD Seq.dp3 rx txe txeie (pendDAfter rx o txe txeie rx o txe txeie p Seq.dp3) <
          workD Seq.dp2 rx txe txeie p := by decide
      rw [e]; exact hD ..
  · obtain ⟨-, hh, hl⟩ := h.dispatch.dp3 e
    obtain ⟨v, hv⟩ := head_written h.data hl
    refine key ((ruleD_dp3 e).trans (ruleDp3_holds h.data.cap_pos hh hv)) hi ⟨rfl, rfl, rfl, rfl, rfl⟩
      (Nat.add_lt_add_right ?_ _)
    have hD : ∀ rx o txe txeie p : Bool, workD Seq.dp4 rx txe txeie (pendDAfter rx o txe txeie rx o txe txeie p Seq.dp4) <
        workD Seq.dp3 rx txe txeie p := by decide
    rw [e]; exact hD ..
  · obtain ⟨-, hh, hl, -⟩ := h.dispatch.dp4 e
    refine key ((ruleD_dp4 e).trans (ruleDp4_holds hh)) hi ⟨rfl, rfl, rfl, rfl, rfl⟩ ?_
    have hD : ∀ rx o txe txeie p : Bool, workD Seq.dp5 rx txe txeie (pendDAfter rx o txe txeie rx o txe txeie p Seq.dp5) <
        workD Seq.dp4 rx txe txeie p + 40 := by decide
    have hn : len { s with head := nextCursor s.cfg s.head, seqD := Seq.dp5 } = len s - 1 :=
      cursorDiff_pop s.cfg h.data.head_lt h.data.tail_lt hl
    have := hD s.rxne2 s.ore2 s.txe2 s.txeie s.pendD
    rw [e, hn]
    simp only
    omega
  · obtain ⟨hx, hv⟩ := h.dispatch.dp5 e
    obtain ⟨v, hv⟩ := Reg.isWritten_iff.1 hv
    refine key ((ruleD_dp5 e).trans (ruleDp5_holds hx hv)) hi ⟨rfl, rfl, rfl, rfl, rfl⟩ (Nat.add_lt_add_right ?_ _)
    have hD : ∀ rx o txeie p, workD Seq.dp6 rx false txeie (pendDAfter rx o true txeie rx o false txeie p Seq.dp6) <
        workD Seq.dp5 rx true txeie p := by decide
    rw [e, hx]; exact hD ..
  · refine key (ruleD_dp6 e) hi ⟨rfl, rfl, rfl, rfl, rfl⟩ (Nat.add_lt_add_right ?_ _)
    have hD : ∀ b rx o txe txeie p : Bool, workD (if b then Seq.dp7 else Seq.dp8) rx txe txeie
        (pendDAfter rx o txe txeie rx o txe txeie p (if b then Seq.dp7 else Seq.dp8)) <
          workD Seq.dp6 rx txe txeie p := by decide
    rw [e]; exact hD ..
  · refine key (ruleD_dp7 e) hi ⟨rfl, rfl, rfl, rfl, rfl⟩ (Nat.add_lt_add_right ?_ _)
    have hD : ∀ rx o txe txeie p : Bool, workD Seq.dp8 rx txe false (pendDAfter rx o txe txeie rx o txe false p Seq.dp8) <
        workD Seq.dp7 rx txe txeie p := by decide
    rw [e]; exact hD ..
  · refine key (ruleD_dp8 e) hi ⟨rfl, rfl, rfl, rfl, rfl⟩ (Nat.add_lt_add_right ?_ _)
    have hD : ∀ rx o txe txeie p : Bool, workD (if rx then Seq.dp9 else Seq.dp12) rx txe txeie
        (pendDAfter rx o txe txeie rx o txe txeie p (if rx then Seq.dp9 else Seq.dp12)) <
          workD Seq.dp8 rx txe txeie p := by decide
    rw [e]; exact hD ..
  · obtain ⟨c, hc⟩ := Reg.isWritten_iff.1 (h.data.rdr2_written (h.dispatch.dp9 e))
    refine key ((ruleD_dp9 e).trans (ruleDp9_holds hc)) hi ⟨rfl, rfl, rfl, rfl, rfl⟩ (Nat.add_lt_add_right ?_ _)
    have hD : ∀ k, k = Seq.dp10 ∨ k = Seq.dp11 ∨ k = Seq.dp12 → ∀ rx o txe txeie p : Bool,
        workD k false txe txeie (pendDAfter rx o txe txeie false o txe txeie p k) <
          workD Seq.dp9 rx txe txeie p := by
      rintro _ (rfl | rfl | rfl) <;> decide
    rw [e]; exact hD _ (commandTarget_cases c) ..
  · refine key (ruleD_dp10 e) hi ⟨rfl, rfl, rfl, rfl, rfl⟩ (Nat.add_lt_add_right ?_ _)
    have hD : ∀ rx o txe txeie p : Bool, workD Seq.dp12 rx txe txeie (pendDAfter rx o txe txeie rx o txe txeie p Seq.dp12) <
        workD Seq.dp10 rx txe txeie p := by decide
    rw [e]; exact hD ..
  · refine key (ruleD_dp11 e) hi ⟨rfl, rfl, rfl, rfl, rfl⟩ (Nat.add_lt_add_right ?_ _)
    have hD : ∀ rx o txe txeie p : Bool, workD Seq.dp12 rx txe txeie (pendDAfter rx o txe txeie rx o txe txeie p Seq.dp12) <
        workD Seq.dp11 rx txe txeie p := by decide
    rw [e]; exact hD ..
  · cases ho : s.ore2
    · refine key ((ruleD_dp12 e).trans (ruleDp12_idle ho)) hi ⟨rfl, rfl, rfl, rfl, rfl⟩ (Nat.add_lt_add_right ?_ _)
      have hD : ∀ rx txe txeie p : Bool, workD Seq.idle rx txe txeie
          (pendDAfter rx false txe txeie rx false txe txeie p Seq.idle) < workD Seq.dp12 rx txe txeie p := by decide
      simp only [e, ho]; exact hD ..
    · refine key ((ruleD_dp12 e).trans (ruleDp12_overrun ho)) hi ⟨rfl, rfl, rfl, rfl, rfl⟩
        (Nat.add_lt_add_right ?_ _)
      have hD : ∀ rx o txe txeie p : Bool, workD Seq.dp13 rx txe txeie
          (pendDAfter rx o txe txeie rx o txe txeie p Seq.dp13) < workD Seq.dp12 rx txe txeie p := by decide
      rw [e]; exact hD ..
  · refine key (ruleD_dp13 e) hi ⟨rfl, rfl, rfl, rfl, rfl⟩ (Nat.add_lt_add_right ?_ _)
    have hD : ∀ rx o txe txeie p : Bool, workD Seq.idle rx txe txeie
        (pendDAfter rx o txe txeie rx false txe txeie p Seq.idle) < workD Seq.dp13 rx txe txeie p := by decide
    rw [e]; exact hD ..

/-- A step that leaves the dispatch engine, link 2 and the transmitter alone, TXEIE apart, and pushes at most one value
lessens the work if it lessens the ingest engine's. -/
theorem work_lt_of_ingest {s t : State} (hi : s.rxneieG = true) (ht : t.rxneieG = true)
    (hd : t.seqD = s.seqD ∧ t.rxne2 = s.rxne2 ∧ t.txe2 = s.txe2) (hl : len t ≤ len s + 1)
    (h : workG t.seqG t.rxneG (pendGAfter s.rxneG s.oreG t.rxneG t.oreG t.pendG t.seqG) <
      workG s.seqG s.rxneG s.pendG) :
    work (pendUpdate s t) < work s := by
  obtain ⟨h1, h2, h3⟩ := hd
  have hn : len (pendUpdate s t) = len t := rfl
  have hw := workD_le s.seqD s.rxne2 s.txe2 s.txeie t.txeie s.pendD (pendUpdate s t).pendD
  unfold work
  rw [pendUpdate_pendG_eq hi ht, hn]
  simp only [pendUpdate_seqD, pendUpdate_rxne2, pendUpdate_txe2, pendUpdate_txeie, pendUpdate_seqG,
    pendUpdate_rxneG, h1, h2, h3]
  omega

/-- Every micro-op of the ingest engine lessens the work (R104). -/
theorem work_ruleG {s : State} (h : SafeInv s) (hne : s.seqG ≠ Seq.idle) :
    work (pendUpdate s (ruleG s)) < work s := by
  have hi := h.data.rxneieG_set
  have key : ∀ {t : State}, ruleG s = t → t.rxneieG = true →
      (t.seqD = s.seqD ∧ t.rxne2 = s.rxne2 ∧ t.txe2 = s.txe2) → len t ≤ len s + 1 →
      workG t.seqG t.rxneG (pendGAfter s.rxneG s.oreG t.rxneG t.oreG t.pendG t.seqG) <
        workG s.seqG s.rxneG s.pendG →
      work (pendUpdate s (ruleG s)) < work s := fun e ht hd hl h => e ▸ work_lt_of_ingest hi ht hd hl h
  rcases seqG_cases h.data.seqG_used hne with e | e | e | e | e | e | e | e
  · refine key (ruleG_ig1 e) hi ⟨rfl, rfl, rfl⟩ (Nat.le_succ _) ?_
    have hG : ∀ rx o p : Bool, workG (if rx then Seq.ig2 else Seq.ig7) rx
        (pendGAfter rx o rx o p (if rx then Seq.ig2 else Seq.ig7)) < workG Seq.ig1 rx p := by decide
    rw [e]; exact hG ..
  · obtain ⟨v, hv⟩ := Reg.isWritten_iff.1 (h.data.rdrG_written (h.ingest.ig2 e))
    refine key ((ruleG_ig2 e).trans (ruleIg2_holds hv)) hi ⟨rfl, rfl, rfl⟩ (Nat.le_succ _) ?_
    have hG : ∀ rx o p : Bool, workG Seq.ig7 false (pendGAfter rx o false o p Seq.ig7) < workG Seq.ig2 rx p ∧
        workG Seq.ig3 false (pendGAfter rx o false o p Seq.ig3) < workG Seq.ig2 rx p := by decide
    rw [e]
    simp only
    split
    · exact (hG ..).1
    · exact (hG ..).2
  · have hG : ∀ rx o p : Bool, workG Seq.ig7 rx (pendGAfter rx o rx o p Seq.ig7) < workG Seq.ig3 rx p ∧
        workG Seq.ig4 rx (pendGAfter rx o rx o p Seq.ig4) < workG Seq.ig3 rx p := by decide
    by_cases hf : len s = s.cfg.cap
    · refine key ((ruleG_ig3 e).trans (ruleIg3_full hf)) hi ⟨rfl, rfl, rfl⟩ (Nat.le_succ _) ?_
      rw [e]; exact (hG ..).1
    · refine key ((ruleG_ig3 e).trans (ruleIg3_room (Nat.lt_of_le_of_ne h.data.len_le hf))) hi ⟨rfl, rfl, rfl⟩
        (Nat.le_succ _) ?_
      rw [e]; exact (hG ..).2
  · obtain ⟨hv, ht, -⟩ := h.ingest.ig4 e
    obtain ⟨v, hv⟩ := Reg.isWritten_iff.1 hv
    refine key ((ruleG_ig4 e).trans (ruleIg4_holds h.data.cap_pos ht hv)) hi ⟨rfl, rfl, rfl⟩ (Nat.le_succ _) ?_
    have hG : ∀ rx o p : Bool, workG Seq.ig5 rx (pendGAfter rx o rx o p Seq.ig5) < workG Seq.ig4 rx p := by decide
    rw [e]; exact hG ..
  · obtain ⟨ht, hl, -⟩ := h.ingest.ig5 e
    refine key ((ruleG_ig5 e).trans (ruleIg5_holds ht)) hi ⟨rfl, rfl, rfl⟩
      (cursorDiff_push s.cfg h.data.head_lt h.data.tail_lt hl).le ?_
    have hG : ∀ rx o p : Bool, workG Seq.ig6 rx (pendGAfter rx o rx o p Seq.ig6) < workG Seq.ig5 rx p := by decide
    rw [e]; exact hG ..
  · refine key (ruleG_ig6 e) hi ⟨rfl, rfl, rfl⟩ (Nat.le_succ _) ?_
    have hG : ∀ rx o p : Bool, workG Seq.ig7 rx (pendGAfter rx o rx o p Seq.ig7) < workG Seq.ig6 rx p := by decide
    rw [e]; exact hG ..
  · cases ho : s.oreG
    · refine key ((ruleG_ig7 e).trans (ruleIg7_idle ho)) hi ⟨rfl, rfl, rfl⟩ (Nat.le_succ _) ?_
      have hG : ∀ rx p : Bool, workG Seq.idle rx (pendGAfter rx false rx false p Seq.idle) <
          workG Seq.ig7 rx p := by decide
      simp only [e, ho]; exact hG ..
    · refine key ((ruleG_ig7 e).trans (ruleIg7_overrun ho)) hi ⟨rfl, rfl, rfl⟩ (Nat.le_succ _) ?_
      have hG : ∀ rx o p : Bool, workG Seq.ig8 rx (pendGAfter rx o rx o p Seq.ig8) < workG Seq.ig7 rx p := by decide
      rw [e]; exact hG ..
  · refine key (ruleG_ig8 e) hi ⟨rfl, rfl, rfl⟩ (Nat.le_succ _) ?_
    have hG : ∀ rx o p : Bool, workG Seq.idle rx (pendGAfter rx o rx false p Seq.idle) <
        workG Seq.ig8 rx p := by decide
    rw [e]; exact hG ..

/-- TX_DONE lessens the work: the frame in flight is sent (R142). -/
theorem work_ruleTxDone {s : State} (h : SafeInv s) (hp : PendInv s) (hx : s.txe2 = false) :
    work (pendUpdate s (ruleTxDone s)) < work s := by
  obtain ⟨v, hv⟩ := Reg.isWritten_iff.1 (h.data.tdr2_written hx)
  have e : ruleTxDone s = { emit (frameOf s.cfg v) s with txe2 := true } := by simp [ruleTxDone, hv]
  have hD : ∀ c rx o txeie p, workD c rx true txeie (pendDAfter rx o false txeie rx o true txeie p c) <
      workD c rx false txeie p := by decide
  have hi := h.data.rxneie2_set
  rw [e]
  refine work_lt_of_dispatch hp hi hi ⟨rfl, rfl, rfl, rfl, rfl⟩ (Nat.add_lt_add_right ?_ _)
  rw [hx]; exact hD ..

/-- Taking a request of the ingest engine lessens the work (R149). -/
theorem work_takeG {s : State} (hp : s.pendG = true) (hq : s.seqG = Seq.idle) : work (takeG s) < work s := by
  have hG : ∀ rx, workG Seq.ig1 rx false < workG Seq.idle rx true := by decide
  have := hG s.rxneG
  have hl : len (takeG s) = len s := rfl
  unfold work
  simp only [takeG_seqG, takeG_rxneG, takeG_pendG, hp, hq, hl]
  simp only [takeG]
  omega

/-- Taking a request of the dispatch engine lessens the work (R150). -/
theorem work_takeD {s : State} (hp : s.pendD = true) (hq : s.seqD = Seq.idle) : work (takeD s) < work s := by
  have hD : ∀ rx txe txeie, workD Seq.dp1 rx txe txeie false < workD Seq.idle rx txe txeie true := by decide
  have := hD s.rxne2 s.txe2 s.txeie
  have hl : len (takeD s) = len s := rfl
  unfold work
  simp only [hp, hq, hl]
  simp only [takeD]
  omega

/-! ### Words -/

/-- MSTEP_G where it has a next state (R151). -/
theorem stepG_eq_next {s t : State} (h : SafeInv s) (hs : stepG s = .next t) :
    s.seqG ≠ Seq.idle ∧ t = pendUpdate s (ruleG s) ∧ SafeInv t := by
  obtain ⟨-, hne, -, rfl⟩ := microStepG_eq_next.1 hs
  have hr := safeInv_ruleG h hne
  rw [afterRule_of_noFault _ hr.noFault]
  exact ⟨hne, rfl, safeInv_pendUpdate hr⟩

/-- MSTEP_D where it has a next state (R152). -/
theorem stepD_eq_next {s t : State} (h : SafeInv s) (hs : stepD s = .next t) :
    s.seqD ≠ Seq.idle ∧ t = pendUpdate s (ruleD s) ∧ SafeInv t := by
  obtain ⟨-, hne, -, rfl⟩ := microStepD_eq_next.1 hs
  have hr := safeInv_ruleD h hne
  rw [afterRule_of_noFault _ hr.noFault]
  exact ⟨hne, rfl, safeInv_pendUpdate hr⟩

/-- Both invariants hold, and no more work is left than before. -/
structure Lessened (s t : State) : Prop where
  safe : SafeInv t
  pend : PendInv t
  le : work t ≤ work s

theorem Lessened.step {s t u : State} (h : Lessened s t) (hu : SafeInv u ∧ PendInv u ∧ work u < work t) :
    Lessened s u := ⟨hu.1, hu.2.1, hu.2.2.le.trans h.le⟩

theorem lessened_stepG {s t : State} (h : SafeInv s) (hs : stepG s = .next t) :
    SafeInv t ∧ PendInv t ∧ work t < work s := by
  obtain ⟨hne, rfl, ht⟩ := stepG_eq_next h hs
  exact ⟨ht, pendInv_pendUpdate _ _, work_ruleG h hne⟩

theorem lessened_stepD {s t : State} (h : SafeInv s) (hp : PendInv s) (hs : stepD s = .next t) :
    SafeInv t ∧ PendInv t ∧ work t < work s := by
  obtain ⟨hne, rfl, ht⟩ := stepD_eq_next h hs
  exact ⟨ht, pendInv_pendUpdate _ _, work_ruleD h hp hne⟩

theorem lessened_enterG {s t : State} (h : SafeInv s) (hp : PendInv s) (hs : enterG s = .next t) :
    SafeInv t ∧ PendInv t ∧ work t < work s := by
  obtain ⟨-, hl, hq, -, rfl⟩ := enterG_eq_next.1 hs
  refine ⟨safeInv_takeG h, ⟨fun e => ?_, hp.lineD⟩, work_takeG hl hq⟩
  exact absurd e (by decide : Seq.ig1 ≠ Seq.idle)

theorem lessened_enterD {s t : State} (h : SafeInv s) (hp : PendInv s) (hs : enterD s = .next t) :
    SafeInv t ∧ PendInv t ∧ work t < work s := by
  obtain ⟨-, hl, hq, -, rfl⟩ := enterD_eq_next.1 hs
  refine ⟨safeInv_takeD h, ⟨hp.lineG, fun e => ?_⟩, work_takeD hl hq⟩
  exact absurd e (by decide : Seq.dp1 ≠ Seq.idle)

theorem lessened_repeat {stop : State → Bool} {f : State → Out}
    (hf : ∀ s t, SafeInv s → PendInv s → f s = .next t → SafeInv t ∧ PendInv t ∧ work t < work s) (n : Nat)
    {s t : State} (h : SafeInv s) (hp : PendInv s) (hs : repeatUntil stop f n s = .next t) : Lessened s t :=
  repeatUntil_keeps (P := Lessened s) (fun u v hu hv => hu.step (hf u v hu.safe hu.pend hv)) n s t
    ⟨h, hp, le_rfl⟩ hs

/-- The words of the block and of the transmitter: every stimulus word but the arrivals, RESET and the harness words. -/
abbrev blockWords : List Instr := [Instr.mstepG, .mstepD, .enterG, .enterD, .runG, .runD, .txDone]

/-- What a stimulus word is (R69, R169). -/
theorem isStimulus_cases {i : Instr} (h : i.isStimulus = true) :
    i ∈ blockWords ∨ (∃ f, i = .gpsRx f ∨ i = .hostRx f) ∨ i = .reset ∨ i = .qPop ∨ ∃ d, i = .qPush d := by
  cases i <;> first
    | exact absurd h (by decide)
    | exact absurd h Bool.false_ne_true
    | exact .inl (by decide)
    | exact .inr (.inl ⟨_, .inl rfl⟩)
    | exact .inr (.inl ⟨_, .inr rfl⟩)
    | exact .inr (.inr (.inl rfl))
    | exact .inr (.inr (.inr (.inl rfl)))
    | exact .inr (.inr (.inr (.inr ⟨_, rfl⟩)))

/-- Every word of the block or of the transmitter keeps both invariants and lessens the work. -/
theorem lessened_block {i : Instr} (hi : i ∈ blockWords)
    {s t : State} (h : SafeInv s) (hp : PendInv s) (hs : exec i s = .next t) :
    SafeInv t ∧ PendInv t ∧ work t < work s := by
  simp only [blockWords, List.mem_cons, List.not_mem_nil, or_false] at hi
  rcases hi with rfl | rfl | rfl | rfl | rfl | rfl | rfl
  · exact lessened_stepG h hs
  · exact lessened_stepD h hp hs
  · exact lessened_enterG h hp hs
  · exact lessened_enterD h hp hs
  · obtain ⟨u, hu, ht⟩ := andThen_eq_next.1 hs
    obtain ⟨h1, h2, h3⟩ := lessened_enterG h hp hu
    have hl := lessened_repeat (fun _ _ a _ b => lessened_stepG a b) 8 h1 h2 ht
    exact ⟨hl.safe, hl.pend, hl.le.trans_lt h3⟩
  · obtain ⟨u, hu, ht⟩ := andThen_eq_next.1 hs
    obtain ⟨h1, h2, h3⟩ := lessened_enterD h hp hu
    have hl := lessened_repeat (fun _ _ => lessened_stepD) 12 h1 h2 ht
    exact ⟨hl.safe, hl.pend, hl.le.trans_lt h3⟩
  · obtain ⟨-, hs⟩ := requiresNoFault_eq_next.1 hs
    obtain ⟨hb, ht⟩ := requires_eq_next.1 hs
    have hx : s.txe2 = false := by simpa using hb
    have hr := safeInv_ruleTxDone h hx
    rw [afterRule_of_noFault _ hr.noFault] at ht
    cases ht
    exact ⟨safeInv_pendUpdate hr, pendInv_pendUpdate _ _, work_ruleTxDone h hp hx⟩

/-- A state that meets both invariants and is not final has a step of the block or of the transmitter (R168). -/
theorem enabled_of_not_final {s : State} (h : SafeInv s) (hp : PendInv s) (hf : ¬ Final s) :
    ∃ i ∈ [Instr.mstepG, .mstepD, .enterG, .enterD, .txDone], Enabled i s := by
  have hn := h.noFault
  by_cases hG : s.seqG = Seq.idle <;> by_cases hD : s.seqD = Seq.idle
  · by_cases h1 : s.pendG = true
    · exact ⟨.enterG, by simp, _, enterG_next ⟨hn, h1, hG, .inr hD⟩⟩
    by_cases h2 : s.pendD = true
    · exact ⟨.enterD, by simp, _, enterD_next ⟨hn, h2, hD, .inr hG⟩⟩
    by_cases h3 : s.txe2 = true
    · refine absurd ⟨hn, ⟨hG, hD⟩, by simpa using h1, by simpa using h2, ?_, ?_, h3⟩ hf
      · cases hq : irqG s
        · rfl
        · exact absurd (hp.lineG hG hq) h1
      · cases hq : irq2 s
        · rfl
        · exact absurd (hp.lineD hD hq) h2
    · exact ⟨.txDone, by simp, _, by simp [exec, execTxDone, requiresNoFault_of_noFault hn, h3]; rfl⟩
  · exact ⟨.mstepD, by simp, _, microStepD_next hn hD (fun _ => hG) ruleD⟩
  · exact ⟨.mstepG, by simp, _, microStepG_next hn hG (fun _ => hD) ruleG⟩
  · by_cases hpr : s.cfg.prio = .dOverG
    · exact ⟨.mstepD, by simp, _, microStepD_next hn hD (fun e => by simp [hpr] at e) ruleD⟩
    · exact ⟨.mstepG, by simp, _, microStepG_next hn hG (fun e => absurd e hpr) ruleG⟩

end Sys2Proof.Machine
end

