-- ==== Sys2Proof/Laws/Keeps.lean ====
section
/-! SUPPORT. The form of every micro-op from a safe state (R95 to R121), and what the words of the other agents leave of the dispatch
engine's side (R46, R156). -/

namespace Sys2Proof.Machine

/-! ### The form of every micro-op from a safe state -/

/-- Everything an ingest micro-op does from a safe state (R95 to R102). -/
theorem ruleG_forms {s : State} (h : SafeInv s) (hne : s.seqG ≠ Seq.idle) :
    (s.seqG = Seq.ig1 ∧ ruleG s = ruleIg1 s) ∨
    (∃ v, s.seqG = Seq.ig2 ∧ ruleG s =
      { s with
        rxneG := false, g := { s.g with v := .holds v }, seqG := if v = 0x000#9 then Seq.ig7 else Seq.ig3 }) ∨
    (∃ c, s.seqG = Seq.ig3 ∧ (c = Seq.ig4 ∨ c = Seq.ig7) ∧
      ruleG s = { s with g := { s.g with h := .holds s.head, t := .holds s.tail }, seqG := c }) ∨
    (∃ v, s.seqG = Seq.ig4 ∧
      ruleG s = { s with buf := s.buf.write (slotIndex s.cfg s.tail) v, seqG := Seq.ig5 }) ∨
    (s.seqG = Seq.ig5 ∧ len s < s.cfg.cap ∧
      ruleG s = { s with tail := nextCursor s.cfg s.tail, seqG := Seq.ig6 }) ∨
    (s.seqG = Seq.ig6 ∧ ruleG s = ruleIg6 s) ∨
    (∃ c, s.seqG = Seq.ig7 ∧ (c = Seq.idle ∨ c = Seq.ig8) ∧
      ruleG s = { s with g := { s.g with o := .holds s.oreG }, seqG := c }) ∨
    (s.seqG = Seq.ig8 ∧ ruleG s = ruleIg8 s) := by
  rcases seqG_cases h.data.seqG_used hne with e | e | e | e | e | e | e | e
  · exact .inl ⟨e, ruleG_ig1 e⟩
  · obtain ⟨v, hv⟩ := Reg.isWritten_iff.1 (h.data.rdrG_written (h.ingest.ig2 e))
    exact .inr (.inl ⟨v, e, (ruleG_ig2 e).trans (ruleIg2_holds hv)⟩)
  · refine .inr (.inr (.inl ?_))
    by_cases hf : len s = s.cfg.cap
    · exact ⟨_, e, .inr rfl, (ruleG_ig3 e).trans (ruleIg3_full hf)⟩
    · exact ⟨_, e, .inl rfl, (ruleG_ig3 e).trans (ruleIg3_room (Nat.lt_of_le_of_ne h.data.len_le hf))⟩
  · obtain ⟨hv, ht, -⟩ := h.ingest.ig4 e
    obtain ⟨v, hv⟩ := Reg.isWritten_iff.1 hv
    exact .inr (.inr (.inr (.inl ⟨v, e, (ruleG_ig4 e).trans (ruleIg4_holds h.data.cap_pos ht hv)⟩)))
  · obtain ⟨ht, hl, -⟩ := h.ingest.ig5 e
    exact .inr (.inr (.inr (.inr (.inl ⟨e, hl, (ruleG_ig5 e).trans (ruleIg5_holds ht)⟩))))
  · exact .inr (.inr (.inr (.inr (.inr (.inl ⟨e, ruleG_ig6 e⟩)))))
  · refine .inr (.inr (.inr (.inr (.inr (.inr (.inl ?_))))))
    cases ho : s.oreG
    · exact ⟨_, e, .inl rfl, by rw [ruleG_ig7 e, ruleIg7_idle ho, ho]⟩
    · exact ⟨_, e, .inr rfl, by rw [ruleG_ig7 e, ruleIg7_overrun ho, ho]⟩
  · exact .inr (.inr (.inr (.inr (.inr (.inr (.inr ⟨e, ruleG_ig8 e⟩))))))

/-- Everything a dispatch micro-op does from a safe state (R107 to R121). -/
theorem ruleD_forms {s : State} (h : SafeInv s) (hne : s.seqD ≠ Seq.idle) :
    (s.seqD = Seq.dp1 ∧ ruleD s = ruleDp1 s) ∨
    (∃ c, s.seqD = Seq.dp2 ∧ s.txe2 = true ∧ (c = Seq.dp3 ∨ (len s = 0 ∧ c = Seq.dp7)) ∧
      ruleD s = { s with d := { s.d with t := .holds s.tail, h := .holds s.head }, seqD := c }) ∨
    (∃ v, s.seqD = Seq.dp3 ∧ s.txe2 = true ∧
      ruleD s = { s with d := { s.d with v := .holds v }, seqD := Seq.dp4 }) ∨
    (s.seqD = Seq.dp4 ∧ s.txe2 = true ∧
      ruleD s = { s with head := nextCursor s.cfg s.head, seqD := Seq.dp5 }) ∨
    (∃ v, s.seqD = Seq.dp5 ∧ s.txe2 = true ∧
      ruleD s = { s with tdr2 := .holds v, txe2 := false, seqD := Seq.dp6 }) ∨
    (s.seqD = Seq.dp6 ∧ ruleD s = ruleDp6 s) ∨
    (s.seqD = Seq.dp7 ∧ ruleD s = ruleDp7 s) ∨
    (s.seqD = Seq.dp8 ∧ ruleD s = ruleDp8 s) ∨
    (∃ c v, s.seqD = Seq.dp9 ∧ (c = Seq.dp10 ∨ c = Seq.dp11 ∨ c = Seq.dp12) ∧
      ruleD s = { s with rxne2 := false, d := { s.d with c := .holds v }, seqD := c }) ∨
    (s.seqD = Seq.dp10 ∧ ruleD s = ruleDp10 s) ∨
    (s.seqD = Seq.dp11 ∧ ruleD s = ruleDp11 s) ∨
    (∃ c, s.seqD = Seq.dp12 ∧ (c = Seq.idle ∨ c = Seq.dp13) ∧
      ruleD s = { s with d := { s.d with o := .holds s.ore2 }, seqD := c }) ∨
    (s.seqD = Seq.dp13 ∧ ruleD s = ruleDp13 s) := by
  rcases seqD_cases h.data.seqD_used hne with e | e | e | e | e | e | e | e | e | e | e | e | e
  · exact .inl ⟨e, ruleD_dp1 e⟩
  · refine .inr (.inl ?_)
    by_cases h0 : len s = 0
    · exact ⟨_, e, h.dispatch.dp2 e, .inr ⟨h0, rfl⟩, (ruleD_dp2 e).trans (ruleDp2_empty h0)⟩
    · exact ⟨_, e, h.dispatch.dp2 e, .inl rfl,
        (ruleD_dp2 e).trans (ruleDp2_some (Nat.pos_of_ne_zero h0) h.data.len_le)⟩
  · obtain ⟨hx, hh, hl⟩ := h.dispatch.dp3 e
    obtain ⟨v, hv⟩ := head_written h.data hl
    exact .inr (.inr (.inl ⟨v, e, hx, (ruleD_dp3 e).trans (ruleDp3_holds h.data.cap_pos hh hv)⟩))
  · obtain ⟨hx, hh, -⟩ := h.dispatch.dp4 e
    exact .inr (.inr (.inr (.inl ⟨e, hx, (ruleD_dp4 e).trans (ruleDp4_holds hh)⟩)))
  · obtain ⟨hx, hv⟩ := h.dispatch.dp5 e
    obtain ⟨v, hv⟩ := Reg.isWritten_iff.1 hv
    exact .inr (.inr (.inr (.inr (.inl ⟨v, e, hx, (ruleD_dp5 e).trans (ruleDp5_holds hx hv)⟩))))
  · exact .inr (.inr (.inr (.inr (.inr (.inl ⟨e, ruleD_dp6 e⟩)))))
  · exact .inr (.inr (.inr (.inr (.inr (.inr (.inl ⟨e, ruleD_dp7 e⟩))))))
  · exact .inr (.inr (.inr (.inr (.inr (.inr (.inr (.inl ⟨e, ruleD_dp8 e⟩)))))))
  · obtain ⟨c, hc⟩ := Reg.isWritten_iff.1 (h.data.rdr2_written (h.dispatch.dp9 e))
    exact .inr (.inr (.inr (.inr (.inr (.inr (.inr (.inr (.inl
      ⟨_, c, e, commandTarget_cases c, (ruleD_dp9 e).trans (ruleDp9_holds hc)⟩))))))))
  · exact .inr (.inr (.inr (.inr (.inr (.inr (.inr (.inr (.inr (.inl ⟨e, ruleD_dp10 e⟩)))))))))
  · exact .inr (.inr (.inr (.inr (.inr (.inr (.inr (.inr (.inr (.inr (.inl ⟨e, ruleD_dp11 e⟩))))))))))
  · refine .inr (.inr (.inr (.inr (.inr (.inr (.inr (.inr (.inr (.inr (.inr (.inl ?_)))))))))))
    cases ho : s.ore2
    · exact ⟨_, e, .inl rfl, by rw [ruleD_dp12 e, ruleDp12_idle ho, ho]⟩
    · exact ⟨_, e, .inr rfl, by rw [ruleD_dp12 e, ruleDp12_overrun ho, ho]⟩
  · exact .inr (.inr (.inr (.inr (.inr (.inr (.inr (.inr (.inr (.inr (.inr (.inr ⟨e, ruleD_dp13 e⟩)))))))))))

/-! ### The dispatch engine's side -/

/-- What a step of another agent leaves of the dispatch engine's side: the engine and HEAD as they were, no value gone
from the queue, a latched request latched and an empty transmitter empty. -/
structure KeepsD (s t : State) : Prop where
  seqD : t.seqD = s.seqD
  d : t.d = s.d
  cfg : t.cfg = s.cfg
  len : len s ≤ len t
  pendD : s.pendD = true → t.pendD = true
  txe2 : s.txe2 = true → t.txe2 = true

theorem KeepsD.refl (s : State) : KeepsD s s := ⟨rfl, rfl, rfl, le_rfl, id, id⟩

theorem KeepsD.trans {s t u : State} (h : KeepsD s t) (k : KeepsD t u) : KeepsD s u :=
  ⟨k.seqD.trans h.seqD, k.d.trans h.d, k.cfg.trans h.cfg, h.len.trans k.len, fun e => k.pendD (h.pendD e),
    fun e => k.txe2 (h.txe2 e)⟩

theorem KeepsD.pendUpdate {s t : State} (h : KeepsD s t) (r : State) : KeepsD s (pendUpdate r t) :=
  { h with pendD := fun e => by simp [Machine.pendUpdate, h.pendD e] }

theorem keepsD_ruleG {s : State} (h : SafeInv s) (hne : s.seqG ≠ Seq.idle) : KeepsD s (ruleG s) := by
  rcases ruleG_forms h hne with ⟨e, r⟩ | ⟨v, e, r⟩ | ⟨c, e, -, r⟩ | ⟨v, e, r⟩ | ⟨e, hl, r⟩ | ⟨e, r⟩ |
    ⟨c, e, -, r⟩ | ⟨e, r⟩ <;> rw [r]
  case inr.inr.inr.inr.inl =>
    exact ⟨rfl, rfl, rfl, (Nat.le_succ _).trans
      (le_of_eq (cursorDiff_push s.cfg h.data.head_lt h.data.tail_lt hl).symm), id, id⟩
  all_goals exact ⟨rfl, rfl, rfl, le_rfl, id, id⟩

theorem keepsD_stepG {s t : State} (h : SafeInv s) (hs : stepG s = .next t) : KeepsD s t := by
  obtain ⟨hne, rfl, -⟩ := stepG_eq_next h hs
  exact (keepsD_ruleG h hne).pendUpdate s

theorem keepsD_receiveFrame (l : Link) (f : Slot) (s : State) : KeepsD s (receiveFrame l f s) := by
  unfold receiveFrame
  cases l <;> cases s.cfg.ovr <;> simp only <;> split <;> exact ⟨rfl, rfl, rfl, le_rfl, id, id⟩

theorem keepsD_ruleTxDone (s : State) : KeepsD s (ruleTxDone s) := by
  unfold ruleTxDone
  cases s.tdr2 with
  | unwritten => exact ⟨rfl, rfl, rfl, le_rfl, id, id⟩
  | holds v => exact ⟨rfl, rfl, rfl, le_rfl, id, fun _ => rfl⟩

theorem KeepsD.afterRule {s t : State} (h : KeepsD s t) (r : State) : KeepsD s (afterRule r t) := by
  unfold Machine.afterRule
  split
  · exact h
  · exact h.pendUpdate r

/-! ### Arrivals -/

/-- What a word that is an arrival does where it has a next state (R140, R141). -/
theorem arrive_eq_next {l : Link} {f : Slot} {s t : State} (h : arrive l f s = .next t) :
    t = afterRule s (receiveFrame l f s) := by
  unfold arrive at h
  split at h
  · obtain ⟨-, ht⟩ := requiresNoFault_eq_next.1 h
    cases ht
    rfl
  · cases h

/-- What TX_DONE does where it has a next state (R142). -/
theorem execTxDone_eq_next {s t : State} (h : execTxDone s = .next t) :
    s.txe2 = false ∧ t = afterRule s (ruleTxDone s) := by
  obtain ⟨-, h⟩ := requiresNoFault_eq_next.1 h
  obtain ⟨hb, ht⟩ := requires_eq_next.1 h
  cases ht
  exact ⟨by simpa using hb, rfl⟩

/-- The words of the dispatch engine. -/
abbrev dispatchWords : List Instr := [Instr.mstepD, .enterD, .runD]

/-- The words of the ingest engine. -/
abbrev ingestWords : List Instr := [Instr.mstepG, .enterG, .runG]

/-- The words of a run without RESET and harness words, by the agent that takes them (R169). -/
theorem word_cases {i : Instr} (h : i.isStimulus = true) (h1 : i ≠ .reset) (h2 : i ≠ .qPop)
    (h3 : ∀ d, i ≠ .qPush d) :
    i ∈ ingestWords ∨ i ∈ dispatchWords ∨ i = .txDone ∨ ∃ f, i = .gpsRx f ∨ i = .hostRx f := by
  rcases isStimulus_cases h with hb | ha | rfl | rfl | ⟨d, rfl⟩
  · simp only [blockWords, List.mem_cons, List.not_mem_nil, or_false] at hb
    rcases hb with rfl | rfl | rfl | rfl | rfl | rfl | rfl <;> simp
  · exact .inr (.inr (.inr ha))
  · exact absurd rfl h1
  · exact absurd rfl h2
  · exact absurd rfl (h3 d)

/-- Every word but the dispatch engine's own, RESET and the harness words leaves its side alone. -/
theorem keepsD_word {i : Instr} {s t : State} (hi : i.isStimulus = true) (h1 : i ≠ .reset) (h2 : i ≠ .qPop)
    (h3 : ∀ d, i ≠ .qPush d) (hd : i ∉ dispatchWords) (h : SafeInv s) (hp : PendInv s) (hs : exec i s = .next t) :
    KeepsD s t := by
  have run : ∀ {n : Nat} {stop : State → Bool} {u : State}, SafeInv u ∧ PendInv u → KeepsD s u →
      repeatUntil stop stepG n u = .next t → KeepsD s t := fun hu hk ht =>
    (repeatUntil_keeps (P := fun v => SafeInv v ∧ KeepsD s v)
      (fun v w hv hw => ⟨(lessened_stepG hv.1 hw).1, hv.2.trans (keepsD_stepG hv.1 hw)⟩) _ _ _ ⟨hu.1, hk⟩ ht).2
  rcases word_cases hi h1 h2 h3 with hg | hd' | rfl | ⟨f, rfl | rfl⟩
  · simp only [ingestWords, List.mem_cons, List.not_mem_nil, or_false] at hg
    rcases hg with rfl | rfl | rfl
    · exact keepsD_stepG h hs
    · obtain ⟨-, -, -, -, rfl⟩ := enterG_eq_next.1 hs
      exact ⟨rfl, rfl, rfl, le_rfl, id, id⟩
    · obtain ⟨u, hu, ht⟩ := andThen_eq_next.1 hs
      have hl := lessened_enterG h hp hu
      obtain ⟨-, -, -, -, rfl⟩ := enterG_eq_next.1 hu
      exact run ⟨hl.1, hl.2.1⟩ ⟨rfl, rfl, rfl, le_rfl, id, id⟩ ht
  · exact absurd hd' hd
  · obtain ⟨-, rfl⟩ := execTxDone_eq_next hs
    exact (keepsD_ruleTxDone s).afterRule s
  · have hs : arrive .g f s = .next t := hs
    rw [arrive_eq_next hs]
    exact (keepsD_receiveFrame .g f s).afterRule s
  · have hs : arrive .l2 f s = .next t := hs
    rw [arrive_eq_next hs]
    exact (keepsD_receiveFrame .l2 f s).afterRule s

end Sys2Proof.Machine
end

