-- ==== Sys2Proof/Laws/PerInstr.lean ====
section
/-! SUPPORT. Statements made for each instruction as syntax. -/

namespace Sys2Proof.Laws

/-- Every well-formed stimulus operation's word has bits 11:9 zero (R68, R70), and the words a pseudo-instruction
expands to have them zero too (R76). -/
def ZeroField.Statement (i : Instr) : Prop :=
  ∀ cfg : Config, i.wf cfg = true →
    (∀ w, encode i = .stimulus w → wordZero w = 0#3) ∧
    (∀ ws, encode i = .expansion ws → ∀ w ∈ ws, wordZero w = 0#3) ∧
    (∀ w w', encode i = .untilIdle w w' → wordZero w = 0#3 ∧ wordZero w' = 0#3)

/-- A word of an op and a nine-bit operand has bits 11:9 zero. -/
theorem wordZero_operand (op : StimWord) (hop : wordZero op = 0#3) (d : Slot) :
    wordZero (op ||| d.setWidth 16) = 0#3 := by
  unfold wordZero at *
  rw [BitVec.extractLsb'_or, hop]
  ext k hk
  simp

theorem ZeroField.gpsRx (d : Slot) : ZeroField.Statement (.gpsRx d) := fun cfg _ => by
  refine ⟨fun w h => ?_, fun ws h => ?_, fun w w' h => ?_⟩ <;> simp only [encode, reduceCtorEq] at h
  cases h
  exact wordZero_operand _ (by decide) d

theorem ZeroField.hostRx (d : Slot) : ZeroField.Statement (.hostRx d) := fun cfg _ => by
  refine ⟨fun w h => ?_, fun ws h => ?_, fun w w' h => ?_⟩ <;> simp only [encode, reduceCtorEq] at h
  cases h
  exact wordZero_operand _ (by decide) d

theorem ZeroField.txDone : ZeroField.Statement .txDone := fun cfg _ => by
  refine ⟨fun w h => ?_, fun ws h => ?_, fun w w' h => ?_⟩ <;> simp only [encode, reduceCtorEq] at h
  cases h
  decide

theorem ZeroField.runG : ZeroField.Statement .runG := fun cfg _ => by
  refine ⟨fun w h => ?_, fun ws h => ?_, fun w w' h => ?_⟩ <;> simp only [encode, reduceCtorEq] at h
  cases h
  decide

theorem ZeroField.runD : ZeroField.Statement .runD := fun cfg _ => by
  refine ⟨fun w h => ?_, fun ws h => ?_, fun w w' h => ?_⟩ <;> simp only [encode, reduceCtorEq] at h
  cases h
  decide

theorem ZeroField.enterG : ZeroField.Statement .enterG := fun cfg _ => by
  refine ⟨fun w h => ?_, fun ws h => ?_, fun w w' h => ?_⟩ <;> simp only [encode, reduceCtorEq] at h
  cases h
  decide

theorem ZeroField.enterD : ZeroField.Statement .enterD := fun cfg _ => by
  refine ⟨fun w h => ?_, fun ws h => ?_, fun w w' h => ?_⟩ <;> simp only [encode, reduceCtorEq] at h
  cases h
  decide

theorem ZeroField.mstepG : ZeroField.Statement .mstepG := fun cfg _ => by
  refine ⟨fun w h => ?_, fun ws h => ?_, fun w w' h => ?_⟩ <;> simp only [encode, reduceCtorEq] at h
  cases h
  decide

theorem ZeroField.mstepD : ZeroField.Statement .mstepD := fun cfg _ => by
  refine ⟨fun w h => ?_, fun ws h => ?_, fun w w' h => ?_⟩ <;> simp only [encode, reduceCtorEq] at h
  cases h
  decide

theorem ZeroField.qPush (d : Slot) : ZeroField.Statement (.qPush d) := fun cfg _ => by
  refine ⟨fun w h => ?_, fun ws h => ?_, fun w w' h => ?_⟩ <;> simp only [encode, reduceCtorEq] at h
  cases h
  exact wordZero_operand _ (by decide) d

theorem ZeroField.qPop : ZeroField.Statement .qPop := fun cfg _ => by
  refine ⟨fun w h => ?_, fun ws h => ?_, fun w w' h => ?_⟩ <;> simp only [encode, reduceCtorEq] at h
  cases h
  decide

theorem ZeroField.reset : ZeroField.Statement .reset := fun cfg _ => by
  refine ⟨fun w h => ?_, fun ws h => ?_, fun w w' h => ?_⟩ <;> simp only [encode, reduceCtorEq] at h
  cases h
  decide

theorem ZeroField.reservedOp0 (zero : BitVec 3) (d : Slot) : ZeroField.Statement (.reservedOp0 zero d) := fun _ h => by simp [Instr.wf] at h

theorem ZeroField.reservedOpC (zero : BitVec 3) (d : Slot) : ZeroField.Statement (.reservedOpC zero d) := fun _ h => by simp [Instr.wf] at h

theorem ZeroField.reservedOpD (zero : BitVec 3) (d : Slot) : ZeroField.Statement (.reservedOpD zero d) := fun _ h => by simp [Instr.wf] at h

theorem ZeroField.reservedOpE (zero : BitVec 3) (d : Slot) : ZeroField.Statement (.reservedOpE zero d) := fun _ h => by simp [Instr.wf] at h

theorem ZeroField.reservedBits (op : BitVec 4) (zero : BitVec 3) (d : Slot) : ZeroField.Statement (.reservedBits op zero d) := fun _ h => by simp [Instr.wf] at h

theorem ZeroField.ingNull : ZeroField.Statement .ingNull := fun _ _ => by simp [encode]

theorem ZeroField.ingData (v : Slot) : ZeroField.Statement (.ingData v) := fun _ _ => by simp [encode]

theorem ZeroField.cmdPinOff : ZeroField.Statement .cmdPinOff := fun _ _ => by simp [encode]

theorem ZeroField.cmdPinOn : ZeroField.Statement .cmdPinOn := fun _ _ => by simp [encode]

theorem ZeroField.cmdOther (v : Slot) : ZeroField.Statement (.cmdOther v) := fun _ _ => by simp [encode]

theorem ZeroField.ig1 : ZeroField.Statement .ig1 := fun _ _ => by simp [encode]

theorem ZeroField.ig2 : ZeroField.Statement .ig2 := fun _ _ => by simp [encode]

theorem ZeroField.ig3 : ZeroField.Statement .ig3 := fun _ _ => by simp [encode]

theorem ZeroField.ig4 : ZeroField.Statement .ig4 := fun _ _ => by simp [encode]

theorem ZeroField.ig5 : ZeroField.Statement .ig5 := fun _ _ => by simp [encode]

theorem ZeroField.ig6 : ZeroField.Statement .ig6 := fun _ _ => by simp [encode]

theorem ZeroField.ig7 : ZeroField.Statement .ig7 := fun _ _ => by simp [encode]

theorem ZeroField.ig8 : ZeroField.Statement .ig8 := fun _ _ => by simp [encode]

theorem ZeroField.dp1 : ZeroField.Statement .dp1 := fun _ _ => by simp [encode]

theorem ZeroField.dp2 : ZeroField.Statement .dp2 := fun _ _ => by simp [encode]

theorem ZeroField.dp3 : ZeroField.Statement .dp3 := fun _ _ => by simp [encode]

theorem ZeroField.dp4 : ZeroField.Statement .dp4 := fun _ _ => by simp [encode]

theorem ZeroField.dp5 : ZeroField.Statement .dp5 := fun _ _ => by simp [encode]

theorem ZeroField.dp6 : ZeroField.Statement .dp6 := fun _ _ => by simp [encode]

theorem ZeroField.dp7 : ZeroField.Statement .dp7 := fun _ _ => by simp [encode]

theorem ZeroField.dp8 : ZeroField.Statement .dp8 := fun _ _ => by simp [encode]

theorem ZeroField.dp9 : ZeroField.Statement .dp9 := fun _ _ => by simp [encode]

theorem ZeroField.dp10 : ZeroField.Statement .dp10 := fun _ _ => by simp [encode]

theorem ZeroField.dp11 : ZeroField.Statement .dp11 := fun _ _ => by simp [encode]

theorem ZeroField.dp12 : ZeroField.Statement .dp12 := fun _ _ => by simp [encode]

theorem ZeroField.dp13 : ZeroField.Statement .dp13 := fun _ _ => by simp [encode]

theorem ZeroField.idleG : ZeroField.Statement .idleG := fun _ _ => by simp [encode]

theorem ZeroField.idleD : ZeroField.Statement .idleD := fun _ _ => by simp [encode]

theorem ZeroField.unusedG (code : SeqCode) : ZeroField.Statement (.unusedG code) := fun _ _ => by simp [encode]

theorem ZeroField.unusedD (code : SeqCode) : ZeroField.Statement (.unusedD code) := fun _ _ => by simp [encode]

theorem ZeroField.push (v : Slot) : ZeroField.Statement (.push v) := fun _ _ => by simp [encode]

theorem ZeroField.pop : ZeroField.Statement .pop := fun _ _ => by simp [encode]

theorem ZeroField.setTxeie : ZeroField.Statement .setTxeie := fun _ _ => by simp [encode]

theorem ZeroField.clearTxeie : ZeroField.Statement .clearTxeie := fun _ _ => by simp [encode]

theorem ZeroField.readRdr (link : Link) : ZeroField.Statement (.readRdr link) := fun _ _ => by simp [encode]

theorem ZeroField.writeTdr (v : Slot) : ZeroField.Statement (.writeTdr v) := fun _ _ => by simp [encode]

theorem ZeroField.clearOre (link : Link) : ZeroField.Statement (.clearOre link) := fun _ _ => by simp [encode]

theorem ZeroField.pinSet : ZeroField.Statement .pinSet := fun _ _ => by simp [encode]

theorem ZeroField.pinReset : ZeroField.Statement .pinReset := fun _ _ => by simp [encode]

theorem ZeroField.feed (v : Slot) : ZeroField.Statement (.feed v) := fun cfg _ => by
  refine ⟨fun w h => ?_, fun ws h => ?_, fun w w' h => ?_⟩ <;> simp only [encode, reduceCtorEq] at h
  cases h
  intro w hw
  simp only [List.mem_cons, List.not_mem_nil, or_false] at hw
  rcases hw with rfl | rfl
  · exact wordZero_operand _ (by decide) v
  · decide

theorem ZeroField.feeds (s : List Slot) : ZeroField.Statement (.feeds s) := fun cfg _ => by
  refine ⟨fun w h => ?_, fun ws h => ?_, fun w w' h => ?_⟩ <;> simp only [encode, reduceCtorEq] at h
  intro w hw
  rw [← Encoding.expansion.inj h] at hw
  obtain ⟨v, _, hv⟩ := List.mem_flatMap.1 hw
  simp only [List.mem_cons, List.not_mem_nil, or_false] at hv
  rcases hv with rfl | rfl
  · exact wordZero_operand _ (by decide) v
  · decide

theorem ZeroField.cmd (v : Slot) : ZeroField.Statement (.cmd v) := fun cfg _ => by
  refine ⟨fun w h => ?_, fun ws h => ?_, fun w w' h => ?_⟩ <;> simp only [encode, reduceCtorEq] at h
  cases h
  intro w hw
  simp only [List.mem_cons, List.not_mem_nil, or_false] at hw
  rcases hw with rfl | rfl
  · exact wordZero_operand _ (by decide) v
  · decide

theorem ZeroField.xmit : ZeroField.Statement .xmit := fun cfg _ => by
  refine ⟨fun w h => ?_, fun ws h => ?_, fun w w' h => ?_⟩ <;> simp only [encode, reduceCtorEq] at h
  cases h
  intro w hw
  simp only [List.mem_cons, List.not_mem_nil, or_false] at hw
  rcases hw with rfl | rfl <;> decide

theorem ZeroField.stepallG : ZeroField.Statement .stepallG := fun cfg _ => by
  refine ⟨fun w h => ?_, fun ws h => ?_, fun w w' h => ?_⟩ <;> simp only [encode, reduceCtorEq] at h
  cases h
  decide

theorem ZeroField.stepallD : ZeroField.Statement .stepallD := fun cfg _ => by
  refine ⟨fun w h => ?_, fun ws h => ?_, fun w w' h => ?_⟩ <;> simp only [encode, reduceCtorEq] at h
  cases h
  decide

end Sys2Proof.Laws
end

