-- ==== Sys2Proof/Laws/Registers.lean ====
section
/-! SUPPORT. The laws of the register view's writes: a 1 in a bit outside the mask is no write the block makes (log entry 29). -/

namespace Sys2Proof.Machine

/-- A word with a 1 outside the mask is not confined to it. -/
theorem onlyBits_false {m w : BitVec 32} {k : Nat} (hw : w.getLsbD k = true) (hm : m.getLsbD k = false) :
    onlyBits m w = false := by
  simp only [onlyBits, beq_eq_false_iff_ne, ne_eq]
  intro h
  have hk : k < 32 := BitVec.lt_of_getLsbD hw
  have e := congrArg (fun x => x.getLsbD k) h
  simp only [BitVec.getLsbD_and, BitVec.getLsbD_not, BitVec.getLsbD_zero, hw, hm, hk] at e
  simp at e

/-- A write of an interrupt-clear register with a 1 in a bit that is not listed has no result (log entry 29). -/
theorem viewWriteIcr_unlisted {l : Link} {w : BitVec 32} {k : Nat} (hk : k ≠ 3) (hw : w.getLsbD k = true)
    (s : State) : viewWriteIcr l w s = none := by
  have hlt : k < 32 := BitVec.lt_of_getLsbD hw
  have hm : (1#32 <<< 3).getLsbD k = false := by
    revert hk; interval_cases k <;> decide
  rw [viewWriteIcr, onlyBits_false hw hm]
  rfl

@[simp] theorem viewWriteIcr_zero (l : Link) (s : State) : viewWriteIcr l 0#32 s = some s := rfl
@[simp] theorem viewWriteIcr_orecf (l : Link) (s : State) : viewWriteIcr l 0x8#32 s = some (clearOreOf l s) := rfl

end Sys2Proof.Machine
end

