-- ==== Sys2Proof/Laws/Runs.lean ====
section
/-! SUPPORT. Runs under EQUAL with arrivals that may never end: a step that stays enabled is taken, an activation ends, a request of
the dispatch engine that is not passed over is served, and a frame in the holding register is sent (R131, R153, R167). -/

namespace Sys2Proof.Machine

/-! ### What a micro-op of each engine moves -/

/-- A value is to be sent and not yet written to TDR_2: the transmitter is empty, and the queue or, at DP5, the
engine's hand holds one. -/
abbrev Serving (s : State) : Prop := s.txe2 = true ∧ (0 < len s ∨ s.seqD = Seq.dp5)

theorem Serving.of_keepsD {s t : State} (h : Serving s) (k : KeepsD s t) : Serving t :=
  ⟨k.txe2 h.1, h.2.imp (fun e => e.trans_le k.len) fun e => k.seqD.trans e⟩

/-- A dispatch micro-op with a value to send writes TDR_2, or goes on with the value still to send, and before DP6 it
goes on within the transmit branch (R106 to R123). -/
theorem serving_ruleD {s : State} (h : SafeInv s) (hne : s.seqD ≠ Seq.idle) (hs : Serving s) :
    (ruleD s).txe2 = false ∨ (Serving (ruleD s) ∧
      ((ruleD s).seqD = Seq.idle ∨ s.seqD.toNat < (ruleD s).seqD.toNat) ∧
      (s.seqD.toNat ≤ 5 → (ruleD s).seqD ≠ Seq.idle ∧ (ruleD s).seqD.toNat ≤ 5)) := by
  obtain ⟨hx, hl⟩ := hs
  have hl : s.seqD ≠ Seq.dp5 → 0 < len s := fun e => hl.resolve_right e
  rcases ruleD_forms h hne with ⟨e, r⟩ | ⟨c, e, -, hc, r⟩ | ⟨v, e, -, r⟩ | ⟨e, -, r⟩ | ⟨v, e, -, r⟩ | ⟨e, r⟩ |
    ⟨e, r⟩ | ⟨e, r⟩ | ⟨c, v, e, hc, r⟩ | ⟨e, r⟩ | ⟨e, r⟩ | ⟨c, e, hc, r⟩ | ⟨e, r⟩ <;> rw [r, e] <;> rw [e] at hl
  case inr.inr.inr.inr.inl => exact .inl rfl
  case inr.inr.inr.inl => exact .inr ⟨⟨hx, .inr rfl⟩, by dsimp only; decide⟩
  all_goals refine .inr ⟨⟨hx, .inl (hl (by decide))⟩, ?_⟩
  case inl => simp only [ruleDp1, hx]; decide
  case inr.inl =>
    rcases hc with rfl | ⟨h0, -⟩
    · dsimp only; decide
    · exact absurd h0 (hl (by decide)).ne'
  case inr.inr.inr.inr.inr.inl => simp only [ruleDp6]; split <;> decide
  case inr.inr.inr.inr.inr.inr.inr.inl => simp only [ruleDp8]; split <;> decide
  case inr.inr.inr.inr.inr.inr.inr.inr.inl => rcases hc with rfl | rfl | rfl <;> (dsimp only; decide)
  case inr.inr.inr.inr.inr.inr.inr.inr.inr.inr.inr.inl => rcases hc with rfl | rfl <;> (dsimp only; decide)
  all_goals simp only [ruleDp7, ruleDp10, ruleDp11, ruleDp13, leaveD]; decide

/-- A dispatch micro-op leaves the ingest engine where it is and never empties the transmitter (R46, R142). -/
theorem ruleD_keeps {s : State} (h : SafeInv s) (hne : s.seqD ≠ Seq.idle) :
    (ruleD s).seqG = s.seqG ∧ (s.txe2 = false → (ruleD s).txe2 = false) := by
  rcases ruleD_forms h hne with ⟨e, r⟩ | ⟨c, e, hx, hc, r⟩ | ⟨v, e, hx, r⟩ | ⟨e, hx, r⟩ | ⟨v, e, hx, r⟩ | ⟨e, r⟩ |
    ⟨e, r⟩ | ⟨e, r⟩ | ⟨c, v, e, hc, r⟩ | ⟨e, r⟩ | ⟨e, r⟩ | ⟨c, e, hc, r⟩ | ⟨e, r⟩ <;> rw [r]
  case inr.inr.inr.inr.inl => exact ⟨rfl, fun _ => rfl⟩
  all_goals exact ⟨rfl, id⟩

/-- An ingest micro-op ends the activation or goes on to a later one, and leaves the transmitter alone (R46, R104). -/
theorem ruleG_moves {s : State} (h : SafeInv s) (hne : s.seqG ≠ Seq.idle) :
    ((ruleG s).seqG = Seq.idle ∨ s.seqG.toNat < (ruleG s).seqG.toNat) ∧ (ruleG s).txe2 = s.txe2 := by
  rcases ruleG_forms h hne with ⟨e, r⟩ | ⟨v, e, r⟩ | ⟨c, e, hc, r⟩ | ⟨v, e, r⟩ | ⟨e, hl, r⟩ | ⟨e, r⟩ |
    ⟨c, e, hc, r⟩ | ⟨e, r⟩ <;> rw [r, e] <;> refine ⟨?_, rfl⟩
  case inl => simp only [ruleIg1]; split <;> decide
  case inr.inl => simp only; split <;> decide
  case inr.inr.inl => rcases hc with rfl | rfl <;> (dsimp only; decide)
  case inr.inr.inr.inr.inr.inr.inl => rcases hc with rfl | rfl <;> (dsimp only; decide)
  all_goals simp only [ruleIg6, ruleIg8, leaveG]; decide

@[simp] theorem receiveFrame_seqG (l : Link) (f : Slot) (s : State) : (receiveFrame l f s).seqG = s.seqG := by
  unfold receiveFrame
  cases l <;> cases s.cfg.ovr <;> simp only <;> split <;> rfl

@[simp] theorem receiveFrame_txe2 (l : Link) (f : Slot) (s : State) : (receiveFrame l f s).txe2 = s.txe2 := by
  unfold receiveFrame
  cases l <;> cases s.cfg.ovr <;> simp only <;> split <;> rfl

@[simp] theorem afterRule_seqG (s t : State) : (afterRule s t).seqG = t.seqG := by
  unfold afterRule
  split <;> rfl

@[simp] theorem afterRule_seqD (s t : State) : (afterRule s t).seqD = t.seqD := by
  unfold afterRule
  split <;> rfl

@[simp] theorem afterRule_txe2 (s t : State) : (afterRule s t).txe2 = t.txe2 := by
  unfold afterRule
  split <;> rfl

@[simp] theorem ruleTxDone_seqG (s : State) : (ruleTxDone s).seqG = s.seqG := by
  unfold ruleTxDone
  cases s.tdr2 <;> rfl

/-! ### What a word leaves alone -/

/-- Every word but the ingest engine's own, RESET and the harness words leaves `seq_G` alone (R46). -/
theorem seqG_word {i : Instr} {s t : State} (hi : i.isStimulus = true) (h1 : i ≠ .reset) (h2 : i ≠ .qPop)
    (h3 : ∀ d, i ≠ .qPush d) (hg : i ∉ ingestWords) (h : SafeInv s) (hs : exec i s = .next t) : t.seqG = s.seqG := by
  have step : ∀ {u v : State}, SafeInv u → stepD u = .next v → SafeInv v ∧ v.seqG = u.seqG := fun hu hv => by
    obtain ⟨hne, rfl, hsv⟩ := stepD_eq_next hu hv
    exact ⟨hsv, (ruleD_keeps hu hne).1⟩
  rcases word_cases hi h1 h2 h3 with hg' | hd | rfl | ⟨f, rfl | rfl⟩
  · exact absurd hg' hg
  · simp only [dispatchWords, List.mem_cons, List.not_mem_nil, or_false] at hd
    rcases hd with rfl | rfl | rfl
    · exact (step h hs).2
    · obtain ⟨-, -, -, -, rfl⟩ := enterD_eq_next.1 hs
      rfl
    · obtain ⟨u, hu, ht⟩ := andThen_eq_next.1 hs
      obtain ⟨-, -, -, -, rfl⟩ := enterD_eq_next.1 hu
      exact (repeatUntil_keeps (P := fun v => SafeInv v ∧ v.seqG = s.seqG)
        (fun u v hu hv => ⟨(step hu.1 hv).1, (step hu.1 hv).2.trans hu.2⟩) _ _ _ ⟨safeInv_takeD h, rfl⟩ ht).2
  · obtain ⟨-, rfl⟩ := execTxDone_eq_next hs
    simp
  · have hs : arrive .g f s = .next t := hs
    rw [arrive_eq_next hs]; simp
  · have hs : arrive .l2 f s = .next t := hs
    rw [arrive_eq_next hs]; simp

/-- A frame in the holding register stays there but for TX_DONE, RESET and the harness words (R142). -/
theorem txe2_word {i : Instr} {s t : State} (hi : i.isStimulus = true) (h1 : i ≠ .reset) (h2 : i ≠ .qPop)
    (h3 : ∀ d, i ≠ .qPush d) (hx : i ≠ .txDone) (h : SafeInv s) (hs : exec i s = .next t) (hf : s.txe2 = false) :
    t.txe2 = false := by
  have stepG' : ∀ {u v : State}, SafeInv u ∧ u.txe2 = false → stepG u = .next v → SafeInv v ∧ v.txe2 = false :=
    fun hu hv => by
      obtain ⟨hne, rfl, hsv⟩ := stepG_eq_next hu.1 hv
      exact ⟨hsv, (ruleG_moves hu.1 hne).2.trans hu.2⟩
  have stepD' : ∀ {u v : State}, SafeInv u ∧ u.txe2 = false → stepD u = .next v → SafeInv v ∧ v.txe2 = false :=
    fun hu hv => by
      obtain ⟨hne, rfl, hsv⟩ := stepD_eq_next hu.1 hv
      exact ⟨hsv, (ruleD_keeps hu.1 hne).2 hu.2⟩
  rcases word_cases hi h1 h2 h3 with hg | hd | rfl | ⟨f, rfl | rfl⟩
  · simp only [ingestWords, List.mem_cons, List.not_mem_nil, or_false] at hg
    rcases hg with rfl | rfl | rfl
    · exact (stepG' ⟨h, hf⟩ hs).2
    · obtain ⟨-, -, -, -, rfl⟩ := enterG_eq_next.1 hs
      exact hf
    · obtain ⟨u, hu, ht⟩ := andThen_eq_next.1 hs
      obtain ⟨-, -, -, -, rfl⟩ := enterG_eq_next.1 hu
      exact (repeatUntil_keeps (fun _ _ => stepG') _ _ _ ⟨safeInv_takeG h, hf⟩ ht).2
  · simp only [dispatchWords, List.mem_cons, List.not_mem_nil, or_false] at hd
    rcases hd with rfl | rfl | rfl
    · exact (stepD' ⟨h, hf⟩ hs).2
    · obtain ⟨-, -, -, -, rfl⟩ := enterD_eq_next.1 hs
      exact hf
    · obtain ⟨u, hu, ht⟩ := andThen_eq_next.1 hs
      obtain ⟨-, -, -, -, rfl⟩ := enterD_eq_next.1 hu
      exact (repeatUntil_keeps (fun _ _ => stepD') _ _ _ ⟨safeInv_takeD h, hf⟩ ht).2
  · exact absurd rfl hx
  · have hs : arrive .g f s = .next t := hs
    rw [arrive_eq_next hs]; simp [hf]
  · have hs : arrive .l2 f s = .next t := hs
    rw [arrive_eq_next hs]; simp [hf]

/-- A repeated step reaches the state it stops at if each step reaches it or lessens a number the bound exceeds. -/
theorem repeatUntil_stops {P : State → Prop} {stop : State → Bool} {f : State → Out} {r : State → Nat}
    (hf : ∀ s t, P s → f s = .next t → P t ∧ (stop t = true ∨ r t < r s)) :
    ∀ (n : Nat) (s t : State), P s → r s < n → repeatUntil stop f n s = .next t → stop t = true := by
  intro n
  induction n with
  | zero => intro s t _ hr; exact absurd hr (Nat.not_lt_zero _)
  | succ n ih =>
    intro s t hs hr h
    simp only [repeatUntil] at h
    split at h
    · simp only [Host.Outcome.next.injEq] at h
      rwa [← h]
    · obtain ⟨u, hu, ht⟩ := andThen_eq_next.1 h
      obtain ⟨hPu, hd | hd⟩ := hf s u hs hu
      · cases n with
        | zero => simp only [repeatUntil, Host.Outcome.next.injEq] at ht; rwa [← ht]
        | succ n =>
          simp only [repeatUntil, hd, if_true, Host.Outcome.next.injEq] at ht
          rwa [← ht]
      · exact ih u t hPu (by omega) ht

/-- RUN_G ends with the ingest engine IDLE (R103, R104 item 7). -/
theorem execRunG_idle {s t : State} (h : SafeInv s) (hs : execRunG s = .next t) :
    t.seqG = Seq.idle := by
  obtain ⟨u, hu, ht⟩ := andThen_eq_next.1 hs
  obtain ⟨-, -, -, -, rfl⟩ := enterG_eq_next.1 hu
  have hstep : ∀ u v : State, SafeInv u → stepG u = .next v → SafeInv v ∧
      ((v.seqG == Seq.idle || v.fault.isSome) = true ∨ 8 - v.seqG.toNat < 8 - u.seqG.toNat) := fun u v hu hv => by
    obtain ⟨hne, rfl, hsv⟩ := stepG_eq_next hu hv
    refine ⟨hsv, ?_⟩
    have := hsv.data.seqG_used
    rcases (ruleG_moves hu hne).1 with e | e
    · exact .inl (by simp [e])
    · exact .inr (by simp only [pendUpdate_seqG] at *; omega)
  have hsafe := repeatUntil_keeps (fun u v hu hv => (hstep u v hu hv).1) _ _ _ (safeInv_takeG h) ht
  have := repeatUntil_stops hstep 8 _ _ (safeInv_takeG h) (show 8 - Seq.ig1.toNat < 8 by decide) ht
  simpa [hsafe.noFault] using this

/-- A command that arrives while a request of the dispatch engine is latched and waits makes no more work (R141). -/
theorem work_hostRx_of_waiting {f : Slot} {s t : State} (h : SafeInv s) (hp : PendInv s) (hq : s.seqD = Seq.idle)
    (hl : s.pendD = true) (hs : exec (.hostRx f) s = .next t) : work t = work s := by
  have hs : arrive .l2 f s = .next t := hs
  rw [arrive_eq_next hs, afterRule_of_noFault _ (safeInv_receiveFrame h .l2 f).noFault]
  have e : ∀ u, receiveFrame .l2 f s = u → u.seqG = s.seqG → u.rxneG = s.rxneG → u.oreG = s.oreG →
      u.rxneieG = s.rxneieG → u.pendG = s.pendG → u.seqD = s.seqD → u.txe2 = s.txe2 → u.txeie = s.txeie →
      u.pendD = s.pendD → len u = len s → work (pendUpdate s (receiveFrame .l2 f s)) = work s := by
    rintro u rfl h1 h2 h3 h4 h5 h6 h7 h8 h9 h10
    have hG := workG_of_other hp h1 h2 h3 h4 h5
    have hn : len (pendUpdate s (receiveFrame .l2 f s)) = len (receiveFrame .l2 f s) := rfl
    have hD : ∀ rx rx' txe txeie : Bool,
        workD Seq.idle rx' txe txeie true = workD Seq.idle rx txe txeie true := by decide
    unfold work
    rw [hG, hn, h10, pendUpdate_pendD, h9, hl]
    simp only [pendUpdate_seqD, pendUpdate_rxne2, pendUpdate_txe2, pendUpdate_txeie, h6, h7, h8, hq, Bool.true_or]
    rw [hD s.rxne2]
  unfold receiveFrame at e ⊢
  cases hr : rxne .l2 s <;> cases ho : s.cfg.ovr <;> simp only [hr, ho] at e ⊢ <;>
    exact e _ rfl rfl rfl rfl rfl rfl rfl rfl rfl rfl rfl

/-! ### Runs -/

/-- A run without RESET and harness words under EQUAL, all of whose states meet the invariants (R129, R131). -/
structure EqualRun (states : Nat → State) (words : Nat → Option Instr) : Prop where
  run : IsRun states words
  words_ok : NoResetNoHarness words
  equal : ∀ n, (states n).cfg.prio = .equal
  safe : ∀ n, SafeInv (states n)
  pend : ∀ n, PendInv (states n)
  coherent : ∀ n, Coherent (states n)

section
variable {states : Nat → State} {words : Nat → Option Instr}

/-- What happens at a place of a run. -/
theorem EqualRun.place (R : EqualRun states words) (n : Nat) :
    (words n = none ∧ states (n + 1) = states n) ∨
    ∃ i, words n = some i ∧ i.isStimulus = true ∧ i ≠ .reset ∧ i ≠ .qPop ∧ (∀ d, i ≠ .qPush d) ∧
      exec i (states n) = .next (states (n + 1)) := by
  refine (R.run n).imp id fun ⟨i, hi, hs, hx⟩ => ⟨i, hi, hs, ?_⟩
  obtain ⟨h1, h2, h3⟩ := R.words_ok n
  rw [hi] at h1 h2 h3
  exact ⟨fun e => h1 (congrArg some e), fun e => h2 (congrArg some e), fun d e => h3 d (congrArg some e), hx⟩

/-- What holds until one of the words `by_` is taken either holds for good or holds where one is. -/
theorem taken_or_stays {P : Nat → Prop} {by_ : List Instr}
    (hk : ∀ m, P m → (∀ j ∈ by_, words m ≠ some j) → P (m + 1)) {n : Nat} (h : P n) :
    (∃ m, n ≤ m ∧ P m ∧ ∃ j ∈ by_, words m = some j) ∨ ∀ m, n ≤ m → P m := by
  by_cases ht : ∃ m, n ≤ m ∧ P m ∧ ∃ j ∈ by_, words m = some j
  · exact .inl ht
  · refine .inr fun m hm => ?_
    induction m, hm using Nat.le_induction with
    | base => exact h
    | succ m hm ih => exact hk m ih fun j hj hw => ht ⟨m, hm, ih, j, hj, hw⟩

/-- A step enabled as long as it is not taken is taken (R167). -/
theorem WeaklyFair.taken {i : Instr} {by_ : List Instr} (hf : WeaklyFair i by_ states words) {P : Nat → Prop}
    (he : ∀ m, P m → Enabled i (states m)) (hk : ∀ m, P m → (∀ j ∈ by_, words m ≠ some j) → P (m + 1))
    {n : Nat} (h : P n) : ∃ m, n ≤ m ∧ P m ∧ ∃ j ∈ by_, words m = some j :=
  (taken_or_stays hk h).elim id fun hall =>
    let ⟨m, hm, j, hj, hw⟩ := hf n fun m hm => he m (hall m hm)
    ⟨m, hm, hall m hm, j, hj, hw⟩

namespace EqualRun

/-- A frame in the holding register is sent (R142, R167 item 3). -/
theorem sent (R : EqualRun states words) (hf : Fair states words) {n : Nat} (h : (states n).txe2 = false) :
    ∃ m, n ≤ m ∧ words m = some .txDone := by
  obtain ⟨m, hm, -, j, hj, hw⟩ := hf.txDone.taken (P := fun m => (states m).txe2 = false)
    (fun m hx => ⟨_, by simp [exec, execTxDone, requiresNoFault_of_noFault (R.safe m).noFault, hx]; rfl⟩)
    (fun m hx hne => by
      rcases R.place m with ⟨-, e⟩ | ⟨i, hi, hs, h1, h2, h3, hx'⟩
      · rw [e]; exact hx
      · exact txe2_word hs h1 h2 h3 (fun e => hne .txDone (by simp) (e ▸ hi)) (R.safe m) hx' hx) h
  rw [List.mem_singleton] at hj
  exact ⟨m, hm, hj ▸ hw⟩

/-- An ingest activation ends (R104 item 7, R167 item 1). -/
theorem ingest_ends (R : EqualRun states words) (hf : Fair states words) (n : Nat) :
    ∃ m, n ≤ m ∧ (states m).seqG = Seq.idle := by
  generalize hr : 16 - (states n).seqG.toNat = r
  induction r using Nat.strong_induction_on generalizing n with
  | _ r ih =>
    by_cases hne : (states n).seqG = Seq.idle
    · exact ⟨n, le_rfl, hne⟩
    · obtain ⟨m, hm, hP, j, hj, hw⟩ := hf.mstepG.taken (P := fun m => (states m).seqG = (states n).seqG)
        (fun m e => ⟨_, microStepG_next (R.safe m).noFault (e ▸ hne) (fun h => by simp [R.equal m] at h) ruleG⟩)
        (fun m e hnj => by
          rcases R.place m with ⟨-, e'⟩ | ⟨i, hi, hs, h1, h2, h3, hx⟩
          · rw [e']; exact e
          · by_cases hg : i ∈ ingestWords
            · simp only [ingestWords, List.mem_cons, List.not_mem_nil, or_false] at hg
              rcases hg with rfl | rfl | rfl
              · exact absurd hi (hnj .mstepG (by simp))
              · exact absurd (e ▸ (enterG_eq_next.1 hx).2.2.1) hne
              · obtain ⟨u, hu, -⟩ := andThen_eq_next.1 hx
                exact absurd (e ▸ (enterG_eq_next.1 hu).2.2.1) hne
            · exact (seqG_word hs h1 h2 h3 hg (R.safe m) hx).trans e) rfl
      rw [List.mem_singleton] at hj
      subst hj
      rcases R.place m with ⟨e, -⟩ | ⟨i, hi, -, -, -, -, hx⟩
      · rw [hw] at e; cases e
      · rw [hw] at hi
        cases hi
        obtain ⟨hg, ht, hsv⟩ := stepG_eq_next (R.safe m) hx
        have hmv := (ruleG_moves (R.safe m) hg).1
        rw [ht] at hsv
        have hu := hsv.data.seqG_used
        simp only [pendUpdate_seqG] at hu
        rcases hmv with e | e
        · exact ⟨m + 1, by omega, by rw [ht]; exact e⟩
        · obtain ⟨k, hk, he⟩ := ih (16 - (states (m + 1)).seqG.toNat)
            (by rw [ht, ← hr]; simp only [pendUpdate_seqG]; rw [hP] at e; omega) (m + 1) rfl
          exact ⟨k, by omega, he⟩

/-- A value to send is written to TDR_2 in this activation, or the activation ends with it still to send; one that has
not passed DP5 writes it (R106, R123, R167 item 1). -/
theorem dispatch_ends (R : EqualRun states words) (hf : Fair states words) {n : Nat} (hS : Serving (states n))
    (hne : (states n).seqD ≠ Seq.idle) :
    ∃ m, n ≤ m ∧ ((states m).txe2 = false ∨
      (Serving (states m) ∧ (states m).seqD = Seq.idle ∧ 5 < (states n).seqD.toNat)) := by
  generalize hr : 16 - (states n).seqD.toNat = r
  induction r using Nat.strong_induction_on generalizing n with
  | _ r ih =>
    obtain ⟨m, hm, ⟨hS', hP⟩, j, hj, hw⟩ := hf.mstepD.taken
      (P := fun m => Serving (states m) ∧ (states m).seqD = (states n).seqD)
      (fun m e => ⟨_, microStepD_next (R.safe m).noFault (e.2 ▸ hne) (fun h => by simp [R.equal m] at h) ruleD⟩)
      (fun m e hnj => by
        rcases R.place m with ⟨-, e'⟩ | ⟨i, hi, hs, h1, h2, h3, hx⟩
        · rw [e']; exact e
        · by_cases hd : i ∈ dispatchWords
          · simp only [dispatchWords, List.mem_cons, List.not_mem_nil, or_false] at hd
            rcases hd with rfl | rfl | rfl
            · exact absurd hi (hnj .mstepD (by simp))
            · exact absurd (e.2 ▸ (enterD_eq_next.1 hx).2.2.1) hne
            · obtain ⟨u, hu, -⟩ := andThen_eq_next.1 hx
              exact absurd (e.2 ▸ (enterD_eq_next.1 hu).2.2.1) hne
          · have hk := keepsD_word hs h1 h2 h3 hd (R.safe m) (R.pend m) hx
            exact ⟨e.1.of_keepsD hk, hk.seqD.trans e.2⟩) ⟨hS, rfl⟩
    rw [List.mem_singleton] at hj
    subst hj
    rcases R.place m with ⟨e, -⟩ | ⟨i, hi, -, -, -, -, hx⟩
    · rw [hw] at e; cases e
    · rw [hw] at hi
      cases hi
      obtain ⟨hd, ht, hsv⟩ := stepD_eq_next (R.safe m) hx
      rw [ht] at hsv
      have hu := hsv.data.seqD_used
      simp only [pendUpdate_seqD] at hu
      rcases serving_ruleD (R.safe m) hd hS' with e | ⟨hS2, hmv, h5⟩
      · exact ⟨m + 1, by omega, .inl (by rw [ht]; exact e)⟩
      · have hS3 : Serving (states (m + 1)) := by rw [ht]; exact hS2
        have hq : (states (m + 1)).seqD = (ruleD (states m)).seqD := by rw [ht]; rfl
        rw [hP] at hmv h5
        rw [← hq] at hmv h5 hu
        by_cases hi2 : (states (m + 1)).seqD = Seq.idle
        · refine ⟨m + 1, by omega, .inr ⟨hS3, hi2, ?_⟩⟩
          by_contra hle
          exact (h5 (by omega)).1 hi2
        · have hlt := hmv.resolve_left hi2
          obtain ⟨k, hk, he⟩ := ih _ (by omega) hS3 hi2 rfl
          refine ⟨k, by omega, he.imp id fun ⟨a, b, c⟩ => ⟨a, b, ?_⟩⟩
          by_contra hle
          have := (h5 (by omega)).2
          omega

/-- A dispatch activation entered with a value to send writes one to TDR_2 (R106, R109 to R111). -/
theorem entered_writes (R : EqualRun states words) (hf : Fair states words) {n : Nat} (hS : Serving (states n))
    (hq : (states n).seqD = Seq.idle) (hw : words n = some .enterD ∨ words n = some .runD) :
    ∃ m, n ≤ m ∧ (states m).txe2 = false := by
  have hl : 0 < len (states n) := hS.2.resolve_right fun e => by rw [hq] at e; exact absurd e (by decide)
  have go : ∀ m, (states m).txe2 = false ∨
      (Serving (states m) ∧ (states m).seqD ≠ Seq.idle ∧ (states m).seqD.toNat ≤ 5) →
      ∃ k, m ≤ k ∧ (states k).txe2 = false := fun m h => by
    rcases h with h | ⟨h1, h2, h3⟩
    · exact ⟨m, le_rfl, h⟩
    · obtain ⟨k, hk, e | ⟨-, -, e⟩⟩ := R.dispatch_ends hf h1 h2
      · exact ⟨k, hk, e⟩
      · omega
  have key : (states (n + 1)).txe2 = false ∨ (Serving (states (n + 1)) ∧ (states (n + 1)).seqD ≠ Seq.idle ∧
      (states (n + 1)).seqD.toNat ≤ 5) := by
    have h0 : Serving (takeD (states n)) ∧ (takeD (states n)).seqD ≠ Seq.idle ∧
        (takeD (states n)).seqD.toNat ≤ 5 :=
      ⟨⟨hS.1, .inl hl⟩, (by decide : Seq.dp1 ≠ Seq.idle), (by decide : Seq.dp1.toNat ≤ 5)⟩
    rcases R.place n with ⟨e, -⟩ | ⟨i, hi, -, -, -, -, hx⟩
    · rw [e] at hw; simp at hw
    · rw [hi] at hw
      simp only [Option.some.injEq] at hw
      rcases hw with rfl | rfl
      · have ht := (enterD_eq_next.1 hx).2.2.2.2
        rw [ht]
        exact .inr h0
      · obtain ⟨u, hu, ht⟩ := andThen_eq_next.1 hx
        obtain ⟨-, -, -, -, rfl⟩ := enterD_eq_next.1 hu
        refine (repeatUntil_keeps (P := fun u => SafeInv u ∧ (u.txe2 = false ∨ (Serving u ∧ u.seqD ≠ Seq.idle ∧
          u.seqD.toNat ≤ 5))) (fun u v hu hv => ?_) _ _ _ ⟨safeInv_takeD (R.safe n), .inr h0⟩ ht).2
        obtain ⟨hne, rfl, hsv⟩ := stepD_eq_next hu.1 hv
        refine ⟨hsv, ?_⟩
        rcases hu.2 with e | ⟨e1, e2, e3⟩
        · exact .inl ((ruleD_keeps hu.1 hne).2 e)
        · exact (serving_ruleD hu.1 hne e1).imp id fun ⟨a, _, b⟩ => ⟨a, (b e3).1, (b e3).2⟩
  obtain ⟨k, hk, e⟩ := go _ key
  exact ⟨k, by omega, e⟩

/-- A value waits to be sent and no dispatch activation is in progress. -/
abbrev Waits (s : State) : Prop := Serving s ∧ s.seqD = Seq.idle

/-- What every word but the entries of the dispatch engine leaves of a value that waits. -/
theorem keepsD_of_waits (R : EqualRun states words) {m : Nat} (h : Waits (states m))
    (hn : ∀ j ∈ [Instr.enterD, .runD], words m ≠ some j) : KeepsD (states m) (states (m + 1)) := by
  rcases R.place m with ⟨-, e⟩ | ⟨i, hi, hs, h1, h2, h3, hx⟩
  · rw [e]; exact .refl _
  · by_cases hd : i ∈ dispatchWords
    · simp only [dispatchWords, List.mem_cons, List.not_mem_nil, or_false] at hd
      rcases hd with rfl | rfl | rfl
      · exact absurd h.2 (stepD_eq_next (R.safe m) hx).1
      · exact absurd hi (hn _ (by simp))
      · exact absurd hi (hn _ (by simp))
    · exact keepsD_word hs h1 h2 h3 hd (R.safe m) (R.pend m) hx

/-- In a quiescent state with a value that waits, the request of the dispatch engine is latched and its entry enabled
(R128, R131, R148, R150). -/
theorem pendD_of_waits (R : EqualRun states words) {m : Nat} (h : Waits (states m))
    (hG : (states m).seqG = Seq.idle) : (states m).pendD = true ∧ Enabled .enterD (states m) := by
  have hl : 0 < len (states m) := h.1.2.resolve_right fun e => by rw [h.2] at e; exact absurd e (by decide)
  have ht : (states m).txeie = true := ((R.coherent m).settled (by rw [hG]; decide) (by rw [h.2]; decide)
    (by rw [h.2]; decide) (by rw [h.2]; decide)).2 hl
  have hp := (R.pend m).lineD h.2 (by simp [irq2, ht, h.1.1])
  exact ⟨hp, _, enterD_next ⟨(R.safe m).noFault, hp, h.2, .inr hG⟩⟩

/-- Where GPS frames stop arriving and a value waits for good, the ingest engine comes to rest for good (R104). -/
theorem ingest_rests (R : EqualRun states words) (hf : Fair states words) {n : Nat}
    (hg : ∀ m, n ≤ m → ∀ f, words m ≠ some (.gpsRx f)) (hW : ∀ m, n ≤ m → Waits (states m))
    (hP : ∀ m, n ≤ m → (states m).pendD = true)
    (hn : ∀ m, n ≤ m → ∀ j ∈ [Instr.enterD, .runD], words m ≠ some j) :
    ∃ k, n ≤ k ∧ ∀ m, k ≤ m → (states m).seqG = Seq.idle := by
  have hstep : ∀ m, n ≤ m → work (states (m + 1)) < work (states m) ∨
      (work (states (m + 1)) = work (states m) ∧ (states (m + 1)).seqG = (states m).seqG) := fun m hm => by
    rcases R.place m with ⟨-, e⟩ | ⟨i, hi, hs, h1, h2, h3, hx⟩
    · exact .inr (by rw [e]; exact ⟨rfl, rfl⟩)
    · rcases word_cases hs h1 h2 h3 with hw | hw | rfl | ⟨f, rfl | rfl⟩
      · refine .inl (lessened_block ?_ (R.safe m) (R.pend m) hx).2.2
        simp only [ingestWords, List.mem_cons, List.not_mem_nil, or_false] at hw
        rcases hw with rfl | rfl | rfl <;> simp
      · simp only [dispatchWords, List.mem_cons, List.not_mem_nil, or_false] at hw
        rcases hw with rfl | rfl | rfl
        · exact absurd (hW m hm).2 (stepD_eq_next (R.safe m) hx).1
        · exact absurd hi (hn m hm _ (by simp))
        · exact absurd hi (hn m hm _ (by simp))
      · have := (execTxDone_eq_next hx).1
        rw [(hW m hm).1.1] at this
        cases this
      · exact absurd hi (hg m hm f)
      · exact .inr ⟨work_hostRx_of_waiting (R.safe m) (R.pend m) (hW m hm).2 (hP m hm) hx,
          seqG_word hs h1 h2 h3 (by simp) (R.safe m) hx⟩
  classical
  have hex : ∃ w k, n ≤ k ∧ work (states k) = w := ⟨_, n, le_rfl, rfl⟩
  obtain ⟨k, hk, hw⟩ := Nat.find_spec hex
  have hmin : ∀ m, n ≤ m → work (states k) ≤ work (states m) := fun m hm => by
    rw [hw]; exact Nat.find_min' hex ⟨m, hm, rfl⟩
  have hflat : ∀ m, k ≤ m → work (states m) = work (states k) ∧ (states m).seqG = (states k).seqG := fun m hm => by
    induction m, hm using Nat.le_induction with
    | base => exact ⟨rfl, rfl⟩
    | succ m hm ih =>
      rcases hstep m (hk.trans hm) with e | ⟨e1, e2⟩
      · have := hmin (m + 1) (by omega)
        omega
      · exact ⟨e1.trans ih.1, e2.trans ih.2⟩
  obtain ⟨m, hm, he⟩ := R.ingest_ends hf k
  exact ⟨k, hk, fun j hj => (hflat j hj).2.trans ((hflat m hm).2.symm.trans he)⟩

/-- Where every ingest activation is one RUN_G word, the ingest engine is IDLE in every state (R103). -/
theorem idle_of_whole (R : EqualRun states words) (hw : WholeIngestActivations states words) (n : Nat) :
    (states n).seqG = Seq.idle := by
  induction n with
  | zero => exact hw.1
  | succ n ih =>
    rcases R.place n with ⟨-, e⟩ | ⟨i, hi, hs, h1, h2, h3, hx⟩
    · rw [e]; exact ih
    · by_cases hg : i ∈ ingestWords
      · simp only [ingestWords, List.mem_cons, List.not_mem_nil, or_false] at hg
        rcases hg with rfl | rfl | rfl
        · exact absurd hi (hw.2 n).2
        · exact absurd hi (hw.2 n).1
        · exact execRunG_idle (R.safe n) hx
      · exact (seqG_word hs h1 h2 h3 hg (R.safe n) hx).trans ih

/-- A value that waits is not passed over: a dispatch activation is entered with it still to send (R131, R167 item 2). -/
theorem entered (R : EqualRun states words) (hf : Fair states words) (hd : DispatchIsServed states words) {n : Nat}
    (h : Waits (states n)) :
    ∃ m, n ≤ m ∧ Waits (states m) ∧ ∃ j ∈ [Instr.enterD, .runD], words m = some j := by
  refine (taken_or_stays (fun m hm hn => ?_) h).elim id fun hall => ?_
  · have hk := R.keepsD_of_waits hm hn
    exact ⟨hm.1.of_keepsD hk, hk.seqD.trans hm.2⟩
  · by_contra hno
    have hn : ∀ m, n ≤ m → ∀ j ∈ [Instr.enterD, .runD], words m ≠ some j := fun m hm j hj hw =>
      hno ⟨m, hm, hall m hm, j, hj, hw⟩
    have absurd_of : (∃ m, n ≤ m ∧ ∃ j ∈ [Instr.enterD, .runD], words m = some j) → False :=
      fun ⟨m, hm, j, hj, hw⟩ => hn m hm j hj hw
    rcases hd with ⟨N, hN⟩ | hw | hb
    · obtain ⟨k, hk, hq⟩ := R.ingest_ends hf (max n N)
      have hP : ∀ m, k ≤ m → (states m).pendD = true := fun m hm => by
        induction m, hm using Nat.le_induction with
        | base => exact (R.pendD_of_waits (hall k (by omega)) hq).1
        | succ m hm ih => exact (R.keepsD_of_waits (hall m (by omega)) (hn m (by omega))).pendD ih
      obtain ⟨j, hj, hrest⟩ := R.ingest_rests hf (fun m hm => hN m (by omega)) (fun m hm => hall m (by omega)) hP
        (fun m hm => hn m (by omega))
      obtain ⟨m, hm, h⟩ := hf.enterD j fun m hm => (R.pendD_of_waits (hall m (by omega)) (hrest m hm)).2
      exact absurd_of ⟨m, by omega, h⟩
    · exact absurd_of (hf.enterD n fun m hm => (R.pendD_of_waits (hall m hm) (R.idle_of_whole hw m)).2)
    · refine absurd_of (hb n (fun m hm hq => (R.pendD_of_waits (hall m hm) hq.1).2) fun m hm => ?_)
      obtain ⟨k, hk, hq⟩ := R.ingest_ends hf m
      exact ⟨k, hk, hq, (hall k (by omega)).2⟩

/-- Whatever is on its way to the far end, in the queue, in hand or in the holding register, a frame is sent. -/
theorem sends (R : EqualRun states words) (hf : Fair states words) (hd : DispatchIsServed states words) {n : Nat}
    (h : (states n).txe2 = false ∨ 0 < len (states n) ∨ (states n).seqD = Seq.dp5) :
    ∃ m, n ≤ m ∧ words m = some .txDone := by
  have go : ∀ k, n ≤ k → (∃ m, k ≤ m ∧ (states m).txe2 = false) → ∃ m, n ≤ m ∧ words m = some .txDone :=
    fun k hk ⟨m, hm, e⟩ => let ⟨j, hj, w⟩ := R.sent hf e; ⟨j, by omega, w⟩
  have wait : ∀ k, n ≤ k → Waits (states k) → ∃ m, n ≤ m ∧ words m = some .txDone := fun k hk hW => by
    obtain ⟨m, hm, hW', j, hj, hw⟩ := R.entered hf hd hW
    simp only [List.mem_cons, List.not_mem_nil, or_false] at hj
    exact go m (by omega) (R.entered_writes hf hW'.1 hW'.2 (by rcases hj with rfl | rfl <;> simp [hw]))
  cases hx : (states n).txe2
  · exact go n le_rfl ⟨n, le_rfl, hx⟩
  · have hS : Serving (states n) := ⟨hx, h.resolve_left (by simp [hx])⟩
    by_cases hq : (states n).seqD = Seq.idle
    · exact wait n le_rfl ⟨hS, hq⟩
    · obtain ⟨m, hm, e | ⟨e1, e2, -⟩⟩ := R.dispatch_ends hf hS hq
      · exact go m hm ⟨m, le_rfl, e⟩
      · exact wait m hm ⟨e1, e2⟩

end EqualRun

end

end Sys2Proof.Machine
end

