-- ==== Sys2Proof/Laws/Signals.lean ====
section
/-! SUPPORT. What the strobes of a step say of the state it leaves: PINLOG grows by the pin strobes (R31, R133). -/

namespace Sys2Proof.Machine

/-- The pin accesses a list of strobes makes, in order. -/
abbrev pinWrites (ps : List Strobe) : List PinWrite := ps.filterMap Strobe.pinWrite

@[simp] theorem pulsesAfter_next (s : State) (k : State → List Strobe) : pulsesAfter (.next s) k = k s := rfl
@[simp] theorem pulsesAfter_fault (r : Fault) (k : State → List Strobe) : pulsesAfter (.fault r) k = [] := rfl
@[simp] theorem pulsesAfter_refused (r : Refusal) (k : State → List Strobe) : pulsesAfter (.refused r) k = [] := rfl

/-- Where a row has a next state its strobes are those of its accesses. -/
theorem strobes_next {i : Instr} {s t : State} (h : exec i s = .next t) : strobes i s = pulses i s := by
  simp [strobes, h]

@[simp] theorem pinWrites_readRdr (l : Link) (s : State) : pinWrites (pulseReadRdr l s) = [] := by
  unfold pulseReadRdr
  split
  · cases l <;> rfl
  · rfl

@[simp] theorem pinWrites_clearOre (l : Link) : pinWrites (pulseClearOre l) = [] := by cases l <;> rfl

/-- No ingest micro-op strobes the pin. -/
@[simp] theorem pinWrites_pulseG (s : State) : pinWrites (pulseG s) = [] := by
  unfold pulseG
  split
  · exact pinWrites_readRdr .g s
  · exact pinWrites_clearOre .g
  · rfl

/-- No ingest micro-op writes PINLOG (R46). -/
theorem ruleG_pinlog (s : State) : (ruleG s).pinlog = s.pinlog := by
  unfold ruleG
  split
  · rfl
  · cases h : s.rdrG <;> simp [ruleIg2, readRdrOf, h]
  · simp only [ruleIg3]; split <;> rfl
  · cases h : s.g.t <;> cases h' : s.g.v <;> simp [ruleIg4, h, h', writeSlot]
    split <;> rfl
  · cases h : s.g.t <;> simp [ruleIg5, h]
  · rfl
  · simp only [ruleIg7]; split <;> rfl
  · rfl
  · rfl

/-- A dispatch micro-op appends to PINLOG its pin strobe, DP10's and DP11's alone (R46, R138, R139). -/
theorem ruleD_pinlog (s : State) : (ruleD s).pinlog = s.pinlog ++ pinWrites (pulseD s) := by
  have h0 : ∀ c, s.seqD.toNat = c → pulseD s =
    (match c with
      | 5 => if s.txe2 && s.d.v.isWritten then [.l2TdrWr] else []
      | 9 => pulseReadRdr .l2 s
      | 10 => [.pinReset]
      | 11 => [.pinSet]
      | 13 => pulseClearOre .l2
      | _ => []) := fun c h => by subst h; rfl
  unfold ruleD
  split <;> rename_i hc
  case h_14 =>
    have : pulseD s = [] := by
      unfold pulseD
      split <;> simp_all
    simp [this]
  all_goals rw [h0 _ hc]
  · simp [ruleDp1]
  · simp only [ruleDp2]; split <;> simp
  · cases h : s.d.h <;> simp [ruleDp3, h, readSlot]
    split
    · cases h' : s.buf.read (slotIndex s.cfg _) <;> simp
    · simp
  · cases h : s.d.h <;> simp [ruleDp4, h]
  · cases h : s.txe2 <;> cases h' : s.d.v <;> simp [ruleDp5, h, h', writeTdrReg, Strobe.pinWrite]
  · simp [ruleDp6]
  · simp [ruleDp7]
  · simp [ruleDp8]
  · cases h : s.rdr2 <;> simp [ruleDp9, readRdrOf, h, pulseReadRdr, Strobe.pinWrite]
  · simp [ruleDp10, Strobe.pinWrite]
  · simp [ruleDp11, Strobe.pinWrite]
  · simp only [ruleDp12]; split <;> simp
  · simp [ruleDp13, pulseClearOre, Strobe.pinWrite]

/-- The strobes of a repeated step, when one step appends to PINLOG its own pin strobes, are what the whole appends. -/
theorem repeatUntil_pinlog {stop : State → Bool} {step : State → Out} {pulse : State → List Strobe}
    (hstep : ∀ s t, step s = .next t → t.pinlog = s.pinlog ++ pinWrites (pulse s)) (n : Nat) {s t : State}
    (h : repeatUntil stop step n s = .next t) :
    t.pinlog = s.pinlog ++ pinWrites (pulsesUntil stop step pulse n s) := by
  induction n generalizing s with
  | zero => cases h; simp [pulsesUntil]
  | succ n ih =>
    simp only [repeatUntil, pulsesUntil] at h ⊢
    split at h
    · cases h; simp [*]
    · next hs =>
      cases hx : step s with
      | next u =>
        rw [hx] at h
        rw [ih h, hstep _ _ hx]
        simp [hs]
      | fault r => rw [hx] at h; cases h
      | refused r => rw [hx] at h; cases h

end Sys2Proof.Machine
end

