-- ==== Sys2Proof/Tests/Slice0.lean ====
section
/-! SUPPORT. Tests: decoding, well-formedness, one step of each row, and for each statement a state that meets its premises. Expected
values are those of spec/95_test_vectors.md (the vector is named) or are worked out by hand from the rule named. -/

open Sys2Proof Sys2Proof.Machine

namespace Sys2Proof.Tests

/-! ### Decoding (95_test_vectors.md section 2.8; R69, R72) -/

theorem test_decode_gps_rx : decodeStimulus Config.default 0x1047#16 = .ok (.gpsRx 0x047#9) := rfl
theorem test_decode_host_rx : decodeStimulus Config.default 0x20FF#16 = .ok (.hostRx 0x0FF#9) := rfl
theorem test_decode_tx_done : decodeStimulus Config.default 0x3000#16 = .ok .txDone := rfl
theorem test_decode_run_g : decodeStimulus Config.default 0x4000#16 = .ok .runG := rfl
theorem test_decode_run_d : decodeStimulus Config.default 0x5000#16 = .ok .runD := rfl
theorem test_decode_enter_g : decodeStimulus Config.default 0x6000#16 = .ok .enterG := rfl
theorem test_decode_enter_d : decodeStimulus Config.default 0x7000#16 = .ok .enterD := rfl
theorem test_decode_mstep_g : decodeStimulus Config.default 0x8000#16 = .ok .mstepG := rfl
theorem test_decode_mstep_d : decodeStimulus Config.default 0x9000#16 = .ok .mstepD := rfl
theorem test_decode_q_push : decodeStimulus Config.default 0xA1FF#16 = .ok (.qPush 0x1FF#9) := rfl
theorem test_decode_q_pop : decodeStimulus Config.default 0xB000#16 = .ok .qPop := rfl
theorem test_decode_reset : decodeStimulus Config.default 0xF000#16 = .ok .reset := rfl

/-- VE2, VE4, VE6, VE7, VE9 to VE12, VE16. -/
theorem test_decode_refusals :
    decodeStimulus Config.default 0x1147#16 = .error .frameRange ∧
    decodeStimulus Config.default 0x1247#16 = .error .reservedBits ∧
    decodeStimulus Config.default 0x2100#16 = .error .frameRange ∧
    decodeStimulus Config.default 0x2200#16 = .error .reservedBits ∧
    decodeStimulus Config.default 0x3001#16 = .error .nonzeroOperand ∧
    decodeStimulus Config.default 0x0000#16 = .error .reservedOp ∧
    decodeStimulus Config.default 0xC000#16 = .error .reservedOp ∧
    decodeStimulus Config.default 0xD000#16 = .error .reservedOp ∧
    decodeStimulus Config.default 0xE000#16 = .error .reservedOp ∧
    decodeStimulus Config.default 0xEE00#16 = .error .reservedBits ∧
    decodeStimulus Config.default 0xF001#16 = .error .nonzeroOperand := by
  refine ⟨rfl, rfl, rfl, rfl, rfl, rfl, rfl, rfl, rfl, rfl, rfl⟩

/-- VE3: the frame range follows FRAME_W. -/
theorem test_decode_wide_frame :
    decodeStimulus { Config.default with frameW := .w9 } 0x1147#16 = .ok (.gpsRx 0x147#9) := rfl

/-- R72's ingest codes. -/
theorem test_decode_seq_g :
    decodeSeqG 0x0#4 = .idleG ∧ decodeSeqG 0x1#4 = .ig1 ∧ decodeSeqG 0x2#4 = .ig2 ∧ decodeSeqG 0x3#4 = .ig3 ∧
    decodeSeqG 0x4#4 = .ig4 ∧ decodeSeqG 0x5#4 = .ig5 ∧ decodeSeqG 0x6#4 = .ig6 ∧ decodeSeqG 0x7#4 = .ig7 ∧
    decodeSeqG 0x8#4 = .ig8 ∧ decodeSeqG 0x9#4 = .unusedG 0x9#4 ∧ decodeSeqG 0xF#4 = .unusedG 0xF#4 := by decide

/-- R72's dispatch codes. -/
theorem test_decode_seq_d :
    decodeSeqD 0x0#4 = .idleD ∧ decodeSeqD 0x1#4 = .dp1 ∧ decodeSeqD 0x2#4 = .dp2 ∧ decodeSeqD 0x3#4 = .dp3 ∧
    decodeSeqD 0x4#4 = .dp4 ∧ decodeSeqD 0x5#4 = .dp5 ∧ decodeSeqD 0x6#4 = .dp6 ∧ decodeSeqD 0x7#4 = .dp7 ∧
    decodeSeqD 0x8#4 = .dp8 ∧ decodeSeqD 0x9#4 = .dp9 ∧ decodeSeqD 0xA#4 = .dp10 ∧ decodeSeqD 0xB#4 = .dp11 ∧
    decodeSeqD 0xC#4 = .dp12 ∧ decodeSeqD 0xD#4 = .dp13 ∧ decodeSeqD 0xE#4 = .unusedD 0xE#4 ∧
    decodeSeqD 0xF#4 = .unusedD 0xF#4 := by decide

/-- The data classes: R66, R67, and VE's closing note on 0x130 and 0x131. -/
theorem test_decode_classes :
    decodeIngest 0x000#9 = .ingNull ∧ decodeIngest 0x100#9 = .ingData 0x100#9 ∧
    decodeCommand 0x030#9 = .cmdPinOff ∧ decodeCommand 0x031#9 = .cmdPinOn ∧
    decodeCommand 0x130#9 = .cmdOther 0x130#9 ∧ decodeCommand 0x131#9 = .cmdOther 0x131#9 ∧
    decodeCommand 0x000#9 = .cmdOther 0x000#9 := by decide

theorem test_decode_table_word :
    decodeTableWord 16 0x1047 = some (.gpsRx 0x047#9) ∧ decodeTableWord 16 0xE000 = none ∧
    decodeTableWord 8 0x2 = some .ig2 ∧ decodeTableWord 8 0xA = some .dp10 ∧
    decodeTableWord 8 0x0 = some .idleG := by decide

/-! ### The trace syntax (R75, R76) -/

/-- A hex, a decimal and a character operand name the same frame, and a comment ends a line. -/
theorem test_line_operands :
    readLine "GPS_RX 0x47".toList = .instr (.gpsRx 0x047#9) ∧
    readLine "GPS_RX 71".toList = .instr (.gpsRx 0x047#9) ∧
    readLine "GPS_RX 'G' ; one frame".toList = .instr (.gpsRx 0x047#9) ∧
    readLine "; nothing".toList = .blank ∧
    readLine "GPS_RX".toList = .malformed := by decide
/-- R75: an operand in quotes is an ASCII character; outside ASCII the model reads none (log entry 24). -/
theorem test_line_not_ascii :
    readLine ['G', 'P', 'S', '_', 'R', 'X', ' ', quoteChar, Char.ofNat 0xE9, quoteChar] = .malformed ∧
    readLine ['F', 'E', 'E', 'D', 'S', ' ', stringQuote, Char.ofNat 0x247, stringQuote] = .malformed := by decide

/-- P5's and P6's repeated words; a word with an operand takes no count, and a quote inside a string is no string. -/
theorem test_line_repeated :
    readLine "MSTEP_G x7  ; IG1-IG7".toList = .repeated 7 .mstepG ∧
    readLine "MSTEP_D x10".toList = .repeated 10 .mstepD ∧
    assembleTrace ["ENTER_D".toList, "MSTEP_D x2".toList] = some [0x7000#16, 0x9000#16, 0x9000#16] ∧
    readLine "GPS_RX x7".toList = .malformed ∧ readLine "FEEDS \"G\"P\"".toList = .malformed := by decide
theorem test_line_feeds : readLine "FEEDS \"GP\"".toList = .instr (.feeds [0x047#9, 0x050#9]) := by decide

/-- E6's lines and their words. -/
theorem test_assemble :
    assemble (.feed 0x047#9) = some [0x1047#16, 0x4000#16] ∧ assemble (.cmd 0x032#9) = some [0x2032#16, 0x5000#16] ∧
    assemble .runD = some [0x5000#16] ∧ assemble .stepallG = none := by decide

/-! ### Well-formedness: each check and a term it refuses -/

theorem test_wf_frame : (Instr.gpsRx 0x0FF#9).wf Config.default = true ∧
    (Instr.gpsRx 0x100#9).wf Config.default = false ∧ (Instr.hostRx 0x100#9).wf Config.default = false ∧
    (Instr.feed 0x1FF#9).wf Config.default = false ∧ (Instr.cmd 0x130#9).wf Config.default = false ∧
    (Instr.feeds [0x041#9, 0x141#9]).wf Config.default = false := by decide
theorem test_wf_frame_wide : (Instr.gpsRx 0x100#9).wf { Config.default with frameW := .w9 } = true := by decide
theorem test_wf_ing_data : (Instr.ingData 0x000#9).wf Config.default = false := by decide
theorem test_wf_cmd_other : (Instr.cmdOther 0x030#9).wf Config.default = false ∧
    (Instr.cmdOther 0x031#9).wf Config.default = false ∧ (Instr.cmdOther 0x131#9).wf Config.default = true := by decide
theorem test_wf_unused : (Instr.unusedG 0x8#4).wf Config.default = false ∧
    (Instr.unusedG 0x9#4).wf Config.default = true ∧ (Instr.unusedD 0xD#4).wf Config.default = false ∧
    (Instr.unusedD 0xE#4).wf Config.default = true := by decide
theorem test_wf_reserved : (Instr.reservedOp0 0#3 0#9).wf Config.default = false ∧
    (Instr.reservedOpC 0#3 0#9).wf Config.default = false ∧ (Instr.reservedOpD 0#3 0#9).wf Config.default = false ∧
    (Instr.reservedOpE 0#3 0#9).wf Config.default = false ∧
    (Instr.reservedBits 1#4 1#3 0#9).wf Config.default = false := by decide

/-! ### Small states -/

/-- Capacity 4, the rest default. -/
def cfg4 : Config := { Config.default with cap := 4 }

/-- The start state with capacity 4. -/
def base : State := State.start cfg4

/-- What `f` reads in the next state. -/
def got {α : Type} (o : Out) (f : State → α) : Option α :=
  match o with
  | .next s => some (f s)
  | .fault _ => none
  | .refused _ => none

/-- Why a step is stuck. -/
def stuckFor (o : Out) : Option Fault :=
  match o with
  | .next _ => none
  | .fault r => some r
  | .refused _ => none

/-- Why a word is refused. -/
def refusedFor (o : Out) : Option Refusal :=
  match o with
  | .next _ => none
  | .fault _ => none
  | .refused r => some r

/-! ### Links, pin and primitives (95_test_vectors.md sections 2.4, 2.5) -/

/-- VL1. -/
theorem test_gps_rx : got (exec (.gpsRx 0x047#9) base) (fun s => (s.rdrG, s.rxneG, s.oreG, s.pendG)) =
    some (.holds 0x047#9, true, false, true) := by decide
/-- VL2 and VL3. -/
theorem test_gps_rx_overrun :
    got (exec (.gpsRx 0x050#9) { base with rxneG := true, rdrG := .holds 0x047#9 }) (fun s => (s.rdrG, s.oreG)) =
      some (.holds 0x047#9, true) ∧
    got (exec (.gpsRx 0x050#9)
        { base with cfg := { cfg4 with ovr := .keepNew }, rxneG := true, rdrG := .holds 0x047#9 })
      (fun s => (s.rdrG, s.oreG)) = some (.holds 0x050#9, true) := by decide
/-- VL6. -/
theorem test_host_rx : got (exec (.hostRx 0x031#9) base) (fun s => (s.rdr2, s.rxne2, s.pendD, s.pendG)) =
    some (.holds 0x031#9, true, true, false) := by decide
theorem test_host_rx_frame_range : refusedFor (exec (.hostRx 0x100#9) base) = some .frameRange := by decide
/-- VL9 and VL10. -/
theorem test_tx_done :
    got (exec .txDone { base with tdr2 := .holds 0x147#9, txe2 := false }) (fun s => (s.out, s.txe2)) =
      some ([0x047#9], true) ∧
    got (exec .txDone { base with cfg := { cfg4 with frameW := .w9 }, tdr2 := .holds 0x147#9, txe2 := false })
      (fun s => (s.out, s.txe2)) = some ([0x147#9], true) := by decide
/-- VL7. -/
theorem test_tx_done_stuck : stuckFor (exec .txDone base) = some .transmitterEmpty := by decide
/-- VA7: the line rises. -/
theorem test_tx_done_pends :
    got (exec .txDone { base with txeie := true, tdr2 := .holds 0x047#9, txe2 := false }) (fun s => s.pendD) =
      some true := by decide
/-- VL11. -/
theorem test_read_rdr : got (exec (.readRdr .g) { base with rdrG := .holds 0x024#9, rxneG := true })
    (fun s => (s.rdrG, s.rxneG, s.fault)) = some (.holds 0x024#9, false, none) := by decide
/-- VL12. -/
theorem test_read_rdr_unwritten : got (exec (.readRdr .l2) { base with rxne2 := true })
    (fun s => (s.rxne2, s.fault)) = some (true, some ⟨.unwritten, .readRdr⟩) := by decide
/-- R136's example. -/
theorem test_write_tdr : got (exec (.writeTdr 0x047#9) base) (fun s => (s.tdr2, s.txe2)) =
    some (.holds 0x047#9, false) := by decide
/-- R137: RXNE and RDR stay. -/
theorem test_clear_ore : got (exec (.clearOre .l2) { base with ore2 := true, rxne2 := true, oreG := true })
    (fun s => (s.ore2, s.rxne2, s.oreG)) = some (false, true, true) := by decide
/-- VL13. -/
theorem test_pin_set : got (exec .pinSet base) (fun s => (s.pin, s.pinlog)) = some (.on, [.set]) := by decide
/-- VD21's strobe: already OFF. -/
theorem test_pin_reset : got (exec .pinReset base) (fun s => (s.pin, s.pinlog)) = some (.off, [.reset]) := by decide
/-- VA1 to VA4. -/
theorem test_txeie_primitives :
    got (exec .setTxeie base) (fun s => s.txeie) = some true ∧
    got (exec .setTxeie { base with txeie := true }) (fun s => s.txeie) = some true ∧
    got (exec .clearTxeie { base with txeie := true }) (fun s => s.txeie) = some false ∧
    got (exec .clearTxeie base) (fun s => s.txeie) = some false := by decide
/-- VA5 and VA6. -/
theorem test_irq2 : irq2 base = false ∧ irq2 { base with txeie := true, txe2 := false } = false ∧
    irq2 { base with txeie := true } = true := by decide

/-! ### The queue (95_test_vectors.md section 2.1) -/

/-- VQ4: the tail wraps. -/
theorem test_push : got (exec (.push 0x050#9) { base with head := 6, tail := 7 })
    (fun s => (s.buf.read 3, s.tail, len s)) = some (.holds 0x050#9, 0, 2) := by decide
/-- VQ3 and VQ7. -/
theorem test_push_full_and_range :
    got (exec (.push 0x045#9) { base with head := 5, tail := 1 }) (fun s => (s.tail, s.buf)) = some (1, []) ∧
    got (exec (.push 0x045#9) { base with tail := 5 }) (fun s => s.fault) = some (some ⟨.lenRange, .push⟩) := by
  decide
/-- VQ5: the head wraps. -/
theorem test_pop : got (exec .pop { base with head := 7, tail := 0, buf := [(3, 0x050#9)] })
    (fun s => (s.head, len s, s.fault)) = some (0, 0, none) := by decide
/-- VQ6 and VQ7. -/
theorem test_pop_empty_and_range :
    got (exec .pop { base with head := 2, tail := 2 }) (fun s => (s.head, s.fault)) = some (2, none) ∧
    got (exec .pop { base with tail := 5 }) (fun s => s.fault) = some (some ⟨.lenRange, .pop⟩) := by decide
/-- VQ12 and VQ13. -/
theorem test_q_push :
    got (exec (.qPush 0x000#9) base) (fun s => (s.res, contents s)) = some (.ok, [.holds 0x000#9]) ∧
    got (exec (.qPush 0x147#9) base) (fun s => (s.res, contents s)) = some (.ok, [.holds 0x147#9]) := by decide
/-- VQ14. -/
theorem test_q_push_stuck : stuckFor (exec (.qPush 0x041#9) { base with seqG := Seq.ig3 }) = some .harnessBusy := by
  decide
/-- VQ11 and VQ15. -/
theorem test_q_pop :
    got (exec .qPop { State.reset with head := 127, buf := [(63, 0x041#9)] }) (fun s => (s.res, s.head)) =
      some (.value 0x041#9, 0) ∧
    got (exec .qPop base) (fun s => s.res) = some .empty := by decide

/-! ### The ingest engine (95_test_vectors.md section 2.2) -/

/-- VI1 and VI2. -/
theorem test_ig1 :
    got (exec .ig1 { base with seqG := Seq.ig1, rxneG := true }) (fun s => (s.g.rx, s.seqG)) =
      some (.holds true, Seq.ig2) ∧
    got (exec .ig1 { base with seqG := Seq.ig1 }) (fun s => (s.g.rx, s.seqG)) = some (.holds false, Seq.ig7) := by
  decide
/-- VI3 and VI4. -/
theorem test_ig2 :
    got (exec .ig2 { base with seqG := Seq.ig2, rxneG := true, rdrG := .holds 0x047#9 })
      (fun s => (s.g.v, s.rxneG, s.seqG)) = some (.holds 0x047#9, false, Seq.ig3) ∧
    got (exec .ig2 { base with seqG := Seq.ig2, rxneG := true, rdrG := .holds 0x000#9 })
      (fun s => (s.g.v, s.rxneG, s.seqG)) = some (.holds 0x000#9, false, Seq.ig7) := by decide
/-- VI5. -/
theorem test_ig2_wide : got (exec .ig2 { base with seqG := Seq.ig2, rxneG := true, rdrG := .holds 0x100#9 })
    (fun s => s.seqG) = some Seq.ig3 := by decide
/-- VI6 and VI7. -/
theorem test_ig3 :
    got (exec .ig3 { base with seqG := Seq.ig3, head := 5, tail := 1 }) (fun s => s.seqG) = some Seq.ig7 ∧
    got (exec .ig3 { base with seqG := Seq.ig3, head := 2, tail := 3 }) (fun s => (s.seqG, s.g.h, s.g.t)) =
      some (Seq.ig4, .holds 2, .holds 3) := by decide
/-- VI8. -/
theorem test_ig3_range : got (exec .ig3 { base with seqG := Seq.ig3, tail := 5 }) (fun s => s.fault) =
    some (some ⟨.lenRange, .ig3⟩) := by decide
/-- VI9. -/
theorem test_ig4 :
    got (exec .ig4 { base with seqG := Seq.ig4, g := { GRegs.unwritten with t := .holds 6, v := .holds 0x050#9 } })
      (fun s => (s.buf, s.seqG)) = some ([(2, 0x050#9)], Seq.ig5) := by decide
/-- VI18. -/
theorem test_ig4_unwritten : got (exec .ig4 { base with seqG := Seq.ig4 }) (fun s => s.fault) =
    some (some ⟨.unwritten, .ig4⟩) := by decide
/-- VI10. -/
theorem test_ig5 : got (exec .ig5 { base with seqG := Seq.ig5, g := { GRegs.unwritten with t := .holds 7 } })
    (fun s => (s.tail, s.seqG)) = some (0, Seq.ig6) := by decide
/-- VI11 and VI13. -/
theorem test_ig6 :
    got (exec .ig6 { base with seqG := Seq.ig6 }) (fun s => (s.txeie, s.pendD, s.seqG)) =
      some (true, true, Seq.ig7) ∧
    got (exec .ig6 { base with seqG := Seq.ig6, txe2 := false }) (fun s => (s.txeie, irq2 s)) =
      some (true, false) := by decide
/-- VI14 and VI15. -/
theorem test_ig7 :
    got (exec .ig7 { base with seqG := Seq.ig7, oreG := true }) (fun s => s.seqG) = some Seq.ig8 ∧
    got (exec .ig7 { base with seqG := Seq.ig7 }) (fun s => s.seqG) = some Seq.idle := by decide
/-- VI16; the line is still asserted at IDLE, so R148 pends again. -/
theorem test_ig8 :
    got (exec .ig8 { base with seqG := Seq.ig8, oreG := true, rxneG := true, rdrG := .holds 0x050#9 })
      (fun s => (s.oreG, s.rxneG, s.rdrG, s.seqG, s.pendG)) =
      some (false, true, .holds 0x050#9, Seq.idle, true) := by decide
/-- VI17, by the word and by the row. -/
theorem test_unused_g :
    got (exec .mstepG { base with seqG := 9#4 }) (fun s => s.fault) = some (some ⟨.seqCode, .mstepG⟩) ∧
    got (exec (.unusedG 9#4) { base with seqG := 9#4 }) (fun s => s.fault) =
      some (some ⟨.seqCode, .mstepG⟩) := by decide
/-- VI19. -/
theorem test_run_g :
    got (exec .runG { base with pendG := true, rxneG := true, rdrG := .holds 0x047#9 })
      (fun s => (contents s, s.txeie, s.rxneG, s.pendD, s.seqG)) =
      some ([.holds 0x047#9], true, false, true, Seq.idle) := by decide
/-- VI24: the longest path. -/
theorem test_stepall_g :
    got (exec .stepallG { base with pendG := true, rxneG := true, rdrG := .holds 0x041#9, oreG := true })
      (fun s => (contents s, s.txeie, s.oreG, s.pendG, s.seqG)) =
      some ([.holds 0x041#9], true, false, false, Seq.idle) := by decide
/-- E2's null and R66's data. -/
theorem test_ing_classes :
    got (exec .ingNull { base with seqG := Seq.ig2, rxneG := true, rdrG := .holds 0x000#9 })
      (fun s => (s.rxneG, s.seqG)) = some (false, Seq.ig7) ∧
    got (exec (.ingData 0x041#9) { base with seqG := Seq.ig2, rxneG := true, rdrG := .holds 0x041#9 })
      (fun s => (contents s, s.seqG, s.txeie)) = some ([.holds 0x041#9], Seq.ig6, false) := by decide

/-! ### The dispatch engine (95_test_vectors.md section 2.3) -/

/-- VD1 and VD2. -/
theorem test_dp1 :
    got (exec .dp1 { base with seqD := Seq.dp1 }) (fun s => (s.d.te, s.seqD)) = some (.holds true, Seq.dp2) ∧
    got (exec .dp1 { base with seqD := Seq.dp1, txe2 := false }) (fun s => s.seqD) = some Seq.dp8 := by decide
/-- VD3 and VD4. -/
theorem test_dp2 :
    got (exec .dp2 { base with seqD := Seq.dp2, head := 5, tail := 5 }) (fun s => s.seqD) = some Seq.dp7 ∧
    got (exec .dp2 { base with seqD := Seq.dp2, head := 7, tail := 1 }) (fun s => (s.seqD, s.d.h, s.d.t)) =
      some (Seq.dp3, .holds 7, .holds 1) := by decide
/-- VD5. -/
theorem test_dp2_range : got (exec .dp2 { base with seqD := Seq.dp2, tail := 6 }) (fun s => s.fault) =
    some (some ⟨.lenRange, .dp2⟩) := by decide
/-- VD6. -/
theorem test_dp3 :
    got (exec .dp3
        { base with seqD := Seq.dp3, d := { DRegs.unwritten with h := .holds 7 }, buf := [(3, 0x021#9)] })
      (fun s => (s.d.v, s.seqD)) = some (.holds 0x021#9, Seq.dp4) := by decide
/-- VD7. -/
theorem test_dp4 : got (exec .dp4 { base with seqD := Seq.dp4, d := { DRegs.unwritten with h := .holds 7 } })
    (fun s => (s.head, s.seqD)) = some (0, Seq.dp5) := by decide
/-- VD8 and VD9. -/
theorem test_dp5 :
    got (exec .dp5 { base with seqD := Seq.dp5, d := { DRegs.unwritten with v := .holds 0x047#9 } })
      (fun s => (s.tdr2, s.txe2, s.seqD)) = some (.holds 0x047#9, false, Seq.dp6) ∧
    got (exec .dp5 { base with seqD := Seq.dp5, txe2 := false }) (fun s => s.fault) =
      some (some ⟨.tdrOverwrite, .dp5⟩) := by decide
/-- VD10 and VD11. -/
theorem test_dp6 :
    got (exec .dp6 { base with seqD := Seq.dp6, head := 6, tail := 6 }) (fun s => s.seqD) = some Seq.dp7 ∧
    got (exec .dp6 { base with seqD := Seq.dp6, head := 6, tail := 7, txeie := true })
      (fun s => (s.seqD, s.txeie)) = some (Seq.dp8, true) := by decide
/-- VD12 and VD13. -/
theorem test_dp7 :
    got (exec .dp7 { base with seqD := Seq.dp7, txeie := true }) (fun s => (s.txeie, s.seqD)) =
      some (false, Seq.dp8) ∧
    got (exec .dp7 { base with seqD := Seq.dp7 }) (fun s => (s.txeie, s.seqD)) = some (false, Seq.dp8) := by decide
/-- VD14 and VD15. -/
theorem test_dp8 :
    got (exec .dp8 { base with seqD := Seq.dp8, rxne2 := true }) (fun s => s.seqD) = some Seq.dp9 ∧
    got (exec .dp8 { base with seqD := Seq.dp8 }) (fun s => s.seqD) = some Seq.dp12 := by decide
/-- VD16 and VD17. -/
theorem test_dp9 :
    got (exec .dp9 { base with seqD := Seq.dp9, rxne2 := true, rdr2 := .holds 0x030#9 })
      (fun s => (s.d.c, s.rxne2, s.seqD)) = some (.holds 0x030#9, false, Seq.dp10) ∧
    got (exec .dp9 { base with seqD := Seq.dp9, rxne2 := true, rdr2 := .holds 0x031#9 }) (fun s => s.seqD) =
      some Seq.dp11 := by decide
/-- VD18 and VD19. -/
theorem test_dp9_other :
    got (exec .dp9 { base with seqD := Seq.dp9, rxne2 := true, rdr2 := .holds 0x032#9 }) (fun s => s.seqD) =
      some Seq.dp12 ∧
    got (exec .dp9 { base with seqD := Seq.dp9, rxne2 := true, rdr2 := .holds 0x130#9 }) (fun s => s.seqD) =
      some Seq.dp12 := by decide
/-- VD20. -/
theorem test_dp10 : got (exec .dp10 { base with seqD := Seq.dp10, pin := .on })
    (fun s => (s.pin, s.pinlog, s.seqD)) = some (.off, [.reset], Seq.dp12) := by decide
/-- VD22. -/
theorem test_dp11 : got (exec .dp11 { base with seqD := Seq.dp11 }) (fun s => (s.pin, s.pinlog, s.seqD)) =
    some (.on, [.set], Seq.dp12) := by decide
/-- VD23. -/
theorem test_dp12 : got (exec .dp12 { base with seqD := Seq.dp12, ore2 := true }) (fun s => (s.d.o, s.seqD)) =
    some (.holds true, Seq.dp13) := by decide
/-- VD24. -/
theorem test_dp13 : got (exec .dp13 { base with seqD := Seq.dp13, ore2 := true, rxne2 := true })
    (fun s => (s.ore2, s.rxne2, s.seqD)) = some (false, true, Seq.idle) := by decide
/-- VD25, by the word and by the row. -/
theorem test_unused_d :
    got (exec .mstepD { base with seqD := 14#4 }) (fun s => s.fault) = some (some ⟨.seqCode, .mstepD⟩) ∧
    got (exec (.unusedD 14#4) { base with seqD := 14#4 }) (fun s => s.fault) =
      some (some ⟨.seqCode, .mstepD⟩) := by decide
/-- VD27. -/
theorem test_run_d :
    got (exec .runD
        { base with pendD := true, txeie := true, tail := 2, buf := [(0, 0x047#9), (1, 0x050#9)] })
      (fun s => (s.tdr2, s.txe2, contents s, s.txeie)) =
      some (.holds 0x047#9, false, [.holds 0x050#9], true) := by decide
/-- VD30: the longest path. -/
theorem test_stepall_d :
    got (exec .stepallD
        { base with
          pendD := true, txeie := true, tail := 1, buf := [(0, 0x021#9)], rxne2 := true, ore2 := true
          rdr2 := .holds 0x031#9 })
      (fun s => (s.tdr2, contents s, s.txeie, s.pin, s.pinlog, s.ore2, s.rxne2, s.seqD)) =
      some (.holds 0x021#9, [], false, .on, [.set], false, false, Seq.idle) := rfl
/-- R67 and E5, E6. -/
theorem test_cmd_classes :
    got (exec .cmdPinOff { base with seqD := Seq.dp9, rxne2 := true, rdr2 := .holds 0x030#9, pin := .on })
      (fun s => (s.pin, s.pinlog, s.rxne2, s.seqD)) = some (.off, [.reset], false, Seq.dp12) ∧
    got (exec .cmdPinOn { base with seqD := Seq.dp9, rxne2 := true, rdr2 := .holds 0x031#9 })
      (fun s => (s.pin, s.pinlog, s.seqD)) = some (.on, [.set], Seq.dp12) ∧
    got (exec (.cmdOther 0x032#9) { base with seqD := Seq.dp9, rxne2 := true, rdr2 := .holds 0x032#9 })
      (fun s => (s.pin, s.pinlog, s.rxne2, s.seqD)) = some (.off, [], false, Seq.dp12) := by decide

/-! ### Scheduling and reset (95_test_vectors.md sections 2.6, 2.7) -/

/-- VS2: the locals become unwritten and only this latch is cleared. -/
theorem test_enter_g :
    got (exec .enterG { base with pendG := true, pendD := true, g := { GRegs.unwritten with t := .holds 3 } })
      (fun s => (s.pendG, s.pendD, s.g, s.seqG)) = some (false, true, GRegs.unwritten, Seq.ig1) := by decide
/-- VS1 and VS7. -/
theorem test_enter_g_stuck :
    stuckFor (exec .enterG base) = some .notPending ∧
    stuckFor (exec .enterG { base with pendG := true, seqG := Seq.ig4 }) = some .engineActive := by decide
/-- VS6 and VS3. -/
theorem test_enter_d :
    got (exec .enterD { base with cfg := { cfg4 with prio := .dOverG }, seqG := Seq.ig6, pendD := true })
      (fun s => (s.pendD, s.seqD, s.seqG)) = some (false, Seq.dp1, Seq.ig6) ∧
    stuckFor (exec .enterD { base with seqG := Seq.ig3, pendD := true }) = some .priorityBlocked := by decide
/-- R151's example, and VS6. -/
theorem test_mstep_g :
    got (exec .mstepG { base with seqG := Seq.ig1, rxneG := true }) (fun s => s.seqG) = some Seq.ig2 ∧
    stuckFor (exec .mstepG
      { base with cfg := { cfg4 with prio := .dOverG }, seqG := Seq.ig6, seqD := Seq.dp1 }) =
      some .preempted := by decide
/-- R152's example, and VS4. -/
theorem test_mstep_d :
    got (exec .mstepD { base with seqD := Seq.dp1, txe2 := false }) (fun s => s.seqD) = some Seq.dp8 ∧
    stuckFor (exec .mstepD
      { base with cfg := { cfg4 with prio := .gOverD }, seqD := Seq.dp7, seqG := Seq.ig1 }) =
      some .preempted := by decide
/-- VS1: an idle engine takes no micro-op. -/
theorem test_idle_rows : stuckFor (exec .idleG base) = some .engineIdle ∧
    stuckFor (exec .idleD base) = some .engineIdle ∧ stuckFor (exec .mstepG base) = some .engineIdle := by decide
/-- VR1. -/
theorem test_reset :
    got (exec .reset
        { base with
          tail := 1, buf := [(0, 0x047#9)], txeie := true, pin := .on, out := [0x041#9], pinlog := [.set] })
      (fun s => (contents s, s.tail, s.txeie, s.pin, s.out, s.pinlog)) =
      some ([], 0, false, .off, [0x041#9], [.set]) := rfl
/-- VR5. -/
theorem test_reset_stuck : stuckFor (exec .reset { base with fault := some ⟨.lenRange, .ig3⟩ }) =
    some .faultRecorded := by decide
/-- VE10 to VE12. -/
theorem test_reserved_rows :
    refusedFor (exec (.reservedOp0 0#3 0#9) base) = some .reservedOp ∧
    refusedFor (exec (.reservedOpC 0#3 0#9) base) = some .reservedOp ∧
    refusedFor (exec (.reservedOpD 0#3 0#9) base) = some .reservedOp ∧
    refusedFor (exec (.reservedOpE 7#3 0#9) base) = some .reservedBits ∧
    refusedFor (exec (.reservedBits 1#4 1#3 0x047#9) base) = some .reservedBits := by decide

/-! ### Signals (44_links.md R133) -/

/-- R133, column "used at": DP5 strobes the write, by the word too; one that faults raises before the write. -/
theorem test_strobe_dp5 :
    strobes .mstepD { base with seqD := Seq.dp5, d := { DRegs.unwritten with v := .holds 0x047#9 } } = [.l2TdrWr] ∧
    strobes .dp5 { base with seqD := Seq.dp5, txe2 := false, d := { DRegs.unwritten with v := .holds 0x047#9 } } =
      [] := by decide
/-- R133 over whole activations: the accesses of CMD and FEED in the order their micro-ops make them. -/
theorem test_strobes_of_activations :
    strobes (.cmd 0x031#9) { base with ore2 := true } = [.enterD, .l2RdrRd, .pinSet, .l2OreClr] ∧
    strobes (.feed 0x047#9) { base with oreG := true } = [.enterG, .gRdrRd, .gOreClr] := by decide

/-! ### Pseudo-instructions -/

/-- E4 (a) and E2. -/
theorem test_feed :
    got (exec (.feed 0x047#9) base) (fun s => (contents s, s.txeie, s.pendD)) =
      some ([.holds 0x047#9], true, true) ∧
    got (exec (.feed 0x000#9) base) (fun s => (contents s, s.txeie, s.rdrG)) =
      some ([], false, .holds 0x000#9) := by decide
/-- P1's first lines. -/
theorem test_feeds : got (exec (.feeds [0x047#9, 0x000#9, 0x050#9]) base) contents =
    some [.holds 0x047#9, .holds 0x050#9] := by decide
/-- E5's first row. -/
theorem test_cmd : got (exec (.cmd 0x031#9) base) (fun s => (s.pin, s.pinlog)) = some (.on, [.set]) := by decide
/-- R107: with TXE_2 = 0 the transmit branch is skipped, and TX_DONE sends the frame in flight. -/
theorem test_xmit_in_flight :
    got (exec .xmit
        { base with
          pendD := true, txeie := true, tail := 1, buf := [(0, 0x021#9)], txe2 := false, tdr2 := .holds 0x041#9 })
      (fun s => (s.out, s.txe2, s.txeie, contents s)) = some ([0x041#9], true, true, [.holds 0x021#9]) := by decide
/-- P1's last XMIT, in small. -/
theorem test_xmit :
    got (exec .xmit { base with pendD := true, txeie := true, tail := 1, buf := [(0, 0x021#9)] })
      (fun s => (s.out, s.txe2, s.txeie, contents s)) = some ([0x021#9], true, false, []) := by decide
/-- One word fetched from the trace of the reset state. -/
theorem test_step : got (step (State.reset.withFetchWord 16 0x1047)) (fun s => (s.rdrG, s.trace)) =
    some (.holds 0x047#9, []) := by decide
theorem test_step_sequencer_code : got (step (State.reset.withFetchWord 8 7)) (fun s => s.seqG) =
    some Seq.idle := by decide

/-! ### Witnesses: for each statement with premises, states and operands that meet them

Clauses over one input have a witness each, at the edges of their ranges. -/

/-- Capacity 1: the smallest queue. -/
def cfg1 : Config := { Config.default with cap := 1 }

/-- Quiescent: one value queued, an unread frame 0x041, an unread command 0x031, both latches set. -/
def ready : State :=
  { base with
    buf := [(0, 0x050#9)], tail := 1, txeie := true, rxneG := true, rdrG := .holds 0x041#9, rxne2 := true
    rdr2 := .holds 0x031#9, pendG := true, pendD := true }

/-- Quiescent, with the only slot of a queue of capacity 1 taken. -/
def fullOne : State :=
  { State.start cfg1 with buf := [(0, 0x050#9)], tail := 1, txeie := true, pendD := true }

/-- Quiescent, with a frame in flight and one more value queued. -/
def inFlight : State :=
  { base with
    buf := [(0, 0x041#9), (1, 0x050#9)], head := 1, tail := 2, txeie := true, txe2 := false
    tdr2 := .holds 0x041#9 }

/-- The ingest engine at IG2, with room in the queue. -/
def atIg2 (v : Slot) : State := { base with seqG := Seq.ig2, rxneG := true, rdrG := .holds v }

/-- The ingest engine at IG2, with a full queue. -/
def atIg2Full (v : Slot) : State := { fullOne with seqG := Seq.ig2, rxneG := true, rdrG := .holds v }

/-- The ingest engine between IG4 and IG5: 0x041 written in slot 0, TAIL not yet published. -/
def atIg5 : State :=
  { base with seqG := Seq.ig5, g := { GRegs.unwritten with t := .holds 0, v := .holds 0x041#9 }, buf := [(0, 0x041#9)] }

/-- The dispatch engine between DP3 and DP4: the head value read, HEAD not yet published. -/
def atDp4 : State :=
  { base with
    seqD := Seq.dp4, txeie := true, tail := 1, buf := [(0, 0x050#9)]
    d := { DRegs.unwritten with h := .holds 0, v := .holds 0x050#9 } }

theorem safe_atIg5 : SafeInv atIg5 :=
  ⟨by constructor <;> decide, by constructor <;> decide, by constructor <;> decide, rfl⟩
theorem safe_atIg4 : SafeInv { atIg5 with seqG := Seq.ig4 } :=
  ⟨by constructor <;> decide, by constructor <;> decide, by constructor <;> decide, rfl⟩
theorem safe_atDp4 : SafeInv atDp4 :=
  ⟨by constructor <;> decide, by constructor <;> decide, by constructor <;> decide, rfl⟩
theorem safe_atDp3 : SafeInv { atDp4 with seqD := Seq.dp3 } :=
  ⟨by constructor <;> decide, by constructor <;> decide, by constructor <;> decide, rfl⟩
theorem safe_base : SafeInv base := safeInv_start cfg4 (by decide) []
theorem safe_ready : SafeInv ready :=
  ⟨by constructor <;> decide, by constructor <;> decide, by constructor <;> decide, rfl⟩
theorem safe_fullOne : SafeInv fullOne :=
  ⟨by constructor <;> decide, by constructor <;> decide, by constructor <;> decide, rfl⟩
theorem safe_inFlight : SafeInv inFlight :=
  ⟨by constructor <;> decide, by constructor <;> decide, by constructor <;> decide, rfl⟩
theorem safe_atIg2 : SafeInv (atIg2 0x041#9) :=
  ⟨by constructor <;> decide, by constructor <;> decide, by constructor <;> decide, rfl⟩
theorem safe_atIg2Full : SafeInv (atIg2Full 0x041#9) :=
  ⟨by constructor <;> decide, by constructor <;> decide, by constructor <;> decide, rfl⟩
theorem coherent_ready : Coherent ready := by constructor <;> decide
theorem coherent_inFlight : Coherent inFlight := by constructor <;> decide
theorem pend_ready : PendInv ready := by constructor <;> decide
theorem pend_inFlight : PendInv inFlight := by constructor <;> decide

theorem witness_StimulusWordsRefusedExactlyWhen :
    ({ base with trace := [0xC000#16] } : State).trace = 0xC000#16 :: [] ∧
    decodeStimulus base.cfg 0xC000#16 = .error .reservedOp := ⟨rfl, rfl⟩

theorem witness_StimulusEncodeDecodeAgree :
    (Instr.gpsRx 0x0FF#9).isStimulus = true ∧ (Instr.gpsRx 0x0FF#9).wf Config.default = true ∧
    (Instr.qPush 0x1FF#9).isStimulus = true ∧ (Instr.qPush 0x1FF#9).wf Config.default = true ∧
    decodeStimulus Config.default 0x10FF#16 = .ok (.gpsRx 0x0FF#9) := ⟨rfl, rfl, rfl, rfl, rfl⟩

theorem witness_ClassAndSequencerCodesRoundTrip :
    (Instr.ingData 0x1FF#9).wf cfg4 = true ∧ encode (.ingData 0x1FF#9) = .ingestValue 0x1FF#9 ∧
    (Instr.cmdOther 0x032#9).wf cfg4 = true ∧ encode (.cmdOther 0x032#9) = .commandValue 0x032#9 ∧
    (Instr.unusedG 0x9#4).wf cfg4 = true ∧ encode (.unusedG 0x9#4) = .seqG 0x9#4 ∧
    (Instr.dp13).wf cfg4 = true ∧ encode .dp13 = .seqD 0xD#4 := by decide

theorem witness_ReservedRowsAreRefused : (0#3 : BitVec 3) = 0#3 ∧ (1#3 : BitVec 3) ≠ 0#3 ∧
    Instr.reservedOpE 0#3 0#9 ∈
      [Instr.reservedOp0 0#3 0#9, .reservedOpC 0#3 0#9, .reservedOpD 0#3 0#9, .reservedOpE 0#3 0#9] := by decide

theorem witness_StepRunsTheNextWord :
    ({ base with trace := [0x4000#16] } : State).trace = 0x4000#16 :: [] ∧
    decodeStimulus base.cfg 0x4000#16 = .ok .runG ∧ base.trace = [] := ⟨rfl, rfl, rfl⟩

theorem witness_PseudoInstructionsAreTheirWords :
    ([0x041#9] : List Slot) ≠ [] ∧ encode (.feeds [0x041#9]) = .expansion [0x1041#16, 0x4000#16] ∧
    (∃ t, exec .stepallG { ready with trace := [] } = .next t) ∧
    ∃ t, exec .stepallD { ready with trace := [] } = .next t := ⟨by decide, rfl, ⟨_, rfl⟩, ⟨_, rfl⟩⟩

theorem witness_RequestLinesFollowTheirFlags : base.txeie = false := rfl

theorem witness_LatchesAreSetByTheirLines :
    (∃ t, exec (.gpsRx 0x041#9) base = .next t ∧ NoFault t) ∧ (∃ t, exec .txDone inFlight = .next t ∧ NoFault t) ∧
    (∃ t, exec .mstepG (atIg2 0x041#9) = .next t ∧ NoFault t) ∧ (∃ t, exec .enterG ready = .next t) ∧
    (∃ t, exec .enterD ready = .next t) ∧ ∃ t, exec .reset ready = .next t :=
  ⟨⟨_, rfl, rfl⟩, ⟨_, rfl, rfl⟩, ⟨_, rfl, rfl⟩, ⟨_, rfl⟩, ⟨_, rfl⟩, ⟨_, rfl⟩⟩

theorem witness_EnterGStartsAnIngestActivation : CanEnterG ready ∧ ¬ CanEnterG base ∧
    CanEnterG { ready with cfg := { cfg4 with prio := .gOverD }, seqD := Seq.dp7 } := by decide

theorem witness_EnterDStartsADispatchActivation : CanEnterD ready ∧ ¬ CanEnterD base ∧
    CanEnterD { ready with cfg := { cfg4 with prio := .dOverG }, seqG := Seq.ig6 } := by decide

theorem witness_MstepTakesTheCurrentMicroOp :
    (NoFault (atIg2 0#9) ∧ (atIg2 0#9).seqG ≠ Seq.idle ∧
      ((atIg2 0#9).cfg.prio = .dOverG → (atIg2 0#9).seqD = Seq.idle)) ∧
    ¬ (NoFault base ∧ base.seqG ≠ Seq.idle ∧ (base.cfg.prio = .dOverG → base.seqD = Seq.idle)) ∧
    GoesD Seq.dp13 { base with seqD := Seq.dp13 } := by decide

theorem witness_UnusedCodesRaiseSeqCode : GoesG 9#4 { base with seqG := 9#4 } ∧ 9 ≤ (9#4 : SeqCode).toNat ∧
    GoesD 14#4 { base with seqD := 14#4 } ∧ 14 ≤ (14#4 : SeqCode).toNat := by decide

theorem witness_IdleEnginesTakeNoMicroOp : NoFault base ∧ base.seqG = Seq.idle ∧ base.seqD = Seq.idle := by decide

theorem witness_RunAndHarnessWordsStuckWhen : ¬ CanEnterG base ∧ ¬ CanEnterD base ∧ ¬ Quiescent (atIg2 0#9) ∧
    base.txe2 = true := by decide

theorem witness_FaultedStateHasNoStep :
    ({ base with fault := some ⟨.lenRange, .ig3⟩ } : State).fault ≠ none ∧ Instr.reset.wf cfg4 = true ∧
    decodeStimulus cfg4 0xF000#16 = .ok .reset := ⟨by decide, rfl, rfl⟩

theorem witness_FinalStatesHaveNoStepOfTheBlock : Final base ∧ Coherent base := by
  refine ⟨by decide, ?_⟩
  constructor <;> decide

theorem witness_Ig1AndIg7TestTheirFlags :
    GoesG Seq.ig1 { base with seqG := Seq.ig1 } ∧ GoesG Seq.ig7 { base with seqG := Seq.ig7 } := by decide

theorem witness_Ig2ReadsOnceAndFiltersNulls :
    GoesG Seq.ig2 (atIg2 0#9) ∧ (atIg2 0#9).rdrG = .holds 0#9 ∧ GoesG Seq.ig2 { base with seqG := Seq.ig2 } ∧
    ({ base with seqG := Seq.ig2 } : State).rdrG = .unwritten := by decide

theorem witness_Ig3TestsFull :
    (GoesG Seq.ig3 { fullOne with seqG := Seq.ig3 } ∧
      len { fullOne with seqG := Seq.ig3 } = ({ fullOne with seqG := Seq.ig3 } : State).cfg.cap) ∧
    (GoesG Seq.ig3 { base with seqG := Seq.ig3, tail := 3 } ∧ len { base with seqG := Seq.ig3, tail := 3 } < 4) ∧
    GoesG Seq.ig3 { base with seqG := Seq.ig3, tail := 5 } ∧ 4 < len { base with seqG := Seq.ig3, tail := 5 } := by
  decide

theorem witness_Ig4WritesAndIg5PublishesTheSlot :
    GoesG Seq.ig4 { base with seqG := Seq.ig4, g := { GRegs.unwritten with t := .holds 7, v := .holds 0x041#9 } } ∧
    base.cfg.wf ∧ GoesG Seq.ig4 { base with seqG := Seq.ig4 } ∧
    ({ base with seqG := Seq.ig4 } : State).g.t = .unwritten ∧
    GoesG Seq.ig5 { base with seqG := Seq.ig5, g := { GRegs.unwritten with t := .holds 7 } } ∧
    GoesG Seq.ig5 { base with seqG := Seq.ig5 } ∧ base.g.t = .unwritten := by decide

/-- The clauses on the queue's contents, at IG4 and at IG5. -/
theorem witness_Ig4WritesAndIg5PublishesTheSlot_contents :
    (SafeInv { atIg5 with seqG := Seq.ig4 } ∧ GoesG Seq.ig4 { atIg5 with seqG := Seq.ig4 }) ∧
    SafeInv atIg5 ∧ GoesG Seq.ig5 atIg5 := ⟨⟨safe_atIg4, by decide⟩, safe_atIg5, by decide⟩

theorem witness_Ig6SetsTxeieAndIg8ClearsOre :
    GoesG Seq.ig6 { base with seqG := Seq.ig6 } ∧ GoesG Seq.ig8 { base with seqG := Seq.ig8 } := by decide

theorem witness_RunGIsTheIngestFunction : SafeInv ready ∧ CanEnterG ready ∧ ¬ CanEnterG base :=
  ⟨safe_ready, by decide, by decide⟩

theorem witness_IngestActivationProperties : SafeInv ready ∧ ∃ t, exec .runG ready = .next t :=
  ⟨safe_ready, ⟨_, rfl⟩⟩

theorem witness_IngestClassesAreFilteredOrOffered :
    (GoesG Seq.ig2 (atIg2 0x000#9) ∧ (atIg2 0x000#9).rdrG = .holds 0x000#9) ∧
    (SafeInv (atIg2 0x041#9) ∧ GoesG Seq.ig2 (atIg2 0x041#9) ∧ (atIg2 0x041#9).rdrG = .holds 0x041#9 ∧
      (0x041#9 : Slot) ≠ 0x000#9 ∧ len (atIg2 0x041#9) < (atIg2 0x041#9).cfg.cap) ∧
    SafeInv (atIg2Full 0x041#9) ∧ GoesG Seq.ig2 (atIg2Full 0x041#9) ∧
      len (atIg2Full 0x041#9) = (atIg2Full 0x041#9).cfg.cap :=
  ⟨by decide, ⟨safe_atIg2, by decide, rfl, by decide, by decide⟩, safe_atIg2Full, by decide, by decide⟩

theorem witness_DpFlagTestsBranch : GoesD Seq.dp1 { base with seqD := Seq.dp1 } ∧
    GoesD Seq.dp8 { base with seqD := Seq.dp8 } ∧ GoesD Seq.dp12 { base with seqD := Seq.dp12 } := by decide

theorem witness_Dp2TestsEmpty :
    (GoesD Seq.dp2 { base with seqD := Seq.dp2 } ∧ len { base with seqD := Seq.dp2 } = 0) ∧
    (GoesD Seq.dp2 { fullOne with seqD := Seq.dp2 } ∧ 0 < len { fullOne with seqD := Seq.dp2 } ∧
      len { fullOne with seqD := Seq.dp2 } ≤ 1) ∧
    GoesD Seq.dp2 { base with seqD := Seq.dp2, tail := 5 } ∧ 4 < len { base with seqD := Seq.dp2, tail := 5 } := by
  decide

theorem witness_Dp3ReadsAndDp4ReleasesTheSlot :
    (GoesD Seq.dp3 { ready with seqD := Seq.dp3, d := { DRegs.unwritten with h := .holds 0 } } ∧ ready.cfg.wf ∧
      ready.buf.read (0 % ready.cfg.cap) = .holds 0x050#9 ∧ base.buf.read (7 % base.cfg.cap) = .unwritten) ∧
    GoesD Seq.dp4 { ready with seqD := Seq.dp4, d := { DRegs.unwritten with h := .holds 7 } } ∧
    ready.d.h = .unwritten ∧ GoesD Seq.dp3 { ready with seqD := Seq.dp3 } ∧
    GoesD Seq.dp4 { ready with seqD := Seq.dp4 } := by decide

/-- The clauses on the queue's contents, at DP3 and at DP4. -/
theorem witness_Dp3ReadsAndDp4ReleasesTheSlot_contents :
    (SafeInv { atDp4 with seqD := Seq.dp3 } ∧ GoesD Seq.dp3 { atDp4 with seqD := Seq.dp3 }) ∧
    SafeInv atDp4 ∧ GoesD Seq.dp4 atDp4 := ⟨⟨safe_atDp3, by decide⟩, safe_atDp4, by decide⟩

theorem witness_Dp5WritesTheTransmitRegister :
    (GoesD Seq.dp5 { base with seqD := Seq.dp5, d := { DRegs.unwritten with v := .holds 0x047#9 } } ∧
      base.txe2 = true) ∧
    (GoesD Seq.dp5 { inFlight with seqD := Seq.dp5 } ∧ inFlight.txe2 = false) ∧
    GoesD Seq.dp5 { base with seqD := Seq.dp5 } ∧ base.d.v = .unwritten := by decide

theorem witness_Dp6RetestsEmptyAndDp7ClearsTxeie :
    GoesD Seq.dp6 { base with seqD := Seq.dp6 } ∧ GoesD Seq.dp7 { base with seqD := Seq.dp7 } := by decide

theorem witness_Dp9ReadsAndDecodesTheCommand :
    (GoesD Seq.dp9 { ready with seqD := Seq.dp9 } ∧ ready.rdr2 = .holds 0x031#9) ∧
    GoesD Seq.dp9 { base with seqD := Seq.dp9 } ∧ base.rdr2 = .unwritten := by decide

theorem witness_DpPinAndOverrunStrobes : GoesD Seq.dp10 { base with seqD := Seq.dp10 } ∧
    GoesD Seq.dp11 { base with seqD := Seq.dp11 } ∧ GoesD Seq.dp13 { base with seqD := Seq.dp13 } := by decide

theorem witness_RunDIsTheDispatchFunction : SafeInv ready ∧ CanEnterD ready ∧ ¬ CanEnterD base :=
  ⟨safe_ready, by decide, by decide⟩

/-- The pin's three clauses and the queue's three, one state each where they differ. -/
theorem witness_DispatchActivationProperties :
    (SafeInv ready ∧ (∃ t, exec .runD ready = .next t) ∧ ready.txe2 = true ∧ contents ready = [.holds 0x050#9] ∧
      ready.rxne2 = true ∧ ready.rdr2 = .holds 0x031#9) ∧
    (SafeInv inFlight ∧ (∃ t, exec .runD { inFlight with pendD := true } = .next t) ∧ inFlight.txe2 = false ∧
      inFlight.rxne2 = false) ∧
    SafeInv base ∧ (∃ t, exec .runD { base with pendD := true } = .next t) ∧ contents base = [] ∧
    ∃ t, exec .runD { ready with rdr2 := .holds 0x030#9 } = .next t :=
  ⟨⟨safe_ready, ⟨_, rfl⟩, rfl, rfl, rfl, rfl⟩, ⟨safe_inFlight, ⟨_, rfl⟩, rfl, rfl⟩, safe_base, ⟨_, rfl⟩, rfl, ⟨_, rfl⟩⟩

theorem witness_CommandsDriveThePinOrDoNothing :
    GoesD Seq.dp9 { ready with seqD := Seq.dp9, rdr2 := .holds 0x030#9 } ∧
    GoesD Seq.dp9 { ready with seqD := Seq.dp9 } ∧ ready.rdr2 = .holds 0x031#9 ∧
    GoesD Seq.dp9 { ready with seqD := Seq.dp9, rdr2 := .holds 0x131#9 } ∧ (0x131#9 : Slot) ≠ 0x030#9 ∧
    (0x131#9 : Slot) ≠ 0x031#9 := by decide

theorem witness_ActivationsEndInTime :
    GoesG Seq.ig1 { ready with seqG := Seq.ig1 } ∧ GoesD Seq.dp1 { ready with seqD := Seq.dp1 } := by decide

theorem witness_StepallTakesTheStepsOfRun : SafeInv ready ∧ CanEnterG ready ∧ CanEnterD ready :=
  ⟨safe_ready, by decide, by decide⟩

theorem witness_PushIsAtomicPush :
    (NoFault ready ∧ ready.cfg.wf ∧ Quiescent ready ∧ len ready < ready.cfg.cap) ∧
    (NoFault fullOne ∧ fullOne.cfg.wf ∧ Quiescent fullOne ∧ len fullOne = fullOne.cfg.cap) ∧
    NoFault { base with tail := 5 } ∧ Quiescent { base with tail := 5 } ∧ 4 < len { base with tail := 5 } := by decide

theorem witness_PopIsAtomicPop :
    (NoFault fullOne ∧ fullOne.cfg.wf ∧ Quiescent fullOne ∧ 0 < len fullOne ∧ len fullOne ≤ fullOne.cfg.cap ∧
      fullOne.buf.read (fullOne.head % fullOne.cfg.cap) = .holds 0x050#9) ∧
    (NoFault base ∧ base.cfg.wf ∧ Quiescent base ∧ len base = 0) ∧
    (Quiescent { base with tail := 5 } ∧ 4 < len { base with tail := 5 }) ∧
    Quiescent { base with tail := 4 } ∧ 0 < len { base with tail := 4 } ∧ len { base with tail := 4 } ≤ 4 ∧ base.buf.read (0 % 4) = .unwritten := by
  decide

theorem witness_HarnessWordsActOnTheQueue :
    (SafeInv ready ∧ Quiescent ready ∧ len ready < ready.cfg.cap ∧ contents ready = [.holds 0x050#9]) ∧
    (SafeInv fullOne ∧ Quiescent fullOne ∧ len fullOne = fullOne.cfg.cap) ∧
    SafeInv base ∧ Quiescent base ∧ contents base = [] :=
  ⟨⟨safe_ready, by decide, by decide, rfl⟩, ⟨safe_fullOne, by decide, by decide⟩, safe_base, by decide, rfl⟩

/-- A run that pushes through the ingest engine and pops through the dispatch engine. -/
theorem witness_QueueIsFifo :
    (SafeInv base ∧
      (∀ i ∈ [Instr.gpsRx 0x041#9, .runG, .enterD, .mstepD, .mstepD, .mstepD, .mstepD],
        i.isStimulus = true ∧ i ≠ .reset) ∧
      ∃ t, runMoved [.gpsRx 0x041#9, .runG, .enterD, .mstepD, .mstepD, .mstepD, .mstepD] base =
        some (⟨[.holds 0x041#9], [.holds 0x041#9], []⟩, t)) ∧
    SafeInv base ∧ Quiescent base ∧ contents base = [] :=
  ⟨⟨safe_base, by decide, ⟨_, rfl⟩⟩, safe_base, by decide, rfl⟩

theorem witness_QueueSaturates : SafeInv base ∧ Quiescent base ∧ contents base = [] ∧
    [0x041#9, 0x042#9, 0x043#9, 0x044#9, 0x045#9].length = base.cfg.cap + 1 := ⟨safe_base, by decide, rfl, rfl⟩

theorem witness_FramesArriveOrOverrun : NoFault base ∧ IsFrame base.cfg 0x0FF#9 ∧ NoFault ready ∧
    ¬ IsFrame base.cfg 0x100#9 := by decide

theorem witness_TxDoneSendsTheHeldFrame :
    (NoFault inFlight ∧ inFlight.txe2 = false ∧ inFlight.tdr2 = .holds 0x041#9) ∧
    (NoFault base ∧ base.txe2 = true) ∧ base.tdr2 = .unwritten := by decide

theorem witness_PrimitivesDoTheirOneAccess : NoFault base := rfl

theorem witness_ReadRdrClearsReceiveReady :
    NoFault ready ∧ ready.rdrG = .holds 0x041#9 ∧ ready.rdr2 = .holds 0x031#9 ∧ NoFault base ∧
    base.rdrG = .unwritten ∧ base.rdr2 = .unwritten := by decide

theorem witness_RegisterViewShowsFlagsAndPrimitives :
    ready.rdrG = .holds 0x041#9 ∧ ready.rdr2 = .holds 0x031#9 ∧ 31 < 32 ∧ base.rdrG = .unwritten ∧
    base.rdr2 = .unwritten ∧ RegName.gIcr ∈ [RegName.gIcr, .l2Icr, .l2Tdr, .pBsrr] ∧
    RegName.l2Cr1 ∈ [RegName.gIsr, .gRdr, .gCr1, .l2Isr, .l2Rdr, .l2Cr1] ∧ (0x200#32).getLsbD 9 = true ∧
    (0x10#32).getLsbD 4 = true := by decide

/-- The pin register's clauses: a bit that is neither half of the pair, and both halves at once. -/
theorem witness_RegisterViewShowsFlagsAndPrimitives_pin :
    (∃ k, k ≠ Config.pinIndex.val ∧ k ≠ Config.pinIndex.val + 16 ∧ (0xFFFFFFFF#32).getLsbD k = true) ∧
    (0xFFFFFFFF#32).getLsbD Config.pinIndex.val = true ∧
    (0xFFFFFFFF#32).getLsbD (Config.pinIndex.val + 16) = true := by
  generalize Config.pinIndex = p
  revert p
  exact fun p => ⟨⟨(p.val + 1) % 32, by omega, by omega, by revert p; decide⟩, by revert p; decide, by revert p; decide⟩

theorem witness_ResetRestoresTheResetTable : NoFault { ready with seqG := Seq.ig4 } := by decide

theorem witness_StartStateIsCleanStart : cfg1.wf ∧
    State.start cfg1 = { State.start cfg1 with trace := [] } := ⟨by decide, rfl⟩

theorem witness_EveryStepKeepsSafety : SafeInv { base with trace := [0x1041#16] } ∧
    ∃ t, step { base with trace := [0x1041#16] } = .next t := ⟨safeInv_start cfg4 (by decide) _, ⟨_, rfl⟩⟩

theorem witness_EqualPriorityKeepsCoherence :
    base.cfg.prio = .equal ∧ SafeInv { base with trace := [0x1041#16] } ∧
    Coherent { base with trace := [0x1041#16] } ∧
    (0x1041#16 : StimWord).extractLsb' 12 4 ≠ 0xA#4 ∧ (0x1041#16 : StimWord).extractLsb' 12 4 ≠ 0xB#4 ∧
    (∃ t, step { base with trace := [0x1041#16] } = .next t) ∧ Quiescent ready ∧ Coherent ready :=
  ⟨rfl, safeInv_start cfg4 (by decide) _, by constructor <;> decide, by decide, by decide, ⟨_, rfl⟩, by decide,
    coherent_ready⟩

theorem witness_RequestsAreNotLost : SafeInv { base with trace := [0x1041#16] } ∧
    PendInv { base with trace := [0x1041#16] } ∧ ∃ t, step { base with trace := [0x1041#16] } = .next t :=
  ⟨safeInv_start cfg4 (by decide) _, by constructor <;> decide, ⟨_, rfl⟩⟩

/-- Each kind of change is seen somewhere: TXEIE set and cleared, the storage, a cursor, the pin, OUT, RES. -/
theorem witness_EachElementHasItsWriters :
    got (exec .mstepG { base with seqG := Seq.ig6 }) (fun t => t.txeie) = some true ∧
    got (exec .mstepD { ready with seqD := Seq.dp7 }) (fun t => t.txeie) = some false ∧
    got (exec (.qPush 0x041#9) base) (fun t => (t.buf, t.tail, t.res)) = some ([(0, 0x041#9)], 1, .ok) ∧
    got (exec .mstepD { base with seqD := Seq.dp11 }) (fun t => (t.pin, t.pinlog)) = some (.on, [.set]) ∧
    got (exec .txDone inFlight) (fun t => t.out) = some [0x041#9] := by decide

/-- Each strobe is pulsed somewhere, and clears its flag. -/
theorem witness_EachElementHasItsWriters_strobes :
    strobes .mstepG (atIg2 0x041#9) = [.gRdrRd] ∧
    strobes .mstepG { base with seqG := Seq.ig8, oreG := true } = [.gOreClr] ∧
    strobes .mstepD { ready with seqD := Seq.dp9 } = [.l2RdrRd] ∧
    strobes .mstepD { base with seqD := Seq.dp13, ore2 := true } = [.l2OreClr] ∧
    strobes .mstepD { atDp4 with seqD := Seq.dp5 } = [.l2TdrWr] ∧
    strobes .enterG ready = [.enterG] ∧ strobes .enterD ready = [.enterD] := by decide

theorem witness_ObservationsOnlyGrow : (∃ t, step { inFlight with trace := [0x3000#16] } = .next t) ∧
    OutFrames inFlight := ⟨⟨_, rfl⟩, by decide⟩

/-- A run that pops the value in hand, writes it and sends it, and one that sends the frame in flight. -/
theorem witness_ObservationsOnlyGrow_runs :
    (SafeInv atDp4 ∧ (∀ i ∈ [Instr.mstepD, .mstepD, .txDone], i.isStimulus = true ∧ i ≠ .reset ∧ i ≠ .qPop) ∧
      ∃ t, runMoved [.mstepD, .mstepD, .txDone] atDp4 = some (⟨[], [.holds 0x050#9], [.holds 0x050#9]⟩, t)) ∧
    SafeInv inFlight ∧ (∃ t, runMoved [.txDone] inFlight = some (⟨[], [], []⟩, t)) ∧
    ∃ t, exec (.cmd 0x031#9) base = .next t :=
  ⟨⟨safe_atDp4, by decide, ⟨_, rfl⟩⟩, safe_inFlight, ⟨_, rfl⟩, ⟨_, rfl⟩⟩

/-- With a frame unread, KEEP_OLD keeps it; with none, the new frame is the one that counts; with the queue full it
is dropped. -/
theorem witness_FeedPassesOneFrameThrough :
    (SafeInv ready ∧ ready.seqG = Seq.idle ∧ ready.seqD = Seq.idle ∧ IsFrame ready.cfg 0x0FF#9 ∧
      (if ready.rxneG = true ∧ ready.cfg.ovr = .keepOld then ready.rdrG = .holds 0x041#9 else 0x041#9 = 0x0FF#9) ∧
      len ready < ready.cfg.cap) ∧
    SafeInv fullOne ∧ fullOne.seqG = Seq.idle ∧ fullOne.seqD = Seq.idle ∧
    (if fullOne.rxneG = true ∧ fullOne.cfg.ovr = .keepOld then fullOne.rdrG = .holds 0x041#9
      else 0x041#9 = 0x041#9) ∧ ¬ len fullOne < fullOne.cfg.cap :=
  ⟨⟨safe_ready, by decide, by decide, by decide, by decide, by decide⟩, safe_fullOne, by decide, by decide,
    by decide, by decide⟩

theorem witness_FeedsQueuesTheNonNullFramesThatFit : SafeInv base ∧ Quiescent base ∧ base.rxneG = false ∧
    ∀ c ∈ [0x041#9, 0x000#9, 0x0FF#9], IsFrame base.cfg c := ⟨safe_base, by decide, rfl, by decide⟩

/-- With a command unread, KEEP_OLD keeps it; with none, the new one is the one that counts; also with the ingest engine
active, where PRIO_MODE lets it be preempted. -/
theorem witness_CmdRunsOneCommand :
    (SafeInv inFlight ∧ inFlight.seqD = Seq.idle ∧ inFlight.seqG = Seq.idle ∧ inFlight.txe2 = false ∧
      IsFrame inFlight.cfg 0x0FF#9 ∧
      (if inFlight.rxne2 = true ∧ inFlight.cfg.ovr = .keepOld then inFlight.rdr2 = .holds 0x0FF#9
        else 0x0FF#9 = 0x0FF#9)) ∧
    (SafeInv ready ∧ ready.seqD = Seq.idle ∧ ready.seqG = Seq.idle ∧ IsFrame ready.cfg 0x030#9 ∧
      (if ready.rxne2 = true ∧ ready.cfg.ovr = .keepOld then ready.rdr2 = .holds 0x031#9
        else 0x031#9 = 0x030#9)) ∧
    SafeInv { atIg5 with cfg := { cfg4 with prio := .dOverG } } :=
  ⟨⟨safe_inFlight, rfl, rfl, rfl, by decide, by decide⟩, ⟨safe_ready, rfl, rfl, by decide, by decide⟩,
    ⟨by constructor <;> decide, by constructor <;> decide, by constructor <;> decide, rfl⟩⟩

/-- A value at the head, a frame in flight, an empty queue, and no request pending. -/
theorem witness_XmitSendsTheHeadOfTheQueue :
    (SafeInv fullOne ∧ fullOne.seqD = Seq.idle ∧ fullOne.seqG = Seq.idle ∧ fullOne.pendD = true ∧
      (if fullOne.txe2 = true then contents fullOne = .holds 0x050#9 :: []
        else fullOne.tdr2 = .holds 0x050#9 ∧ contents fullOne = [])) ∧
    (SafeInv { inFlight with pendD := true } ∧ inFlight.seqD = Seq.idle ∧ inFlight.seqG = Seq.idle ∧
      (if inFlight.txe2 = true then contents inFlight = .holds 0x041#9 :: [.holds 0x050#9]
        else inFlight.tdr2 = .holds 0x041#9 ∧ contents inFlight = [.holds 0x050#9])) ∧
    (SafeInv { base with pendD := true } ∧ base.seqD = Seq.idle ∧ base.seqG = Seq.idle ∧ base.txe2 = true ∧
      contents { base with pendD := true } = []) ∧
    SafeInv base ∧ base.pendD = false :=
  ⟨⟨safe_fullOne, rfl, rfl, rfl, by decide⟩,
    ⟨⟨by constructor <;> decide, by constructor <;> decide, by constructor <;> decide, rfl⟩, rfl, rfl, by decide⟩,
    ⟨⟨by constructor <;> decide, by constructor <;> decide, by constructor <;> decide, rfl⟩, rfl, rfl, rfl, rfl⟩,
    safe_base, rfl⟩

theorem witness_NoStallUnderEqualPriority :
    (ready.cfg.prio = .equal ∧ SafeInv ready ∧ Coherent ready ∧ PendInv ready ∧ Quiescent ready ∧ 0 < len ready ∧
      ready.txe2 = true) ∧
    SafeInv inFlight ∧ Coherent inFlight ∧ PendInv inFlight ∧ Quiescent inFlight ∧ 0 < len inFlight ∧
    inFlight.txe2 = false :=
  ⟨⟨rfl, safe_ready, coherent_ready, pend_ready, by decide, by decide, rfl⟩, safe_inFlight, coherent_inFlight,
    pend_inFlight, by decide, by decide, rfl⟩

/-- The state after a word that has a next state. -/
def nextOf (o : Out) : State :=
  match o with
  | .next s => s
  | .fault _ => base
  | .refused _ => base

/-- A frame arrives, is queued, is written to TDR_2 and is sent, and then nothing more happens. -/
def sentWords : Nat → Option Instr
  | 0 => some (.gpsRx 0x041#9)
  | 1 => some .runG
  | 2 => some .runD
  | 3 => some .txDone
  | _ => none

/-- The states of that run. -/
def sentStates : Nat → State
  | 0 => base
  | 1 => nextOf (exec (.gpsRx 0x041#9) base)
  | 2 => nextOf (exec .runG (nextOf (exec (.gpsRx 0x041#9) base)))
  | 3 => nextOf (exec .runD (nextOf (exec .runG (nextOf (exec (.gpsRx 0x041#9) base)))))
  | _ => nextOf (exec .txDone (nextOf (exec .runD (nextOf (exec .runG (nextOf (exec (.gpsRx 0x041#9) base)))))))

/-- A step that is stuck at the end of a run is not owed to it. -/
theorem weaklyFair_of_stuck {i : Instr} {by_ : List Instr} {states : Nat → State} {words : Nat → Option Instr}
    {r : Machine.Fault} (h : ∀ n, exec i (states (n + 4)) = .fault r) : WeaklyFair i by_ states words := by
  intro n hn
  obtain ⟨t, ht⟩ := hn (n + 4) (Nat.le_add_right _ _)
  rw [h n] at ht
  cases ht

theorem isRun_sent : IsRun sentStates sentWords
  | 0 => .inr ⟨_, rfl, rfl, rfl⟩
  | 1 => .inr ⟨_, rfl, rfl, rfl⟩
  | 2 => .inr ⟨_, rfl, rfl, rfl⟩
  | 3 => .inr ⟨_, rfl, rfl, rfl⟩
  | _ + 4 => .inl ⟨rfl, rfl⟩

theorem noResetNoHarness_sent : NoResetNoHarness sentWords := fun n =>
  match n with
  | 0 => ⟨by decide, by decide, fun _ => by simp [sentWords]⟩
  | 1 => ⟨by decide, by decide, fun _ => by simp [sentWords]⟩
  | 2 => ⟨by decide, by decide, fun _ => by simp [sentWords]⟩
  | 3 => ⟨by decide, by decide, fun _ => by simp [sentWords]⟩
  | _ + 4 => ⟨by simp [sentWords], by simp [sentWords], fun _ => by simp [sentWords]⟩

theorem witness_NoStallUnderEqualPriority_runs :
    IsRun sentStates sentWords ∧ Fair sentStates sentWords ∧ NoResetNoHarness sentWords ∧
    FinitelyManyArrivals sentWords ∧ SafeInv (sentStates 0) ∧ PendInv (sentStates 0) ∧
    (sentStates 0).cfg.prio = .equal ∧ Coherent (sentStates 0) ∧ (sentStates 4).out = [0x041#9] :=
  ⟨isRun_sent,
    ⟨weaklyFair_of_stuck fun _ => rfl, weaklyFair_of_stuck fun _ => rfl, weaklyFair_of_stuck fun _ => rfl,
      weaklyFair_of_stuck fun _ => rfl, weaklyFair_of_stuck fun _ => rfl⟩,
    noResetNoHarness_sent,
    ⟨4, fun m hm f => by
      obtain ⟨k, rfl⟩ := Nat.exists_eq_add_of_le' hm
      exact ⟨by simp [sentWords], by simp [sentWords]⟩⟩,
    safe_base, by constructor <;> decide, rfl, by constructor <;> decide, rfl⟩

/-- A null frame was read and dropped, and one frame was sent before it. -/
def dropped : State :=
  { base with
    rdrG := .holds 0x000#9, g := { GRegs.unwritten with rx := .holds true, v := .holds 0x000#9, o := .holds false }
    tdr2 := .holds 0x041#9, out := [0x041#9] }

/-- The frame in the holding register is sent, and then null frames arrive without end, each read and dropped by one
RUN_G word. -/
def endlessWords : Nat → Option Instr
  | 0 => some .txDone
  | n + 1 => if n % 2 = 0 then some (.gpsRx 0x000#9) else some .runG

/-- The states of that run. -/
def endlessStates : Nat → State
  | 0 => { dropped with txe2 := false, out := [] }
  | n + 1 => if n % 2 = 0 then dropped else { dropped with rxneG := true, pendG := true }

theorem endless_odd (k : Nat) :
    endlessWords (2 * k + 1) = some (.gpsRx 0x000#9) ∧ endlessStates (2 * k + 1) = dropped := by
  simp [endlessWords, endlessStates]

theorem endless_even (k : Nat) :
    endlessWords (2 * k + 2) = some .runG ∧
      endlessStates (2 * k + 2) = { dropped with rxneG := true, pendG := true } := by
  simp [endlessWords, endlessStates]

/-- What holds of the first place and of both kinds of later place holds of all. -/
theorem endless_cases {P : Nat → Prop} (h : P 0) (ho : ∀ k, P (2 * k + 1)) (he : ∀ k, P (2 * k + 2)) : ∀ n, P n
  | 0 => h
  | n + 1 => by
    rcases Nat.even_or_odd' n with ⟨k, rfl | rfl⟩
    · exact ho k
    · exact he k

theorem isRun_endless : IsRun endlessStates endlessWords :=
  endless_cases (.inr ⟨_, rfl, rfl, by rfl⟩)
    (fun k => .inr ⟨_, (endless_odd k).1, rfl, by rw [(endless_odd k).2, (endless_even k).2]; rfl⟩)
    (fun k => .inr ⟨_, (endless_even k).1, rfl, by
      rw [(endless_even k).2, show 2 * k + 2 + 1 = 2 * (k + 1) + 1 by omega, (endless_odd (k + 1)).2]; rfl⟩)

/-- A step that is stuck whenever a null frame has been dropped is not owed to that run. -/
theorem weaklyFair_endless {i : Instr} {by_ : List Instr} {r : Machine.Fault} (h : exec i dropped = .fault r) :
    WeaklyFair i by_ endlessStates endlessWords := by
  intro n hn
  obtain ⟨t, ht⟩ := hn (2 * n + 1) (by omega)
  rw [(endless_odd n).2, h] at ht
  cases ht

theorem noResetNoHarness_endless : NoResetNoHarness endlessWords :=
  endless_cases ⟨by decide, by decide, fun _ => by simp [endlessWords]⟩
    (fun k => by rw [(endless_odd k).1]; exact ⟨by decide, by decide, fun _ => by simp⟩)
    (fun k => by rw [(endless_even k).1]; exact ⟨by decide, by decide, fun _ => by simp⟩)

theorem safe_sending : SafeInv (endlessStates 0) :=
  ⟨by constructor <;> decide, by constructor <;> decide, by constructor <;> decide, rfl⟩

/-- GPS frames stop in the first run; in the second they never do, and both other grounds hold of it. -/
theorem witness_NoStallUnderEqualPriority_endless :
    FinitelyManyGpsArrivals sentWords ∧ WholeIngestActivations endlessStates endlessWords ∧
    FairBetweenActivations .enterD [.enterD, .runD] endlessStates endlessWords ∧
    (∀ n, ∃ m, n ≤ m ∧ endlessWords m = some (.gpsRx 0x000#9)) ∧
    IsRun endlessStates endlessWords ∧ Fair endlessStates endlessWords ∧ NoResetNoHarness endlessWords ∧
    (endlessStates 0).cfg.prio = .equal ∧ SafeInv (endlessStates 0) ∧ PendInv (endlessStates 0) ∧
    Coherent (endlessStates 0) ∧ inHolding (endlessStates 0) = [.holds 0x041#9] ∧
    (endlessStates 1).out = [0x041#9] := by
  refine ⟨⟨4, fun m hm f => ?_⟩, ⟨rfl, endless_cases ?_ ?_ ?_⟩, fun n hn _ => ?_,
    fun n => ⟨2 * n + 1, by omega, (endless_odd n).1⟩, isRun_endless,
    ⟨weaklyFair_endless rfl, weaklyFair_endless rfl, weaklyFair_endless rfl, weaklyFair_endless rfl,
      weaklyFair_endless rfl⟩,
    noResetNoHarness_endless, rfl, safe_sending, by constructor <;> decide, by constructor <;> decide, rfl, rfl⟩
  · obtain ⟨k, rfl⟩ := Nat.exists_eq_add_of_le' hm
    simp [sentWords]
  · exact ⟨by decide, by decide⟩
  · intro k; rw [(endless_odd k).1]; exact ⟨by decide, by decide⟩
  · intro k; rw [(endless_even k).1]; exact ⟨by decide, by decide⟩
  · obtain ⟨t, ht⟩ := hn (2 * n + 1) (by omega) (by rw [(endless_odd n).2]; decide)
    rw [(endless_odd n).2] at ht
    cases ht

end Sys2Proof.Tests
end

namespace Sys2Proof.Machine

/-! ### The register view (R36 to R45) -/

/-- The word with bit `k` alone set. -/
theorem getLsbD_oneBit (k j : Nat) : (1#32 <<< k).getLsbD j = (decide (j < 32) && decide (j = k)) := by
  rw [BitVec.getLsbD_shiftLeft, BitVec.getLsbD_one, Bool.eq_iff_iff]
  simp only [Bool.and_eq_true, Bool.not_eq_true', decide_eq_true_eq, decide_eq_false_iff_not]
  omega

/-- `withBit` replaces bit `k` and leaves every other bit as it was. -/
theorem getLsbD_withBit (w : BitVec 32) (k : Nat) (b : Bool) {j : Nat} (hj : j < 32) :
    (withBit w k b).getLsbD j = if j = k then b else w.getLsbD j := by
  rw [withBit, BitVec.getLsbD_or, BitVec.getLsbD_and, BitVec.getLsbD_not, getLsbD_oneBit]
  have hb : (if b then 1#32 <<< k else 0#32).getLsbD j = (decide (j = k) && b) := by
    cases b <;> simp only [Bool.false_eq_true, if_true, if_false, getLsbD_oneBit] <;> simp [hj]
  rw [hb]
  by_cases h : j = k <;> simp [h, hj]

/-- A word of the transmit register with a 1 above bit 8 has no result (R43). -/
theorem viewWrite_l2Tdr_high {w : BitVec 32} {k : Nat} (hk : 9 ≤ k) (hw : w.getLsbD k = true) (s : State) :
    viewWrite .l2Tdr w s = none := by
  have hlarge : ¬ w.toNat < 512 := fun h => by
    have := Nat.testBit_lt_two_pow (i := k) (h.trans_le (Nat.pow_le_pow_right (n := 2) (by omega) hk))
    simp [BitVec.getLsbD, this] at hw
  exact if_neg hlarge

/-- A word of the transmit register with zeros above bit 8 is WriteTDR (R43). -/
theorem viewWrite_l2Tdr_slot (v : Slot) (s : State) :
    viewWrite .l2Tdr (v.setWidth 32) s = some (writeTdrReg v s) := by
  have hlt : (v.setWidth 32).toNat < 512 := by rw [BitVec.toNat_setWidth]; omega
  have hv : (v.setWidth 32).setWidth 9 = v := by ext i hi; simp
  simp only [viewWrite, hlt, hv, if_true]

/-- A write of the pin's register with a 1 outside the pair has no result (log entry 29). -/
theorem viewWritePin_unlisted {w : BitVec 32} {k : Nat} (h0 : k ≠ Config.pinIndex.val)
    (h1 : k ≠ Config.pinIndex.val + 16) (hw : w.getLsbD k = true) (s : State) : viewWritePin w s = none := by
  have hm : ((1#32 <<< Config.pinIndex.val) ||| (1#32 <<< (Config.pinIndex.val + 16))).getLsbD k = false := by
    rw [BitVec.getLsbD_or, getLsbD_oneBit, getLsbD_oneBit]
    simp [h0, h1]
  simp [viewWritePin, onlyBits_false hw hm]

/-- A write of both halves of the pin's pair at once has no result (R45). -/
theorem viewWritePin_both {w : BitVec 32} (h0 : w.getLsbD Config.pinIndex.val = true)
    (h1 : w.getLsbD (Config.pinIndex.val + 16) = true) (s : State) : viewWritePin w s = none := by
  unfold viewWritePin
  rw [h0, h1]
  split <;> rfl

/-- Each half of the pin's pair is a bit of its own within the register, wherever the pin stands. -/
theorem pinPair_bits (p : Fin 16) :
    (onlyBits ((1#32 <<< p.val) ||| (1#32 <<< (p.val + 16))) (1#32 <<< p.val) = true ∧
      (1#32 <<< p.val).getLsbD p.val = true ∧ (1#32 <<< p.val).getLsbD (p.val + 16) = false) ∧
    (onlyBits ((1#32 <<< p.val) ||| (1#32 <<< (p.val + 16))) (1#32 <<< (p.val + 16)) = true ∧
      (1#32 <<< (p.val + 16)).getLsbD p.val = false ∧ (1#32 <<< (p.val + 16)).getLsbD (p.val + 16) = true) := by
  revert p; decide

/-- A write of the pin's set bit alone is PinSet (R45). -/
theorem viewWritePin_set (s : State) : viewWritePin (1#32 <<< Config.pinIndex.val) s = some (pinSetStrobe s) := by
  obtain ⟨⟨hm, h0, h1⟩, -⟩ := pinPair_bits Config.pinIndex
  simp only [viewWritePin, hm, h0, h1, if_true]

/-- A write of the pin's reset bit alone is PinReset (R45). -/
theorem viewWritePin_reset (s : State) :
    viewWritePin (1#32 <<< (Config.pinIndex.val + 16)) s = some (pinResetStrobe s) := by
  obtain ⟨-, hm, h0, h1⟩ := pinPair_bits Config.pinIndex
  simp only [viewWritePin, hm, h0, h1, if_true]

/-- A write of 0 to the pin's register changes nothing (R45). -/
theorem viewWritePin_zero (s : State) : viewWritePin 0#32 s = some s := by
  simp [viewWritePin, onlyBits]

/-- Settles O47: each register is read and written by the law of its own bits, and a write the block never makes has
no result. -/
theorem registerViewShowsFlagsAndPrimitives : Obligations.RegisterViewShowsFlagsAndPrimitives := by
  unfold Obligations.RegisterViewShowsFlagsAndPrimitives
  intro s any
  refine ⟨⟨rfl, rfl, rfl, rfl⟩, fun k hk => ?flags, fun v hv => ?rdrG, fun v hv => ?rdr2, fun hv => ?noG,
    fun hv => ?no2, ?writeOnly, ⟨rfl, rfl, rfl, rfl⟩, ⟨rfl, rfl⟩, fun w => ?never, ?tdr, viewWritePin_set s,
    viewWritePin_reset s, viewWritePin_zero s⟩
  case flags =>
    simp only [viewRead, getLsbD_withBit _ _ _ hk, true_and]
    -- the listed bits are distinct, so the order in which they are tested is of no account
    refine ⟨?_, ?_, ?_⟩ <;> grind
  case rdrG => simp [viewRead, viewReadRdr, hv]
  case rdr2 => simp [viewRead, viewReadRdr, hv]
  case noG => simp [viewRead, viewReadRdr, hv, raise]
  case no2 => simp [viewRead, viewReadRdr, hv, raise]
  case writeOnly => simp [viewRead]
  case never =>
    refine ⟨by simp [viewWrite], fun k hk hw => viewWrite_l2Tdr_high hk hw s, fun k hk hw => ?_,
      fun k h0 h1 hw => viewWritePin_unlisted h0 h1 hw s, fun h0 h1 => viewWritePin_both h0 h1 s⟩
    exact ⟨viewWriteIcr_unlisted hk hw s, viewWriteIcr_unlisted hk hw s⟩
  case tdr => exact fun v => viewWrite_l2Tdr_slot v s

end Sys2Proof.Machine

namespace Sys2Proof.Machine

/-! ### Which strobes a micro-op pulses (R133) -/

/-- ReadRDR(L) pulses its own strobe, where the register was written (R135). -/
theorem mem_pulseReadRdr {p : Strobe} {l : Link} {s : State} :
    p ∈ pulseReadRdr l s ↔ (rdr l s).isWritten = true ∧ p = match l with | .g => .gRdrRd | .l2 => .l2RdrRd := by
  unfold pulseReadRdr
  cases l <;> split <;> simp_all

/-- IG2 pulses the read strobe when it reads, IG8 the clear strobe, and no other ingest micro-op pulses any. -/
theorem mem_pulseG {p : Strobe} {s : State} :
    p ∈ pulseG s ↔
      (p = .gRdrRd ∧ s.seqG = Seq.ig2 ∧ s.rdrG.isWritten = true) ∨ (p = .gOreClr ∧ s.seqG = Seq.ig8) := by
  simp only [← BitVec.toNat_inj]
  unfold pulseG
  split <;> simp_all [mem_pulseReadRdr, pulseClearOre, and_comm]

/-- DP5 pulses the write strobe when it writes, DP9 the read strobe when it reads, DP10 and DP11 the pin strobes, DP13
the clear strobe, and no other dispatch micro-op pulses any. -/
theorem mem_pulseD {p : Strobe} {s : State} :
    p ∈ pulseD s ↔
      (p = .l2TdrWr ∧ s.seqD = Seq.dp5 ∧ s.txe2 = true ∧ s.d.v.isWritten = true) ∨
      (p = .l2RdrRd ∧ s.seqD = Seq.dp9 ∧ s.rdr2.isWritten = true) ∨ (p = .pinReset ∧ s.seqD = Seq.dp10) ∨
      (p = .pinSet ∧ s.seqD = Seq.dp11) ∨ (p = .l2OreClr ∧ s.seqD = Seq.dp13) := by
  simp only [← BitVec.toNat_inj]
  unfold pulseD
  split <;> simp_all [mem_pulseReadRdr, pulseClearOre, and_comm]

/-! ### What each word may write (R46) -/

/-- An ingest micro-op writes its sequencer and locals, a link flag through its strobe, BUF at IG4, TAIL at IG5 and
TXEIE at IG6, and nothing else but FAULT. -/
theorem ruleG_writes (s : State) : ∃ c g f b tl, ruleG s =
    { s with
      seqG := c, g := g, fault := f
      rxneG := if .gRdrRd ∈ pulseG s then false else s.rxneG
      oreG := if .gOreClr ∈ pulseG s then false else s.oreG
      buf := if s.seqG = Seq.ig4 then b else s.buf
      tail := if s.seqG = Seq.ig5 then tl else s.tail
      txeie := if s.seqG = Seq.ig6 then true else s.txeie } := by
  refine ⟨(ruleG s).seqG, (ruleG s).g, (ruleG s).fault, (ruleG s).buf, (ruleG s).tail, ?_⟩
  simp only [mem_pulseG, ← BitVec.toNat_inj]
  unfold ruleG
  split <;> rename_i hc
  case h_9 => simp_all [raise]
  all_goals simp only [hc]
  · rfl
  · cases h : s.rdrG <;> simp [ruleIg2, readRdrOf, h, raise]
  · simp only [ruleIg3]; split <;> rfl
  · cases h : s.g.t <;> cases h' : s.g.v <;> simp [ruleIg4, h, h', writeSlot, raise]
    split <;> rfl
  · cases h : s.g.t <;> simp [ruleIg5, h, raise]
  · rfl
  · simp only [ruleIg7]; split <;> rfl
  · rfl

/-- A dispatch micro-op writes its sequencer and locals, a link flag through its strobe, TDR_2 at DP5, HEAD at DP4,
TXEIE at DP7 and the pin at DP10 and DP11, and nothing else but FAULT. -/
theorem ruleD_writes (s : State) : ∃ c d f hd p pl tdr, ruleD s =
    { s with
      seqD := c, d := d, fault := f
      rxne2 := if .l2RdrRd ∈ pulseD s then false else s.rxne2
      ore2 := if .l2OreClr ∈ pulseD s then false else s.ore2
      txe2 := if .l2TdrWr ∈ pulseD s then false else s.txe2
      tdr2 := if s.seqD = Seq.dp5 then tdr else s.tdr2
      head := if s.seqD = Seq.dp4 then hd else s.head
      txeie := if s.seqD = Seq.dp7 then false else s.txeie
      pin := if s.seqD = Seq.dp10 ∨ s.seqD = Seq.dp11 then p else s.pin
      pinlog := if s.seqD = Seq.dp10 ∨ s.seqD = Seq.dp11 then pl else s.pinlog } := by
  refine ⟨(ruleD s).seqD, (ruleD s).d, (ruleD s).fault, (ruleD s).head, (ruleD s).pin, (ruleD s).pinlog,
    (ruleD s).tdr2, ?_⟩
  simp only [mem_pulseD, ← BitVec.toNat_inj]
  unfold ruleD
  split <;> rename_i hc
  case h_14 => simp_all [raise]
  all_goals simp only [hc]
  · rfl
  · simp only [ruleDp2]; split <;> rfl
  · cases h : s.d.h <;> simp [ruleDp3, h, readSlot, raise]
    split
    · cases s.buf.read (slotIndex s.cfg _) <;> simp [raise]
    · rfl
  · cases h : s.d.h <;> simp [ruleDp4, h, raise]
  · cases h : s.txe2 <;> cases h' : s.d.v <;> simp [ruleDp5, h, h', writeTdrReg, raise]
  · rfl
  · rfl
  · rfl
  · cases h : s.rdr2 <;> simp [ruleDp9, readRdrOf, h, raise]
  · rfl
  · rfl
  · simp only [ruleDp12]; split <;> rfl
  · rfl

/-- What follows a rule writes the latches alone (R148). -/
theorem afterRule_writes (s u : State) : ∃ pg pd, afterRule s u = { u with pendG := pg, pendD := pd } := by
  unfold afterRule
  split
  · exact ⟨u.pendG, u.pendD, rfl⟩
  · exact ⟨_, _, rfl⟩

/-- A frame arriving on the GPS link writes that link's receiver alone (R140). -/
theorem receiveFrame_g_writes (f : Slot) (s : State) : ∃ r, receiveFrame .g f s =
    { s with rxneG := true, oreG := s.oreG || s.rxneG, rdrG := r } := by
  refine ⟨(receiveFrame .g f s).rdrG, ?_⟩
  unfold receiveFrame
  cases h : rxne .g s <;> cases s.cfg.ovr <;> simp_all

/-- A frame arriving on link 2 writes that link's receiver alone (R141). -/
theorem receiveFrame_l2_writes (f : Slot) (s : State) : ∃ r, receiveFrame .l2 f s =
    { s with rxne2 := true, ore2 := s.ore2 || s.rxne2, rdr2 := r } := by
  refine ⟨(receiveFrame .l2 f s).rdr2, ?_⟩
  unfold receiveFrame
  cases h : rxne .l2 s <;> cases s.cfg.ovr <;> simp_all

/-- TX_DONE writes OUT and sets TXE_2, unless TDR_2 was never written (R142). -/
theorem ruleTxDone_writes (s : State) : ∃ o f, ruleTxDone s =
    { s with out := o, fault := f, txe2 := s.txe2 || s.tdr2.isWritten } := by
  unfold ruleTxDone
  cases h : s.tdr2 with
  | unwritten => exact ⟨s.out, some ⟨.unwritten, .txDone⟩, by simp [raise, h]⟩
  | holds v => exact ⟨s.out ++ [frameOf s.cfg v], s.fault, by simp [emit, h]⟩

/-- What a word that is a harness word does where it has a next state (R92, R93). -/
theorem harnessStep_eq_next {s t : State} {rule : State → State} (h : harnessStep s rule = .next t) :
    s.fault = none ∧ Quiescent s ∧ t = afterRule s (rule s) := by
  obtain ⟨hf, h⟩ := requiresNoFault_eq_next.1 h
  obtain ⟨hb, ht⟩ := requires_eq_next.1 h
  cases ht
  exact ⟨hf, by simpa using hb, rfl⟩

/-- Q_PUSH writes the producer's side of the queue and RES (R92). -/
theorem execQPush_writes {d : Slot} {s t : State} (h : execQPush d s = .next t) :
    ∃ b tl r f pg pd, t = { s with buf := b, tail := tl, res := r, fault := f, pendG := pg, pendD := pd } := by
  obtain ⟨-, -, rfl⟩ := harnessStep_eq_next h
  obtain ⟨pg, pd, e⟩ := afterRule_writes s (pushSlot d .qPush s fun r s' => { s' with res := r })
  rw [e]
  unfold pushSlot writeSlot
  split_ifs <;> exact ⟨_, _, _, _, _, _, rfl⟩

/-- Q_POP writes HEAD and RES (R93). -/
theorem execQPop_writes {s t : State} (h : execQPop s = .next t) :
    ∃ hd r f pg pd, t = { s with head := hd, res := r, fault := f, pendG := pg, pendD := pd } := by
  obtain ⟨-, -, rfl⟩ := harnessStep_eq_next h
  obtain ⟨pg, pd, e⟩ := afterRule_writes s (popSlot .qPop s fun r s' => { s' with res := r })
  rw [e]
  unfold popSlot readSlot
  split_ifs <;> [skip; skip; cases s.buf.read (slotIndex s.cfg s.head); skip] <;> exact ⟨_, _, _, _, _, rfl⟩

/-- What RESET does where it has a next state (R171). -/
theorem execReset_eq_next {s t : State} (h : execReset s = .next t) : t = afterRule s (ruleReset s) := by
  obtain ⟨-, h⟩ := requiresNoFault_eq_next.1 h
  cases h
  rfl

/-- GPS_RX writes the GPS link's receiver and the latches. -/
theorem execGpsRx_writes {f : Slot} {s t : State} (h : execGpsRx f s = .next t) : ∃ r pg pd, t =
    { s with rxneG := true, oreG := s.oreG || s.rxneG, rdrG := r, pendG := pg, pendD := pd } := by
  obtain ⟨r, e⟩ := receiveFrame_g_writes f s
  obtain ⟨pg, pd, e'⟩ := afterRule_writes s (receiveFrame .g f s)
  exact ⟨r, pg, pd, by rw [arrive_eq_next h, e', e]⟩

/-- HOST_RX writes link 2's receiver and the latches. -/
theorem execHostRx_writes {f : Slot} {s t : State} (h : execHostRx f s = .next t) : ∃ r pg pd, t =
    { s with rxne2 := true, ore2 := s.ore2 || s.rxne2, rdr2 := r, pendG := pg, pendD := pd } := by
  obtain ⟨r, e⟩ := receiveFrame_l2_writes f s
  obtain ⟨pg, pd, e'⟩ := afterRule_writes s (receiveFrame .l2 f s)
  exact ⟨r, pg, pd, by rw [arrive_eq_next h, e', e]⟩

/-- MSTEP_G writes what its micro-op does, and the latches. -/
theorem stepG_writes {s t : State} (h : stepG s = .next t) : ∃ c g f b tl pg pd, t =
    { s with
      seqG := c, g := g, fault := f, pendG := pg, pendD := pd
      rxneG := if .gRdrRd ∈ pulseG s then false else s.rxneG
      oreG := if .gOreClr ∈ pulseG s then false else s.oreG
      buf := if s.seqG = Seq.ig4 then b else s.buf
      tail := if s.seqG = Seq.ig5 then tl else s.tail
      txeie := if s.seqG = Seq.ig6 then true else s.txeie } := by
  obtain ⟨-, -, -, rfl⟩ := microStepG_eq_next.1 h
  obtain ⟨c, g, f, b, tl, e⟩ := ruleG_writes s
  obtain ⟨pg, pd, e'⟩ := afterRule_writes s (ruleG s)
  exact ⟨c, g, f, b, tl, pg, pd, by rw [e', e]⟩

/-- MSTEP_D writes what its micro-op does, and the latches. -/
theorem stepD_writes {s t : State} (h : stepD s = .next t) : ∃ c d f hd p pl tdr pg pd, t =
    { s with
      seqD := c, d := d, fault := f, pendG := pg, pendD := pd
      rxne2 := if .l2RdrRd ∈ pulseD s then false else s.rxne2
      ore2 := if .l2OreClr ∈ pulseD s then false else s.ore2
      txe2 := if .l2TdrWr ∈ pulseD s then false else s.txe2
      tdr2 := if s.seqD = Seq.dp5 then tdr else s.tdr2
      head := if s.seqD = Seq.dp4 then hd else s.head
      txeie := if s.seqD = Seq.dp7 then false else s.txeie
      pin := if s.seqD = Seq.dp10 ∨ s.seqD = Seq.dp11 then p else s.pin
      pinlog := if s.seqD = Seq.dp10 ∨ s.seqD = Seq.dp11 then pl else s.pinlog } := by
  obtain ⟨-, -, -, rfl⟩ := microStepD_eq_next.1 h
  obtain ⟨c, d, f, hd, p, pl, tdr, e⟩ := ruleD_writes s
  obtain ⟨pg, pd, e'⟩ := afterRule_writes s (ruleD s)
  exact ⟨c, d, f, hd, p, pl, tdr, pg, pd, by rw [e', e]⟩

/-- TX_DONE, which is enabled while TXE_2 = 0, writes OUT, TXE_2 and the latches. -/
theorem execTxDone_writes {s t : State} (h : execTxDone s = .next t) : ∃ o f pg pd, t =
    { s with out := o, txe2 := s.tdr2.isWritten, fault := f, pendG := pg, pendD := pd } := by
  obtain ⟨hx, rfl⟩ := execTxDone_eq_next h
  obtain ⟨o, f, e⟩ := ruleTxDone_writes s
  obtain ⟨pg, pd, e'⟩ := afterRule_writes s (ruleTxDone s)
  exact ⟨o, f, pg, pd, by rw [e', e, hx, Bool.false_or]⟩

/-- Settles O53, word by word: what each word may write decides every clause, and the strobes of a micro-op are the
accesses that clear its flags. -/
theorem eachElementHasItsWriters : Obligations.EachElementHasItsWriters := by
  unfold Obligations.EachElementHasItsWriters
  intro i s t hi hG hD h
  rw [strobes_next h]
  rcases isStimulus_cases hi with hb | ⟨f, rfl | rfl⟩ | rfl | rfl | ⟨d, rfl⟩
  · simp only [blockWords, List.mem_cons, List.not_mem_nil, or_false] at hb
    rcases hb with rfl | rfl | rfl | rfl | rfl | rfl | rfl
    · obtain ⟨c, g, f, b, tl, pg, pd, rfl⟩ := stepG_writes h
      simp +contextual [pulses, mem_pulseG]
    · obtain ⟨c, d, f, hd, p, pl, tdr, pg, pd, rfl⟩ := stepD_writes h
      simp +contextual [pulses, mem_pulseD]
    · obtain ⟨-, -, -, -, rfl⟩ := enterG_eq_next.1 h
      simp [pulses]
    · obtain ⟨-, -, -, -, rfl⟩ := enterD_eq_next.1 h
      simp [pulses]
    · exact absurd rfl hG
    · exact absurd rfl hD
    · have hx := (execTxDone_eq_next h).1
      obtain ⟨o, f, pg, pd, rfl⟩ := execTxDone_writes h
      simp [pulses, hx]
  · obtain ⟨r, pg, pd, rfl⟩ := execGpsRx_writes h
    simp +contextual [pulses]
  · obtain ⟨r, pg, pd, rfl⟩ := execHostRx_writes h
    simp +contextual [pulses]
  · obtain ⟨pg, pd, e'⟩ := afterRule_writes s (ruleReset s)
    rw [execReset_eq_next h, e']
    simp [pulses, ruleReset, State.start]
  · obtain ⟨hd, r, f, pg, pd, rfl⟩ := execQPop_writes h
    simp [pulses]
  · obtain ⟨b, tl, r, f, pg, pd, rfl⟩ := execQPush_writes h
    simp [pulses]

end Sys2Proof.Machine

namespace Sys2Proof.Machine

/-! ### PINLOG grows by the pin strobes of every row (R31, R138, R139) -/

@[simp] theorem afterRule_pinlog (s u : State) : (afterRule s u).pinlog = u.pinlog := by
  unfold afterRule
  split <;> rfl

/-- An ingest micro-op leaves PINLOG to the pin strobes, of which it has none. -/
theorem stepG_pinlog (s t : State) (h : stepG s = .next t) : t.pinlog = s.pinlog ++ pinWrites (pulseG s) := by
  obtain ⟨-, -, -, rfl⟩ := microStepG_eq_next.1 h
  rw [afterRule_pinlog, ruleG_pinlog, pinWrites_pulseG, List.append_nil]

/-- A dispatch micro-op appends its pin strobe to PINLOG. -/
theorem stepD_pinlog (s t : State) (h : stepD s = .next t) : t.pinlog = s.pinlog ++ pinWrites (pulseD s) := by
  obtain ⟨-, -, -, rfl⟩ := microStepD_eq_next.1 h
  rw [afterRule_pinlog, ruleD_pinlog]

/-- The row of the micro-op `seq_G` holds is MSTEP_G (R72, R151). -/
theorem stepG_of_microAtG {c : SeqCode} {rule : State → State} {s t : State} (hr : s.seqG = c → ruleG s = rule s)
    (h : microAtG c rule s = .next t) : stepG s = .next t := by
  obtain ⟨hc, h⟩ := microAtG_eq_next.1 h
  obtain ⟨h1, h2, h3, rfl⟩ := microStepG_eq_next.1 h
  exact microStepG_eq_next.2 ⟨h1, h2, h3, by rw [hr hc]⟩

/-- The row of the micro-op `seq_D` holds is MSTEP_D (R72, R152). -/
theorem stepD_of_microAtD {c : SeqCode} {rule : State → State} {s t : State} (hr : s.seqD = c → ruleD s = rule s)
    (h : microAtD c rule s = .next t) : stepD s = .next t := by
  obtain ⟨hc, h⟩ := microAtD_eq_next.1 h
  obtain ⟨h1, h2, h3, rfl⟩ := microStepD_eq_next.1 h
  exact microStepD_eq_next.2 ⟨h1, h2, h3, by rw [hr hc]⟩

/-- A micro-op row whose rule leaves PINLOG alone leaves it alone. -/
theorem microAtG_pinlog {c : SeqCode} {rule : State → State} {s t : State} (hr : (rule s).pinlog = s.pinlog)
    (h : microAtG c rule s = .next t) : t.pinlog = s.pinlog := by
  obtain ⟨-, h⟩ := microAtG_eq_next.1 h
  obtain ⟨-, -, -, rfl⟩ := microStepG_eq_next.1 h
  rw [afterRule_pinlog, hr]

/-- The same for the dispatch engine. -/
theorem microAtD_pinlog {c : SeqCode} {rule : State → State} {s t : State} (hr : (rule s).pinlog = s.pinlog)
    (h : microAtD c rule s = .next t) : t.pinlog = s.pinlog := by
  obtain ⟨-, h⟩ := microAtD_eq_next.1 h
  obtain ⟨-, -, -, rfl⟩ := microStepD_eq_next.1 h
  rw [afterRule_pinlog, hr]

/-- A data class that has a next state is the run of its micro-ops (R66). -/
theorem ingestMeets_eq_next {v : Slot} {s t : State} {o : Out} (h : ingestMeets v s o = .next t) : o = .next t := by
  obtain ⟨-, h⟩ := requiresNoFault_eq_next.1 h
  obtain ⟨-, h⟩ := requires_eq_next.1 h
  exact (requires_eq_next.1 h).2

/-- A command class that has a next state is the run of its micro-ops (R67). -/
theorem commandMeets_eq_next {c : Slot} {s t : State} {o : Out} (h : commandMeets c s o = .next t) : o = .next t := by
  obtain ⟨-, h⟩ := requiresNoFault_eq_next.1 h
  obtain ⟨-, h⟩ := requires_eq_next.1 h
  exact (requires_eq_next.1 h).2

/-- An entry followed by the engine's micro-ops appends to PINLOG the pin strobes of the micro-ops (R103). -/
theorem activationG_pinlog {stop : State → Bool} {n : Nat} {s t : State}
    (h : andThen (enterG s) (repeatUntil stop stepG n) = .next t) :
    t.pinlog = s.pinlog ++ pinWrites (.enterG :: pulsesUntil stop stepG pulseG n (takeG s)) := by
  obtain ⟨u, hu, ht⟩ := andThen_eq_next.1 h
  obtain ⟨-, -, -, -, rfl⟩ := enterG_eq_next.1 hu
  exact repeatUntil_pinlog stepG_pinlog n ht

/-- The same for the dispatch engine (R122). -/
theorem activationD_pinlog {stop : State → Bool} {n : Nat} {s t : State}
    (h : andThen (enterD s) (repeatUntil stop stepD n) = .next t) :
    t.pinlog = s.pinlog ++ pinWrites (.enterD :: pulsesUntil stop stepD pulseD n (takeD s)) := by
  obtain ⟨u, hu, ht⟩ := andThen_eq_next.1 h
  obtain ⟨-, -, -, -, rfl⟩ := enterD_eq_next.1 hu
  exact repeatUntil_pinlog stepD_pinlog n ht

theorem execFeed_pinlog {v : Slot} {s t : State} (h : execFeed v s = .next t) :
    t.pinlog = s.pinlog ++ pinWrites (pulsesFeed v s) := by
  obtain ⟨u, hu, ht⟩ := andThen_eq_next.1 h
  rw [pulsesFeed, hu]
  obtain ⟨r, pg, pd, rfl⟩ := execGpsRx_writes hu
  exact activationG_pinlog ht

/-- FEEDS is the FEED of its first character, then FEEDS of the rest (R76). -/
theorem execFeeds_cons {c : Slot} {cs : List Slot} {s t : State} (h : execFeeds (c :: cs) s = .next t) :
    ∃ u, execFeed c s = .next u ∧ (cs = [] ∧ t = u ∨ execFeeds cs u = .next t) := by
  cases cs with
  | nil => exact ⟨t, h, .inl ⟨rfl, rfl⟩⟩
  | cons c' rest =>
    obtain ⟨u, hu, ht⟩ := andThen_eq_next.1 h
    exact ⟨u, hu, .inr ht⟩

theorem execFeeds_pinlog {cs : List Slot} {s t : State} (h : execFeeds cs s = .next t) :
    t.pinlog = s.pinlog ++ pinWrites (pulsesFeeds cs s) := by
  induction cs generalizing s with
  | nil =>
    obtain ⟨-, h⟩ := requiresNoFault_eq_next.1 h
    cases h
    simp [pulsesFeeds]
  | cons c cs ih =>
    obtain ⟨u, hu, hrest⟩ := execFeeds_cons h
    have htail : t.pinlog = u.pinlog ++ pinWrites (pulsesFeeds cs u) := by
      obtain ⟨rfl, rfl⟩ | ht := hrest
      · simp [pulsesFeeds]
      · exact ih ht
    rw [htail, execFeed_pinlog hu, pulsesFeeds, hu]
    simp

/-- Every row appends to PINLOG its pin strobes, in order (R31). -/
theorem exec_pinlog (i : Instr) (s t : State) (h : exec i s = .next t) :
    t.pinlog = s.pinlog ++ pinWrites (pulses i s) := by
  have primitive : ∀ {u : State}, requiresNoFault s (.next u) = .next t → t = u := fun h => by
    obtain ⟨-, h⟩ := requiresNoFault_eq_next.1 h
    cases h
    rfl
  cases i with
  | gpsRx f => obtain ⟨r, pg, pd, rfl⟩ := execGpsRx_writes h; simp [pulses]
  | hostRx f => obtain ⟨r, pg, pd, rfl⟩ := execHostRx_writes h; simp [pulses]
  | txDone => obtain ⟨o, f, pg, pd, rfl⟩ := execTxDone_writes h; simp [pulses]
  | qPush d => obtain ⟨b, tl, r, f, pg, pd, rfl⟩ := execQPush_writes h; simp [pulses]
  | qPop => obtain ⟨hd, r, f, pg, pd, rfl⟩ := execQPop_writes h; simp [pulses]
  | reset => rw [execReset_eq_next h]; simp [pulses, ruleReset]
  | enterG => obtain ⟨-, -, -, -, rfl⟩ := enterG_eq_next.1 h; simp [pulses, Strobe.pinWrite]
  | enterD => obtain ⟨-, -, -, -, rfl⟩ := enterD_eq_next.1 h; simp [pulses, Strobe.pinWrite]
  | mstepG => exact stepG_pinlog s t h
  | mstepD => exact stepD_pinlog s t h
  | runG => exact activationG_pinlog h
  | runD => exact activationD_pinlog h
  | stepallG => exact activationG_pinlog h
  | stepallD => exact activationD_pinlog h
  | reservedOp0 z d | reservedOpC z d | reservedOpD z d | reservedOpE z d =>
    have h : refuseReservedOp z = .next t := h
    unfold refuseReservedOp at h
    split at h <;> cases h
  | reservedBits op z d => cases h
  | ingNull => exact stepG_pinlog s t (ingestMeets_eq_next h)
  | ingData v => exact repeatUntil_pinlog stepG_pinlog 4 (requires_eq_next.1 (ingestMeets_eq_next h)).2
  | cmdPinOff => exact repeatUntil_pinlog stepD_pinlog 2 (commandMeets_eq_next h)
  | cmdPinOn => exact repeatUntil_pinlog stepD_pinlog 2 (commandMeets_eq_next h)
  | cmdOther v => exact stepD_pinlog s t (requires_eq_next.1 (commandMeets_eq_next h)).2
  | ig1 => exact stepG_pinlog s t (stepG_of_microAtG ruleG_ig1 h)
  | ig2 => exact stepG_pinlog s t (stepG_of_microAtG ruleG_ig2 h)
  | ig3 => exact stepG_pinlog s t (stepG_of_microAtG ruleG_ig3 h)
  | ig4 => exact stepG_pinlog s t (stepG_of_microAtG ruleG_ig4 h)
  | ig5 => exact stepG_pinlog s t (stepG_of_microAtG ruleG_ig5 h)
  | ig6 => exact stepG_pinlog s t (stepG_of_microAtG ruleG_ig6 h)
  | ig7 => exact stepG_pinlog s t (stepG_of_microAtG ruleG_ig7 h)
  | ig8 => exact stepG_pinlog s t (stepG_of_microAtG ruleG_ig8 h)
  | dp1 => exact stepD_pinlog s t (stepD_of_microAtD ruleD_dp1 h)
  | dp2 => exact stepD_pinlog s t (stepD_of_microAtD ruleD_dp2 h)
  | dp3 => exact stepD_pinlog s t (stepD_of_microAtD ruleD_dp3 h)
  | dp4 => exact stepD_pinlog s t (stepD_of_microAtD ruleD_dp4 h)
  | dp5 => exact stepD_pinlog s t (stepD_of_microAtD ruleD_dp5 h)
  | dp6 => exact stepD_pinlog s t (stepD_of_microAtD ruleD_dp6 h)
  | dp7 => exact stepD_pinlog s t (stepD_of_microAtD ruleD_dp7 h)
  | dp8 => exact stepD_pinlog s t (stepD_of_microAtD ruleD_dp8 h)
  | dp9 => exact stepD_pinlog s t (stepD_of_microAtD ruleD_dp9 h)
  | dp10 => exact stepD_pinlog s t (stepD_of_microAtD ruleD_dp10 h)
  | dp11 => exact stepD_pinlog s t (stepD_of_microAtD ruleD_dp11 h)
  | dp12 => exact stepD_pinlog s t (stepD_of_microAtD ruleD_dp12 h)
  | dp13 => exact stepD_pinlog s t (stepD_of_microAtD ruleD_dp13 h)
  | idleG =>
    obtain ⟨hc, h⟩ := microAtG_eq_next.1 h
    obtain ⟨-, hne, -, -⟩ := microStepG_eq_next.1 h
    exact absurd hc hne
  | idleD =>
    obtain ⟨hc, h⟩ := microAtD_eq_next.1 h
    obtain ⟨-, hne, -, -⟩ := microStepD_eq_next.1 h
    exact absurd hc hne
  | unusedG c =>
    obtain ⟨-, h⟩ := requiresNoFault_eq_next.1 h
    obtain ⟨-, h⟩ := requires_eq_next.1 h
    rw [microAtG_pinlog rfl h]
    simp [pulses]
  | unusedD c =>
    obtain ⟨-, h⟩ := requiresNoFault_eq_next.1 h
    obtain ⟨-, h⟩ := requires_eq_next.1 h
    rw [microAtD_pinlog rfl h]
    simp [pulses]
  | push v =>
    rw [primitive h]
    unfold pushSlot writeSlot
    split_ifs <;> simp [pulses]
  | pop =>
    rw [primitive h]
    unfold popSlot readSlot
    cases s.buf.read (slotIndex s.cfg s.head) <;> split_ifs <;> simp [pulses]
  | setTxeie => rw [primitive h]; simp [pulses]
  | clearTxeie => rw [primitive h]; simp [pulses]
  | readRdr l =>
    rw [primitive h, readRdrOf]
    cases l <;> cases hr : rdr _ s <;> simp [pulses]
  | writeTdr v => rw [primitive h]; simp [pulses, Strobe.pinWrite]
  | clearOre l => rw [primitive h]; cases l <;> simp [pulses]
  | pinSet => rw [primitive h]; simp [pulses, Strobe.pinWrite]
  | pinReset => rw [primitive h]; simp [pulses, Strobe.pinWrite]
  | feed v => exact execFeed_pinlog h
  | feeds cs => exact execFeeds_pinlog h
  | cmd v =>
    obtain ⟨u, hu, ht⟩ := andThen_eq_next.1 h
    rw [pulses, show execHostRx v s = .next u from hu, pulsesAfter_next]
    obtain ⟨r, pg, pd, rfl⟩ := execHostRx_writes hu
    exact activationD_pinlog ht
  | xmit =>
    obtain ⟨u, hu, ht⟩ := andThen_eq_next.1 h
    have hrun := activationD_pinlog hu
    obtain ⟨o, f, pg, pd, rfl⟩ := execTxDone_writes ht
    exact hrun
end Sys2Proof.Machine

namespace Sys2Proof.Machine

/-! ### Every stimulus word keeps the safety invariant (R144) -/

/-- A state that differs in RES alone meets the safety invariant too. -/
theorem safeInv_res {s : State} (h : SafeInv s) (r : Res) : SafeInv { s with res := r } :=
  ⟨{ h.data with }, { h.ingest with }, { h.dispatch with }, h.noFault⟩

theorem safeInv_enterG {s t : State} (h : SafeInv s) (hs : enterG s = .next t) : SafeInv t := by
  obtain ⟨-, -, -, -, rfl⟩ := enterG_eq_next.1 hs
  exact safeInv_takeG h

theorem safeInv_enterD {s t : State} (h : SafeInv s) (hs : enterD s = .next t) : SafeInv t := by
  obtain ⟨-, -, -, -, rfl⟩ := enterD_eq_next.1 hs
  exact safeInv_takeD h

theorem safeInv_stepG {s t : State} (h : SafeInv s) (hs : stepG s = .next t) : SafeInv t := (stepG_eq_next h hs).2.2

theorem safeInv_stepD {s t : State} (h : SafeInv s) (hs : stepD s = .next t) : SafeInv t := (stepD_eq_next h hs).2.2

theorem safeInv_arrive {l : Link} {f : Slot} {s t : State} (h : SafeInv s) (hs : arrive l f s = .next t) :
    SafeInv t := by
  rw [arrive_eq_next hs]
  exact safeInv_afterRule (safeInv_receiveFrame h l f)

theorem safeInv_execQPush {d : Slot} {s t : State} (h : SafeInv s) (hs : execQPush d s = .next t) : SafeInv t := by
  obtain ⟨-, ⟨hG, -⟩, rfl⟩ := harnessStep_eq_next hs
  exact safeInv_afterRule (safeInv_pushSlot h d .qPush hG _ fun r _ hu => safeInv_res hu r)

theorem safeInv_execQPop {s t : State} (h : SafeInv s) (hs : execQPop s = .next t) : SafeInv t := by
  obtain ⟨-, ⟨-, hD⟩, rfl⟩ := harnessStep_eq_next hs
  exact safeInv_afterRule (safeInv_popSlot h .qPop hD _ fun r _ hu => safeInv_res hu r)

/-- Every stimulus word, in every PRIO_MODE, leads from a safe state to a safe state (R144). -/
theorem safeInv_word {i : Instr} {s t : State} (hi : i.isStimulus = true) (h : SafeInv s)
    (hs : exec i s = .next t) : SafeInv t := by
  rcases isStimulus_cases hi with hb | ⟨f, rfl | rfl⟩ | rfl | rfl | ⟨d, rfl⟩
  · simp only [blockWords, List.mem_cons, List.not_mem_nil, or_false] at hb
    rcases hb with rfl | rfl | rfl | rfl | rfl | rfl | rfl
    · exact safeInv_stepG h hs
    · exact safeInv_stepD h hs
    · exact safeInv_enterG h hs
    · exact safeInv_enterD h hs
    · obtain ⟨u, hu, ht⟩ := andThen_eq_next.1 hs
      exact repeatUntil_keeps (fun _ _ => safeInv_stepG) _ _ _ (safeInv_enterG h hu) ht
    · obtain ⟨u, hu, ht⟩ := andThen_eq_next.1 hs
      exact repeatUntil_keeps (fun _ _ => safeInv_stepD) _ _ _ (safeInv_enterD h hu) ht
    · obtain ⟨hx, rfl⟩ := execTxDone_eq_next hs
      exact safeInv_afterRule (safeInv_ruleTxDone h hx)
  · exact safeInv_arrive h hs
  · exact safeInv_arrive h hs
  · rw [execReset_eq_next hs]
    exact safeInv_afterRule (safeInv_ruleReset h)
  · exact safeInv_execQPop h hs
  · exact safeInv_execQPush h hs

/-! ### What a word leaves of the way from HEAD to OUT -/

/-- What a step of another agent leaves of the way a value takes from HEAD to OUT. -/
structure KeepsSend (s t : State) : Prop where
  cfg : t.cfg = s.cfg
  head : t.head = s.head
  txe2 : t.txe2 = s.txe2
  tdr2 : t.tdr2 = s.tdr2
  out : t.out = s.out
  hand : inHand t = inHand s

theorem KeepsSend.trans {s t u : State} (h : KeepsSend s t) (k : KeepsSend t u) : KeepsSend s u :=
  ⟨k.cfg.trans h.cfg, k.head.trans h.head, k.txe2.trans h.txe2, k.tdr2.trans h.tdr2, k.out.trans h.out,
    k.hand.trans h.hand⟩

/-- An ingest micro-op is not on the way from HEAD to OUT (R46). -/
theorem keepsSend_stepG {s t : State} (h : stepG s = .next t) : KeepsSend s t := by
  obtain ⟨c, g, f, b, tl, pg, pd, rfl⟩ := stepG_writes h
  exact ⟨rfl, rfl, rfl, rfl, rfl, rfl⟩

theorem keepsSend_enterG {s t : State} (h : enterG s = .next t) : KeepsSend s t := by
  obtain ⟨-, -, -, -, rfl⟩ := enterG_eq_next.1 h
  exact ⟨rfl, rfl, rfl, rfl, rfl, rfl⟩

theorem keepsSend_enterD {s t : State} (h : enterD s = .next t) : KeepsSend s t := by
  obtain ⟨-, -, hq, -, rfl⟩ := enterD_eq_next.1 h
  exact ⟨rfl, rfl, rfl, rfl, rfl, by simp [inHand, hq]⟩

/-- Every word but RESET, Q_POP, TX_DONE and the dispatch engine's steps leaves that way alone (R46). -/
theorem keepsSend_word {i : Instr} {s t : State} (hi : i.isStimulus = true) (h1 : i ≠ .reset) (h2 : i ≠ .qPop)
    (h3 : i ≠ .txDone) (h4 : i ≠ .mstepD) (h5 : i ≠ .runD) (h : exec i s = .next t) : KeepsSend s t := by
  rcases isStimulus_cases hi with hb | ⟨f, rfl | rfl⟩ | rfl | rfl | ⟨d, rfl⟩
  · simp only [blockWords, List.mem_cons, List.not_mem_nil, or_false] at hb
    rcases hb with rfl | rfl | rfl | rfl | rfl | rfl | rfl
    · exact keepsSend_stepG h
    · exact absurd rfl h4
    · exact keepsSend_enterG h
    · exact keepsSend_enterD h
    · obtain ⟨u, hu, ht⟩ := andThen_eq_next.1 h
      exact repeatUntil_keeps (fun _ _ hv hw => hv.trans (keepsSend_stepG hw)) _ _ _ (keepsSend_enterG hu) ht
    · exact absurd rfl h5
    · exact absurd rfl h3
  · obtain ⟨r, pg, pd, rfl⟩ := execGpsRx_writes h
    exact ⟨rfl, rfl, rfl, rfl, rfl, rfl⟩
  · obtain ⟨r, pg, pd, rfl⟩ := execHostRx_writes h
    exact ⟨rfl, rfl, rfl, rfl, rfl, rfl⟩
  · exact absurd rfl h1
  · exact absurd rfl h2
  · obtain ⟨b, tl, r, f, pg, pd, rfl⟩ := execQPush_writes h
    exact ⟨rfl, rfl, rfl, rfl, rfl, rfl⟩

/-! ### OUT gains frames alone (R30, R65) -/

/-- The part of a register value that goes on the wire is a frame (R65). -/
theorem isFrame_frameOf (cfg : Config) (v : Slot) : IsFrame cfg (frameOf cfg v) := by
  unfold frameOf
  cases h : cfg.frameW with
  | w8 =>
    have := (v.extractLsb' 0 8).isLt
    simp only [IsFrame, h, FrameW.bits, BitVec.toNat_setWidth]
    omega
  | w9 =>
    simp only [IsFrame, h, FrameW.bits]
    exact v.isLt

/-- What TX_DONE appends to OUT (R142). -/
theorem execTxDone_out {s t : State} (h : execTxDone s = .next t) :
    t.cfg = s.cfg ∧
      (s.tdr2 = .unwritten ∧ t.out = s.out ∨ ∃ v, s.tdr2 = .holds v ∧ t.out = s.out ++ [frameOf s.cfg v]) := by
  obtain ⟨-, rfl⟩ := execTxDone_eq_next h
  obtain ⟨pg, pd, e⟩ := afterRule_writes s (ruleTxDone s)
  rw [e, ruleTxDone]
  cases s.tdr2 with
  | unwritten => exact ⟨rfl, .inl ⟨rfl, rfl⟩⟩
  | holds v => exact ⟨rfl, .inr ⟨v, rfl, rfl⟩⟩

/-- A dispatch micro-op leaves OUT and the parameters as they are. -/
theorem stepD_out {s t : State} (h : stepD s = .next t) : t.cfg = s.cfg ∧ t.out = s.out := by
  obtain ⟨c, d, f, hd, p, pl, tdr, pg, pd, rfl⟩ := stepD_writes h
  exact ⟨rfl, rfl⟩

/-- Every word but TX_DONE leaves OUT and the parameters as they are. -/
theorem out_word {i : Instr} {s t : State} (hi : i.isStimulus = true) (hx : i ≠ .txDone) (h : exec i s = .next t) :
    t.cfg = s.cfg ∧ t.out = s.out := by
  by_cases h1 : i = .reset
  · subst h1
    obtain ⟨pg, pd, e⟩ := afterRule_writes s (ruleReset s)
    rw [execReset_eq_next h, e]
    exact ⟨rfl, rfl⟩
  by_cases h2 : i = .qPop
  · subst h2
    obtain ⟨hd, r, f, pg, pd, rfl⟩ := execQPop_writes h
    exact ⟨rfl, rfl⟩
  by_cases h4 : i = .mstepD
  · subst h4
    exact stepD_out h
  by_cases h5 : i = .runD
  · subst h5
    obtain ⟨u, hu, ht⟩ := andThen_eq_next.1 h
    have hk := keepsSend_enterD hu
    exact repeatUntil_keeps (P := fun v => v.cfg = s.cfg ∧ v.out = s.out)
      (fun _ _ hv hw => ⟨(stepD_out hw).1.trans hv.1, (stepD_out hw).2.trans hv.2⟩) _ _ _ ⟨hk.cfg, hk.out⟩ ht
  have hk := keepsSend_word hi h1 h2 hx h4 h5 h
  exact ⟨hk.cfg, hk.out⟩

/-- Every word leaves the parameters as they are and appends only frames to OUT. -/
theorem frames_word {i : Instr} {s t : State} (hi : i.isStimulus = true) (h : exec i s = .next t) :
    t.cfg = s.cfg ∧ ∃ fs : List Slot, t.out = s.out ++ fs ∧ ∀ f ∈ fs, IsFrame s.cfg f := by
  by_cases hx : i = .txDone
  · subst hx
    obtain ⟨hc, ⟨-, ho⟩ | ⟨v, -, ho⟩⟩ := execTxDone_out h
    · exact ⟨hc, [], by simp [ho], by simp⟩
    · exact ⟨hc, [frameOf s.cfg v], ho, by simpa using isFrame_frameOf s.cfg v⟩
  · obtain ⟨hc, ho⟩ := out_word hi hx h
    exact ⟨hc, [], by simp [ho], by simp⟩

/-- A word that decodes is a stimulus word (R69, R71). -/
theorem decodeStimulus_isStimulus {cfg : Config} {w : StimWord} {i : Instr} (h : decodeStimulus cfg w = .ok i) :
    i.isStimulus = true := by
  unfold decodeStimulus frameWord plainWord at h
  split at h
  · cases h
  · split at h
    case h_10 => cases h; rfl
    case h_13 => cases h
    all_goals split at h <;> cases h; rfl

/-- A step is the `exec` of a stimulus word in the state with the word taken off (R77). -/
theorem step_eq_next {s t : State} (h : step s = .next t) :
    ∃ i rest, i.isStimulus = true ∧ exec i { s with trace := rest } = .next t := by
  cases ht : s.trace with
  | nil => rw [step_of_nil ht] at h; cases h
  | cons w rest =>
    cases hd : decodeStimulus s.cfg w with
    | error e => rw [step_of_error ht hd] at h; cases h
    | ok i => exact ⟨i, rest, decodeStimulus_isStimulus hd, (step_of_decode ht hd).symm.trans h⟩

/-! ### The values a run carries from the queue to OUT (R109, R110, R111, R142) -/

/-- The values that went from the queue to OUT in a step, in order: those taken off the queue come to TDR_2 through the
hand of the dispatch engine, and those written to TDR_2 come to OUT through the holding register. -/
structure Carries (s t : State) (popped written : List (Reg Slot)) : Prop where
  cfg : t.cfg = s.cfg
  hand : inHand s ++ popped = written ++ inHand t
  sent : ∃ fs : List Slot, t.out = s.out ++ fs ∧
    (inHolding s ++ written).map (sentFrame s.cfg) = fs.map Reg.holds ++ (inHolding t).map (sentFrame s.cfg)

/-- What two steps carry is carried by the two together. -/
theorem Carries.trans {s t u : State} {p p' w w' : List (Reg Slot)} (h : Carries s t p w) (k : Carries t u p' w') :
    Carries s u (p ++ p') (w ++ w') := by
  obtain ⟨fs, ho, hf⟩ := h.sent
  obtain ⟨fs', ho', hf'⟩ := k.sent
  refine ⟨k.cfg.trans h.cfg, ?_, fs ++ fs', by rw [ho', ho, List.append_assoc], ?_⟩
  · rw [← List.append_assoc, h.hand, List.append_assoc, k.hand, List.append_assoc]
  · rw [h.cfg] at hf'
    rw [← List.append_assoc, List.map_append, hf, List.append_assoc, ← List.map_append, hf', List.map_append,
      List.append_assoc]

/-- What the queue and the transmitter show of a step, as `runMoved` collects it. -/
abbrev StepCarries (s t : State) : Prop := Carries s t (queueMoved s t).2 (transmitted s t)

/-- A step that leaves HEAD alone takes no value off the queue. -/
theorem queueMoved_of_head {s t : State} (h : t.head = s.head) : (queueMoved s t).2 = [] := if_pos h

/-- A step that leaves TXE_2 alone writes no value to TDR_2. -/
theorem transmitted_of_txe2 {s t : State} (h : t.txe2 = s.txe2) : transmitted s t = [] := by
  unfold transmitted
  rw [h]
  exact if_neg fun ⟨h1, h2⟩ => by simp [h1] at h2

/-- A step that leaves the way alone carries nothing on it. -/
theorem KeepsSend.carries {s t : State} (h : KeepsSend s t) : StepCarries s t := by
  obtain ⟨hc, hh, hx, hr, ho, hi⟩ := h
  unfold StepCarries
  rw [queueMoved_of_head hh, transmitted_of_txe2 hx]
  exact ⟨hc, by simp [hi], [], by simp [ho], by simp [inHolding, hx, hr]⟩

/-- TX_DONE sends the value in the holding register (R142). -/
theorem carries_txDone {s t : State} (h : SafeInv s) (hs : execTxDone s = .next t) : StepCarries s t := by
  have hx := (execTxDone_eq_next hs).1
  obtain ⟨v, hv⟩ := Reg.isWritten_iff.1 (h.data.tdr2_written hx)
  obtain ⟨hc, ⟨hu, -⟩ | ⟨w, hw, ho⟩⟩ := execTxDone_out hs
  · rw [hu] at hv; cases hv
  obtain ⟨o, f, pg, pd, rfl⟩ := execTxDone_writes hs
  refine ⟨hc, ?_, [frameOf s.cfg w], ho, ?_⟩
  · simp [queueMoved, transmitted, hx, inHand]
  · simp [transmitted, inHolding, hx, hw, sentFrame]

/-- The successor of a cursor in range is another cursor (R84). -/
theorem nextCursor_ne (cfg : Config) {c : Nat} (h : c < 2 * cfg.cap) : nextCursor cfg c ≠ c := by
  rw [nextCursor_eq cfg h]
  split <;> omega

/-- A dispatch micro-op ends the activation or goes on to a later one, and only DP4 leads to DP5 (R106 to R121). -/
theorem ruleD_moves {s : State} (h : SafeInv s) (hne : s.seqD ≠ Seq.idle) :
    ((ruleD s).seqD = Seq.idle ∨ s.seqD.toNat < (ruleD s).seqD.toNat) ∧
    ((ruleD s).seqD = Seq.dp5 → s.seqD = Seq.dp4) := by
  rcases ruleD_forms h hne with ⟨e, r⟩ | ⟨c, e, -, hc, r⟩ | ⟨v, e, -, r⟩ | ⟨e, -, r⟩ | ⟨v, e, -, r⟩ | ⟨e, r⟩ |
    ⟨e, r⟩ | ⟨e, r⟩ | ⟨c, v, e, hc, r⟩ | ⟨e, r⟩ | ⟨e, r⟩ | ⟨c, e, hc, r⟩ | ⟨e, r⟩ <;> rw [r, e]
  case inl => simp only [ruleDp1]; split <;> decide
  case inr.inl => rcases hc with rfl | ⟨-, rfl⟩ <;> (dsimp only; decide)
  case inr.inr.inr.inr.inr.inl => simp only [ruleDp6]; split <;> decide
  case inr.inr.inr.inr.inr.inr.inr.inl => simp only [ruleDp8]; split <;> decide
  case inr.inr.inr.inr.inr.inr.inr.inr.inl => rcases hc with rfl | rfl | rfl <;> (dsimp only; decide)
  case inr.inr.inr.inr.inr.inr.inr.inr.inr.inr.inr.inl => rcases hc with rfl | rfl <;> (dsimp only; decide)
  all_goals simp only [ruleDp7, ruleDp10, ruleDp11, ruleDp13, leaveD]; decide

/-- A dispatch micro-op other than DP4 and DP5 leaves the way from HEAD to OUT alone. -/
theorem keepsSend_stepD {s t : State} (h : SafeInv s) (hs : stepD s = .next t) (h4 : s.seqD ≠ Seq.dp4)
    (h5 : s.seqD ≠ Seq.dp5) : KeepsSend s t := by
  obtain ⟨hne, e, -⟩ := stepD_eq_next h hs
  have h5' : t.seqD ≠ Seq.dp5 := fun h' => h4 ((ruleD_moves h hne).2 (by rw [e] at h'; exact h'))
  have hp : Strobe.l2TdrWr ∉ pulseD s := by simp [mem_pulseD, h5]
  obtain ⟨c, d, f, hd, p, pl, tdr, pg, pd, rfl⟩ := stepD_writes hs
  exact ⟨rfl, if_neg h4, if_neg hp, if_neg h5, rfl, by simp only [inHand, if_neg h5, if_neg h5']⟩

/-- DP4 takes the value at the head of the queue in hand (R109, R110). -/
theorem carries_dp4 {s t : State} (h : SafeInv s) (hs : stepD s = .next t) (e : s.seqD = Seq.dp4) :
    StepCarries s t := by
  obtain ⟨-, rfl, -⟩ := stepD_eq_next h hs
  obtain ⟨hx, hh, -, -, hv⟩ := h.dispatch.dp4 e
  rw [ruleD_dp4 e, ruleDp4_holds hh]
  have hne := nextCursor_ne s.cfg h.data.head_lt
  refine ⟨rfl, ?_, [], by simp, ?_⟩
  · simp [inHand, e, queueMoved, transmitted, hne, hv, hx]
  · simp [transmitted, inHolding, hx]

/-- DP5 writes the value in hand to TDR_2 (R111). -/
theorem carries_dp5 {s t : State} (h : SafeInv s) (hs : stepD s = .next t) (e : s.seqD = Seq.dp5) :
    StepCarries s t := by
  obtain ⟨-, rfl, -⟩ := stepD_eq_next h hs
  obtain ⟨hx, hv⟩ := h.dispatch.dp5 e
  obtain ⟨v, hv⟩ := Reg.isWritten_iff.1 hv
  rw [ruleD_dp5 e, ruleDp5_holds hx hv]
  refine ⟨rfl, ?_, [], by simp, ?_⟩
  · simp [inHand, e, queueMoved, transmitted, hv, hx]
  · simp [transmitted, inHolding, hx]

/-- Every dispatch micro-op carries the values on their way. -/
theorem carries_stepD {s t : State} (h : SafeInv s) (hs : stepD s = .next t) : StepCarries s t := by
  by_cases h4 : s.seqD = Seq.dp4
  · exact carries_dp4 h hs h4
  by_cases h5 : s.seqD = Seq.dp5
  · exact carries_dp5 h hs h5
  exact (keepsSend_stepD h hs h4 h5).carries

/-- An activation that began in `s` and has come to `u`: HEAD is as it was up to DP4 and TXE_2 up to DP5, so that
neither moves twice, and all that the activation moved is what `s` and `u` show. -/
structure Activation (s u : State) : Prop where
  safe : SafeInv u
  buf : u.buf = s.buf
  head : u.seqD ≠ Seq.idle → u.seqD.toNat ≤ 4 → u.head = s.head
  txe2 : u.seqD ≠ Seq.idle → u.seqD.toNat ≤ 5 → u.txe2 = s.txe2
  carries : StepCarries s u

/-- Where a dispatch micro-op leaves HEAD and where it leaves TXE_2 and TDR_2 (R46). -/
theorem stepD_leaves {s t : State} (hs : stepD s = .next t) :
    t.buf = s.buf ∧ (s.seqD ≠ Seq.dp4 → t.head = s.head) ∧ (s.seqD ≠ Seq.dp5 → t.txe2 = s.txe2 ∧ t.tdr2 = s.tdr2) := by
  obtain ⟨c, d, f, hd, p, pl, tdr, pg, pd, rfl⟩ := stepD_writes hs
  refine ⟨rfl, fun h4 => if_neg h4, fun h5 => ⟨if_neg ?_, if_neg h5⟩⟩
  simp [mem_pulseD, h5]

/-- DP4 comes once in an activation and DP5 once, so what two micro-ops move is what both show together. -/
theorem Activation.step {s u v : State} (h : Activation s u) (hs : stepD u = .next v) : Activation s v := by
  have hcode : u.seqD ≠ Seq.idle ∧ (v.seqD ≠ Seq.idle → u.seqD.toNat < v.seqD.toNat) := by
    obtain ⟨hne, rfl, -⟩ := stepD_eq_next h.safe hs
    exact ⟨hne, (ruleD_moves h.safe hne).1.resolve_left⟩
  obtain ⟨hne, hlt⟩ := hcode
  obtain ⟨hbuf, hhead, hwrite⟩ := stepD_leaves hs
  have hpop : (queueMoved s v).2 = (queueMoved s u).2 ++ (queueMoved u v).2 := by
    by_cases h4 : u.seqD = Seq.dp4
    · have hu := h.head hne (by simp [h4])
      rw [queueMoved_of_head hu]
      simp [queueMoved, hu, h.buf, h.carries.cfg]
    · rw [queueMoved_of_head (hhead h4)]
      simp [queueMoved, hhead h4]
  have hwr : transmitted s v = transmitted s u ++ transmitted u v := by
    by_cases h5 : u.seqD = Seq.dp5
    · have hu := h.txe2 hne (by simp [h5])
      rw [transmitted_of_txe2 hu]
      simp [transmitted, hu]
    · obtain ⟨hx, hr⟩ := hwrite h5
      rw [transmitted_of_txe2 hx]
      simp [transmitted, hx, hr]
  refine ⟨safeInv_stepD h.safe hs, hbuf.trans h.buf, fun hi hle => ?_, fun hi hle => ?_, ?_⟩
  · have hu := hlt hi
    rw [hhead fun e => absurd hle (e ▸ hu).not_ge]
    exact h.head hne (by omega)
  · have hu := hlt hi
    rw [(hwrite fun e => absurd hle (e ▸ hu).not_ge).1]
    exact h.txe2 hne (by omega)
  · rw [StepCarries, hpop, hwr]
    exact h.carries.trans (carries_stepD h.safe hs)

/-- A whole dispatch activation carries at most one value from HEAD to TDR_2 (R122, R123). -/
theorem carries_runD {s t : State} (h : SafeInv s) (hs : execRunD s = .next t) : StepCarries s t := by
  obtain ⟨u, hu, ht⟩ := andThen_eq_next.1 hs
  have hk := keepsSend_enterD hu
  have hbuf : u.buf = s.buf := by
    obtain ⟨-, -, -, -, rfl⟩ := enterD_eq_next.1 hu
    rfl
  have hstart : Activation s u := ⟨safeInv_enterD h hu, hbuf, fun _ _ => hk.head, fun _ _ => hk.txe2, hk.carries⟩
  exact (repeatUntil_keeps (fun _ _ => Activation.step) _ _ _ hstart ht).carries

/-- Every word but RESET and Q_POP carries the values on their way from HEAD to OUT. -/
theorem carries_word {i : Instr} {s t : State} (hi : i.isStimulus = true) (h1 : i ≠ .reset) (h2 : i ≠ .qPop)
    (h : SafeInv s) (hs : exec i s = .next t) : StepCarries s t := by
  by_cases h3 : i = .txDone
  · subst h3
    exact carries_txDone h hs
  by_cases h4 : i = .mstepD
  · subst h4
    exact carries_stepD h hs
  by_cases h5 : i = .runD
  · subst h5
    exact carries_runD h hs
  exact (keepsSend_word hi h1 h2 h3 h4 h5 hs).carries

/-- The first word of a run, and the run of the rest. -/
theorem runMoved_cons {i : Instr} {is : List Instr} {s t : State} {m : Moved} (h : runMoved (i :: is) s = some (m, t)) :
    ∃ u m', exec i s = .next u ∧ runMoved is u = some (m', t) ∧
      m = ⟨(queueMoved s u).1 ++ m'.pushed, (queueMoved s u).2 ++ m'.popped, transmitted s u ++ m'.written⟩ := by
  rw [runMoved] at h
  cases hs : exec i s with
  | next u =>
    cases hr : runMoved is u with
    | none => rw [hs] at h; simp [hr] at h
    | some p =>
      obtain ⟨m', t'⟩ := p
      rw [hs] at h
      simp only [hr, Option.some.injEq, Prod.mk.injEq] at h
      obtain ⟨rfl, rfl⟩ := h
      exact ⟨u, m', rfl, hr, rfl⟩
  | fault r => rw [hs] at h; cases h
  | refused r => rw [hs] at h; cases h

/-- A run of words but RESET and Q_POP carries the values it pops to TDR_2 and those it writes to OUT, in order. -/
theorem carries_run {is : List Instr} {s t : State} {m : Moved} (h : SafeInv s)
    (hi : ∀ i ∈ is, i.isStimulus = true ∧ i ≠ .reset ∧ i ≠ .qPop) (hr : runMoved is s = some (m, t)) :
    Carries s t m.popped m.written := by
  induction is generalizing s m with
  | nil =>
    cases hr
    exact ⟨rfl, by simp, [], by simp, by simp⟩
  | cons i is ih =>
    obtain ⟨⟨h0, h1, h2⟩, hrest⟩ := List.forall_mem_cons.1 hi
    obtain ⟨u, m', hs, htail, rfl⟩ := runMoved_cons hr
    exact (carries_word h0 h1 h2 h hs).trans (ih (safeInv_word h0 h hs) hrest htail)

/-- Settles O54: OUT by the words' frames, PINLOG by the rows' pin strobes, and the values of a run by induction on its
words. -/
theorem observationsOnlyGrow : Obligations.ObservationsOnlyGrow := by
  unfold Obligations.ObservationsOnlyGrow
  refine ⟨fun s t h => ?_, fun i s t h => ?_, fun is s t m h hi hr => ?_⟩
  · obtain ⟨i, rest, hi, hs⟩ := step_eq_next h
    obtain ⟨hc, fs, ho, hf⟩ := frames_word hi hs
    refine ⟨hc, ⟨fs, ho, hf⟩, ⟨_, exec_pinlog i { s with trace := rest } t hs⟩, fun hout f hmem => ?_⟩
    rw [ho] at hmem
    rw [hc]
    exact (List.mem_append.1 hmem).elim (hout f) (hf f)
  · rw [strobes_next h]
    exact exec_pinlog i s t h
  · have hcar := carries_run h hi hr
    exact ⟨hcar.hand, hcar.sent⟩

end Sys2Proof.Machine

namespace Sys2Proof.Machine

/-! ### Steps, refusals and unused codes (R70, R72, R77) -/

/-- Settles O6, by the laws of a step. -/
theorem stepRunsTheNextWord : Obligations.StepRunsTheNextWord := by
  unfold Obligations.StepRunsTheNextWord
  exact fun s => ⟨fun _ _ _ ht hd => step_of_decode ht hd, step_of_nil⟩

/-- The ops of the words whose operand is a frame (R69). -/
def frameOps : List (BitVec 4) := [0x1#4, 0x2#4]

/-- The ops of the SN words (R69). -/
def plainOps : List (BitVec 4) := [0x3#4, 0x4#4, 0x5#4, 0x6#4, 0x7#4, 0x8#4, 0x9#4, 0xB#4, 0xF#4]

/-- The reserved ops (R70). -/
def reservedOps : List (BitVec 4) := [0x0#4, 0xC#4, 0xD#4, 0xE#4]

/-- An op is of one kind: that of Q_PUSH, or in exactly one of the three lists. -/
theorem op_cases (op : BitVec 4) :
    (op ∈ frameOps ∧ op ∉ plainOps ∧ op ∉ reservedOps) ∨ (op ∈ plainOps ∧ op ∉ frameOps ∧ op ∉ reservedOps) ∨
    (op ∈ reservedOps ∧ op ∉ frameOps ∧ op ∉ plainOps) ∨
    (op = 0xA#4 ∧ op ∉ frameOps ∧ op ∉ plainOps ∧ op ∉ reservedOps) := by
  revert op; decide

/-- A word whose operand is a frame is refused for its operand alone. -/
theorem frameWord_eq_error {cfg : Config} {d : Slot} {i : Instr} {e : DecodeError} :
    frameWord cfg d i = .error e ↔ 2 ^ cfg.frameW.bits ≤ d.toNat ∧ e = .frameRange := by
  by_cases h : d.toNat < 2 ^ cfg.frameW.bits
  · simp [frameWord, frameFits, h]
  · simp [frameWord, frameFits, h, Nat.not_lt.1 h, eq_comm]

/-- An SN word is refused for its operand alone. -/
theorem plainWord_eq_error {d : Slot} {i : Instr} {e : DecodeError} :
    plainWord d i = .error e ↔ d ≠ 0#9 ∧ e = .nonzeroOperand := by
  by_cases h : d = 0#9
  · simp [plainWord, h]
  · simp [plainWord, h, eq_comm]

theorem decodeStimulus_bits {cfg : Config} {w : StimWord} (hz : wordZero w ≠ 0#3) :
    decodeStimulus cfg w = .error .reservedBits := if_pos hz

theorem decodeStimulus_frame {cfg : Config} {w : StimWord} (hz : wordZero w = 0#3) (h : wordOp w ∈ frameOps) :
    ∃ i, decodeStimulus cfg w = frameWord cfg (wordOperand w) i := by
  unfold decodeStimulus
  simp only [frameOps, List.mem_cons, List.not_mem_nil, or_false] at h
  rcases h with h | h <;> rw [if_neg (not_not_intro hz), h] <;> exact ⟨_, rfl⟩

theorem decodeStimulus_plain {cfg : Config} {w : StimWord} (hz : wordZero w = 0#3) (h : wordOp w ∈ plainOps) :
    ∃ i, decodeStimulus cfg w = plainWord (wordOperand w) i := by
  unfold decodeStimulus
  simp only [plainOps, List.mem_cons, List.not_mem_nil, or_false] at h
  rcases h with h | h | h | h | h | h | h | h | h <;> rw [if_neg (not_not_intro hz), h] <;> exact ⟨_, rfl⟩

theorem decodeStimulus_reserved {cfg : Config} {w : StimWord} (hz : wordZero w = 0#3)
    (h : wordOp w ∈ reservedOps) : decodeStimulus cfg w = .error .reservedOp := by
  unfold decodeStimulus
  simp only [reservedOps, List.mem_cons, List.not_mem_nil, or_false] at h
  rcases h with h | h | h | h <;> rw [if_neg (not_not_intro hz), h] <;> rfl

theorem decodeStimulus_qPush {cfg : Config} {w : StimWord} (hz : wordZero w = 0#3) (h : wordOp w = 0xA#4) :
    decodeStimulus cfg w = .ok (.qPush (wordOperand w)) := by
  unfold decodeStimulus
  rw [if_neg (not_not_intro hz), h]
  rfl

/-- Every refusal of the decoder, by the fields of the word (R70, R71). -/
theorem decodeStimulus_eq_error {cfg : Config} {w : StimWord} {e : DecodeError} :
    decodeStimulus cfg w = .error e ↔
      (wordZero w ≠ 0#3 ∧ e = .reservedBits) ∨
      (wordZero w = 0#3 ∧ wordOp w ∈ reservedOps ∧ e = .reservedOp) ∨
      (wordZero w = 0#3 ∧ wordOp w ∈ plainOps ∧ wordOperand w ≠ 0#9 ∧ e = .nonzeroOperand) ∨
      (wordZero w = 0#3 ∧ wordOp w ∈ frameOps ∧ 2 ^ cfg.frameW.bits ≤ (wordOperand w).toNat ∧ e = .frameRange) := by
  by_cases hz : wordZero w = 0#3
  · rcases op_cases (wordOp w) with ⟨h, h1, h2⟩ | ⟨h, h1, h2⟩ | ⟨h, h1, h2⟩ | ⟨h, h1, h2, h3⟩
    · obtain ⟨i, hd⟩ := decodeStimulus_frame (cfg := cfg) hz h
      simp [hd, frameWord_eq_error, hz, h, h1, h2]
    · obtain ⟨i, hd⟩ := decodeStimulus_plain (cfg := cfg) hz h
      simp [hd, plainWord_eq_error, hz, h, h1, h2]
    · simp [decodeStimulus_reserved hz h, hz, h, h1, h2, eq_comm]
    · simp [decodeStimulus_qPush hz h, hz, h1, h2, h3]
  · simp [decodeStimulus_bits hz, hz, eq_comm]

/-- Settles O2: bits 11:9 first, then the op, then the operand (R71). -/
theorem stimulusWordsRefusedExactlyWhen : Obligations.StimulusWordsRefusedExactlyWhen := by
  unfold Obligations.StimulusWordsRefusedExactlyWhen
  refine ⟨fun cfg w => ?_, fun s w rest e ht hd => step_of_error ht hd⟩
  simp only [decodeStimulus_eq_error, reduceCtorEq, and_false, and_true, or_false, false_or]
  exact ⟨Iff.rfl, Iff.rfl, Iff.rfl, Iff.rfl⟩

/-- Settles O13: an unused code selects the rule that raises SEQ_CODE, and no pending update follows a fault. -/
theorem unusedCodesRaiseSeqCode : Obligations.UnusedCodesRaiseSeqCode := by
  unfold Obligations.UnusedCodesRaiseSeqCode
  intro s c
  refine ⟨fun h hc => ?_, fun h hc => ?_⟩
  · have hne : c ≠ Seq.idle := by rintro rfl; simp at hc
    have hrow := microAtG_next h hne (raise .seqCode .mstepG)
    have hstep := microStepG_next h.1 (h.2.1 ▸ hne) h.2.2 ruleG
    rw [ruleG_unused (h.2.1 ▸ hc)] at hstep
    rw [afterRule_of_fault _ (by simp)] at hrow hstep
    refine ⟨?_, hstep⟩
    rw [exec, execUnusedG, requiresNoFault_of_noFault h.1, hrow, decide_eq_true hc]
    rfl
  · have hne : c ≠ Seq.idle := by rintro rfl; simp at hc
    have hrow := microAtD_next h hne (raise .seqCode .mstepD)
    have hstep := microStepD_next h.1 (h.2.1 ▸ hne) h.2.2 ruleD
    rw [ruleD_unused (h.2.1 ▸ hc)] at hstep
    rw [afterRule_of_fault _ (by simp)] at hrow hstep
    refine ⟨?_, hstep⟩
    rw [exec, execUnusedD, requiresNoFault_of_noFault h.1, hrow, decide_eq_true hc]
    rfl

end Sys2Proof.Machine

namespace Sys2Proof.Machine

/-! ### The data classes: a few micro-ops in a row (R66, R67) -/

/-- MSTEP_G where the engine may step and the rule of its code raises no fault (R151). -/
theorem stepG_next {c : SeqCode} {s r : State} (h : GoesG c s) (hc : c ≠ Seq.idle) (hr : ruleG s = r)
    (hf : NoFault r) : stepG s = .next (pendUpdate s r) := by
  obtain ⟨hn, hq, hp⟩ := h
  rw [stepG, microStepG_next hn (hq ▸ hc) hp, hr, afterRule_of_noFault _ hf]

/-- MSTEP_D where the engine may step and the rule of its code raises no fault (R152). -/
theorem stepD_next {c : SeqCode} {s r : State} (h : GoesD c s) (hc : c ≠ Seq.idle) (hr : ruleD s = r)
    (hf : NoFault r) : stepD s = .next (pendUpdate s r) := by
  obtain ⟨hn, hq, hp⟩ := h
  rw [stepD, microStepD_next hn (hq ▸ hc) hp, hr, afterRule_of_noFault _ hf]

/-- IG2 with 0x000 (R96). -/
theorem stepG_ig2_null {s : State} (h : GoesG Seq.ig2 s) (hv : s.rdrG = .holds 0x000#9) :
    stepG s = .next (pendUpdate s
      { s with rxneG := false, g := { s.g with v := .holds 0x000#9 }, seqG := Seq.ig7 }) :=
  stepG_next h (by decide) (by rw [ruleG_ig2 h.2.1, ruleIg2_holds hv, if_pos rfl]) h.1

/-- The slot TAIL names written with `v` and TAIL published: what a push that returns OK does (R85, R98, R99). -/
def pushed (v : Slot) (s : State) : State :=
  { s with buf := s.buf.write (slotIndex s.cfg s.tail) v, tail := nextCursor s.cfg s.tail }

/-- A push that returns OK puts the value at the tail and writes no slot but the one TAIL named. -/
theorem contents_pushed {s : State} (h : DataInv s) (hl : len s < s.cfg.cap) (v : Slot) :
    contents (pushed v s) = contents s ++ [.holds v] :=
  contents_push v h.head_lt h.tail_lt hl rfl rfl rfl rfl

theorem buf_pushed (v : Slot) (s : State) {j : Nat} (hj : j ≠ slotIndex s.cfg s.tail) :
    (pushed v s).buf.read j = s.buf.read j := Memory.read_write_other _ _ hj

/-- `t` is `u` but for the ingest locals and the latches. -/
def ButLocalsG (t u : State) : Prop := ∃ g pg pd, t = { u with g := g, pendG := pg, pendD := pd }

/-- From `s`, with `n` steps allowed, a repetition comes to a state that meets `P`, with `m` of them left. -/
def Reaches (P : State → Prop) (stop : State → Bool) (f : State → Out) (n m : Nat) (s : State) : Prop :=
  ∃ t, repeatUntil stop f n s = repeatUntil stop f m t ∧ P t

section
variable {P Q : State → Prop} {stop : State → Bool} {f : State → Out} {n m k : Nat} {s t : State}

theorem Reaches.here (h : P s) : Reaches P stop f n n s := ⟨s, rfl, h⟩

theorem Reaches.step (hs : stop s = false) (hf : f s = .next t) (h : Reaches P stop f n m t) :
    Reaches P stop f (n + 1) m s := by
  obtain ⟨u, hu, hp⟩ := h
  exact ⟨u, (repeatUntil_step hs hf n).trans hu, hp⟩

theorem Reaches.trans (h : Reaches P stop f n m s) (hk : ∀ t, P t → Reaches Q stop f m k t) :
    Reaches Q stop f n k s := by
  obtain ⟨t, ht, hp⟩ := h
  obtain ⟨u, hu, hq⟩ := hk t hp
  exact ⟨u, ht.trans hu, hq⟩

/-- A repetition that has come to its end stays there, however many steps are left. -/
theorem Reaches.done (hs : stop s = true) (h : P s) : Reaches P stop f n m s :=
  ⟨s, (repeatUntil_stop hs f n).trans (repeatUntil_stop hs f m).symm, h⟩

/-- What a repetition comes to with no step left is its next state. -/
theorem Reaches.next (h : Reaches P stop f n 0 s) : ∃ t, repeatUntil stop f n s = .next t ∧ P t := h

end

/-- From `s`, with `n` MSTEP_G words allowed, the ingest engine comes to `u`, but for the locals and the latches, with `m`
of them left. -/
abbrev ReachesG (stop : State → Bool) (n m : Nat) (s u : State) : Prop := Reaches (ButLocalsG · u) stop stepG n m s

section
variable {stop : State → Bool} {n m : Nat} {s u : State}

theorem ReachesG.here (h : ButLocalsG s u) : ReachesG stop n n s u := Reaches.here h

/-- A micro-op, and what follows it seen from the state after the micro-op. -/
theorem ReachesG.step {c : SeqCode} {r v : State} (hs : stop s = false) (h : GoesG c s) (hc : c ≠ Seq.idle)
    (hr : ruleG s = r) (hf : NoFault r) (hrest : ReachesG stop n m (pendUpdate s r) v)
    (hv : ∀ g pg pd, { v with g := g, pendG := pg, pendD := pd } = { u with g := g, pendG := pg, pendD := pd }) :
    ReachesG stop (n + 1) m s u := by
  obtain ⟨t, ht, g, pg, pd, e⟩ := hrest
  exact Reaches.step hs (stepG_next h hc hr hf) ⟨t, ht, g, pg, pd, e.trans (hv g pg pd)⟩

/-- The repetition goes on at the micro-ops of a push (R87). -/
abbrev PassesPush (stop : State → Bool) : Prop :=
  ∀ t, NoFault t → t.seqG ∈ [Seq.ig3, Seq.ig4, Seq.ig5] → stop t = false

/-- IG5 publishes TAIL (R99). -/
theorem reachesG_ig5 (hstop : PassesPush stop) (h : GoesG Seq.ig5 s) (ht : s.g.t = .holds s.tail) :
    ReachesG stop (n + 1) n s { s with tail := nextCursor s.cfg s.tail, seqG := Seq.ig6 } := by
  obtain ⟨hn, hq, hp⟩ := h
  exact .step (hstop s hn (by simp [hq])) ⟨hn, hq, hp⟩ (by decide) ((ruleG_ig5 hq).trans (ruleIg5_holds ht)) hn
    (.here ⟨_, _, _, rfl⟩) fun _ _ _ => rfl

/-- IG4 writes the slot (R98). -/
theorem reachesG_ig4 {v : Slot} (hstop : PassesPush stop) (h : GoesG Seq.ig4 s) (hc : s.cfg.wf)
    (ht : s.g.t = .holds s.tail) (hv : s.g.v = .holds v) :
    ReachesG stop (n + 2) n s { pushed v s with seqG := Seq.ig6 } := by
  obtain ⟨hn, hq, hp⟩ := h
  exact .step (hstop s hn (by simp [hq])) ⟨hn, hq, hp⟩ (by decide) ((ruleG_ig4 hq).trans (ruleIg4_holds hc ht hv)) hn
    (reachesG_ig5 hstop ⟨hn, rfl, hp⟩ ht) fun _ _ _ => rfl

/-- IG3 with room leads to the push (R97). -/
theorem reachesG_ig3 {v : Slot} (hstop : PassesPush stop) (h : GoesG Seq.ig3 s) (hc : s.cfg.wf)
    (hl : len s < s.cfg.cap) (hv : s.g.v = .holds v) :
    ReachesG stop (n + 3) n s { pushed v s with seqG := Seq.ig6 } := by
  obtain ⟨hn, hq, hp⟩ := h
  exact .step (hstop s hn (by simp [hq])) ⟨hn, hq, hp⟩ (by decide) ((ruleG_ig3 hq).trans (ruleIg3_room hl)) hn
    (reachesG_ig4 hstop ⟨hn, rfl, hp⟩ hc rfl hv) fun _ _ _ => rfl

end

/-- ING_DATA stops here: the value is pushed or dropped, or a fault ended it (R66). -/
abbrev stopsData (t : State) : Bool := t.seqG == Seq.ig6 || t.seqG == Seq.ig7 || t.fault.isSome

theorem passesPush_stopsData : PassesPush stopsData := by
  intro t hn ht
  simp only [List.mem_cons, List.not_mem_nil, or_false] at ht
  rcases ht with ht | ht | ht <;> simp [stopsData, ht, show t.fault = none from hn]

/-- A data class is met at IG2 with its value in RDR_G (R66). -/
theorem ingestMeets_at {s : State} {v : Slot} (h : GoesG Seq.ig2 s) (hv : s.rdrG = .holds v) (o : Out) :
    ingestMeets v s o = o := by
  simp [ingestMeets, requiresNoFault_of_noFault h.1, h.2.1, hv]

/-- IG2 with a value other than 0x000 goes to IG3 with it (R96). -/
theorem ruleG_ig2_data {s : State} {v : Slot} (h : s.seqG = Seq.ig2) (hv : s.rdrG = .holds v) (h0 : v ≠ 0x000#9) :
    ruleG s = { s with rxneG := false, g := { s.g with v := .holds v }, seqG := Seq.ig3 } := by
  rw [ruleG_ig2 h, ruleIg2_holds hv, if_neg h0]

/-- ING_DATA is the micro-ops from IG2 on, where the engine meets the value (R66). -/
theorem execIngData_of_reaches {s u : State} {v : Slot} {m : Nat} (h : GoesG Seq.ig2 s) (hv : s.rdrG = .holds v)
    (h0 : v ≠ 0x000#9) (hr : ReachesG stopsData 4 m s u) (hu : u.seqG = Seq.ig6 ∨ u.seqG = Seq.ig7) :
    ∃ t, execIngData v s = .next t ∧ ButLocalsG t u := by
  rw [execIngData, ingestMeets_at h hv, bne_iff_ne.2 h0, requires_true]
  refine (hr.trans ?_).next
  rintro _ ⟨g, pg, pd, rfl⟩
  exact .done (by rcases hu with hu | hu <;> simp [stopsData, hu]) ⟨g, pg, pd, rfl⟩

/-- ING_DATA on a queue with room: the value is pushed, and the engine stands at IG6 (R66, R97). -/
theorem execIngData_room {s : State} {v : Slot} (h : GoesG Seq.ig2 s) (hc : s.cfg.wf) (hv : s.rdrG = .holds v)
    (h0 : v ≠ 0x000#9) (hl : len s < s.cfg.cap) :
    ∃ t, execIngData v s = .next t ∧ ButLocalsG t { pushed v s with rxneG := false, seqG := Seq.ig6 } := by
  obtain ⟨hn, hq, hp⟩ := h
  refine execIngData_of_reaches (m := 0) ⟨hn, hq, hp⟩ hv h0 ?_ (.inl rfl)
  exact .step (by simp [stopsData, hq, show s.fault = none from hn]) ⟨hn, hq, hp⟩ (by decide)
    (ruleG_ig2_data hq hv h0) hn (reachesG_ig3 passesPush_stopsData ⟨hn, rfl, hp⟩ hc hl rfl) fun _ _ _ => rfl

/-- ING_DATA on a full queue: the value is dropped, and the engine stands at IG7 (R66, R97). -/
theorem execIngData_full {s : State} {v : Slot} (h : GoesG Seq.ig2 s) (hv : s.rdrG = .holds v)
    (h0 : v ≠ 0x000#9) (hl : len s = s.cfg.cap) :
    ∃ t, execIngData v s = .next t ∧ ButLocalsG t { s with rxneG := false, seqG := Seq.ig7 } := by
  obtain ⟨hn, hq, hp⟩ := h
  refine execIngData_of_reaches (m := 2) ⟨hn, hq, hp⟩ hv h0 ?_ (.inr rfl)
  refine .step (by simp [stopsData, hq, show s.fault = none from hn]) ⟨hn, hq, hp⟩ (by decide)
    (ruleG_ig2_data hq hv h0) hn ?_ fun _ _ _ => rfl
  exact .step (c := Seq.ig3) (passesPush_stopsData _ hn (by simp)) ⟨hn, rfl, hp⟩ (by decide)
    ((ruleG_ig3 rfl).trans (ruleIg3_full hl)) hn (.here ⟨_, _, _, rfl⟩) fun _ _ _ => rfl

/-- Settles O25: ING_NULL is IG2 alone, ING_DATA is IG2 and then a push or a drop. -/
theorem ingestClassesAreFilteredOrOffered : Obligations.IngestClassesAreFilteredOrOffered := by
  unfold Obligations.IngestClassesAreFilteredOrOffered
  refine ⟨fun s h hv => (ingestMeets_at h hv _).trans (stepG_ig2_null h hv), fun s v hs h hv h0 => ?_⟩
  rcases hs.data.len_le.lt_or_eq with hl | hl
  · obtain ⟨t, ht, g, pg, pd, rfl⟩ := execIngData_room h hs.data.cap_pos hv h0 hl
    exact ⟨_, ht, h.1, rfl, fun _ => ⟨rfl, contents_pushed hs.data hl v, fun j hj => buf_pushed v s hj⟩,
      fun hf => absurd hf hl.ne, rfl⟩
  · obtain ⟨t, ht, g, pg, pd, rfl⟩ := execIngData_full h hv h0 hl
    exact ⟨_, ht, h.1, rfl, fun hlt => absurd hl hlt.ne, fun _ => ⟨rfl, rfl, rfl, rfl⟩, rfl⟩

/-- DP9 with a command at hand (R115). -/
theorem stepD_dp9 {s : State} {c : Slot} (h : GoesD Seq.dp9 s) (hc : s.rdr2 = .holds c) :
    stepD s = .next (pendUpdate s
      { s with rxne2 := false, d := { s.d with c := .holds c }, seqD := commandTarget c }) :=
  stepD_next h (by decide) (by rw [ruleD_dp9 h.2.1, ruleDp9_holds hc]) h.1

/-- DP10 drives the pin OFF (R117). -/
theorem stepD_dp10 {s : State} (h : GoesD Seq.dp10 s) :
    stepD s = .next (pendUpdate s { pinResetStrobe s with seqD := Seq.dp12 }) :=
  stepD_next h (by decide) (ruleD_dp10 h.2.1) h.1

/-- DP11 drives the pin ON (R118). -/
theorem stepD_dp11 {s : State} (h : GoesD Seq.dp11 s) :
    stepD s = .next (pendUpdate s { pinSetStrobe s with seqD := Seq.dp12 }) :=
  stepD_next h (by decide) (ruleD_dp11 h.2.1) h.1

/-- A command class is met at DP9 with its value in RDR_2 (R67). -/
theorem commandMeets_at {s : State} {c : Slot} (h : GoesD Seq.dp9 s) (hc : s.rdr2 = .holds c) (o : Out) :
    commandMeets c s o = o := by
  simp [commandMeets, requiresNoFault_of_noFault h.1, h.2.1, hc]

/-- DP9 with a command at hand leads to the place for that command (R115, R116). -/
theorem stepD_dp9_to {s : State} {c : Slot} {k : SeqCode} (h : GoesD Seq.dp9 s) (hc : s.rdr2 = .holds c)
    (hk : commandTarget c = k) :
    ∃ t, stepD s = .next t ∧ GoesD k t ∧ ∃ pg pd, t =
      { s with rxne2 := false, d := { s.d with c := .holds c }, seqD := k, pendG := pg, pendD := pd } :=
  hk ▸ ⟨_, stepD_dp9 h hc, ⟨h.1, rfl, h.2.2⟩, _, _, rfl⟩

/-- CMD_PIN_OFF: DP9, then DP10 (R117). -/
theorem execCmdPinOff_at {s : State} (h : GoesD Seq.dp9 s) (hc : s.rdr2 = .holds 0x030#9) :
    ∃ t, execCmdPinOff s = .next t ∧ { t with pendG := s.pendG, pendD := s.pendD } =
      { s with
        rxne2 := false, d := { s.d with c := .holds 0x030#9 }, pin := .off, pinlog := s.pinlog ++ [.reset]
        seqD := Seq.dp12 } := by
  obtain ⟨t, ht, hd, pg, pd, rfl⟩ := stepD_dp9_to (k := Seq.dp10) h hc rfl
  rw [execCmdPinOff, commandMeets_at h hc, repeatUntil_step (by simp [h.2.1]) ht 1]
  exact ⟨_, repeatUntil_step rfl (stepD_dp10 hd) 0, rfl⟩

/-- CMD_PIN_ON: DP9, then DP11 (R118). -/
theorem execCmdPinOn_at {s : State} (h : GoesD Seq.dp9 s) (hc : s.rdr2 = .holds 0x031#9) :
    ∃ t, execCmdPinOn s = .next t ∧ { t with pendG := s.pendG, pendD := s.pendD } =
      { s with
        rxne2 := false, d := { s.d with c := .holds 0x031#9 }, pin := .on, pinlog := s.pinlog ++ [.set]
        seqD := Seq.dp12 } := by
  obtain ⟨t, ht, hd, pg, pd, rfl⟩ := stepD_dp9_to (k := Seq.dp11) h hc rfl
  rw [execCmdPinOn, commandMeets_at h hc, repeatUntil_step (by simp [h.2.1]) ht 1]
  exact ⟨_, repeatUntil_step rfl (stepD_dp11 hd) 0, rfl⟩

/-- CMD_OTHER: DP9 alone (R119). -/
theorem execCmdOther_at {s : State} {v : Slot} (h : GoesD Seq.dp9 s) (hv : s.rdr2 = .holds v) (h0 : v ≠ 0x030#9)
    (h1 : v ≠ 0x031#9) :
    execCmdOther v s = .next (pendUpdate s
      { s with rxne2 := false, d := { s.d with c := .holds v }, seqD := Seq.dp12 }) := by
  rw [execCmdOther, commandMeets_at h hv, bne_iff_ne.2 h0, bne_iff_ne.2 h1, Bool.and_self, requires_true,
    stepD_dp9 h hv, commandTarget, if_neg h0, if_neg h1]

/-- Settles O35: DP9, then DP10 or DP11 for the two pin commands. -/
theorem commandsDriveThePinOrDoNothing : Obligations.CommandsDriveThePinOrDoNothing := by
  unfold Obligations.CommandsDriveThePinOrDoNothing
  exact fun s h => ⟨execCmdPinOff_at h, execCmdPinOn_at h, fun _ => execCmdOther_at h⟩

/-! ### STEPALL_X and RUN_X (R76, R103, R122) -/

/-- Two continuations that agree on the next state, where there is one, have the same outcome. -/
theorem andThen_congr {o : Out} {f g : State → Out} (h : ∀ s, o = .next s → f s = g s) : andThen o f = andThen o g := by
  cases o with
  | next s => exact h s rfl
  | fault r => rfl
  | refused r => rfl

/-- Two repetitions that stop at the same states, among those that the step keeps to, are the same. -/
theorem repeatUntil_congr {P : State → Prop} {stop stop' : State → Bool} {f : State → Out}
    (hf : ∀ s t, P s → f s = .next t → P t) (hstop : ∀ s, P s → stop s = stop' s) (n : Nat) {s : State} (h : P s) :
    repeatUntil stop f n s = repeatUntil stop' f n s := by
  induction n generalizing s with
  | zero => rfl
  | succ n ih =>
    rw [repeatUntil, repeatUntil, hstop s h, andThen_congr fun t ht => ih (hf s t h ht)]

/-- From a safe state STEPALL_G is RUN_G: no fault is met on the way. -/
theorem execStepallG_eq {s : State} (h : SafeInv s) : execStepallG s = execRunG s := by
  refine andThen_congr fun u hu => repeatUntil_congr (fun _ _ => safeInv_stepG) (fun t ht => ?_) 8 (safeInv_enterG h hu)
  rw [show t.fault = none from ht.noFault, Option.isSome_none, Bool.or_false]

/-- From a safe state STEPALL_D is RUN_D. -/
theorem execStepallD_eq {s : State} (h : SafeInv s) : execStepallD s = execRunD s := by
  refine andThen_congr fun u hu => repeatUntil_congr (fun _ _ => safeInv_stepD) (fun t ht => ?_) 12 (safeInv_enterD h hu)
  rw [show t.fault = none from ht.noFault, Option.isSome_none, Bool.or_false]

end Sys2Proof.Machine

namespace Sys2Proof.Machine

/-! ### A whole ingest activation (R103) -/

/-- RUN_G stops here: the activation is over, or a fault ended it (R103). -/
abbrev stopsG (t : State) : Bool := t.seqG == Seq.idle || t.fault.isSome

theorem stopsG_active {c : SeqCode} {s : State} (h : GoesG c s) (hc : c ≠ Seq.idle) : stopsG s = false := by
  obtain ⟨hn, hq, -⟩ := h
  simp [stopsG, show s.fault = none from hn, hq, hc]

theorem passesPush_stopsG : PassesPush stopsG := by
  intro t hn ht
  simp only [List.mem_cons, List.not_mem_nil, or_false] at ht
  rcases ht with ht | ht | ht <;> simp [stopsG, ht, show t.fault = none from hn]

/-- From `s`, `n` MSTEP_G words end the activation in `u`, but for the locals and the latches. -/
abbrev EndsG (n : Nat) (s u : State) : Prop := ReachesG stopsG n 0 s u

/-- A micro-op and the rest of the activation, seen from the state after the micro-op. -/
theorem EndsG.step {c : SeqCode} {n : Nat} {s r u v : State} (h : GoesG c s) (hc : c ≠ Seq.idle) (hr : ruleG s = r)
    (hf : NoFault r) (hrest : EndsG n (pendUpdate s r) v)
    (hv : ∀ g pg pd, { v with g := g, pendG := pg, pendD := pd } = { u with g := g, pendG := pg, pendD := pd }) :
    EndsG (n + 1) s u := ReachesG.step (stopsG_active h hc) h hc hr hf hrest hv

/-- The activation is over at IDLE. -/
theorem EndsG.idle {n : Nat} {s : State} (h : s.seqG = Seq.idle) : EndsG n s s :=
  .done (by simp [stopsG, h]) ⟨s.g, s.pendG, s.pendD, rfl⟩

theorem endsG_ig8 {s : State} (n : Nat) (h : GoesG Seq.ig8 s) :
    EndsG (n + 1) s { s with oreG := false, seqG := Seq.idle } := by
  obtain ⟨hn, hq, hp⟩ := h
  exact .step ⟨hn, hq, hp⟩ (by decide) (ruleG_ig8 hq) hn (.idle rfl) fun _ _ _ => rfl

theorem endsG_ig7 {s : State} (n : Nat) (h : GoesG Seq.ig7 s) :
    EndsG (n + 2) s { s with oreG := false, seqG := Seq.idle } := by
  obtain ⟨hn, hq, hp⟩ := h
  cases ho : s.oreG
  · refine .step ⟨hn, hq, hp⟩ (by decide) ((ruleG_ig7 hq).trans (ruleIg7_idle ho)) hn (.idle rfl) fun g pg pd => ?_
    simp [pendUpdate, ho]
  · exact .step ⟨hn, hq, hp⟩ (by decide) ((ruleG_ig7 hq).trans (ruleIg7_overrun ho)) hn (endsG_ig8 n ⟨hn, rfl, hp⟩)
      fun _ _ _ => rfl

theorem endsG_ig6 {s : State} (n : Nat) (h : GoesG Seq.ig6 s) :
    EndsG (n + 3) s { s with txeie := true, oreG := false, seqG := Seq.idle } := by
  obtain ⟨hn, hq, hp⟩ := h
  exact .step ⟨hn, hq, hp⟩ (by decide) (ruleG_ig6 hq) hn (endsG_ig7 n ⟨hn, rfl, hp⟩) fun _ _ _ => rfl

/-- The end of an activation that pushed `v` (R87, R100 to R102). -/
def accepted (v : Slot) (s : State) : State :=
  { pushed v s with txeie := true, rxneG := false, oreG := false, seqG := Seq.idle }

/-- The end of an activation that queued nothing (R101, R102). -/
def dropped (s : State) : State := { s with rxneG := false, oreG := false, seqG := Seq.idle }

/-- From IG3 with room the value is pushed and TXEIE is set (R87, R100). -/
theorem endsG_ig3_room {s : State} {v : Slot} (n : Nat) (h : GoesG Seq.ig3 s) (hc : s.cfg.wf) (hl : len s < s.cfg.cap)
    (hv : s.g.v = .holds v) :
    EndsG (n + 6) s { pushed v s with txeie := true, oreG := false, seqG := Seq.idle } := by
  refine Reaches.trans (reachesG_ig3 (n := n + 3) passesPush_stopsG h hc hl hv) ?_
  rintro _ ⟨g, pg, pd, rfl⟩
  obtain ⟨t, ht, hb⟩ := endsG_ig6 n (s := { pushed v s with g := g, seqG := Seq.ig6, pendG := pg, pendD := pd })
    ⟨h.1, rfl, h.2.2⟩
  exact ⟨t, ht, hb⟩

/-- From IG3 with a full queue the value is dropped (R97). -/
theorem endsG_ig3_full {s : State} (n : Nat) (h : GoesG Seq.ig3 s) (hl : len s = s.cfg.cap) :
    EndsG (n + 3) s { s with oreG := false, seqG := Seq.idle } := by
  obtain ⟨hn, hq, hp⟩ := h
  exact .step ⟨hn, hq, hp⟩ (by decide) ((ruleG_ig3 hq).trans (ruleIg3_full hl)) hn (endsG_ig7 n ⟨hn, rfl, hp⟩)
    fun _ _ _ => rfl

/-- From IG2 a value other than 0x000 is queued where there is room (R96). -/
theorem endsG_ig2_accepted {s : State} {v : Slot} (n : Nat) (h : GoesG Seq.ig2 s) (hc : s.cfg.wf)
    (hv : s.rdrG = .holds v) (h0 : v ≠ 0x000#9) (hl : len s < s.cfg.cap) : EndsG (n + 7) s (accepted v s) := by
  obtain ⟨hn, hq, hp⟩ := h
  exact .step ⟨hn, hq, hp⟩ (by decide) (ruleG_ig2_data hq hv h0) hn (endsG_ig3_room n ⟨hn, rfl, hp⟩ hc hl rfl)
    fun _ _ _ => rfl

/-- From IG2 the value 0x000 is discarded, and any value where the queue is full (R96, R97). -/
theorem endsG_ig2_dropped {s : State} {v : Slot} (n : Nat) (h : GoesG Seq.ig2 s) (hv : s.rdrG = .holds v)
    (hd : v = 0x000#9 ∨ len s = s.cfg.cap) : EndsG (n + 4) s (dropped s) := by
  obtain ⟨hn, hq, hp⟩ := h
  by_cases h0 : v = 0x000#9
  · exact .step ⟨hn, hq, hp⟩ (by decide) ((ruleG_ig2 hq).trans (ruleIg2_holds hv)) hn
      (endsG_ig7 (n + 1) ⟨hn, if_pos h0, hp⟩) fun _ _ _ => rfl
  · exact .step ⟨hn, hq, hp⟩ (by decide) (ruleG_ig2_data hq hv h0) hn
      (endsG_ig3_full n ⟨hn, rfl, hp⟩ (hd.resolve_left h0)) fun _ _ _ => rfl

/-- ENTER_G, where it is enabled, brings the engine to IG1, where it may step. -/
theorem goesG_enteredG {s : State} (h : CanEnterG s) : GoesG Seq.ig1 (enteredG s) :=
  ⟨h.1, rfl, fun e => h.2.2.2.resolve_left (by simp [show s.cfg.prio = .dOverG from e])⟩

/-- RUN_G where ENTER_G is enabled is the micro-ops from IG1 on (R103). -/
theorem execRunG_of_ends {s u : State} (h : CanEnterG s) (he : EndsG 8 (enteredG s) u) :
    ∃ t, execRunG s = .next t ∧ ButLocalsG t u := by
  rw [execRunG, enterG_next h, andThen_next]
  exact he

/-- IG1 with a frame unread goes to IG2 (R95). -/
theorem ruleG_ig1_frame {s : State} (h : s.seqG = Seq.ig1) (hr : s.rxneG = true) :
    ruleG s = { s with g := { s.g with rx := .holds true }, seqG := Seq.ig2 } := by
  simp [ruleG_ig1 h, ruleIg1, hr]

/-- IG1 with no frame unread goes to IG7 (R95). -/
theorem ruleG_ig1_none {s : State} (h : s.seqG = Seq.ig1) (hr : s.rxneG = false) :
    ruleG s = { s with g := { s.g with rx := .holds false }, seqG := Seq.ig7 } := by
  simp [ruleG_ig1 h, ruleIg1, hr]

/-- RUN_G queues the unread frame where it is not 0x000 and there is room (R96, R97). -/
theorem execRunG_accepted {s : State} {v : Slot} (hs : SafeInv s) (h : CanEnterG s) (hr : s.rxneG = true)
    (hv : s.rdrG = .holds v) (h0 : v ≠ 0x000#9) (hl : len s < s.cfg.cap) :
    ∃ t, execRunG s = .next t ∧ ButLocalsG t (accepted v s) := by
  obtain ⟨hn, hq, hp⟩ := goesG_enteredG h
  refine execRunG_of_ends h ?_
  exact .step ⟨hn, hq, hp⟩ (by decide) (ruleG_ig1_frame hq hr) hn
    (endsG_ig2_accepted 0 ⟨hn, rfl, hp⟩ hs.data.cap_pos hv h0 hl) fun _ _ _ => rfl

/-- RUN_G leaves the queue alone where no frame is unread, the frame is 0x000, or the queue is full (R96, R97). -/
theorem execRunG_dropped {s : State} (hs : SafeInv s) (h : CanEnterG s)
    (hd : s.rxneG = false ∨ s.rdrG = .holds 0x000#9 ∨ len s = s.cfg.cap) :
    ∃ t, execRunG s = .next t ∧ ButLocalsG t (dropped s) := by
  obtain ⟨hn, hq, hp⟩ := goesG_enteredG h
  refine execRunG_of_ends h ?_
  cases hr : s.rxneG
  · refine .step ⟨hn, hq, hp⟩ (by decide) (ruleG_ig1_none hq hr) hn (endsG_ig7 5 ⟨hn, rfl, hp⟩) fun g pg pd => ?_
    simp [dropped, pendUpdate, hr]
  · obtain ⟨v, hv⟩ := Reg.isWritten_iff.1 (hs.data.rdrG_written hr)
    have hd : v = 0x000#9 ∨ len s = s.cfg.cap := by simpa [hr, hv] using hd
    exact .step ⟨hn, hq, hp⟩ (by decide) (ruleG_ig1_frame hq hr) hn (endsG_ig2_dropped 3 ⟨hn, rfl, hp⟩ hv hd)
      fun _ _ _ => rfl

end Sys2Proof.Machine

namespace Sys2Proof.Machine

/-! ### FEED and FEEDS (R76) -/

/-- A frame that arrives on the GPS link is stored, or the receiver overruns; `w` is the frame that survives (R140). -/
theorem receiveFrame_g_survives {s : State} {v w : Slot}
    (hw : if s.rxneG = true ∧ s.cfg.ovr = .keepOld then s.rdrG = .holds w else w = v) :
    receiveFrame .g v s = { s with rxneG := true, oreG := s.oreG || s.rxneG, rdrG := .holds w } := by
  cases hr : s.rxneG <;> cases ho : s.cfg.ovr <;> simp_all [receiveFrame]

/-- A frame that arrives on link 2 is stored, or the receiver overruns; `w` is the frame that survives (R141). -/
theorem receiveFrame_l2_survives {s : State} {v w : Slot}
    (hw : if s.rxne2 = true ∧ s.cfg.ovr = .keepOld then s.rdr2 = .holds w else w = v) :
    receiveFrame .l2 v s = { s with rxne2 := true, ore2 := s.ore2 || s.rxne2, rdr2 := .holds w } := by
  cases hr : s.rxne2 <;> cases ho : s.cfg.ovr <;> simp_all [receiveFrame]

/-- A frame arrives while no fault is recorded (R140, R141). -/
theorem arrive_next {l : Link} {v : Slot} {s : State} (h : SafeInv s) (hv : IsFrame s.cfg v) :
    arrive l v s = .next (pendUpdate s (receiveFrame l v s)) := by
  rw [arrive, if_pos (show frameFits s.cfg v = true from decide_eq_true hv), requiresNoFault_of_noFault h.noFault,
    afterRule_of_noFault _ (safeInv_receiveFrame h l v).noFault]

/-- The values of a list that are queued where there is room for `room` of them: those other than 0x000 (R96, R97). -/
def queuedOf (vs : List Slot) (room : Nat) : List Slot := (vs.filter fun c => c != 0x000#9).take room

theorem queuedOf_one {v : Slot} {room : Nat} (h0 : v ≠ 0x000#9) (hr : 0 < room) : queuedOf [v] room = [v] := by
  obtain ⟨n, rfl⟩ : ∃ n, room = n + 1 := ⟨room - 1, by omega⟩
  simp [queuedOf, h0]

theorem queuedOf_none {v : Slot} {room : Nat} (h : v = 0x000#9 ∨ room = 0) : queuedOf [v] room = [] := by
  rcases h with rfl | rfl <;> simp [queuedOf]

/-- The first value is queued or not, and the rest into the room it leaves. -/
theorem queuedOf_cons (v : Slot) (vs : List Slot) (room : Nat) :
    queuedOf (v :: vs) room = queuedOf [v] room ++ queuedOf vs (room - (queuedOf [v] room).length) := by
  by_cases h : v = 0x000#9 ∨ room = 0
  · rw [queuedOf_none h]
    rcases h with rfl | rfl <;> simp [queuedOf]
  · obtain ⟨h0, hr⟩ := not_or.1 h
    rw [queuedOf_one h0 (Nat.pos_of_ne_zero hr)]
    obtain ⟨n, rfl⟩ := Nat.exists_eq_succ_of_ne_zero hr
    simp [queuedOf, h0]

/-- `t` is `s` with the values `vs` put at the tail of the queue, in order, and nothing else changed but what an ingest
activation may change (R104). -/
structure Queued (vs : List Slot) (s t : State) : Prop where
  contents : contents t = contents s ++ vs.map Reg.holds
  txeie : t.txeie = (s.txeie || !vs.isEmpty)
  slots : ∀ j, (∀ k, k < vs.length → j ≠ slotIndex s.cfg (s.tail + k)) → t.buf.read j = s.buf.read j
  buf : vs = [] → t.buf = s.buf
  tail : ∀ k, slotIndex s.cfg (t.tail + k) = slotIndex s.cfg (s.tail + (vs.length + k))
  frame : { t with
    buf := s.buf, tail := s.tail, txeie := s.txeie, rxneG := s.rxneG, oreG := s.oreG, rdrG := s.rdrG
    g := s.g, pendG := s.pendG, pendD := s.pendD } = s

theorem Queued.cfg {vs : List Slot} {s t : State} (h : Queued vs s t) : t.cfg = s.cfg :=
  have e := congrArg State.cfg h.frame
  e

theorem Queued.seqG {vs : List Slot} {s t : State} (h : Queued vs s t) : t.seqG = s.seqG :=
  have e := congrArg State.seqG h.frame
  e

theorem Queued.seqD {vs : List Slot} {s t : State} (h : Queued vs s t) : t.seqD = s.seqD :=
  have e := congrArg State.seqD h.frame
  e

theorem Queued.len {vs : List Slot} {s t : State} (h : Queued vs s t) : len t = len s + vs.length := by
  rw [← length_contents, h.contents, List.length_append, length_contents, List.length_map]

theorem Queued.refl (s : State) : Queued [] s s :=
  ⟨by simp, by simp, fun _ _ => rfl, fun _ => rfl, by simp, rfl⟩

/-- Values queued one list after the other. -/
theorem Queued.trans {vs ws : List Slot} {s t u : State} (h : Queued vs s t) (k : Queued ws t u) :
    Queued (vs ++ ws) s u where
  contents := by rw [k.contents, h.contents, List.append_assoc, List.map_append]
  txeie := by rw [k.txeie, h.txeie]; cases vs <;> simp
  slots j hj := by
    refine (k.slots j fun i hi => ?_).trans (h.slots j fun i hi => hj i ?_)
    · rw [h.cfg, h.tail]
      exact hj _ (by rw [List.length_append]; omega)
    · rw [List.length_append]; omega
  buf hnil := by
    obtain ⟨rfl, rfl⟩ := List.append_eq_nil_iff.1 hnil
    exact (k.buf rfl).trans (h.buf rfl)
  tail i := by
    have := k.tail i
    rw [h.cfg] at this
    rw [this, h.tail, List.length_append, Nat.add_assoc]
  frame := by
    have e := congrArg (fun x : State => { x with
      buf := s.buf, tail := s.tail, txeie := s.txeie, rxneG := s.rxneG, oreG := s.oreG, rdrG := s.rdrG
      g := s.g, pendG := s.pendG, pendD := s.pendD }) k.frame
    exact e.trans h.frame

/-- A cursor's successor, and the slots from it on. -/
theorem slotIndex_nextCursor_add (cfg : Config) (c k : Nat) :
    slotIndex cfg (nextCursor cfg c + k) = slotIndex cfg (c + (1 + k)) := by
  have h := slotIndex_nextCursor cfg c
  unfold slotIndex at *
  rw [Nat.add_mod, h, ← Nat.add_mod, Nat.add_assoc]

/-- What FEED leaves: the engine IDLE, no frame unread, and the frame that survived the receiver queued if it fits. -/
structure Fed (w : Slot) (s t : State) : Prop where
  safe : SafeInv t
  seqG : t.seqG = Seq.idle
  rxneG : t.rxneG = false
  oreG : t.oreG = false
  rdrG : t.rdrG = .holds w
  queued : Queued (queuedOf [w] (s.cfg.cap - len s)) s t

/-- Writing to `seq_G` the code it holds changes nothing. -/
theorem with_seqG_self {s : State} {c : SeqCode} (h : s.seqG = c) : { s with seqG := c } = s := by rw [← h]

/-- FEED: the frame arrives, and its activation queues it or drops it (R103, R140). -/
theorem execFeed_fed {s : State} {v w : Slot} (h : SafeInv s) (hq : s.seqG = Seq.idle)
    (hp : s.cfg.prio = .gOverD ∨ s.seqD = Seq.idle) (hv : IsFrame s.cfg v)
    (hw : if s.rxneG = true ∧ s.cfg.ovr = .keepOld then s.rdrG = .holds w else w = v) :
    ∃ t, execFeed v s = .next t ∧ Fed w s t := by
  have harr := arrive_next (l := .g) h hv
  have hsu := safeInv_arrive h harr
  have hpend := (pendInv_pendUpdate s (receiveFrame .g v s)).lineG
  rw [receiveFrame_g_survives hw] at harr hsu hpend
  have hcan : CanEnterG _ := ⟨hsu.noFault, hpend hq (by simp [irqG, h.data.rxneieG_set]), hq, hp⟩
  have hrun : ∀ {t}, execRunG _ = .next t → SafeInv t := safeInv_word (i := .runG) rfl hsu
  rw [execFeed, execGpsRx, harr, andThen_next]
  by_cases hd : w = 0x000#9 ∨ len s = s.cfg.cap
  · obtain ⟨t, ht, g, pg, pd, rfl⟩ := execRunG_dropped hsu hcan (.inr (hd.imp (congrArg Reg.holds) id))
    refine ⟨_, ht, hrun ht, rfl, rfl, rfl, rfl, ?_⟩
    rw [queuedOf_none (hd.imp id fun e => by omega)]
    refine ⟨(List.append_nil _).symm, (Bool.or_false _).symm, fun _ _ => rfl, fun _ => rfl, fun k => ?_, ?_⟩
    · exact congrArg (fun n => slotIndex s.cfg (s.tail + n)) (Nat.zero_add k).symm
    · exact with_seqG_self hq
  · obtain ⟨h0, hf⟩ := not_or.1 hd
    have hl : len s < s.cfg.cap := lt_of_le_of_ne h.data.len_le hf
    obtain ⟨t, ht, g, pg, pd, rfl⟩ := execRunG_accepted hsu hcan rfl rfl h0 hl
    refine ⟨_, ht, hrun ht, rfl, rfl, rfl, rfl, ?_⟩
    rw [queuedOf_one h0 (by omega)]
    refine ⟨contents_pushed h.data hl w, (Bool.or_true _).symm, fun j hj => ?_, fun e => ?_, fun k => ?_, ?_⟩
    · exact buf_pushed w s (hj 0 (by simp))
    · cases e
    · exact slotIndex_nextCursor_add s.cfg s.tail k
    · exact with_seqG_self hq

/-- Settles O55, by what FEED leaves. -/
theorem feedPassesOneFrameThrough : Obligations.FeedPassesOneFrameThrough := by
  unfold Obligations.FeedPassesOneFrameThrough
  intro s v w h hq hp hv hw
  obtain ⟨t, ht, hfed⟩ := execFeed_fed h hq hp hv hw
  obtain ⟨hs, hi, hr, ho, hrdr, hqd⟩ := hfed
  refine ⟨t, ht, hs, hi, hr, ho, hrdr, fun ⟨h0, hl⟩ => ?_, fun hn => ?_, hqd.frame⟩
  · rw [queuedOf_one h0 (by omega)] at hqd
    refine ⟨hqd.contents, by simp [hqd.txeie], fun j hj => hqd.slots j fun k hk => ?_⟩
    obtain rfl : k = 0 := by simpa using hk
    exact hj
  · rw [queuedOf_none ((not_and_or.1 hn).imp not_not.1 fun e => by omega)] at hqd
    exact ⟨by simp [hqd.contents], hqd.buf rfl, by simp [hqd.txeie]⟩

/-- FEEDS of one character more is its FEED, then FEEDS of the rest, which leaves an unfaulted state as it is when the
rest is empty (R76). -/
theorem execFeeds_cons_eq {c : Slot} {cs : List Slot} {s u : State} (h : execFeed c s = .next u) (hn : NoFault u) :
    execFeeds (c :: cs) s = execFeeds cs u := by
  cases cs with
  | nil => exact h.trans (requiresNoFault_of_noFault hn _).symm
  | cons c' rest => exact congrArg (andThen · (execFeeds (c' :: rest))) h

/-- FEEDS queues the frames that are not 0x000, in order, as many as there is room for (R76, R185). -/
theorem execFeeds_queued {cs : List Slot} {s : State} (h : SafeInv s) (hq : Quiescent s) (hr : s.rxneG = false)
    (hf : ∀ c ∈ cs, IsFrame s.cfg c) :
    ∃ t, execFeeds cs s = .next t ∧ SafeInv t ∧ t.rxneG = false ∧ Queued (queuedOf cs (s.cfg.cap - len s)) s t := by
  induction cs generalizing s with
  | nil =>
    refine ⟨s, requiresNoFault_of_noFault h.noFault _, h, hr, ?_⟩
    simpa [queuedOf] using Queued.refl s
  | cons c cs ih =>
    obtain ⟨hc, hcs⟩ := List.forall_mem_cons.1 hf
    obtain ⟨u, hu, hfed⟩ := execFeed_fed (w := c) h hq.1 (.inr hq.2) hc (by simp [hr])
    obtain ⟨hsu, hqu, hru, -, -, hqd⟩ := hfed
    have hDu : u.seqD = Seq.idle := hqd.seqD.trans hq.2
    obtain ⟨t, ht, hst, hrt, hrest⟩ := ih hsu ⟨hqu, hDu⟩ hru (by rwa [hqd.cfg])
    refine ⟨t, (execFeeds_cons_eq hu hsu.noFault).trans ht, hst, hrt, ?_⟩
    have := hqd.trans hrest
    rwa [hqd.cfg, hqd.len, Nat.sub_add_eq, ← queuedOf_cons] at this

/-- Settles O56, by induction on the frames. -/
theorem feedsQueuesTheNonNullFramesThatFit : Obligations.FeedsQueuesTheNonNullFramesThatFit := by
  unfold Obligations.FeedsQueuesTheNonNullFramesThatFit
  intro cs s h hq hr hf
  obtain ⟨t, ht, hst, hrt, hqd⟩ := execFeeds_queued h hq hr hf
  have hqt : Quiescent t := ⟨hqd.seqG.trans hq.1, hqd.seqD.trans hq.2⟩
  refine ⟨t, ht, hst, hqt, hrt, hqd.contents, fun e => ?_, fun e => ?_, fun j hj => hqd.slots j ?_, hqd.frame⟩
  · rw [hqd.contents, List.append_right_eq_self, List.map_eq_nil_iff] at e
    rw [hqd.txeie, e]
    simp
  · rw [hqd.contents, ne_eq, List.append_right_eq_self, List.map_eq_nil_iff] at e
    rw [hqd.txeie]
    simpa using .inr e
  · rwa [hqd.len, Nat.add_sub_cancel_left] at hj

end Sys2Proof.Machine

namespace Sys2Proof.Machine

/-! ### A whole dispatch activation (R122) -/

/-- RUN_D stops here: the activation is over, or a fault ended it (R122). -/
abbrev stopsD (t : State) : Bool := t.seqD == Seq.idle || t.fault.isSome

theorem stopsD_active {c : SeqCode} {s : State} (h : GoesD c s) (hc : c ≠ Seq.idle) : stopsD s = false := by
  obtain ⟨hn, hq, -⟩ := h
  simp [stopsD, show s.fault = none from hn, hq, hc]

/-- `t` is `u` but for the dispatch locals and the latches. -/
def ButLocalsD (t u : State) : Prop := ∃ d pg pd, t = { u with d := d, pendG := pg, pendD := pd }

/-- From `s`, `n` MSTEP_D words end the activation in `u`, but for the locals and the latches. -/
abbrev EndsD (n : Nat) (s u : State) : Prop := Reaches (ButLocalsD · u) stopsD stepD n 0 s

/-- A micro-op and the rest of the activation, seen from the state after the micro-op. -/
theorem EndsD.step {c : SeqCode} {n : Nat} {s r u v : State} (h : GoesD c s) (hc : c ≠ Seq.idle) (hr : ruleD s = r)
    (hf : NoFault r) (hrest : EndsD n (pendUpdate s r) v)
    (hv : ∀ d pg pd, { v with d := d, pendG := pg, pendD := pd } = { u with d := d, pendG := pg, pendD := pd }) :
    EndsD (n + 1) s u := by
  obtain ⟨t, ht, d, pg, pd, e⟩ := hrest
  exact Reaches.step (stopsD_active h hc) (stepD_next h hc hr hf) ⟨t, ht, d, pg, pd, e.trans (hv d pg pd)⟩

/-- The activation is over at IDLE. -/
theorem EndsD.idle {n : Nat} {s : State} (h : s.seqD = Seq.idle) : EndsD n s s :=
  .done (by simp [stopsD, h]) ⟨s.d, s.pendG, s.pendD, rfl⟩

theorem endsD_dp13 {s : State} (n : Nat) (h : GoesD Seq.dp13 s) :
    EndsD (n + 1) s { s with ore2 := false, seqD := Seq.idle } := by
  obtain ⟨hn, hq, hp⟩ := h
  exact .step ⟨hn, hq, hp⟩ (by decide) (ruleD_dp13 hq) hn (.idle rfl) fun _ _ _ => rfl

theorem endsD_dp12 {s : State} (n : Nat) (h : GoesD Seq.dp12 s) :
    EndsD (n + 2) s { s with ore2 := false, seqD := Seq.idle } := by
  obtain ⟨hn, hq, hp⟩ := h
  cases ho : s.ore2
  · refine .step ⟨hn, hq, hp⟩ (by decide) ((ruleD_dp12 hq).trans (ruleDp12_idle ho)) hn (.idle rfl) fun d pg pd => ?_
    simp [pendUpdate, ho]
  · refine .step ⟨hn, hq, hp⟩ (by decide) ((ruleD_dp12 hq).trans (ruleDp12_overrun ho)) hn ?_ fun _ _ _ => rfl
    exact endsD_dp13 n ⟨hn, rfl, hp⟩

/-- The command that is unread, if there is one (R114, R115). -/
def unread (rxne : Bool) (rdr : Reg Slot) : Reg Slot := if rxne then rdr else .unwritten

/-- The pin's level after a command: OFF after 0x030, ON after 0x031, as it was after any other (R116). -/
def pinAfter (c : Reg Slot) (p : PinLevel) : PinLevel :=
  if c = .holds 0x030#9 then .off else if c = .holds 0x031#9 then .on else p

/-- The strobe a command logs (R117, R118). -/
def pinLogged (c : Reg Slot) : List PinWrite :=
  if c = .holds 0x030#9 then [.reset] else if c = .holds 0x031#9 then [.set] else []

@[simp] theorem pinAfter_off (p : PinLevel) : pinAfter (.holds 0x030#9) p = .off := rfl
@[simp] theorem pinAfter_on (p : PinLevel) : pinAfter (.holds 0x031#9) p = .on := rfl
@[simp] theorem pinLogged_off : pinLogged (.holds 0x030#9) = [.reset] := rfl
@[simp] theorem pinLogged_on : pinLogged (.holds 0x031#9) = [.set] := rfl

theorem pinAfter_other {c : Reg Slot} (h0 : c ≠ .holds 0x030#9) (h1 : c ≠ .holds 0x031#9) (p : PinLevel) :
    pinAfter c p = p := by simp [pinAfter, h0, h1]

theorem pinLogged_other {c : Reg Slot} (h0 : c ≠ .holds 0x030#9) (h1 : c ≠ .holds 0x031#9) : pinLogged c = [] := by
  simp [pinLogged, h0, h1]

/-- What the receive branch, DP8 to DP13, makes of a state: the unread command is executed, the overrun flag cleared,
and the activation over. -/
def obeyed (s : State) : State :=
  { s with
    rxne2 := false, ore2 := false, pin := pinAfter (unread s.rxne2 s.rdr2) s.pin
    pinlog := s.pinlog ++ pinLogged (unread s.rxne2 s.rdr2), seqD := Seq.idle }

/-- DP10 drives the pin OFF and ends the receive branch (R117). -/
theorem endsD_dp10 {s : State} (n : Nat) (h : GoesD Seq.dp10 s) :
    EndsD (n + 3) s
      { s with pin := .off, pinlog := s.pinlog ++ [.reset], ore2 := false, seqD := Seq.idle } := by
  obtain ⟨hn, hq, hp⟩ := h
  exact .step ⟨hn, hq, hp⟩ (by decide) (ruleD_dp10 hq) hn (endsD_dp12 n ⟨hn, rfl, hp⟩) fun _ _ _ => rfl

/-- DP11 drives the pin ON and ends the receive branch (R118). -/
theorem endsD_dp11 {s : State} (n : Nat) (h : GoesD Seq.dp11 s) :
    EndsD (n + 3) s
      { s with pin := .on, pinlog := s.pinlog ++ [.set], ore2 := false, seqD := Seq.idle } := by
  obtain ⟨hn, hq, hp⟩ := h
  exact .step ⟨hn, hq, hp⟩ (by decide) (ruleD_dp11 hq) hn (endsD_dp12 n ⟨hn, rfl, hp⟩) fun _ _ _ => rfl

/-- DP9 reads the command and executes it (R115 to R119). -/
theorem endsD_dp9 {s : State} {c : Slot} (n : Nat) (h : GoesD Seq.dp9 s) (hc : s.rdr2 = .holds c) :
    EndsD (n + 4) s
      { s with
        rxne2 := false, ore2 := false, pin := pinAfter (.holds c) s.pin, pinlog := s.pinlog ++ pinLogged (.holds c)
        seqD := Seq.idle } := by
  obtain ⟨hn, hq, hp⟩ := h
  by_cases h0 : c = 0x030#9
  · have ht : commandTarget c = Seq.dp10 := if_pos h0
    rw [h0, pinAfter_off, pinLogged_off]
    exact .step ⟨hn, hq, hp⟩ (by decide) ((ruleD_dp9 hq).trans (ruleDp9_holds hc)) hn
      (endsD_dp10 n ⟨hn, ht, hp⟩) fun _ _ _ => rfl
  by_cases h1 : c = 0x031#9
  · have ht : commandTarget c = Seq.dp11 := (if_neg h0).trans (if_pos h1)
    rw [h1, pinAfter_on, pinLogged_on]
    exact .step ⟨hn, hq, hp⟩ (by decide) ((ruleD_dp9 hq).trans (ruleDp9_holds hc)) hn
      (endsD_dp11 n ⟨hn, ht, hp⟩) fun _ _ _ => rfl
  have ht : commandTarget c = Seq.dp12 := (if_neg h0).trans (if_neg h1)
  rw [pinAfter_other (by simpa using h0) (by simpa using h1), pinLogged_other (by simpa using h0) (by simpa using h1),
    List.append_nil]
  exact .step ⟨hn, hq, hp⟩ (by decide) ((ruleD_dp9 hq).trans (ruleDp9_holds hc)) hn
    (endsD_dp12 (n + 1) ⟨hn, ht, hp⟩) fun _ _ _ => rfl

/-- From DP8 on the activation is the receive branch (R114). -/
theorem endsD_dp8 {s : State} (n : Nat) (h : GoesD Seq.dp8 s) (hw : s.rxne2 = true → s.rdr2.isWritten = true) :
    EndsD (n + 5) s (obeyed s) := by
  obtain ⟨hn, hq, hp⟩ := h
  unfold obeyed
  cases hr : s.rxne2
  · rw [show unread false s.rdr2 = .unwritten from rfl, show pinAfter .unwritten s.pin = s.pin from rfl,
      show pinLogged .unwritten = [] from rfl, List.append_nil]
    refine .step (r := { s with d := { s.d with rn := .holds s.rxne2 }, seqD := Seq.dp12 }) ⟨hn, hq, hp⟩ (by decide)
      (by simp [ruleD_dp8 hq, ruleDp8, hr]) hn (endsD_dp12 (n + 2) ⟨hn, rfl, hp⟩) fun d pg pd => ?_
    simp [pendUpdate, hr]
  · obtain ⟨c, hc⟩ := Reg.isWritten_iff.1 (hw hr)
    rw [show unread true s.rdr2 = .holds c from hc]
    exact .step (r := { s with d := { s.d with rn := .holds s.rxne2 }, seqD := Seq.dp9 }) ⟨hn, hq, hp⟩ (by decide)
      (by simp [ruleD_dp8 hq, ruleDp8, hr]) hn (endsD_dp9 n ⟨hn, rfl, hp⟩ hc) fun _ _ _ => rfl

/-- DP7 clears TXEIE (R113). -/
theorem endsD_dp7 {s : State} (n : Nat) (h : GoesD Seq.dp7 s) (hw : s.rxne2 = true → s.rdr2.isWritten = true) :
    EndsD (n + 6) s (obeyed { s with txeie := false }) := by
  obtain ⟨hn, hq, hp⟩ := h
  exact .step ⟨hn, hq, hp⟩ (by decide) (ruleD_dp7 hq) hn (endsD_dp8 n ⟨hn, rfl, hp⟩ hw) fun _ _ _ => rfl

/-- DP6 clears TXEIE through DP7 when the queue is now empty (R112, R113). -/
theorem endsD_dp6 {s : State} (n : Nat) (h : GoesD Seq.dp6 s) (hw : s.rxne2 = true → s.rdr2.isWritten = true) :
    EndsD (n + 7) s (obeyed { s with txeie := !isEmpty s.head s.tail && s.txeie }) := by
  obtain ⟨hn, hq, hp⟩ := h
  cases he : isEmpty s.head s.tail
  · exact .step (r := { s with d := { s.d with t := .holds s.tail }, seqD := Seq.dp8 }) ⟨hn, hq, hp⟩ (by decide)
      (by simp [ruleD_dp6 hq, ruleDp6, he]) hn (endsD_dp8 (n + 1) ⟨hn, rfl, hp⟩ hw) fun _ _ _ => rfl
  · exact .step (r := { s with d := { s.d with t := .holds s.tail }, seqD := Seq.dp7 }) ⟨hn, hq, hp⟩ (by decide)
      (by simp [ruleD_dp6 hq, ruleDp6, he]) hn (endsD_dp7 n ⟨hn, rfl, hp⟩ hw) fun _ _ _ => rfl

/-- The value at the head popped into TDR_2: DP3 to DP5 (R109 to R111). -/
def popped (v : Slot) (s : State) : State :=
  { s with head := nextCursor s.cfg s.head, tdr2 := .holds v, txe2 := false }

/-- The transmit branch with a value to send: it is popped into TDR_2, and TXEIE cleared if the queue is now empty
(R109 to R113). -/
def sending (v : Slot) (s : State) : State :=
  { popped v s with txeie := !isEmpty (nextCursor s.cfg s.head) s.tail && s.txeie }

/-- DP5 writes the value in hand to TDR_2 (R111). -/
theorem endsD_dp5 {s : State} {v : Slot} (n : Nat) (h : GoesD Seq.dp5 s) (hx : s.txe2 = true) (hv : s.d.v = .holds v)
    (hw : s.rxne2 = true → s.rdr2.isWritten = true) :
    EndsD (n + 8) s
      (obeyed { s with tdr2 := .holds v, txe2 := false, txeie := !isEmpty s.head s.tail && s.txeie }) := by
  obtain ⟨hn, hq, hp⟩ := h
  exact .step ⟨hn, hq, hp⟩ (by decide) ((ruleD_dp5 hq).trans (ruleDp5_holds hx hv)) hn
    (endsD_dp6 n ⟨hn, rfl, hp⟩ hw) fun _ _ _ => rfl

/-- DP4 publishes HEAD (R110). -/
theorem endsD_dp4 {s : State} {v : Slot} (n : Nat) (h : GoesD Seq.dp4 s) (hx : s.txe2 = true)
    (hh : s.d.h = .holds s.head) (hv : s.d.v = .holds v) (hw : s.rxne2 = true → s.rdr2.isWritten = true) :
    EndsD (n + 9) s (obeyed (sending v s)) := by
  obtain ⟨hn, hq, hp⟩ := h
  exact .step ⟨hn, hq, hp⟩ (by decide) ((ruleD_dp4 hq).trans (ruleDp4_holds hh)) hn
    (endsD_dp5 n ⟨hn, rfl, hp⟩ hx hv hw) fun _ _ _ => rfl

/-- DP3 reads the head slot (R109). -/
theorem endsD_dp3 {s : State} {v : Slot} (n : Nat) (h : GoesD Seq.dp3 s) (hc : s.cfg.wf) (hx : s.txe2 = true)
    (hh : s.d.h = .holds s.head) (hv : s.buf.read (slotIndex s.cfg s.head) = .holds v)
    (hw : s.rxne2 = true → s.rdr2.isWritten = true) : EndsD (n + 10) s (obeyed (sending v s)) := by
  obtain ⟨hn, hq, hp⟩ := h
  exact .step ⟨hn, hq, hp⟩ (by decide) ((ruleD_dp3 hq).trans (ruleDp3_holds hc hh hv)) hn
    (endsD_dp4 n ⟨hn, rfl, hp⟩ hx hh rfl hw) fun _ _ _ => rfl

/-- From DP2 with a value at the head it is sent (R108). -/
theorem endsD_dp2_value {s : State} {v : Slot} (n : Nat) (h : GoesD Seq.dp2 s) (hd : DataInv s) (hx : s.txe2 = true)
    (hl : 0 < len s) (hv : s.buf.read (slotIndex s.cfg s.head) = .holds v) :
    EndsD (n + 11) s (obeyed (sending v s)) := by
  obtain ⟨hn, hq, hp⟩ := h
  exact .step ⟨hn, hq, hp⟩ (by decide) ((ruleD_dp2 hq).trans (ruleDp2_some hl hd.len_le)) hn
    (endsD_dp3 n ⟨hn, rfl, hp⟩ hd.cap_pos hx rfl hv hd.rdr2_written) fun _ _ _ => rfl

/-- From DP2 with an empty queue TXEIE is cleared (R108, R113). -/
theorem endsD_dp2_empty {s : State} (n : Nat) (h : GoesD Seq.dp2 s) (hl : len s = 0)
    (hw : s.rxne2 = true → s.rdr2.isWritten = true) : EndsD (n + 7) s (obeyed { s with txeie := false }) := by
  obtain ⟨hn, hq, hp⟩ := h
  exact .step ⟨hn, hq, hp⟩ (by decide) ((ruleD_dp2 hq).trans (ruleDp2_empty hl)) hn (endsD_dp7 n ⟨hn, rfl, hp⟩ hw)
    fun _ _ _ => rfl

/-- ENTER_D, where it is enabled, brings the engine to DP1, where it may step. -/
theorem goesD_enteredD {s : State} (h : CanEnterD s) : GoesD Seq.dp1 (enteredD s) :=
  ⟨h.1, rfl, fun e => h.2.2.2.resolve_left (by simp [show s.cfg.prio = .gOverD from e])⟩

/-- RUN_D where ENTER_D is enabled is the micro-ops from DP1 on (R122). -/
theorem execRunD_of_ends {s u : State} (h : CanEnterD s) (he : EndsD 12 (enteredD s) u) :
    ∃ t, execRunD s = .next t ∧ ButLocalsD t u := by
  rw [execRunD, enterD_next h, andThen_next]
  exact he

/-- RUN_D with the transmitter busy is the receive branch alone (R107). -/
theorem execRunD_busy {s : State} (hs : SafeInv s) (h : CanEnterD s) (hx : s.txe2 = false) :
    ∃ t, execRunD s = .next t ∧ ButLocalsD t (obeyed s) := by
  obtain ⟨hn, hq, hp⟩ := goesD_enteredD h
  refine execRunD_of_ends h ?_
  exact .step (r := { enteredD s with d := { DRegs.unwritten with te := .holds s.txe2 }, seqD := Seq.dp8 })
    ⟨hn, hq, hp⟩ (by decide) (by simp [ruleD_dp1 hq, ruleDp1, hx]) hn
    (endsD_dp8 6 ⟨hn, rfl, hp⟩ hs.data.rdr2_written) fun _ _ _ => rfl

/-- RUN_D with the transmitter free and the queue empty clears TXEIE (R108, R113). -/
theorem execRunD_empty {s : State} (hs : SafeInv s) (h : CanEnterD s) (hx : s.txe2 = true) (hl : len s = 0) :
    ∃ t, execRunD s = .next t ∧ ButLocalsD t (obeyed { s with txeie := false }) := by
  obtain ⟨hn, hq, hp⟩ := goesD_enteredD h
  refine execRunD_of_ends h ?_
  exact .step (r := { enteredD s with d := { DRegs.unwritten with te := .holds s.txe2 }, seqD := Seq.dp2 })
    ⟨hn, hq, hp⟩ (by decide) (by simp [ruleD_dp1 hq, ruleDp1, hx]) hn
    (endsD_dp2_empty 4 ⟨hn, rfl, hp⟩ hl hs.data.rdr2_written) fun _ _ _ => rfl

/-- RUN_D with the transmitter free and a value at the head pops it into TDR_2 (R108 to R113). -/
theorem execRunD_pops {s : State} {v : Slot} (hs : SafeInv s) (h : CanEnterD s) (hx : s.txe2 = true) (hl : 0 < len s)
    (hv : s.buf.read (slotIndex s.cfg s.head) = .holds v) :
    ∃ t, execRunD s = .next t ∧ ButLocalsD t (obeyed (sending v s)) := by
  obtain ⟨hn, hq, hp⟩ := goesD_enteredD h
  refine execRunD_of_ends h ?_
  have hd : DataInv (pendUpdate (enteredD s)
      { enteredD s with d := { DRegs.unwritten with te := .holds s.txe2 }, seqD := Seq.dp2 }) :=
    { hs.data with seqD_used := by simp }
  exact .step (r := { enteredD s with d := { DRegs.unwritten with te := .holds s.txe2 }, seqD := Seq.dp2 })
    ⟨hn, hq, hp⟩ (by decide) (by simp [ruleD_dp1 hq, ruleDp1, hx]) hn
    (endsD_dp2_value 0 ⟨hn, rfl, hp⟩ hd hx hl hv) fun _ _ _ => rfl

/-- What RUN_D leaves: the transmit branch by the transmitter and the queue, the receive branch by the unread command,
and everything else unchanged (R123). -/
structure Dispatched (s t : State) : Prop where
  busy : s.txe2 = false → t.head = s.head ∧ t.txe2 = false ∧ t.txeie = s.txeie ∧ t.tdr2 = s.tdr2
  empty : s.txe2 = true → contents s = [] → t.head = s.head ∧ t.txe2 = true ∧ t.txeie = false ∧ t.tdr2 = s.tdr2
  value : ∀ x rest, s.txe2 = true → contents s = x :: rest →
    contents t = rest ∧ t.txe2 = false ∧ t.tdr2 = x ∧ (rest = [] → t.txeie = false) ∧
    (rest ≠ [] → t.txeie = s.txeie)
  pin : t.pin = pinAfter (unread s.rxne2 s.rdr2) s.pin
  pinlog : t.pinlog = s.pinlog ++ pinLogged (unread s.rxne2 s.rdr2)
  rxne2 : t.rxne2 = false
  ore2 : t.ore2 = false
  frame : { t with
    head := s.head, txeie := s.txeie, pin := s.pin, pinlog := s.pinlog, rxne2 := s.rxne2, ore2 := s.ore2
    txe2 := s.txe2, tdr2 := s.tdr2, d := s.d, pendG := s.pendG, pendD := s.pendD } = s

/-- Writing to `seq_D` the code it holds changes nothing. -/
theorem with_seqD_self {s : State} {c : SeqCode} (h : s.seqD = c) : { s with seqD := c } = s := by rw [← h]

/-- The contents after a pop, and that HEAD meets TAIL where they are none (R82, R86). -/
theorem contents_popped {s : State} (h : DataInv s) (hl : 0 < len s) (v : Slot) :
    contents s = s.buf.read (slotIndex s.cfg s.head) :: contents (popped v s) ∧
      (contents (popped v s) = [] ↔ nextCursor s.cfg s.head = s.tail) :=
  ⟨contents_pop h.head_lt h.tail_lt hl rfl rfl rfl rfl,
    contents_eq_nil.trans (cursorDiff_eq_zero s.cfg (nextCursor_lt _ _ h.cap_pos) h.tail_lt)⟩

/-- RUN_D from a safe state in which ENTER_D is enabled (R122, R123). -/
theorem execRunD_dispatched {s : State} (hs : SafeInv s) (h : CanEnterD s) :
    ∃ t, execRunD s = .next t ∧ SafeInv t ∧ t.seqD = Seq.idle ∧ Dispatched s t := by
  have hrun : ∀ {t}, execRunD s = .next t → SafeInv t := safeInv_word (i := .runD) rfl hs
  cases hx : s.txe2
  · obtain ⟨t, ht, d, pg, pd, rfl⟩ := execRunD_busy hs h hx
    refine ⟨_, ht, hrun ht, rfl, fun _ => ⟨rfl, hx, rfl, rfl⟩, ?_, ?_, rfl, rfl, rfl, rfl, with_seqD_self h.2.2.1⟩
    · simp [hx]
    · simp [hx]
  · rcases Nat.eq_zero_or_pos (len s) with hl | hl
    · obtain ⟨t, ht, d, pg, pd, rfl⟩ := execRunD_empty hs h hx hl
      refine ⟨_, ht, hrun ht, rfl, ?_, fun _ _ => ⟨rfl, hx, rfl, rfl⟩, fun x rest _ hc => ?_, rfl, rfl, rfl, rfl,
        with_seqD_self h.2.2.1⟩
      · simp [hx]
      · simp [contents_eq_nil.2 hl] at hc
    · obtain ⟨v, hv⟩ := head_written hs.data hl
      obtain ⟨t, ht, d, pg, pd, rfl⟩ := execRunD_pops hs h hx hl hv
      obtain ⟨hcons, hnil⟩ := contents_popped hs.data hl v
      refine ⟨_, ht, hrun ht, rfl, ?_, fun _ hc => ?_, fun x rest _ hc => ?_, rfl, rfl, rfl, rfl,
        with_seqD_self h.2.2.1⟩
      · simp [hx]
      · exact absurd (contents_eq_nil.1 hc) hl.ne'
      · rw [hc, hv, List.cons.injEq] at hcons
        obtain ⟨rfl, rfl⟩ := hcons
        refine ⟨rfl, rfl, rfl, fun e => ?_, fun e => ?_⟩
        · simp [obeyed, sending, isEmpty, hnil.1 e]
        · simp [obeyed, sending, isEmpty, popped, show ¬ nextCursor s.cfg s.head = s.tail from fun e' => e (hnil.2 e')]

end Sys2Proof.Machine

namespace Sys2Proof.Machine

/-- From a safe state in which ENTER_G is enabled RUN_G has a next state (R103). -/
theorem execRunG_next {s : State} (hs : SafeInv s) (h : CanEnterG s) : ∃ t, execRunG s = .next t := by
  by_cases hd : s.rxneG = false ∨ s.rdrG = .holds 0x000#9 ∨ len s = s.cfg.cap
  · obtain ⟨t, ht, -⟩ := execRunG_dropped hs h hd
    exact ⟨t, ht⟩
  · obtain ⟨hr, hd⟩ := not_or.1 hd
    obtain ⟨h0, hf⟩ := not_or.1 hd
    have hr : s.rxneG = true := by simpa using hr
    obtain ⟨v, hv⟩ := Reg.isWritten_iff.1 (hs.data.rdrG_written hr)
    obtain ⟨t, ht, -⟩ := execRunG_accepted hs h hr hv (fun e => h0 (hv.trans (congrArg Reg.holds e)))
      (lt_of_le_of_ne hs.data.len_le hf)
    exact ⟨t, ht⟩

/-- Settles O37: no fault is met from a safe state, so that STEPALL_X stops where RUN_X does. -/
theorem stepallTakesTheStepsOfRun : Obligations.StepallTakesTheStepsOfRun := by
  unfold Obligations.StepallTakesTheStepsOfRun
  refine fun s hs => ⟨⟨execStepallG_eq hs, fun h => ?_⟩, execStepallD_eq hs, fun h => ?_⟩
  · obtain ⟨t, ht⟩ := execRunG_next hs h
    exact ⟨t, (execStepallG_eq hs).trans ht, (safeInv_word (i := .runG) rfl hs ht).noFault⟩
  · obtain ⟨t, ht, hst, -⟩ := execRunD_dispatched hs h
    exact ⟨t, (execStepallD_eq hs).trans ht, hst.noFault⟩

/-! ### CMD and XMIT (R76) -/

/-- A dispatch activation that leaves HEAD alone leaves the contents alone. -/
theorem Dispatched.contents_eq {s t : State} (h : Dispatched s t) (hh : t.head = s.head) : contents t = contents s := by
  have hf := h.frame
  exact contents_congr (congrArg State.cfg hf :) (congrArg State.buf hf :) hh (congrArg State.tail hf :)

/-- CMD: the command arrives, and its activation executes the one that survived the receiver (R122, R141). -/
theorem execCmd_dispatched {s : State} {v w : Slot} (h : SafeInv s) (hq : s.seqD = Seq.idle)
    (hp : s.cfg.prio = .dOverG ∨ s.seqG = Seq.idle) (hv : IsFrame s.cfg v)
    (hw : if s.rxne2 = true ∧ s.cfg.ovr = .keepOld then s.rdr2 = .holds w else w = v) :
    ∃ u t pg pd, execCmd v s = .next t ∧ SafeInv t ∧ t.seqD = Seq.idle ∧ Dispatched u t ∧
      u = { s with rxne2 := true, ore2 := s.ore2 || s.rxne2, rdr2 := .holds w, pendG := pg, pendD := pd } := by
  have harr := arrive_next (l := .l2) h hv
  have hsu := safeInv_arrive h harr
  have hpend := (pendInv_pendUpdate s (receiveFrame .l2 v s)).lineD
  rw [receiveFrame_l2_survives hw] at harr hsu hpend
  have hcan : CanEnterD _ := ⟨hsu.noFault, hpend hq (by simp [irq2, h.data.rxneie2_set]), hq, hp⟩
  obtain ⟨t, ht, hst, hqt, hd⟩ := execRunD_dispatched hsu hcan
  rw [execCmd, execHostRx, harr, andThen_next]
  exact ⟨_, t, _, _, ht, hst, hqt, hd, rfl⟩

/-- Settles O57, by what a dispatch activation leaves. -/
theorem cmdRunsOneCommand : Obligations.CmdRunsOneCommand := by
  unfold Obligations.CmdRunsOneCommand
  intro s v w h hq hp hv hw
  obtain ⟨u, t, pg, pd, ht, hst, hqt, hd, rfl⟩ := execCmd_dispatched h hq hp hv hw
  have hpin : t.pin = pinAfter (.holds w) s.pin := hd.pin
  have hlog : t.pinlog = s.pinlog ++ pinLogged (.holds w) := hd.pinlog
  have hf := hd.frame
  refine ⟨t, ht, hst, hqt, hd.rxne2, hd.ore2, (congrArg State.rdr2 hf :), ?off, ?on, ?other, fun hx => ?busy,
    fun hx hc => ?empty, hd.value, ?frame⟩
  case off =>
    rintro rfl
    exact ⟨hpin, hlog⟩
  case on =>
    rintro rfl
    exact ⟨hpin, hlog⟩
  case other =>
    intro h0 h1
    have h0 : Reg.holds w ≠ .holds 0x030#9 := by simpa using h0
    have h1 : Reg.holds w ≠ .holds 0x031#9 := by simpa using h1
    rw [hpin, hlog, pinAfter_other h0 h1, pinLogged_other h0 h1, List.append_nil]
    exact ⟨rfl, rfl⟩
  case busy =>
    obtain ⟨hh, hbusy⟩ := hd.busy hx
    exact ⟨hd.contents_eq hh, hbusy⟩
  case empty =>
    obtain ⟨hh, hempty⟩ := hd.empty hx hc
    exact ⟨(hd.contents_eq hh).trans hc, hempty⟩
  case frame =>
    exact congrArg (fun x : State => { x with
      rxne2 := s.rxne2, ore2 := s.ore2, rdr2 := s.rdr2, pendG := s.pendG, pendD := s.pendD }) hf

/-- The low FRAME_W bits of a value, as a number (R65, R142). -/
theorem frameOf_eq (cfg : Config) (v : Slot) : frameOf cfg v = BitVec.ofNat 9 (v.toNat % 2 ^ cfg.frameW.bits) := by
  apply BitVec.eq_of_toNat_eq
  have hv : v.toNat % 512 = v.toNat := Nat.mod_eq_of_lt v.isLt
  cases h : cfg.frameW with
  | w8 => simp [frameOf, h, FrameW.bits]
  | w9 => simp [frameOf, h, FrameW.bits, hv]

/-- TX_DONE with a frame in the holding register (R142). -/
theorem execTxDone_next {s : State} {v : Slot} (hn : NoFault s) (hx : s.txe2 = false) (hv : s.tdr2 = .holds v) :
    execTxDone s = .next (pendUpdate s
      { s with out := s.out ++ [BitVec.ofNat 9 (v.toNat % 2 ^ s.cfg.frameW.bits)], txe2 := true }) := by
  have hr : ruleTxDone s = { s with out := s.out ++ [frameOf s.cfg v], txe2 := true } := by simp [ruleTxDone, hv, emit]
  rw [execTxDone, requiresNoFault_of_noFault hn, hx, hr, frameOf_eq]
  exact congrArg Host.Outcome.next (afterRule_of_noFault s hn)

/-- TX_DONE with the transmitter empty is stuck (R142, R170). -/
theorem execTxDone_stuck {s : State} (hn : NoFault s) (hx : s.txe2 = true) :
    execTxDone s = .fault .transmitterEmpty := by
  rw [execTxDone, requiresNoFault_of_noFault hn, hx]
  rfl

/-- After the activation of XMIT the holding register is full: with the value at the head, or with the frame that was
in flight (R107, R111). -/
theorem Dispatched.holding {s t : State} {x : Reg Slot} {later : List (Reg Slot)} (h : Dispatched s t)
    (hx : if s.txe2 = true then contents s = x :: later else s.tdr2 = x ∧ contents s = later) :
    t.txe2 = false ∧ t.tdr2 = x ∧ contents t = later ∧
      (s.txe2 = true → later = [] → t.txeie = false) ∧
      (s.txe2 = false ∨ later ≠ [] → t.txeie = s.txeie) ∧ (s.txe2 = false → t.head = s.head) := by
  cases he : s.txe2
  · obtain ⟨hr, hc⟩ : s.tdr2 = x ∧ contents s = later := by simpa [he] using hx
    obtain ⟨hh, hx', hie, htdr⟩ := h.busy he
    exact ⟨hx', htdr.trans hr, (h.contents_eq hh).trans hc, by simp, fun _ => hie, fun _ => hh⟩
  · obtain ⟨hc, hx', htdr, hnil, hne⟩ := h.value x later he (by simpa [he] using hx)
    exact ⟨hx', htdr, hc, fun _ => hnil, fun e => hne (e.resolve_left (by simp)), by simp⟩

/-- Settles O58: a dispatch activation fills the holding register or finds it full, and TX_DONE sends what it holds. -/
theorem xmitSendsTheHeadOfTheQueue : Obligations.XmitSendsTheHeadOfTheQueue := by
  unfold Obligations.XmitSendsTheHeadOfTheQueue
  intro s h hq hp
  refine ⟨fun x later hpend hx => ?sends, fun hpend hx hc => ?stuck, fun hpend => ?notPending⟩
  case sends =>
    obtain ⟨u, hu, hsu, hqu, hd⟩ := execRunD_dispatched h ⟨h.noFault, hpend, hq, hp⟩
    obtain ⟨hxu, htdr, hcu, hnil, hne, hhead⟩ := hd.holding hx
    obtain ⟨v, hv⟩ := Reg.isWritten_iff.1 (hsu.data.tdr2_written hxu)
    have hf := hd.frame
    have hcfg : u.cfg = s.cfg := (congrArg State.cfg hf :)
    have hout : u.out = s.out := (congrArg State.out hf :)
    have htx := execTxDone_next hsu.noFault hxu hv
    refine ⟨v, _, htdr.symm.trans hv, (congrArg (andThen · execTxDone) hu).trans htx,
      safeInv_word (i := .txDone) rfl hsu htx, hqu, hcu, ?_, rfl, htdr, hnil, hne, hhead, hd.rxne2, hd.ore2,
      fun hr hc => ?_, fun hr hc => ?_, fun hc => ?_, ?_⟩
    · simp [hcfg, hout]
    · have hun : unread s.rxne2 s.rdr2 = .holds 0x030#9 := by rw [unread, if_pos hr, hc]
      exact ⟨hd.pin.trans (by rw [hun]; rfl), hd.pinlog.trans (by rw [hun]; rfl)⟩
    · have hun : unread s.rxne2 s.rdr2 = .holds 0x031#9 := by rw [unread, if_pos hr, hc]
      exact ⟨hd.pin.trans (by rw [hun]; rfl), hd.pinlog.trans (by rw [hun]; rfl)⟩
    · have hun : unread s.rxne2 s.rdr2 ≠ .holds 0x030#9 ∧ unread s.rxne2 s.rdr2 ≠ .holds 0x031#9 := by
        rcases hc with hr | ⟨h0, h1⟩ <;> unfold unread <;> split <;> simp_all
      have hpin := hd.pin
      have hlog := hd.pinlog
      rw [pinAfter_other hun.1 hun.2] at hpin
      rw [pinLogged_other hun.1 hun.2, List.append_nil] at hlog
      exact ⟨hpin, hlog⟩
    · exact congrArg (fun x : State => { x with out := s.out }) hf
  case stuck =>
    obtain ⟨u, hu, hsu, -, hd⟩ := execRunD_dispatched h ⟨h.noFault, hpend, hq, hp⟩
    exact (congrArg (andThen · execTxDone) hu).trans (execTxDone_stuck hsu.noFault (hd.empty hx hc).2.1)
  case notPending =>
    obtain ⟨r, hr⟩ := enterD_stuck (s := s) fun hcan => Bool.false_ne_true (hpend.symm.trans hcan.2.1)
    exact ⟨r, by rw [exec, execXmit, execRunD, hr, andThen_fault, andThen_fault]⟩

end Sys2Proof.Machine

namespace Sys2Proof.Machine

/-! ### The words of the pseudo-instructions, run from the trace (R76, R77) -/

/-- `s` with the words `ws` to come. -/
abbrev withTrace (ws : List StimWord) (s : State) : State := { s with trace := ws }

/-- A rule that neither reads nor writes the trace. -/
def BlindRule (f : State → State) : Prop := ∀ ws s, f (withTrace ws s) = withTrace ws (f s)

/-- A step that neither reads nor writes the trace. -/
def Blind (f : State → Out) : Prop := ∀ ws s, f (withTrace ws s) = andThen (f s) fun t => .next (withTrace ws t)

theorem andThen_assoc (o : Out) (f g : State → Out) : andThen (andThen o f) g = andThen o fun s => andThen (f s) g := by
  cases o <;> rfl

theorem Blind.andThen {f g : State → Out} (hf : Blind f) (hg : Blind g) : Blind fun s => andThen (f s) g := by
  intro ws s
  simp only [hf ws s, andThen_assoc, andThen_next, hg ws]

theorem Blind.requires {f : State → Out} {b : State → Bool} (hb : ∀ ws s, b (withTrace ws s) = b s) (why : Fault)
    (hf : Blind f) : Blind fun s => requires (b s) why (f s) := by
  intro ws s
  simp only [hb ws s]
  cases b s
  · rfl
  · exact hf ws s

theorem Blind.requiresNoFault {f : State → Out} (hf : Blind f) : Blind fun s => requiresNoFault s (f s) :=
  .requires (fun _ _ => rfl) _ hf

theorem BlindRule.next {f : State → State} (hf : BlindRule f) : Blind fun s => .next (f s) := fun ws s =>
  congrArg Host.Outcome.next (hf ws s)

theorem BlindRule.afterRule {f : State → State} (hf : BlindRule f) : BlindRule fun s => afterRule s (f s) := by
  intro ws s
  simp only [hf ws s, Machine.afterRule]
  cases (f s).fault <;> rfl

theorem Blind.repeatUntil {stop : State → Bool} {f : State → Out} (hs : ∀ ws s, stop (withTrace ws s) = stop s)
    (hf : Blind f) (n : Nat) : Blind (repeatUntil stop f n) := by
  induction n with
  | zero => exact fun _ _ => rfl
  | succ n ih =>
    intro ws s
    simp only [Machine.repeatUntil, hs ws s]
    cases stop s
    · exact hf.andThen ih ws s
    · rfl

theorem blindRule_ruleG : BlindRule ruleG := by
  intro ws s
  unfold ruleG
  simp only
  split
  · rfl
  · cases h : s.rdrG <;> simp [ruleIg2, readRdrOf, h, raise]
  · simp only [ruleIg3]; split <;> rfl
  · cases h : s.g.t <;> cases h' : s.g.v <;> simp [ruleIg4, h, h', writeSlot, raise]
    split <;> rfl
  · cases h : s.g.t <;> simp [ruleIg5, h, raise]
  · rfl
  · simp only [ruleIg7]; split <;> rfl
  · rfl
  · rfl

theorem blindRule_ruleD : BlindRule ruleD := by
  intro ws s
  unfold ruleD
  simp only
  split
  · rfl
  · simp only [ruleDp2]; split <;> rfl
  · cases h : s.d.h <;> simp [ruleDp3, h, readSlot, raise]
    split
    · cases s.buf.read (slotIndex s.cfg _) <;> rfl
    · rfl
  · cases h : s.d.h <;> simp [ruleDp4, h, raise]
  · cases h : s.txe2 <;> cases h' : s.d.v <;> simp [ruleDp5, h, h', writeTdrReg, raise]
  · rfl
  · rfl
  · rfl
  · cases h : s.rdr2 <;> simp [ruleDp9, readRdrOf, h, raise]
  · rfl
  · rfl
  · simp only [ruleDp12]; split <;> rfl
  · rfl
  · rfl

theorem blind_stepG : Blind stepG :=
  .requiresNoFault <| .requires (fun _ _ => rfl) _ <| .requires (fun _ _ => rfl) _ <| blindRule_ruleG.afterRule.next

theorem blind_stepD : Blind stepD :=
  .requiresNoFault <| .requires (fun _ _ => rfl) _ <| .requires (fun _ _ => rfl) _ <| blindRule_ruleD.afterRule.next

theorem blind_enterG : Blind enterG :=
  .requiresNoFault <| .requires (fun _ _ => rfl) _ <| .requires (fun _ _ => rfl) _ <|
    .requires (fun _ _ => rfl) _ fun _ _ => rfl

theorem blind_enterD : Blind enterD :=
  .requiresNoFault <| .requires (fun _ _ => rfl) _ <| .requires (fun _ _ => rfl) _ <|
    .requires (fun _ _ => rfl) _ fun _ _ => rfl

theorem blind_execRunG : Blind execRunG := blind_enterG.andThen (.repeatUntil (fun _ _ => rfl) blind_stepG 8)

theorem blind_execRunD : Blind execRunD := blind_enterD.andThen (.repeatUntil (fun _ _ => rfl) blind_stepD 12)

theorem blindRule_receiveFrame (l : Link) (f : Slot) : BlindRule (receiveFrame l f) := by
  intro ws s
  cases l with
  | g => cases hr : s.rxneG <;> cases ho : s.cfg.ovr <;> simp [receiveFrame, hr, ho]
  | l2 => cases hr : s.rxne2 <;> cases ho : s.cfg.ovr <;> simp [receiveFrame, hr, ho]

theorem blind_arrive (l : Link) (f : Slot) : Blind (arrive l f) := by
  intro ws s
  unfold arrive
  split
  · exact (Blind.requiresNoFault (blindRule_receiveFrame l f).afterRule.next) ws s
  · rfl

theorem blindRule_ruleTxDone : BlindRule ruleTxDone := by
  intro ws s
  unfold ruleTxDone
  cases s.tdr2 <;> rfl

theorem blind_execTxDone : Blind execTxDone :=
  .requiresNoFault <| .requires (fun _ _ => rfl) _ blindRule_ruleTxDone.afterRule.next

/-- The word `w` at the front of the trace makes the step `f`, in the state with the word taken off (R77). -/
def WordRuns (w : StimWord) (f : State → Out) : Prop := ∀ ws s, step (withTrace (w :: ws) s) = f (withTrace ws s)

theorem wordRuns_of_decode {w : StimWord} {i : Instr} (h : ∀ cfg, decodeStimulus cfg w = .ok i) :
    WordRuns w (exec i) := fun _ s => step_of_decode rfl (h s.cfg)

theorem wordRuns_runG : WordRuns 0x4000#16 execRunG := wordRuns_of_decode (i := .runG) fun _ => rfl
theorem wordRuns_runD : WordRuns 0x5000#16 execRunD := wordRuns_of_decode (i := .runD) fun _ => rfl
theorem wordRuns_txDone : WordRuns 0x3000#16 execTxDone := wordRuns_of_decode (i := .txDone) fun _ => rfl
theorem wordRuns_enterG : WordRuns 0x6000#16 enterG := wordRuns_of_decode (i := .enterG) fun _ => rfl
theorem wordRuns_enterD : WordRuns 0x7000#16 enterD := wordRuns_of_decode (i := .enterD) fun _ => rfl
theorem wordRuns_stepG : WordRuns 0x8000#16 stepG := wordRuns_of_decode (i := .mstepG) fun _ => rfl
theorem wordRuns_stepD : WordRuns 0x9000#16 stepD := wordRuns_of_decode (i := .mstepD) fun _ => rfl

/-- An operand does not reach the op of a word (R68). -/
theorem wordOp_operand (op : StimWord) (d : Slot) : wordOp (op ||| d.setWidth 16) = wordOp op := by
  unfold wordOp
  ext k hk
  simp [show 9 ≤ 12 + k by omega]

/-- The operand of a word whose bits 8:0 are the operand's (R68). -/
theorem wordOperand_operand {op : StimWord} (hop : wordOperand op = 0#9) (d : Slot) :
    wordOperand (op ||| d.setWidth 16) = d := by
  unfold wordOperand at *
  rw [BitVec.extractLsb'_or, hop]
  ext k hk
  simp [show k < 16 by omega, BitVec.getLsbD_eq_getElem hk]

/-- A word whose operand is a frame is refused where the operand is none, as its row is (R70, R140, R141). -/
theorem wordRuns_arrive {w : StimWord} {l : Link} {v : Slot} {i : Instr} (hi : exec i = arrive l v)
    (hd : ∀ cfg, decodeStimulus cfg w = frameWord cfg v i) : WordRuns w (arrive l v) := by
  intro ws s
  have hd := hd s.cfg
  rw [frameWord] at hd
  by_cases hv : frameFits s.cfg v = true
  · rw [if_pos hv] at hd
    rw [← hi]
    exact step_of_decode (s := withTrace _ s) rfl hd
  · rw [if_neg hv] at hd
    rw [arrive, if_neg hv]
    exact step_of_error (s := withTrace _ s) rfl hd

theorem wordRuns_gpsRx (v : Slot) : WordRuns (0x1000#16 ||| v.setWidth 16) (arrive .g v) := by
  refine wordRuns_arrive (i := .gpsRx v) rfl fun cfg => ?_
  rw [decodeStimulus, Laws.wordZero_operand _ (by decide), wordOp_operand, wordOperand_operand (by decide)]
  rfl

theorem wordRuns_hostRx (v : Slot) : WordRuns (0x2000#16 ||| v.setWidth 16) (arrive .l2 v) := by
  refine wordRuns_arrive (i := .hostRx v) rfl fun cfg => ?_
  rw [decodeStimulus, Laws.wordZero_operand _ (by decide), wordOp_operand, wordOperand_operand (by decide)]
  rfl

/-- `k` words of the trace, run from `s`. -/
def runWords (k : Nat) (s : State) : Out := Sys2Proof.core.run k s

theorem runWords_succ (k : Nat) (s : State) : runWords (k + 1) s = andThen (step s) (runWords k) := core_run_succ k s

/-- A run whose first word is `w`. -/
theorem run_word {w : StimWord} {f : State → Out} (hw : WordRuns w f) (hf : Blind f) (k : Nat) (ws : List StimWord)
    (s : State) : runWords (k + 1) (withTrace (w :: ws) s) = andThen (f s) fun t => runWords k (withTrace ws t) := by
  rw [runWords_succ, hw, hf, andThen_assoc]
  rfl

/-- A run whose first two words are `w` and `w'`. -/
theorem run_word_word {w w' : StimWord} {f f' : State → Out} (hw : WordRuns w f) (hf : Blind f) (hw' : WordRuns w' f')
    (hf' : Blind f') (k : Nat) (ws : List StimWord) (s : State) :
    runWords (k + 2) (withTrace (w :: w' :: ws) s) =
      andThen (andThen (f s) f') fun t => runWords k (withTrace ws t) := by
  rw [run_word hw hf, andThen_assoc]
  simp only [run_word hw' hf']

/-- The run of the words of a pseudo-instruction of two words (R76). -/
theorem run_two {w w' : StimWord} {f f' : State → Out} (hw : WordRuns w f) (hf : Blind f) (hw' : WordRuns w' f')
    (hf' : Blind f') (s : State) :
    runWords 2 (withTrace [w, w'] s) = andThen (f (withTrace [] s)) f' :=
  (run_word_word hw hf hw' hf' 0 [] s).trans ((hf.andThen hf') [] s).symm

theorem blind_execFeed (v : Slot) : Blind (execFeed v) := (blind_arrive .g v).andThen blind_execRunG

/-- FEEDS of two characters or more is the FEED of the first, then FEEDS of the others (R76). -/
theorem execFeeds_cons_cons (c c' : Slot) (cs : List Slot) (s : State) :
    execFeeds (c :: c' :: cs) s = andThen (execFeed c s) (execFeeds (c' :: cs)) := rfl

/-- The words of a FEEDS string that is not empty, run in order (R76). -/
theorem run_feeds {cs : List Slot} (hcs : cs ≠ []) (s : State) :
    runWords (cs.flatMap fun v => [0x1000#16 ||| v.setWidth 16, 0x4000#16]).length
        (withTrace (cs.flatMap fun v => [0x1000#16 ||| v.setWidth 16, 0x4000#16]) s) =
      execFeeds cs (withTrace [] s) := by
  induction cs generalizing s with
  | nil => exact absurd rfl hcs
  | cons c cs ih =>
    have hfirst := run_word_word (wordRuns_gpsRx c) (blind_arrive .g c) wordRuns_runG blind_execRunG
      (cs.flatMap fun v => [0x1000#16 ||| v.setWidth 16, 0x4000#16]).length
      (cs.flatMap fun v => [0x1000#16 ||| v.setWidth 16, 0x4000#16]) s
    refine hfirst.trans ?_
    cases cs with
    | nil => exact (blind_execFeed c [] s).symm
    | cons c' rest =>
      simp only [ih (List.cons_ne_nil c' rest)]
      rw [execFeeds_cons_cons, blind_execFeed c [] s, andThen_assoc (execFeed c s)]
      rfl

/-- The steps of a repetition are the words of as many places (R76). -/
theorem run_of_repeat {w : StimWord} {f : State → Out} {stop : State → Bool} (hw : WordRuns w f) (hf : Blind f) {n : Nat}
    {s t : State} (h : repeatUntil stop f n s = .next t) :
    ∃ m, m ≤ n ∧ runWords m (withTrace (List.replicate m w) s) = .next (withTrace [] t) := by
  induction n generalizing s with
  | zero =>
    cases h
    exact ⟨0, le_rfl, rfl⟩
  | succ n ih =>
    rw [repeatUntil] at h
    split at h
    · cases h
      exact ⟨0, Nat.zero_le _, rfl⟩
    · obtain ⟨u, hu, ht⟩ := andThen_eq_next.1 h
      obtain ⟨m, hm, hrun⟩ := ih ht
      refine ⟨m + 1, by omega, ?_⟩
      rw [List.replicate_succ, run_word hw hf, hu]
      exact hrun

/-- An entry and a repetition are the entry's word and the words of as many places (R76). -/
theorem run_of_stepall {w w' : StimWord} {f f' : State → Out} {stop : State → Bool} (hw : WordRuns w f) (hf : Blind f)
    (hw' : WordRuns w' f') (hf' : Blind f') (hstop : ∀ ws s, stop (withTrace ws s) = stop s) {n : Nat} {s t : State}
    (h : andThen (f (withTrace [] s)) (repeatUntil stop f' n) = .next t) :
    ∃ m, m ≤ n ∧ runWords (m + 1) (withTrace (w :: List.replicate m w') s) = .next t := by
  have hblind := (hf.andThen (.repeatUntil hstop hf' n)) [] s
  obtain ⟨t', ht', htr⟩ := andThen_eq_next.1 (hblind.symm.trans h)
  obtain ⟨u, hu, hrep⟩ := andThen_eq_next.1 ht'
  obtain ⟨m, hm, hrun⟩ := run_of_repeat hw' hf' hrep
  refine ⟨m, hm, ?_⟩
  rw [run_word hw hf, hu]
  exact hrun.trans htr

/-! ### STEPALL_X ends with the engine IDLE, in every state (R76, R104, R123) -/

/-- How many micro-ops may follow the one at which the ingest engine stands; none after a fault. -/
def leftG (s : State) : Nat := if s.fault.isSome then 0 else 8 - s.seqG.toNat

/-- A micro-op of the ingest engine, in any state, ends the activation or lessens what may follow. -/
theorem ruleG_advances {s : State} (hn : s.fault = none) (h0 : s.seqG ≠ Seq.idle) (hu : s.seqG.toNat ≤ 8) :
    (ruleG s).seqG.toNat ≤ 8 ∧ ((ruleG s).seqG = Seq.idle ∨ leftG (ruleG s) < leftG s) := by
  rcases seqG_cases hu h0 with e | e | e | e | e | e | e | e
  · rw [ruleG_ig1 e, ruleIg1]
    cases s.rxneG <;> simp [leftG, hn, e]
  · rw [ruleG_ig2 e]
    cases hr : s.rdrG with
    | unwritten => simp [ruleIg2_unwritten hr, leftG, hn, e]
    | holds v =>
      rw [ruleIg2_holds hr]
      by_cases hv : v = 0x000#9 <;> simp [leftG, hn, e, hv]
  · rw [ruleG_ig3 e, ruleIg3]
    split
    · simp [leftG, hn, e]
    · cases isFull s.cfg s.head s.tail <;> simp [leftG, hn, e]
  · rw [ruleG_ig4 e]
    cases ht : s.g.t with
    | unwritten => simp [ruleIg4, ht, leftG, hn, e]
    | holds t =>
      cases hv : s.g.v with
      | unwritten => simp [ruleIg4, ht, hv, leftG, hn, e]
      | holds v => by_cases hi : slotIndex s.cfg t < s.cfg.cap <;> simp [ruleIg4, ht, hv, writeSlot, hi, leftG, hn, e]
  · rw [ruleG_ig5 e]
    cases ht : s.g.t <;> simp [ruleIg5, ht, leftG, hn, e]
  · simp [ruleG_ig6 e, ruleIg6, leftG, hn, e]
  · rw [ruleG_ig7 e]
    cases ho : s.oreG
    · simp [ruleIg7_idle ho]
    · simp [ruleIg7_overrun ho, leftG, hn, e]
  · simp [ruleG_ig8 e, ruleIg8, leaveG]

/-- How many micro-ops may follow the one at which the dispatch engine stands, of DP10 and DP11 only one; none after
a fault. -/
def leftD (s : State) : Nat :=
  if s.fault.isSome then 0 else if s.seqD.toNat ≤ 10 then 12 - s.seqD.toNat else 13 - s.seqD.toNat

/-- A micro-op of the dispatch engine, in any state, ends the activation or lessens what may follow. -/
theorem ruleD_advances {s : State} (hn : s.fault = none) (h0 : s.seqD ≠ Seq.idle) (hu : s.seqD.toNat ≤ 13) :
    (ruleD s).seqD.toNat ≤ 13 ∧ ((ruleD s).seqD = Seq.idle ∨ leftD (ruleD s) < leftD s) := by
  rcases seqD_cases hu h0 with e | e | e | e | e | e | e | e | e | e | e | e | e
  · rw [ruleD_dp1 e, ruleDp1]
    cases s.txe2 <;> simp [leftD, hn, e]
  · rw [ruleD_dp2 e, ruleDp2]
    split
    · simp [leftD, hn, e]
    · by_cases hl : cursorDiff s.cfg s.head s.tail = 0 <;> simp [leftD, hn, e, hl]
  · rw [ruleD_dp3 e]
    cases hh : s.d.h with
    | unwritten => simp [ruleDp3, hh, leftD, hn, e]
    | holds h =>
      by_cases hi : slotIndex s.cfg h < s.cfg.cap
      · cases hv : s.buf.read (slotIndex s.cfg h) <;> simp [ruleDp3, hh, readSlot, hi, hv, leftD, hn, e]
      · simp [ruleDp3, hh, readSlot, hi, leftD, hn, e]
  · rw [ruleD_dp4 e]
    cases hh : s.d.h <;> simp [ruleDp4, hh, leftD, hn, e]
  · rw [ruleD_dp5 e]
    cases hx : s.txe2 <;> cases hv : s.d.v <;> simp [ruleDp5, hx, hv, writeTdrReg, leftD, hn, e]
  · rw [ruleD_dp6 e, ruleDp6]
    cases isEmpty s.head s.tail <;> simp [leftD, hn, e]
  · simp [ruleD_dp7 e, ruleDp7, leftD, hn, e]
  · rw [ruleD_dp8 e, ruleDp8]
    cases s.rxne2 <;> simp [leftD, hn, e]
  · rw [ruleD_dp9 e]
    cases hr : s.rdr2 with
    | unwritten => simp [ruleDp9_unwritten hr, leftD, hn, e]
    | holds c =>
      rw [ruleDp9_holds hr]
      by_cases h0 : c = 0x030#9
      · simp [commandTarget, leftD, hn, e, h0]
      · by_cases h1 : c = 0x031#9 <;> simp [commandTarget, leftD, hn, e, h0, h1]
  · simp [ruleD_dp10 e, ruleDp10, leftD, hn, e]
  · simp [ruleD_dp11 e, ruleDp11, leftD, hn, e]
  · rw [ruleD_dp12 e]
    cases ho : s.ore2
    · simp [ruleDp12_idle ho]
    · simp [ruleDp12_overrun ho, leftD, hn, e]
  · simp [ruleD_dp13 e, ruleDp13, leaveD]

/-- STEPALL_G that has a next state leaves the ingest engine IDLE. -/
theorem execStepallG_idle {s t : State} (h : execStepallG s = .next t) : t.seqG = Seq.idle := by
  obtain ⟨u, hu, ht⟩ := andThen_eq_next.1 h
  obtain ⟨hn, -, -, -, rfl⟩ := enterG_eq_next.1 hu
  refine beq_iff_eq.1 (repeatUntil_stops (P := fun v => v.seqG.toNat ≤ 8) (r := leftG) (fun v w hv hw => ?_) 8 _ t
    (by simp) (by simp [leftG, hn]) ht)
  obtain ⟨hf, hne, -, rfl⟩ := microStepG_eq_next.1 hw
  simpa [leftG] using ruleG_advances hf hne hv

/-- STEPALL_D that has a next state leaves the dispatch engine IDLE. -/
theorem execStepallD_idle {s t : State} (h : execStepallD s = .next t) : t.seqD = Seq.idle := by
  obtain ⟨u, hu, ht⟩ := andThen_eq_next.1 h
  obtain ⟨hn, -, -, -, rfl⟩ := enterD_eq_next.1 hu
  refine beq_iff_eq.1 (repeatUntil_stops (P := fun v => v.seqD.toNat ≤ 13) (r := leftD) (fun v w hv hw => ?_) 12 _ t
    (by simp) (by simp [leftD, hn]) ht)
  obtain ⟨hf, hne, -, rfl⟩ := microStepD_eq_next.1 hw
  simpa [leftD] using ruleD_advances hf hne hv

/-- Settles O7: a word does what its row does, without a look at the rest of the trace, so that a run of words is the
rows one after the other. -/
theorem pseudoInstructionsAreTheirWords : Obligations.PseudoInstructionsAreTheirWords := by
  unfold Obligations.PseudoInstructionsAreTheirWords
  refine ⟨fun s v => ⟨?feed, ?cmd, ?xmit⟩, fun s cs ws hcs hws => ?feeds, fun s t h => ⟨execStepallG_idle h, ?stepallG⟩,
    fun s t h => ⟨execStepallD_idle h, ?stepallD⟩⟩
  case feed => exact run_two (wordRuns_gpsRx v) (blind_arrive .g v) wordRuns_runG blind_execRunG s
  case cmd => exact run_two (wordRuns_hostRx v) (blind_arrive .l2 v) wordRuns_runD blind_execRunD s
  case xmit => exact run_two wordRuns_runD blind_execRunD wordRuns_txDone blind_execTxDone s
  case feeds =>
    cases hws
    exact run_feeds hcs s
  case stepallG =>
    exact run_of_stepall wordRuns_enterG blind_enterG wordRuns_stepG blind_stepG (fun _ _ => rfl) h
  case stepallD =>
    exact run_of_stepall wordRuns_enterD blind_enterD wordRuns_stepD blind_stepD (fun _ _ => rfl) h

end Sys2Proof.Machine

namespace Sys2Proof.Machine

/-! ### PUSH, POP and the harness words, case by case (R85, R86, R92, R93) -/

/-- HEAD published past the value it named: what a pop that returns a value does (R86). -/
def headTaken (s : State) : State := { s with head := nextCursor s.cfg s.head }

/-- A pop that returns a value takes the one at the head. -/
theorem contents_headTaken {s : State} (h : DataInv s) (hl : 0 < len s) :
    contents s = s.buf.read (slotIndex s.cfg s.head) :: contents (headTaken s) :=
  contents_pop h.head_lt h.tail_lt hl rfl rfl rfl rfl

section
variable {s : State}

/-- PUSH run alone is the state the function leaves (R85; log entry 9). -/
theorem execPush_next (hn : NoFault s) (v : Slot) :
    execPush v s = .next (pushSlot v .push s fun _ t => t) := requiresNoFault_of_noFault hn _

/-- POP run alone is the state the function leaves (R86; log entry 9). -/
theorem execPop_next (hn : NoFault s) : execPop s = .next (popSlot .pop s fun _ t => t) :=
  requiresNoFault_of_noFault hn _

/-- A harness word is enabled at quiescence (R92, R93). -/
theorem harnessStep_next (hn : NoFault s) (hq : Quiescent s) (rule : State → State) :
    harnessStep s rule = .next (afterRule s (rule s)) := by
  rw [harnessStep, requiresNoFault_of_noFault hn, hq.1, hq.2]
  rfl

/-- A harness word whose rule raises no fault is followed by the pending update (R148). -/
theorem harnessStep_noFault {rule : State → State} {u : State} (hn : NoFault s) (hq : Quiescent s) (hr : rule s = u)
    (hu : NoFault u) : harnessStep s rule = .next (pendUpdate s u) := by
  rw [harnessStep_next hn hq, hr, afterRule_of_noFault s hu]

theorem execQPush_next (hn : NoFault s) (hq : Quiescent s) (v : Slot) :
    execQPush v s = .next (afterRule s (pushSlot v .qPush s fun r t => { t with res := r })) :=
  harnessStep_next hn hq _

theorem execQPop_next (hn : NoFault s) (hq : Quiescent s) :
    execQPop s = .next (afterRule s (popSlot .qPop s fun r t => { t with res := r })) := harnessStep_next hn hq _

/-- Q_PUSH on a queue that is not full (R92). -/
theorem execQPush_ok (hn : NoFault s) (hq : Quiescent s) (hc : s.cfg.wf) (hl : len s < s.cfg.cap) (v : Slot) :
    execQPush v s = .next (pendUpdate s { pushed v s with res := .ok }) :=
  harnessStep_noFault hn hq (pushSlot_ok hc hl v .qPush _) hn

/-- Q_PUSH on a full queue (R92). -/
theorem execQPush_full (hn : NoFault s) (hq : Quiescent s) (hl : len s = s.cfg.cap) (v : Slot) :
    execQPush v s = .next (pendUpdate s { s with res := .rejected }) :=
  harnessStep_noFault hn hq (pushSlot_full hl v .qPush _) hn

/-- Q_POP on a queue whose head slot is written (R93). -/
theorem execQPop_value (hn : NoFault s) (hq : Quiescent s) (hc : s.cfg.wf) (h0 : 0 < len s) (hl : len s ≤ s.cfg.cap)
    {v : Slot} (hv : s.buf.read (slotIndex s.cfg s.head) = .holds v) :
    execQPop s = .next (pendUpdate s { headTaken s with res := .value v }) :=
  harnessStep_noFault hn hq (popSlot_value hc h0 hl hv .qPop _) hn

/-- Q_POP on an empty queue (R93). -/
theorem execQPop_empty (hn : NoFault s) (hq : Quiescent s) (hl : len s = 0) :
    execQPop s = .next (pendUpdate s { s with res := .empty }) :=
  harnessStep_noFault hn hq (popSlot_empty hl .qPop _) hn

end

/-- Settles O38, by the three cases of PUSH. -/
theorem pushIsAtomicPush : Obligations.PushIsAtomicPush := by
  unfold Obligations.PushIsAtomicPush
  intro s v hn hc
  have hpush : exec (.push v) s = .next (pushSlot v .push s fun _ t => t) := execPush_next hn v
  refine ⟨fun hl => ?ok, fun hl => ?full, fun hl => ?range⟩
  case ok =>
    refine ⟨s.buf.write (slotIndex s.cfg s.tail) v, Memory.read_write_same _ _ _,
      fun j hj => Memory.read_write_other _ _ hj, ?_, pushSlot_ok hc hl v, fun hq => execQPush_ok hn hq hc hl v⟩
    rw [hpush, pushSlot_ok hc hl]
    rfl
  case full =>
    exact ⟨by rw [hpush, pushSlot_full hl], pushSlot_full hl v, fun hq => execQPush_full hn hq hl v⟩
  case range =>
    refine ⟨by rw [hpush, pushSlot_range hl, raise], pushSlot_range hl v, fun hq => ⟨_, execQPush_next hn hq v, ?_⟩⟩
    rw [afterRule_fault, pushSlot_range hl, raise_fault]

/-- Settles O39, by the four cases of POP. -/
theorem popIsAtomicPop : Obligations.PopIsAtomicPop := by
  unfold Obligations.PopIsAtomicPop
  intro s hn hc
  have hpop : exec .pop s = .next (popSlot .pop s fun _ t => t) := execPop_next hn
  refine ⟨fun v h0 hl hv => ?value, fun hl => ?empty, fun hl => ?range, fun h0 hl hv => ?unwritten⟩
  case value =>
    refine ⟨?_, popSlot_value hc h0 hl hv, fun hq => execQPop_value hn hq hc h0 hl hv⟩
    rw [hpop, popSlot_value hc h0 hl hv]
    rfl
  case empty => exact ⟨by rw [hpop, popSlot_empty hl], popSlot_empty hl, fun hq => execQPop_empty hn hq hl⟩
  case range =>
    refine ⟨by rw [hpop, popSlot_range hl, raise], popSlot_range hl, fun hq => ⟨_, execQPop_next hn hq, ?_⟩⟩
    rw [afterRule_fault, popSlot_range hl, raise_fault]
  case unwritten =>
    refine ⟨by rw [hpop, popSlot_unwritten hc h0 hl hv, raise], fun hq => ⟨_, execQPop_next hn hq, ?_⟩⟩
    rw [afterRule_fault, popSlot_unwritten hc h0 hl hv, raise_fault]

/-! ### The harness words on the abstract queue (R90 to R93) -/

section
variable {s : State}

/-- Everything Q_PUSH does at quiescence in a safe state (R92). -/
theorem execQPush_cases (h : SafeInv s) (hq : Quiescent s) (v : Slot) :
    (len s < s.cfg.cap ∧ execQPush v s = .next (pendUpdate s { pushed v s with res := .ok })) ∨
    (len s = s.cfg.cap ∧ execQPush v s = .next (pendUpdate s { s with res := .rejected })) :=
  h.data.len_le.lt_or_eq.imp (fun hl => ⟨hl, execQPush_ok h.noFault hq h.data.cap_pos hl v⟩)
    fun hl => ⟨hl, execQPush_full h.noFault hq hl v⟩

/-- Everything Q_POP does at quiescence in a safe state (R93). -/
theorem execQPop_cases (h : SafeInv s) (hq : Quiescent s) :
    (∃ v, contents s = .holds v :: contents (headTaken s) ∧
      execQPop s = .next (pendUpdate s { headTaken s with res := .value v })) ∨
    (contents s = [] ∧ execQPop s = .next (pendUpdate s { s with res := .empty })) := by
  rcases Nat.eq_zero_or_pos (len s) with h0 | h0
  · exact .inr ⟨contents_eq_nil.2 h0, execQPop_empty h.noFault hq h0⟩
  · obtain ⟨v, hv⟩ := head_written h.data h0
    exact .inl ⟨v, by rw [contents_headTaken h.data h0, hv],
      execQPop_value h.noFault hq h.data.cap_pos h0 h.data.len_le hv⟩

end

/-- Settles O40, by the cases of the two harness words. -/
theorem harnessWordsActOnTheQueue : Obligations.HarnessWordsActOnTheQueue := by
  unfold Obligations.HarnessWordsActOnTheQueue
  refine fun s h hq => ⟨fun d => ?push, ?pop⟩
  case push =>
    rcases execQPush_cases h hq d with ⟨hl, hs⟩ | ⟨hl, hs⟩ <;> refine ⟨_, hs, fun hl' => ?_, fun hl' => ?_, rfl⟩
    · exact ⟨contents_pushed h.data hl d, rfl, fun j hj => buf_pushed d s hj⟩
    · exact absurd hl' hl.ne
    · exact absurd hl hl'.ne
    · exact ⟨rfl, rfl, rfl, rfl⟩
  case pop =>
    rcases execQPop_cases h hq with ⟨v, hc, hs⟩ | ⟨hc, hs⟩ <;> refine ⟨_, hs, fun x rest e => ?_, fun e => ?_, rfl⟩
    · obtain ⟨rfl, rfl⟩ := List.cons.inj (hc.symm.trans e)
      exact ⟨v, rfl, rfl, rfl⟩
    · cases hc.symm.trans e
    · cases hc.symm.trans e
    · exact ⟨hc, rfl, rfl⟩

/-- The values a harness word put into the queue, told by the result it left in RES (R92). -/
def QueueOp.accepted : QueueOp → Res → List Slot
  | .push v, .ok => [v]
  | _, _ => []

/-- The values a harness word took out of the queue, told by the result it left in RES (R93). -/
def QueueOp.taken : QueueOp → Res → List Slot
  | .pop, .value v => [v]
  | _, _ => []

/-- A run of harness words is its first word, then the run of the rest. -/
theorem runQueue_cons {op : QueueOp} {ops : List QueueOp} {s t u : State} {ps qs : List Slot}
    (hs : exec op.instr s = .next t) (hr : runQueue ops t = some (ps, qs, u)) :
    runQueue (op :: ops) s = some (op.accepted t.res ++ ps, op.taken t.res ++ qs, u) := by
  rw [runQueue, hs]
  simp only [hr]
  cases op <;> cases t.res <;> rfl

/-- A harness word at quiescence in a safe state is not stuck, and the result it reports accounts for the queue
(R92, R93). -/
theorem exec_queueOp {s : State} (h : SafeInv s) (hq : Quiescent s) (op : QueueOp) :
    ∃ t, exec op.instr s = .next t ∧ SafeInv t ∧ Quiescent t ∧
      contents s ++ (op.accepted t.res).map Reg.holds = (op.taken t.res).map Reg.holds ++ contents t := by
  cases op with
  | push v =>
    have hsafe : ∀ {t}, execQPush v s = .next t → SafeInv t := safeInv_execQPush h
    rcases execQPush_cases h hq v with ⟨hl, hs⟩ | ⟨-, hs⟩ <;> refine ⟨_, hs, hsafe hs, hq, ?_⟩
    · exact (contents_pushed h.data hl v).symm
    · exact List.append_nil _
  | pop =>
    have hsafe : ∀ {t}, execQPop s = .next t → SafeInv t := safeInv_execQPop h
    rcases execQPop_cases h hq with ⟨v, hc, hs⟩ | ⟨-, hs⟩ <;> refine ⟨_, hs, hsafe hs, hq, ?_⟩
    · exact (List.append_nil _).trans hc
    · exact List.append_nil _

/-- A run of harness words at quiescence from a safe state is not stuck, and the results RES reports account for the
queue (R90). -/
theorem runQueue_fifo {s : State} (h : SafeInv s) (hq : Quiescent s) (ops : List QueueOp) :
    ∃ ps qs t, runQueue ops s = some (ps, qs, t) ∧ SafeInv t ∧ Quiescent t ∧
      contents s ++ ps.map Reg.holds = qs.map Reg.holds ++ contents t := by
  induction ops generalizing s with
  | nil => exact ⟨[], [], s, rfl, h, hq, List.append_nil _⟩
  | cons op ops ih =>
    obtain ⟨u, hs, hu, hqu, hword⟩ := exec_queueOp h hq op
    obtain ⟨ps, qs, t, hr, ht, hqt, hrest⟩ := ih hu hqu
    refine ⟨_, _, t, runQueue_cons hs hr, ht, hqt, ?_⟩
    rw [List.map_append, List.map_append, ← List.append_assoc, hword, List.append_assoc, hrest, List.append_assoc]

/-- Pushes at quiescence from a safe state: the first values are accepted while there is room, the others rejected. -/
theorem runQueue_pushes {s : State} (h : SafeInv s) (hq : Quiescent s) (vs : List Slot) :
    ∃ t, runQueue (vs.map QueueOp.push) s = some (vs.take (s.cfg.cap - len s), [], t) ∧
      contents t = contents s ++ (vs.take (s.cfg.cap - len s)).map Reg.holds ∧
      (len s = s.cfg.cap ∧ s.res = .rejected ∨ s.cfg.cap < len s + vs.length → t.res = .rejected) := by
  induction vs generalizing s with
  | nil =>
    have hle := h.data.len_le
    exact ⟨s, by simp [runQueue], by simp, fun e => e.elim And.right fun e => absurd e hle.not_gt⟩
  | cons v vs ih =>
    obtain ⟨u, hs, hok, hfull, hframe⟩ := (harnessWordsActOnTheQueue s h hq).1 v
    have hcfg : u.cfg = s.cfg := by rw [← hframe]
    have hqu : Quiescent u := by rw [← hframe] at hq; exact hq
    obtain ⟨t, hr, hc, hres⟩ := ih (safeInv_execQPush h hs) hqu
    have hrun := runQueue_cons (op := .push v) hs hr
    rw [hcfg, ← length_contents u] at hrun hc hres
    rcases h.data.len_le.lt_or_eq with hl | hl
    · obtain ⟨hcu, hru, -⟩ := hok hl
      obtain ⟨n, hn⟩ : ∃ n, s.cfg.cap - len s = n + 1 := ⟨s.cfg.cap - len s - 1, by omega⟩
      have hn' : s.cfg.cap - (len s + 1) = n := by omega
      rw [hcu, List.length_append, length_contents, List.length_singleton] at hrun hc hres
      rw [hn'] at hrun hc
      rw [hn, List.take_succ_cons]
      refine ⟨t, hrun.trans (by rw [hru]; rfl), hc.trans (List.append_assoc _ _ _), fun e => hres ?_⟩
      exact e.elim (fun e => absurd e.1 hl.ne) fun e => .inr (by rw [List.length_cons] at e; omega)
    · obtain ⟨hcu, hru, -⟩ := hfull hl
      rw [hcu, length_contents, hl, Nat.sub_self, List.take_zero] at hrun hc
      rw [hl, Nat.sub_self, List.take_zero]
      exact ⟨t, hrun.trans (by rw [hru]; rfl), hc, fun _ => hres (.inl ⟨by rw [hcu, length_contents, hl], hru⟩)⟩

/-- Settles O42, by the pushes from an empty queue. -/
theorem queueSaturates : Obligations.QueueSaturates := by
  unfold Obligations.QueueSaturates
  intro vs s h hq hnil hlen
  have h0 := contents_eq_nil.1 hnil
  obtain ⟨t, hr, hc, hres⟩ := runQueue_pushes h hq vs
  rw [h0, Nat.sub_zero] at hr hc
  exact ⟨t, hr, hres (.inr (by omega)), by rw [hc, hnil, List.nil_append]⟩

/-! ### What every word does to the queue (R85, R86, R90) -/

/-- A step that leaves TAIL alone puts no value into the queue. -/
theorem queueMoved_of_tail {s t : State} (h : t.tail = s.tail) : (queueMoved s t).1 = [] := if_pos h

/-- Writing the slot TAIL names changes nothing in a queue that is not full (R98). -/
theorem contents_write_tail {s t : State} (v : Slot) (hd : DataInv s) (hl : len s < s.cfg.cap) (tc : t.cfg = s.cfg)
    (th : t.head = s.head) (tt : t.tail = s.tail) (tb : t.buf = s.buf.write (slotIndex s.cfg s.tail) v) :
    contents t = contents s := by
  unfold contents
  rw [show len t = len s by simp only [len, tc, th, tt]]
  refine List.map_congr_left fun k hk => ?_
  rw [← queueSlot_write_tail v hd.head_lt hd.tail_lt hl (List.mem_range.1 hk), queueSlot, tc, th, tb]

/-- Publishing TAIL puts the value in the slot it named at the tail (R99). -/
theorem contents_publish_tail {s t : State} (hd : DataInv s) (hl : len s < s.cfg.cap) (tc : t.cfg = s.cfg)
    (th : t.head = s.head) (tt : t.tail = nextCursor s.cfg s.tail) (tb : t.buf = s.buf) :
    contents t = contents s ++ [s.buf.read (slotIndex s.cfg s.tail)] := by
  have hlen : len t = len s + 1 := by
    unfold len
    rw [tc, th, tt]
    exact cursorDiff_push s.cfg hd.head_lt hd.tail_lt hl
  have hslot : queueSlot t = queueSlot s := by
    funext k
    simp only [queueSlot, tc, th, tb]
  have htail : queueSlot s (len s) = s.buf.read (slotIndex s.cfg s.tail) := by
    rw [queueSlot, slotIndex_mod, slotIndex_tail s.cfg hd.head_lt hd.tail_lt, len]
  rw [contents, hlen, hslot, List.range_succ, List.map_append, List.map_singleton, htail, contents]

/-- A step of the producer's side: the value it pushed, if it did, is put at the tail of the queue. -/
structure Appends (s t : State) : Prop where
  cfg : t.cfg = s.cfg
  head : t.head = s.head
  contents : contents t = contents s ++ (queueMoved s t).1

/-- A step of the consumer's side: the value it popped, if it did, was the one at the head of the queue. -/
structure Takes (s t : State) : Prop where
  tail : t.tail = s.tail
  contents : contents s = (queueMoved s t).2 ++ contents t

/-- A step that writes neither cursor nor slot is on the producer's side, which it leaves alone. -/
theorem appends_of_kept {s t : State} (hc : t.cfg = s.cfg) (hb : t.buf = s.buf) (hh : t.head = s.head)
    (ht : t.tail = s.tail) : Appends s t :=
  ⟨hc, hh, by rw [queueMoved_of_tail ht, contents_congr hc hb hh ht, List.append_nil]⟩

/-- The same for the consumer's side. -/
theorem takes_of_kept {s t : State} (hc : t.cfg = s.cfg) (hb : t.buf = s.buf) (hh : t.head = s.head)
    (ht : t.tail = s.tail) : Takes s t :=
  ⟨ht, by rw [queueMoved_of_head hh, contents_congr hc hb hh ht, List.nil_append]⟩

/-- A step that publishes HEAD takes the value at the head (R86, R110). -/
theorem takes_of_pop {s t : State} (hd : DataInv s) (hl : 0 < len s) (tc : t.cfg = s.cfg) (tb : t.buf = s.buf)
    (tt : t.tail = s.tail) (th : t.head = nextCursor s.cfg s.head) : Takes s t := by
  have hne : t.head ≠ s.head := th ▸ nextCursor_ne s.cfg hd.head_lt
  refine ⟨tt, ?_⟩
  rw [contents_pop hd.head_lt hd.tail_lt hl tc tb tt th, queueMoved, if_neg hne, List.singleton_append]

/-- A step that publishes TAIL, with the value in the slot it named, appends that value (R85, R99). -/
theorem appends_of_push {s t : State} {x : Reg Slot} (hd : DataInv s) (tc : t.cfg = s.cfg) (th : t.head = s.head)
    (tt : t.tail = nextCursor s.cfg s.tail) (hx : t.buf.read (slotIndex s.cfg s.tail) = x)
    (hcont : contents t = contents s ++ [x]) : Appends s t := by
  have hne : t.tail ≠ s.tail := tt ▸ nextCursor_ne s.cfg hd.tail_lt
  exact ⟨tc, th, by rw [hcont, queueMoved, if_neg hne, hx]⟩

/-! ### The ingest engine's words -/

/-- Where an ingest micro-op leaves the queue's cursors and slots (R46). -/
theorem stepG_leaves {s t : State} (hs : stepG s = .next t) :
    t.cfg = s.cfg ∧ t.head = s.head ∧ (s.seqG ≠ Seq.ig4 → t.buf = s.buf) ∧ (s.seqG ≠ Seq.ig5 → t.tail = s.tail) := by
  obtain ⟨c, g, f, b, tl, pg, pd, rfl⟩ := stepG_writes hs
  exact ⟨rfl, rfl, fun h4 => if_neg h4, fun h5 => if_neg h5⟩

/-- An ingest micro-op appends the value it pushes: IG4 writes the slot and IG5 publishes it (R98, R99). -/
theorem appends_stepG {s t : State} (h : SafeInv s) (hs : stepG s = .next t) : Appends s t := by
  obtain ⟨hc, hh, hb, ht⟩ := stepG_leaves hs
  by_cases h4 : s.seqG = Seq.ig4
  · have htail := ht (by simp [h4])
    obtain ⟨-, rfl, -⟩ := stepG_eq_next h hs
    obtain ⟨hv, hgt, hl⟩ := h.ingest.ig4 h4
    obtain ⟨v, hv⟩ := Reg.isWritten_iff.1 hv
    refine ⟨hc, hh, ?_⟩
    rw [queueMoved_of_tail htail, List.append_nil]
    refine contents_write_tail v h.data hl hc hh htail ?_
    rw [pendUpdate_buf, ruleG_ig4 h4, ruleIg4_holds h.data.cap_pos hgt hv]
  by_cases h5 : s.seqG = Seq.ig5
  · have hbuf := hb h4
    obtain ⟨-, rfl, -⟩ := stepG_eq_next h hs
    obtain ⟨hgt, hl, -⟩ := h.ingest.ig5 h5
    have htail : (pendUpdate s (ruleG s)).tail = nextCursor s.cfg s.tail := by
      rw [pendUpdate_tail, ruleG_ig5 h5, ruleIg5_holds hgt]
    exact appends_of_push h.data hc hh htail (by rw [hbuf])
      (contents_publish_tail h.data hl hc hh htail hbuf)
  exact appends_of_kept hc (hb h4) hh (ht h5)

/-- An ingest activation that began in `s` and has come to `u`: TAIL is as it was up to IG5, so that it does not move
twice, and all that the activation pushed is what `s` and `u` show. -/
structure IngestActivation (s u : State) : Prop where
  safe : SafeInv u
  tail : u.seqG ≠ Seq.idle → u.seqG.toNat ≤ 5 → u.tail = s.tail
  appends : Appends s u

/-- IG5 comes once in an activation, and no slot is written after it, so what two micro-ops push is what both show
together. -/
theorem IngestActivation.step {s u v : State} (h : IngestActivation s u) (hs : stepG u = .next v) :
    IngestActivation s v := by
  obtain ⟨hne, -, hsafe⟩ := stepG_eq_next h.safe hs
  have hlt : v.seqG ≠ Seq.idle → u.seqG.toNat < v.seqG.toNat := by
    obtain ⟨-, rfl, -⟩ := stepG_eq_next h.safe hs
    exact (ruleG_moves h.safe hne).1.resolve_left
  obtain ⟨-, -, hbuf, htail⟩ := stepG_leaves hs
  have hstep := appends_stepG h.safe hs
  have hpush : (queueMoved s v).1 = (queueMoved s u).1 ++ (queueMoved u v).1 := by
    by_cases hu : u.tail = s.tail
    · rw [queueMoved_of_tail hu]
      simp [queueMoved, hu, h.appends.cfg]
    · have hlate : ¬ u.seqG.toNat ≤ 5 := fun hle => hu (h.tail hne hle)
      have htv := htail fun e => hlate (by simp [e])
      rw [queueMoved_of_tail htv]
      simp [queueMoved, htv, hbuf fun e => hlate (by simp [e])]
  refine ⟨hsafe, fun hi hle => ?_, hstep.cfg.trans h.appends.cfg, hstep.head.trans h.appends.head, ?_⟩
  · have hu := hlt hi
    rw [htail fun e => absurd hle (e ▸ hu).not_ge]
    exact h.tail hne (by omega)
  · rw [hstep.contents, h.appends.contents, hpush, List.append_assoc]

theorem appends_enterG {s t : State} (h : enterG s = .next t) : Appends s t := by
  obtain ⟨-, -, -, -, rfl⟩ := enterG_eq_next.1 h
  exact appends_of_kept rfl rfl rfl rfl

/-- A whole ingest activation appends at most one value (R103, R104). -/
theorem appends_runG {s t : State} (h : SafeInv s) (hs : execRunG s = .next t) : Appends s t := by
  obtain ⟨u, hu, ht⟩ := andThen_eq_next.1 hs
  have htail : u.tail = s.tail := by
    obtain ⟨-, -, -, -, rfl⟩ := enterG_eq_next.1 hu
    rfl
  exact (repeatUntil_keeps (fun _ _ => IngestActivation.step) _ _ _
    ⟨safeInv_enterG h hu, fun _ _ => htail, appends_enterG hu⟩ ht).appends

/-! ### The dispatch engine's words -/

/-- A dispatch micro-op takes the value it pops: DP4 publishes HEAD (R110). -/
theorem takes_stepD {s t : State} (h : SafeInv s) (hs : stepD s = .next t) : Takes s t := by
  obtain ⟨hb, hh, -⟩ := stepD_leaves hs
  have ht : t.tail = s.tail := by
    obtain ⟨c, d, f, hd, p, pl, tdr, pg, pd, rfl⟩ := stepD_writes hs
    rfl
  have hc := (stepD_out hs).1
  by_cases h4 : s.seqD = Seq.dp4
  · obtain ⟨-, hdh, hl, -⟩ := h.dispatch.dp4 h4
    obtain ⟨-, rfl, -⟩ := stepD_eq_next h hs
    refine takes_of_pop h.data hl hc hb ht ?_
    rw [pendUpdate_head, ruleD_dp4 h4, ruleDp4_holds hdh]
  · exact takes_of_kept hc hb (hh h4) ht

/-- DP4 comes once in an activation, so what two micro-ops pop is what both show together. -/
theorem Activation.takes_step {s u v : State} (h : Activation s u) (ht : Takes s u) (hs : stepD u = .next v) :
    Takes s v := by
  obtain ⟨hne, -, -⟩ := stepD_eq_next h.safe hs
  have hstep := takes_stepD h.safe hs
  have hpop : (queueMoved s v).2 = (queueMoved s u).2 ++ (queueMoved u v).2 := by
    by_cases hu : u.head = s.head
    · rw [queueMoved_of_head hu]
      simp [queueMoved, hu, h.buf, h.carries.cfg]
    · have hv := (stepD_leaves hs).2.1 fun e => hu (h.head hne (by simp [e]))
      rw [queueMoved_of_head hv]
      simp [queueMoved, hv]
  exact ⟨hstep.tail.trans ht.tail, by rw [ht.contents, hstep.contents, hpop, List.append_assoc]⟩

theorem takes_enterD {s t : State} (h : enterD s = .next t) : Takes s t := by
  obtain ⟨-, -, -, -, rfl⟩ := enterD_eq_next.1 h
  exact takes_of_kept rfl rfl rfl rfl

/-- ENTER_D begins an activation (R150). -/
theorem activation_enterD {s u : State} (h : SafeInv s) (hs : enterD s = .next u) : Activation s u := by
  have hk := keepsSend_enterD hs
  have hbuf : u.buf = s.buf := by
    obtain ⟨-, -, -, -, rfl⟩ := enterD_eq_next.1 hs
    rfl
  exact ⟨safeInv_enterD h hs, hbuf, fun _ _ => hk.head, fun _ _ => hk.txe2, hk.carries⟩

/-- A whole dispatch activation takes at most one value (R122, R123). -/
theorem takes_runD {s t : State} (h : SafeInv s) (hs : execRunD s = .next t) : Takes s t := by
  obtain ⟨u, hu, ht⟩ := andThen_eq_next.1 hs
  exact (repeatUntil_keeps (P := fun v => Activation s v ∧ Takes s v)
    (fun _ _ hv hw => ⟨hv.1.step hw, hv.1.takes_step hv.2 hw⟩) _ _ _ ⟨activation_enterD h hu, takes_enterD hu⟩ ht).2

/-! ### The FIFO law (R90) -/

/-- The queue accounts for a step: what was in it and what the step pushed is what the step popped and what is in it
afterwards. -/
def StepQueues (s t : State) : Prop := contents s ++ (queueMoved s t).1 = (queueMoved s t).2 ++ contents t

theorem Appends.queues {s t : State} (h : Appends s t) : StepQueues s t := by
  rw [StepQueues, queueMoved_of_head h.head, h.contents, List.nil_append]

theorem Takes.queues {s t : State} (h : Takes s t) : StepQueues s t := by
  rw [StepQueues, queueMoved_of_tail h.tail, h.contents, List.append_nil]

/-- Q_PUSH appends the value it pushes (R92). -/
theorem appends_execQPush {v : Slot} {s t : State} (h : SafeInv s) (hs : execQPush v s = .next t) : Appends s t := by
  obtain ⟨-, hq, -⟩ := harnessStep_eq_next hs
  rcases execQPush_cases h hq v with ⟨hl, e⟩ | ⟨-, e⟩ <;> cases hs.symm.trans e
  · exact appends_of_push h.data rfl rfl rfl (Memory.read_write_same _ _ v) (contents_pushed h.data hl v)
  · exact appends_of_kept rfl rfl rfl rfl

/-- Q_POP takes the value it pops (R93). -/
theorem takes_execQPop {s t : State} (h : SafeInv s) (hs : execQPop s = .next t) : Takes s t := by
  obtain ⟨-, hq, -⟩ := harnessStep_eq_next hs
  rcases execQPop_cases h hq with ⟨v, hc, e⟩ | ⟨-, e⟩ <;> cases hs.symm.trans e
  · have hl : 0 < len s := by rw [← length_contents, hc]; exact Nat.succ_pos _
    exact takes_of_pop h.data hl rfl rfl rfl rfl
  · exact takes_of_kept rfl rfl rfl rfl

/-- The queue accounts for every word but RESET, which empties it. -/
theorem queues_word {i : Instr} {s t : State} (hi : i.isStimulus = true) (h1 : i ≠ .reset) (h : SafeInv s)
    (hs : exec i s = .next t) : StepQueues s t := by
  rcases isStimulus_cases hi with hb | ⟨f, rfl | rfl⟩ | rfl | rfl | ⟨d, rfl⟩
  · simp only [blockWords, List.mem_cons, List.not_mem_nil, or_false] at hb
    rcases hb with rfl | rfl | rfl | rfl | rfl | rfl | rfl
    · exact (appends_stepG h hs).queues
    · exact (takes_stepD h hs).queues
    · exact (appends_enterG hs).queues
    · exact (takes_enterD hs).queues
    · exact (appends_runG h hs).queues
    · exact (takes_runD h hs).queues
    · obtain ⟨o, f, pg, pd, rfl⟩ := execTxDone_writes hs
      exact (appends_of_kept rfl rfl rfl rfl).queues
  · obtain ⟨r, pg, pd, rfl⟩ := execGpsRx_writes hs
    exact (appends_of_kept rfl rfl rfl rfl).queues
  · obtain ⟨r, pg, pd, rfl⟩ := execHostRx_writes hs
    exact (appends_of_kept rfl rfl rfl rfl).queues
  · exact absurd rfl h1
  · exact (takes_execQPop h hs).queues
  · exact (appends_execQPush h hs).queues

/-- A run of words but RESET keeps the safety invariant, and the queue accounts for all of it. -/
theorem runMoved_fifo {is : List Instr} {s t : State} {m : Moved} (h : SafeInv s)
    (hi : ∀ i ∈ is, i.isStimulus = true ∧ i ≠ .reset) (hr : runMoved is s = some (m, t)) :
    SafeInv t ∧ contents s ++ m.pushed = m.popped ++ contents t := by
  induction is generalizing s m with
  | nil =>
    cases hr
    exact ⟨h, List.append_nil _⟩
  | cons i is ih =>
    obtain ⟨⟨h0, h1⟩, hrest⟩ := List.forall_mem_cons.1 hi
    obtain ⟨u, m', hs, htail, rfl⟩ := runMoved_cons hr
    obtain ⟨ht, hq⟩ := ih (safeInv_word h0 h hs) hrest htail
    have hstep : contents s ++ (queueMoved s u).1 = (queueMoved s u).2 ++ contents u := queues_word h0 h1 h hs
    refine ⟨ht, ?_⟩
    rw [← List.append_assoc, hstep, List.append_assoc, hq, List.append_assoc]

/-- From an empty queue the values taken out are the first ones put in. -/
theorem popped_isPrefix {s t : State} {pushed popped : List (Reg Slot)}
    (h : contents s ++ pushed = popped ++ contents t) (hnil : contents s = []) : popped <+: pushed :=
  ⟨contents t, by rw [← h, hnil, List.nil_append]⟩

/-- Settles O41: any run by what each of its words does to the queue, a run of harness words by the results they
report, both by induction on the words. -/
theorem queueIsFifo : Obligations.QueueIsFifo := by
  unfold Obligations.QueueIsFifo
  refine ⟨fun is s t m h hi hr => ?words, fun ops s h hq => ?harness⟩
  case words =>
    obtain ⟨ht, hfifo⟩ := runMoved_fifo h hi hr
    exact ⟨ht, hfifo, fun hnil => List.prefix_iff_eq_take.1 (popped_isPrefix hfifo hnil)⟩
  case harness =>
    obtain ⟨ps, qs, t, hr, ht, hqt, hfifo⟩ := runQueue_fifo h hq ops
    refine ⟨ps, qs, t, hr, ht, hqt, hfifo, fun hnil => List.prefix_iff_eq_take.1 ?_⟩
    exact (List.prefix_map_iff_of_injective fun _ _ => Reg.holds.inj).1 (popped_isPrefix hfifo hnil)

end Sys2Proof.Machine

namespace Sys2Proof.Machine

/-! ### The ingest micro-ops, one by one (R95 to R102) -/

/-- A micro-op row of the ingest engine whose rule raises no fault (R72, R148, R151). -/
theorem microAtG_rule {c : SeqCode} {rule : State → State} {s r : State} (h : GoesG c s) (hc : c ≠ Seq.idle)
    (hr : rule s = r) (hf : NoFault r) : microAtG c rule s = .next (pendUpdate s r) := by
  rw [microAtG_next h hc, hr, afterRule_of_noFault _ hf]

/-- A micro-op row of the ingest engine whose rule raises a fault: no pending update follows (R144; log entry 5). -/
theorem microAtG_raise {c : SeqCode} {rule : State → State} {s u : State} {reason : FaultReason} {site : Site}
    (h : GoesG c s) (hc : c ≠ Seq.idle) (hr : rule s = raise reason site u) :
    microAtG c rule s = .next (raise reason site u) := by
  rw [microAtG_next h hc, hr, afterRule_of_fault _ (by simp)]

theorem ruleIg4_unwritten {s : State} (h : s.g.t = .unwritten ∨ s.g.v = .unwritten) :
    ruleIg4 s = raise .unwritten .ig4 s := by
  unfold ruleIg4
  cases ht : s.g.t with
  | unwritten => rfl
  | holds t => rw [h.resolve_left (by simp [ht])]; rfl

theorem ruleIg5_unwritten {s : State} (h : s.g.t = .unwritten) : ruleIg5 s = raise .unwritten .ig5 s := by
  rw [ruleIg5, h, readReg_unwritten]

/-- IG7 goes to IG8 where the receiver overran and ends the activation where it did not (R101). -/
theorem ruleIg7_eq (s : State) :
    ruleIg7 s = { s with g := { s.g with o := .holds s.oreG }, seqG := if s.oreG then Seq.ig8 else Seq.idle } := by
  cases ho : s.oreG
  · rw [ruleIg7_idle ho, ho]; rfl
  · rw [ruleIg7_overrun ho, ho]; rfl

/-- Settles O18, by the rules of the two tests. -/
theorem ig1AndIg7TestTheirFlags : Obligations.Ig1AndIg7TestTheirFlags := by
  unfold Obligations.Ig1AndIg7TestTheirFlags
  exact fun s => ⟨fun h => microAtG_rule h (by decide) rfl h.1, fun h => microAtG_rule h (by decide) (ruleIg7_eq s) h.1⟩

/-- Settles O19: IG2 by whether RDR_G has been written. -/
theorem ig2ReadsOnceAndFiltersNulls : Obligations.Ig2ReadsOnceAndFiltersNulls := by
  unfold Obligations.Ig2ReadsOnceAndFiltersNulls
  exact fun s v h => ⟨fun hv => microAtG_rule h (by decide) (ruleIg2_holds hv) h.1,
    fun hv => microAtG_raise h (by decide) (ruleIg2_unwritten hv)⟩

/-- Settles O20: IG3 by LEN against CAP. -/
theorem ig3TestsFull : Obligations.Ig3TestsFull := by
  unfold Obligations.Ig3TestsFull
  exact fun s h => ⟨fun hl => microAtG_rule h (by decide) (ruleIg3_full hl) h.1,
    fun hl => microAtG_rule h (by decide) (ruleIg3_room hl) h.1,
    fun hl => ⟨_, microAtG_raise h (by decide) (ruleIg3_range hl), rfl⟩⟩

/-- IG4 from a safe state writes a slot outside the queue (R81, R98). -/
theorem execIg4_contents {s : State} (hs : SafeInv s) (h : GoesG Seq.ig4 s) :
    ∃ t, execIg4 s = .next t ∧ contents t = contents s := by
  obtain ⟨hv, ht, hl⟩ := hs.ingest.ig4 h.2.1
  obtain ⟨v, hv⟩ := Reg.isWritten_iff.1 hv
  exact ⟨_, microAtG_rule h (by decide) (ruleIg4_holds hs.data.cap_pos ht hv) h.1,
    contents_write_tail v hs.data hl rfl rfl rfl rfl⟩

/-- IG5 from a safe state puts the value IG4 wrote at the tail of the queue (R81, R99). -/
theorem execIg5_contents {s : State} (hs : SafeInv s) (h : GoesG Seq.ig5 s) :
    ∃ t, execIg5 s = .next t ∧ contents t = contents s ++ [s.g.v] := by
  obtain ⟨ht, hl, -, hv⟩ := hs.ingest.ig5 h.2.1
  refine ⟨_, microAtG_rule h (by decide) (ruleIg5_holds ht) h.1, ?_⟩
  rw [← hv]
  exact contents_publish_tail hs.data hl rfl rfl rfl rfl

/-- Settles O21: IG4 and IG5 by their operands, and what each does to the queue's contents. -/
theorem ig4WritesAndIg5PublishesTheSlot : Obligations.Ig4WritesAndIg5PublishesTheSlot := by
  unfold Obligations.Ig4WritesAndIg5PublishesTheSlot
  refine ⟨fun s t v h hc ht hv => ?writes, fun s h hu => ?ig4Unwritten, fun s t h ht => ?publishes,
    fun s h hu => ?ig5Unwritten, fun s hs => ⟨execIg4_contents hs, execIg5_contents hs⟩⟩
  case writes =>
    exact ⟨s.buf.write (slotIndex s.cfg t) v, Memory.read_write_same _ _ _,
      fun _ hj => Memory.read_write_other _ _ hj, microAtG_rule h (by decide) (ruleIg4_holds hc ht hv) h.1⟩
  case ig4Unwritten => exact microAtG_raise h (by decide) (ruleIg4_unwritten hu)
  case publishes => exact microAtG_rule h (by decide) (ruleIg5_holds ht) h.1
  case ig5Unwritten => exact microAtG_raise h (by decide) (ruleIg5_unwritten hu)

/-- Settles O22, by the rules of the two micro-ops. -/
theorem ig6SetsTxeieAndIg8ClearsOre : Obligations.Ig6SetsTxeieAndIg8ClearsOre := by
  unfold Obligations.Ig6SetsTxeieAndIg8ClearsOre
  exact fun s => ⟨fun h => microAtG_rule h (by decide) rfl h.1, fun h => microAtG_rule h (by decide) rfl h.1⟩

end Sys2Proof.Machine

namespace Sys2Proof.Machine

/-! ### An ingest activation and INGEST() (R103, R104) -/

/-- The unread frame is `v`, other than 0x000, and the queue has room for it (R96, R97). -/
structure Queues (v : Slot) (s : State) : Prop where
  rxneG : s.rxneG = true
  rdrG : s.rdrG = .holds v
  ne_null : v ≠ 0x000#9
  room : len s < s.cfg.cap

/-- No frame is unread, or it is 0x000, or the queue is full: no value is queued (R95 to R97). -/
abbrev QueuesNone (s : State) : Prop := s.rxneG = false ∨ s.rdrG = .holds 0x000#9 ∨ len s = s.cfg.cap

theorem queues_or_none {s : State} (h : DataInv s) : (∃ v, Queues v s) ∨ QueuesNone s := by
  cases hr : s.rxneG with
  | false => exact .inr (.inl hr)
  | true =>
    obtain ⟨v, hv⟩ := Reg.isWritten_iff.1 (h.rdrG_written hr)
    by_cases h0 : v = 0x000#9
    · exact .inr (.inr (.inl (h0 ▸ hv)))
    · rcases h.len_le.lt_or_eq with hl | hl
      · exact .inl ⟨v, hr, hv, h0, hl⟩
      · exact .inr (.inr (.inr hl))

/-- ClearORE after a test of the flag leaves it clear either way (R101, R102, R137). -/
theorem ite_clearOreOf_g (s : State) : (if s.oreG then clearOreOf .g s else s) = { s with oreG := false } := by
  cases ho : s.oreG
  · simp [← ho]
  · simp

/-- INGEST() where the unread frame is queued. -/
theorem ingest_accepted {s : State} {v : Slot} (hc : s.cfg.wf) (h : Queues v s) :
    ingest s = { accepted v s with seqG := s.seqG } := by
  obtain ⟨hr, hv, h0, hl⟩ := h
  rw [ingest, ite_clearOreOf_g, if_pos hr, readRdrOf, rdr_g, hv, readReg_holds, if_neg h0, setRxne_g,
    pushSlot_ok (s := { s with rxneG := false }) hc hl]
  rfl

/-- INGEST() where no value is queued. -/
theorem ingest_dropped {s : State} (hw : s.rxneG = true → s.rdrG.isWritten = true) (h : QueuesNone s) :
    ingest s = { dropped s with seqG := s.seqG } := by
  rw [ingest, ite_clearOreOf_g]
  cases hr : s.rxneG with
  | false => simp [dropped, hr]
  | true =>
    obtain ⟨v, hv⟩ := Reg.isWritten_iff.1 (hw hr)
    rw [if_pos rfl, readRdrOf, rdr_g, hv, readReg_holds, setRxne_g]
    by_cases h0 : v = 0x000#9
    · rw [if_pos h0]
      rfl
    · have hl : len s = s.cfg.cap := by simpa [QueuesNone, hr, hv, h0] using h
      rw [if_neg h0, pushSlot_full (s := { s with rxneG := false }) hl, if_neg (by decide)]
      rfl

/-- RUN_G from a safe state in which ENTER_G is enabled queues the unread frame or no value. -/
theorem execRunG_cases {s : State} (hs : SafeInv s) (h : CanEnterG s) :
    ∃ t, execRunG s = .next t ∧
      ((∃ v, Queues v s ∧ ButLocalsG t (accepted v s)) ∨ (QueuesNone s ∧ ButLocalsG t (dropped s))) := by
  rcases queues_or_none hs.data with ⟨v, hv⟩ | hd
  · obtain ⟨t, ht, hb⟩ := execRunG_accepted hs h hv.rxneG hv.rdrG hv.ne_null hv.room
    exact ⟨t, ht, .inl ⟨v, hv, hb⟩⟩
  · obtain ⟨t, ht, hb⟩ := execRunG_dropped hs h hd
    exact ⟨t, ht, .inr ⟨hd, hb⟩⟩

/-- What an activation made of the state ENTER_G left is INGEST(), but for the locals and the latches. -/
theorem execRunG_ingest {s : State} (hs : SafeInv s) (h : CanEnterG s) :
    ∃ t, execRunG s = .next t ∧ ButLocalsG t { ingest (enteredG s) with seqG := Seq.idle } := by
  obtain ⟨t, ht, ⟨v, hv, g, pg, pd, rfl⟩ | ⟨hd, g, pg, pd, rfl⟩⟩ := execRunG_cases hs h
  · rw [ingest_accepted (s := enteredG s) hs.data.cap_pos ⟨hv.rxneG, hv.rdrG, hv.ne_null, hv.room⟩]
    exact ⟨_, ht, g, pg, pd, rfl⟩
  · rw [ingest_dropped (s := enteredG s) hs.data.rdrG_written hd]
    exact ⟨_, ht, g, pg, pd, rfl⟩

/-! ### The latches of an activation (R148) -/

/-- From `s` to `t` the GPS line only falls, link 2's line only rises, and the dispatch engine stays where it is: what
the ingest engine's own micro-ops do to the request lines. -/
structure LinesMove (s t : State) : Prop where
  irqG : irqG t = true → irqG s = true
  irq2 : irq2 s = true → irq2 t = true
  seqD : t.seqD = s.seqD

theorem LinesMove.trans {s t u : State} (h : LinesMove s t) (k : LinesMove t u) : LinesMove s u :=
  ⟨h.irqG ∘ k.irqG, k.irq2 ∘ h.irq2, k.seqD.trans h.seqD⟩

/-- The rule of an ingest micro-op moves the lines so, and writes no latch. -/
theorem ruleG_linesMove (s : State) :
    LinesMove s (ruleG s) ∧ (ruleG s).pendG = s.pendG ∧ (ruleG s).pendD = s.pendD := by
  obtain ⟨c, g, f, b, tl, e⟩ := ruleG_writes s
  rw [e]
  refine ⟨⟨fun h => ?_, fun h => ?_, rfl⟩, rfl, rfl⟩
  · simp only [irqG, Bool.and_eq_true, Bool.or_eq_true] at h ⊢
    exact h.imp_right (Or.imp (by grind) (by grind))
  · simp only [irq2, Bool.and_eq_true, Bool.or_eq_true] at h ⊢
    exact h.imp_left (And.imp_left (by grind))

/-- Two updates of a latch come to one where the line only rises from the first state to the last (R148). -/
theorem latch_of_rising {p a b c i : Bool} (hab : a = true → b = true) (hbc : b = true → c = true) :
    ((p || (b && (!a || i))) || (c && (!b || i))) = (p || (c && (!a || i))) := by
  revert p a b c i; decide

/-- Two updates of a latch come to one where the line only falls and the engine is active in between (R148). -/
theorem latch_of_falling {p a b c i : Bool} (hba : b = true → a = true) (hcb : c = true → b = true) :
    ((p || (b && (!a || false))) || (c && (!b || i))) = (p || (c && (!a || i))) := by
  revert p a b c i; decide

/-- An ingest activation that began in `s` has come to `t` by a micro-op or more: the latches are those that one pending
update makes of the latches of `s`. -/
structure IngestLatches (s t : State) : Prop where
  lines : LinesMove s t
  pendG : t.pendG = (s.pendG || (irqG t && (!irqG s || t.seqG == Seq.idle)))
  pendD : t.pendD = (s.pendD || (irq2 t && (!irq2 s || s.seqD == Seq.idle)))

/-- The first micro-op of an activation. -/
theorem ingestLatches_first (s : State) : IngestLatches s (pendUpdate s (ruleG s)) := by
  obtain ⟨hm, hpg, hpd⟩ := ruleG_linesMove s
  refine ⟨⟨hm.irqG, hm.irq2, hm.seqD⟩, ?_, ?_⟩
  · rw [pendUpdate_pendG, hpg]
    rfl
  · rw [pendUpdate_pendD, hpd, hm.seqD]
    rfl

/-- One micro-op more. -/
theorem IngestLatches.step {s t : State} (h : IngestLatches s t) (hne : t.seqG ≠ Seq.idle) :
    IngestLatches s (pendUpdate t (ruleG t)) := by
  obtain ⟨hm, hpg, hpd⟩ := ruleG_linesMove t
  refine ⟨h.lines.trans ⟨hm.irqG, hm.irq2, hm.seqD⟩, ?_, ?_⟩
  · rw [pendUpdate_pendG, hpg, h.pendG, beq_false_of_ne hne]
    exact latch_of_falling h.lines.irqG hm.irqG
  · rw [pendUpdate_pendD, hpd, h.pendD, hm.seqD, h.lines.seqD]
    exact latch_of_rising h.lines.irq2 hm.irq2

/-- RUN_G from a safe state leaves the latches that one pending update makes of those ENTER_G left. -/
theorem execRunG_latches {s t : State} (hs : SafeInv s) (h : CanEnterG s) (ht : execRunG s = .next t) :
    IngestLatches (enteredG s) t := by
  have hidle := execRunG_idle hs ht
  rw [execRunG, enterG_next h, andThen_next] at ht
  refine (repeatUntil_keeps (P := fun u => SafeInv u ∧ (u = enteredG s ∨ IngestLatches (enteredG s) u))
    (fun u v hu hv => ?_) _ _ _ ⟨safeInv_takeG hs, .inl rfl⟩ ht).2.resolve_left ?_
  · obtain ⟨hne, rfl, hsv⟩ := stepG_eq_next hu.1 hv
    refine ⟨hsv, .inr ?_⟩
    rcases hu.2 with rfl | hl
    · exact ingestLatches_first _
    · exact hl.step hne
  · rintro rfl
    cases hidle

/-- A state that is `u` but for the ingest locals and the latches, these as one pending update makes them. -/
theorem ButLocalsG.eq_pendUpdate {s t u : State} (h : ButLocalsG t u) (hl : IngestLatches s t) (hg : u.g = s.g)
    (hG : u.pendG = s.pendG) (hD : u.pendD = s.pendD) : { t with g := s.g } = pendUpdate s u := by
  obtain ⟨g, pg, pd, rfl⟩ := h
  have hq : u.seqD = s.seqD := hl.lines.seqD
  have hpg : pg = (pendUpdate s u).pendG := by
    rw [pendUpdate_pendG, hG]
    exact hl.pendG
  have hpd : pd = (pendUpdate s u).pendD := by
    rw [pendUpdate_pendD, hD, hq]
    exact hl.pendD
  rw [hpg, hpd, ← hg]
  rfl

/-- INGEST() leaves the locals and the latches alone. -/
theorem ingest_keeps {s : State} (h : DataInv s) :
    (ingest s).g = s.g ∧ (ingest s).pendG = s.pendG ∧ (ingest s).pendD = s.pendD := by
  rcases queues_or_none h with ⟨v, hv⟩ | hd
  · rw [ingest_accepted h.cap_pos hv]
    exact ⟨rfl, rfl, rfl⟩
  · rw [ingest_dropped h.rdrG_written hd]
    exact ⟨rfl, rfl, rfl⟩

/-- Settles O23: the micro-ops come to INGEST(), and their pending updates to one. -/
theorem runGIsTheIngestFunction : Obligations.RunGIsTheIngestFunction := by
  unfold Obligations.RunGIsTheIngestFunction
  refine fun s => ⟨fun hs h => ?runs, fun h => ?stuck⟩
  case runs =>
    obtain ⟨t, ht, hb⟩ := execRunG_ingest hs h
    obtain ⟨hg, hpg, hpd⟩ := ingest_keeps (safeInv_takeG hs).data
    have hsafe : SafeInv t := safeInv_word (i := .runG) rfl hs ht
    exact ⟨t, ht, hsafe.noFault, execRunG_idle hs ht, hb.eq_pendUpdate (execRunG_latches hs h ht) hg hpg hpd⟩
  case stuck =>
    obtain ⟨r, hr⟩ := enterG_stuck h
    refine ⟨r, ?_⟩
    rw [exec, execRunG, hr, andThen_fault]

/-- RUN_G has a next state only where ENTER_G is enabled. -/
theorem canEnterG_of_execRunG {s t : State} (h : execRunG s = .next t) : CanEnterG s := by
  obtain ⟨u, hu, -⟩ := andThen_eq_next.1 h
  obtain ⟨hn, hp, hq, hm, -⟩ := enterG_eq_next.1 hu
  exact ⟨hn, hp, hq, mayEnterG_iff.1 hm⟩

/-- Settles O24: the activation queues the unread frame, or no value. -/
theorem ingestActivationProperties : Obligations.IngestActivationProperties := by
  unfold Obligations.IngestActivationProperties
  intro s t hs ht
  have h := canEnterG_of_execRunG ht
  obtain ⟨u, hu, hcases⟩ := execRunG_cases hs h
  obtain rfl : t = u := Host.Outcome.next.inj (ht.symm.trans hu)
  rcases hcases with ⟨v, hv, g, pg, pd, rfl⟩ | ⟨-, g, pg, pd, rfl⟩
  · exact ⟨with_seqG_self h.2.2.1, rfl, rfl, .inr ⟨v, hv.rxneG, hv.rdrG, hv.ne_null, hv.room,
      contents_pushed hs.data hv.room v, rfl, fun j hj => buf_pushed v s hj⟩⟩
  · exact ⟨with_seqG_self h.2.2.1, rfl, rfl, .inl ⟨rfl, rfl, rfl, rfl⟩⟩

end Sys2Proof.Machine

namespace Sys2Proof.Machine

/-! ### How long an activation lasts, in every state (R104, R123, R177) -/

/-- A repetition has a next state where a step that is due has one. -/
theorem repeatUntil_next {P : State → Prop} {stop : State → Bool} {f : State → Out}
    (hf : ∀ s, P s → stop s = false → ∃ t, f s = .next t ∧ P t) (n : Nat) {s : State} (h : P s) :
    ∃ t, repeatUntil stop f n s = .next t := by
  induction n generalizing s with
  | zero => exact ⟨s, rfl⟩
  | succ n ih =>
    cases hs : stop s
    · obtain ⟨t, ht, hp⟩ := hf s h hs
      rw [repeatUntil_step hs ht]
      exact ih hp
    · exact ⟨s, repeatUntil_stop hs f _⟩

/-- Words of one kind bring a state to a stop, within a bound, if each that is due has a next state, and stops or lessens
a number that the bound exceeds. -/
theorem run_until_stop {w : StimWord} {f : State → Out} {P : State → Prop} {stop : State → Bool} {r : State → Nat}
    (hw : WordRuns w f) (hb : Blind f) (hnext : ∀ s, P s → stop s = false → ∃ t, f s = .next t)
    (hf : ∀ s t, P s → f s = .next t → P t ∧ (stop t = true ∨ r t < r s)) {n : Nat} {s : State} (h : P s)
    (hr : r s < n) :
    ∃ m t, m ≤ n ∧ runWords m (withTrace (List.replicate m w) s) = .next (withTrace [] t) ∧ stop t = true := by
  have hdue : ∀ s, P s → stop s = false → ∃ t, f s = .next t ∧ P t := fun s hs hn => by
    obtain ⟨t, ht⟩ := hnext s hs hn
    exact ⟨t, ht, (hf s t hs ht).1⟩
  obtain ⟨t, ht⟩ := repeatUntil_next hdue n h
  obtain ⟨m, hm, hrun⟩ := run_of_repeat hw hb ht
  exact ⟨m, t, hm, hrun, repeatUntil_stops hf n s t h hr ht⟩

theorem stopsG_eq_false {s : State} : stopsG s = false ↔ s.seqG ≠ Seq.idle ∧ NoFault s := by simp [stopsG]

theorem stopsG_eq_true {s : State} : stopsG s = true ↔ s.seqG = Seq.idle ∨ s.fault ≠ none := by
  simp [stopsG, Option.isSome_iff_ne_none]

theorem stopsD_eq_false {s : State} : stopsD s = false ↔ s.seqD ≠ Seq.idle ∧ NoFault s := by simp [stopsD]

theorem stopsD_eq_true {s : State} : stopsD s = true ↔ s.seqD = Seq.idle ∨ s.fault ≠ none := by
  simp [stopsD, Option.isSome_iff_ne_none]

/-- Where an ingest activation may be: on a code R72 uses, the engine not held off. -/
structure ActivationG (s : State) : Prop where
  used : s.seqG.toNat ≤ 8
  free : s.cfg.prio = .dOverG → s.seqD = Seq.idle

/-- A micro-op of an activation that is not over has a next state: no step of an activation waits (R104). -/
theorem ActivationG.stepG_next {s : State} (h : ActivationG s) (hs : stopsG s = false) : ∃ t, stepG s = .next t := by
  obtain ⟨hne, hn⟩ := stopsG_eq_false.1 hs
  exact ⟨_, microStepG_next hn hne h.free ruleG⟩

/-- A micro-op goes on with the activation, and ends it or lessens what may follow. -/
theorem ActivationG.stepG_advances {s t : State} (h : ActivationG s) (ht : stepG s = .next t) :
    ActivationG t ∧ (stopsG t = true ∨ leftG t < leftG s) := by
  obtain ⟨hn, hne, -, rfl⟩ := microStepG_eq_next.1 ht
  obtain ⟨hu, hadv⟩ := ruleG_advances hn hne h.used
  obtain ⟨c, g, f, b, tl, pg, pd, e⟩ := stepG_writes ht
  refine ⟨⟨by simpa using hu, by rw [e]; exact h.free⟩, ?_⟩
  exact hadv.imp (fun hi => stopsG_eq_true.2 (.inl ((afterRule_seqG _ _).trans hi))) fun hl => by simpa [leftG] using hl

/-- Where a dispatch activation may be. -/
structure ActivationD (s : State) : Prop where
  used : s.seqD.toNat ≤ 13
  free : s.cfg.prio = .gOverD → s.seqG = Seq.idle

theorem ActivationD.stepD_next {s : State} (h : ActivationD s) (hs : stopsD s = false) : ∃ t, stepD s = .next t := by
  obtain ⟨hne, hn⟩ := stopsD_eq_false.1 hs
  exact ⟨_, microStepD_next hn hne h.free ruleD⟩

theorem ActivationD.stepD_advances {s t : State} (h : ActivationD s) (ht : stepD s = .next t) :
    ActivationD t ∧ (stopsD t = true ∨ leftD t < leftD s) := by
  obtain ⟨hn, hne, -, rfl⟩ := microStepD_eq_next.1 ht
  obtain ⟨hu, hadv⟩ := ruleD_advances hn hne h.used
  obtain ⟨c, d, f, hd, p, pl, tdr, pg, pd, e⟩ := stepD_writes ht
  refine ⟨⟨by simpa using hu, by rw [e]; exact h.free⟩, ?_⟩
  exact hadv.imp (fun hi => stopsD_eq_true.2 (.inl ((afterRule_seqD _ _).trans hi))) fun hl => by simpa [leftD] using hl

/-- Settles O36: IG1 may have 7 micro-ops after it and DP1 may have 11, each with fewer after it than the one before. -/
theorem activationsEndInTime : Obligations.ActivationsEndInTime := by
  unfold Obligations.ActivationsEndInTime
  refine ⟨fun s ⟨hn, hq, hp⟩ => ?ingest, fun s ⟨hn, hq, hp⟩ => ?dispatch⟩
  case ingest =>
    have hs : ActivationG s := ⟨by simp [hq], hp⟩
    obtain ⟨m, t, hm, hrun, hstop⟩ := run_until_stop wordRuns_stepG blind_stepG (fun _ h => h.stepG_next)
      (fun _ _ h => h.stepG_advances) (n := 8) hs (by simp [leftG, hq, show s.fault = none from hn])
    exact ⟨m, _, hm, hrun, stopsG_eq_true.1 hstop⟩
  case dispatch =>
    have hs : ActivationD s := ⟨by simp [hq], hp⟩
    obtain ⟨m, t, hm, hrun, hstop⟩ := run_until_stop wordRuns_stepD blind_stepD (fun _ h => h.stepD_next)
      (fun _ _ h => h.stepD_advances) (n := 12) hs (by simp [leftD, hq, show s.fault = none from hn])
    exact ⟨m, _, hm, hrun, stopsD_eq_true.1 hstop⟩

end Sys2Proof.Machine

namespace Sys2Proof.Machine

/-! ### A dispatch activation and DISPATCH() (R122, R123) -/

/-- ClearORE after a test of the flag leaves it clear either way (R120, R121, R137). -/
theorem ite_clearOreOf_l2 (s : State) : (if s.ore2 then clearOreOf .l2 s else s) = { s with ore2 := false } := by
  cases ho : s.ore2
  · simp [← ho]
  · simp

/-- The receive branch of DISPATCH(): the unread command is read and executed, and the overrun flag cleared. -/
def receiveBranch (s : State) : State :=
  let s' :=
    if s.rxne2 then
      readRdrOf .l2 .dp9 s fun c u =>
        if c = 0x030#9 then pinResetStrobe u else if c = 0x031#9 then pinSetStrobe u else u
    else s
  if s'.ore2 then clearOreOf .l2 s' else s'

/-- The receive branch of DISPATCH() is what DP8 to DP13 make of the state, but for the sequencer (R114 to R121). -/
theorem receiveBranch_eq {s : State} (hw : s.rxne2 = true → s.rdr2.isWritten = true) :
    receiveBranch s = { obeyed s with seqD := s.seqD } := by
  rw [receiveBranch, ite_clearOreOf_l2]
  cases hr : s.rxne2 with
  | false => simp [obeyed, hr, unread, pinAfter, pinLogged]
  | true =>
    obtain ⟨c, hc⟩ := Reg.isWritten_iff.1 (hw hr)
    rw [if_pos rfl, readRdrOf, rdr_l2, hc, readReg_holds, setRxne_l2, obeyed, hr, hc]
    by_cases h0 : c = 0x030#9
    · subst h0; rfl
    by_cases h1 : c = 0x031#9
    · subst h1; rfl
    rw [if_neg h0, if_neg h1]
    simp [unread, pinAfter, pinLogged, h0, h1]

/-- DISPATCH() with the transmitter busy is the receive branch alone. -/
theorem dispatch_busy {s : State} (hd : DataInv s) (hx : s.txe2 = false) :
    dispatch s = { obeyed s with seqD := s.seqD } := by
  refine Eq.trans ?_ (receiveBranch_eq hd.rdr2_written)
  rw [dispatch, if_neg (show ¬ s.txe2 = true by simp [hx])]
  rfl

/-- DISPATCH() with the transmitter free and the queue empty clears TXEIE. -/
theorem dispatch_empty {s : State} (hd : DataInv s) (hx : s.txe2 = true) (hl : len s = 0) :
    dispatch s = { obeyed { s with txeie := false } with seqD := s.seqD } := by
  refine Eq.trans ?_ (receiveBranch_eq (s := { s with txeie := false }) hd.rdr2_written)
  rw [dispatch, if_pos hx, popSlot_empty hl]
  rfl

/-- DISPATCH() with the transmitter free and `v` at the head of the queue pops it into TDR_2. -/
theorem dispatch_pops {s : State} {v : Slot} (hd : DataInv s) (hx : s.txe2 = true) (hl : 0 < len s)
    (hv : s.buf.read (slotIndex s.cfg s.head) = .holds v) :
    dispatch s = { obeyed (sending v s) with seqD := s.seqD } := by
  refine Eq.trans ?_ (receiveBranch_eq (s := sending v s) hd.rdr2_written)
  rw [dispatch, if_pos hx, popSlot_value hd.cap_pos hl hd.len_le hv, sending]
  cases he : isEmpty (nextCursor s.cfg s.head) s.tail
  · simp only [writeTdrReg_head, writeTdrReg_tail, he]
    rfl
  · simp only [writeTdrReg_head, writeTdrReg_tail, he]
    rfl

/-- The three ways of the transmit branch: the transmitter busy, the queue empty, or a value at its head (R107, R108). -/
theorem transmit_cases {s : State} (hd : DataInv s) :
    s.txe2 = false ∨ (s.txe2 = true ∧ len s = 0) ∨
      ∃ v, s.txe2 = true ∧ 0 < len s ∧ s.buf.read (slotIndex s.cfg s.head) = .holds v := by
  cases hx : s.txe2 with
  | false => exact .inl rfl
  | true =>
    rcases Nat.eq_zero_or_pos (len s) with hl | hl
    · exact .inr (.inl ⟨rfl, hl⟩)
    · obtain ⟨v, hv⟩ := head_written hd hl
      exact .inr (.inr ⟨v, rfl, hl, hv⟩)

/-- DISPATCH() leaves the locals and the latches alone. -/
theorem dispatch_keeps {s : State} (hd : DataInv s) :
    (dispatch s).d = s.d ∧ (dispatch s).pendG = s.pendG ∧ (dispatch s).pendD = s.pendD := by
  rcases transmit_cases hd with hx | ⟨hx, hl⟩ | ⟨v, hx, hl, hv⟩
  · rw [dispatch_busy hd hx]
    exact ⟨rfl, rfl, rfl⟩
  · rw [dispatch_empty hd hx hl]
    exact ⟨rfl, rfl, rfl⟩
  · rw [dispatch_pops hd hx hl hv]
    exact ⟨rfl, rfl, rfl⟩

/-- What an activation made of the state ENTER_D left is DISPATCH(), but for the locals and the latches. -/
theorem execRunD_dispatch {s : State} (hs : SafeInv s) (h : CanEnterD s) :
    ∃ t, execRunD s = .next t ∧ ButLocalsD t { dispatch (enteredD s) with seqD := Seq.idle } := by
  have hd : DataInv (enteredD s) := (safeInv_takeD hs).data
  rcases transmit_cases hs.data with hx | ⟨hx, hl⟩ | ⟨v, hx, hl, hv⟩
  · obtain ⟨t, ht, d, pg, pd, rfl⟩ := execRunD_busy hs h hx
    rw [dispatch_busy hd hx]
    exact ⟨_, ht, d, pg, pd, rfl⟩
  · obtain ⟨t, ht, d, pg, pd, rfl⟩ := execRunD_empty hs h hx hl
    rw [dispatch_empty hd hx hl]
    exact ⟨_, ht, d, pg, pd, rfl⟩
  · obtain ⟨t, ht, d, pg, pd, rfl⟩ := execRunD_pops hs h hx hl hv
    rw [dispatch_pops hd hx hl hv]
    exact ⟨_, ht, d, pg, pd, rfl⟩

/-! ### The latches of a dispatch activation (R148) -/

/-- From `s` to `t` link 2's line only falls, the GPS line does not move, and the ingest engine stays where it is: what
the dispatch engine's own micro-ops do to the request lines. -/
structure Line2Falls (s t : State) : Prop where
  irqG : irqG t = irqG s
  irq2 : irq2 t = true → irq2 s = true
  seqG : t.seqG = s.seqG

theorem Line2Falls.trans {s t u : State} (h : Line2Falls s t) (k : Line2Falls t u) : Line2Falls s u :=
  ⟨k.irqG.trans h.irqG, h.irq2 ∘ k.irq2, k.seqG.trans h.seqG⟩

/-- A dispatch micro-op clears the flags behind link 2's line, or leaves them, and writes no latch. -/
theorem ruleD_line2Falls (s : State) :
    Line2Falls s (ruleD s) ∧ (ruleD s).pendG = s.pendG ∧ (ruleD s).pendD = s.pendD := by
  obtain ⟨c, d, f, hd, p, pl, tdr, e⟩ := ruleD_writes s
  rw [e]
  refine ⟨⟨rfl, fun h => ?_, rfl⟩, rfl, rfl⟩
  simp only [irq2, Bool.or_eq_true, Bool.and_eq_true] at h ⊢
  refine h.imp (And.imp ?txeie ?txe2) (And.imp_right (Or.imp ?rxne2 ?ore2))
  all_goals split <;> simp

/-- A dispatch activation that began in `s` has come to `t` by a micro-op or more: the latches are those that one pending
update makes of the latches of `s`. -/
structure DispatchLatches (s t : State) : Prop where
  lines : Line2Falls s t
  pendG : t.pendG = (s.pendG || (irqG t && (!irqG s || s.seqG == Seq.idle)))
  pendD : t.pendD = (s.pendD || (irq2 t && (!irq2 s || t.seqD == Seq.idle)))

/-- The first micro-op of an activation. -/
theorem dispatchLatches_first (s : State) : DispatchLatches s (pendUpdate s (ruleD s)) := by
  obtain ⟨hm, hpg, hpd⟩ := ruleD_line2Falls s
  refine ⟨⟨hm.irqG, hm.irq2, hm.seqG⟩, ?_, ?_⟩
  · rw [pendUpdate_pendG, hpg, hm.seqG]
    rfl
  · rw [pendUpdate_pendD, hpd]
    rfl

/-- One micro-op more. -/
theorem DispatchLatches.step {s t : State} (h : DispatchLatches s t) (hne : t.seqD ≠ Seq.idle) :
    DispatchLatches s (pendUpdate t (ruleD t)) := by
  obtain ⟨hm, hpg, hpd⟩ := ruleD_line2Falls t
  refine ⟨h.lines.trans ⟨hm.irqG, hm.irq2, hm.seqG⟩, ?_, ?_⟩
  · rw [pendUpdate_pendG, hpg, h.pendG, hm.seqG, h.lines.seqG]
    exact latch_of_rising h.lines.irqG.ge hm.irqG.ge
  · rw [pendUpdate_pendD, hpd, h.pendD, beq_false_of_ne hne]
    exact latch_of_falling h.lines.irq2 hm.irq2

/-- RUN_D from a safe state leaves the latches that one pending update makes of those ENTER_D left. -/
theorem execRunD_latches {s t : State} (hs : SafeInv s) (h : CanEnterD s) (ht : execRunD s = .next t)
    (hidle : t.seqD = Seq.idle) : DispatchLatches (enteredD s) t := by
  rw [execRunD, enterD_next h, andThen_next] at ht
  refine (repeatUntil_keeps (P := fun u => SafeInv u ∧ (u = enteredD s ∨ DispatchLatches (enteredD s) u))
    (fun u v hu hv => ?_) _ _ _ ⟨safeInv_takeD hs, .inl rfl⟩ ht).2.resolve_left ?_
  · obtain ⟨hne, rfl, hsv⟩ := stepD_eq_next hu.1 hv
    refine ⟨hsv, .inr ?_⟩
    rcases hu.2 with rfl | hl
    · exact dispatchLatches_first _
    · exact hl.step hne
  · rintro rfl
    cases hidle

/-- A state that is `u` but for the dispatch locals and the latches, these as one pending update makes them. -/
theorem ButLocalsD.eq_pendUpdate {s t u : State} (h : ButLocalsD t u) (hl : DispatchLatches s t) (hd : u.d = s.d)
    (hG : u.pendG = s.pendG) (hD : u.pendD = s.pendD) : { t with d := s.d } = pendUpdate s u := by
  obtain ⟨d, pg, pd, rfl⟩ := h
  have hq : u.seqG = s.seqG := hl.lines.seqG
  have hpg : pg = (pendUpdate s u).pendG := by
    rw [pendUpdate_pendG, hG, hq]
    exact hl.pendG
  have hpd : pd = (pendUpdate s u).pendD := by
    rw [pendUpdate_pendD, hD]
    exact hl.pendD
  rw [hpg, hpd, ← hd]
  rfl

/-- Settles O33: the micro-ops come to DISPATCH(), and their pending updates to one. -/
theorem runDIsTheDispatchFunction : Obligations.RunDIsTheDispatchFunction := by
  unfold Obligations.RunDIsTheDispatchFunction
  refine fun s => ⟨fun hs h => ?runs, fun h => ?stuck⟩
  case runs =>
    obtain ⟨t, ht, hb⟩ := execRunD_dispatch hs h
    obtain ⟨hd, hpg, hpd⟩ := dispatch_keeps (safeInv_takeD hs).data
    have hsafe : SafeInv t := safeInv_word (i := .runD) rfl hs ht
    have hidle : t.seqD = Seq.idle := by
      obtain ⟨d, pg, pd, rfl⟩ := hb
      rfl
    exact ⟨t, ht, hsafe.noFault, hidle, hb.eq_pendUpdate (execRunD_latches hs h ht hidle) hd hpg hpd⟩
  case stuck =>
    obtain ⟨r, hr⟩ := enterD_stuck h
    refine ⟨r, ?_⟩
    rw [exec, execRunD, hr, andThen_fault]

/-- RUN_D has a next state only where ENTER_D is enabled. -/
theorem canEnterD_of_execRunD {s t : State} (h : execRunD s = .next t) : CanEnterD s := by
  obtain ⟨u, hu, -⟩ := andThen_eq_next.1 h
  obtain ⟨hn, hp, hq, hm, -⟩ := enterD_eq_next.1 hu
  exact ⟨hn, hp, hq, mayEnterD_iff.1 hm⟩

/-- What RUN_D leaves where it has a next state (R123). -/
theorem dispatched_of_execRunD {s t : State} (hs : SafeInv s) (ht : execRunD s = .next t) : Dispatched s t := by
  obtain ⟨u, hu, -, -, hd⟩ := execRunD_dispatched hs (canEnterD_of_execRunD ht)
  obtain rfl : t = u := Host.Outcome.next.inj (ht.symm.trans hu)
  exact hd

/-- An unread command moves the pin and logs the move (R116). -/
theorem Dispatched.pin_of_command {s t : State} {c : Reg Slot} (h : Dispatched s t) (hr : s.rxne2 = true)
    (hc : s.rdr2 = c) : t.pin = pinAfter c s.pin ∧ t.pinlog = s.pinlog ++ pinLogged c := by
  have hu : unread s.rxne2 s.rdr2 = c := by rw [hr, hc]; rfl
  exact ⟨hu ▸ h.pin, hu ▸ h.pinlog⟩

/-- The pin is left alone where no pin command is unread (R119). -/
theorem Dispatched.pin_kept {s t : State} (h : Dispatched s t)
    (hc : s.rxne2 = false ∨ (s.rdr2 ≠ .holds 0x030#9 ∧ s.rdr2 ≠ .holds 0x031#9)) :
    t.pin = s.pin ∧ t.pinlog = s.pinlog := by
  have hu : unread s.rxne2 s.rdr2 ≠ .holds 0x030#9 ∧ unread s.rxne2 s.rdr2 ≠ .holds 0x031#9 := by
    rcases hc with hr | hc
    · simp [unread, hr]
    · unfold unread
      split
      · exact hc
      · simp
  rw [h.pin, h.pinlog, pinAfter_other hu.1 hu.2, pinLogged_other hu.1 hu.2, List.append_nil]
  exact ⟨rfl, rfl⟩

/-- Settles O34, by what a dispatch activation leaves. -/
theorem dispatchActivationProperties : Obligations.DispatchActivationProperties := by
  unfold Obligations.DispatchActivationProperties
  intro s t hs ht
  have h := dispatched_of_execRunD hs ht
  refine ⟨h.frame, h.rxne2, h.ore2, fun hx => ?busy, fun hx hc => ?empty, fun x rest hx hc => ?value,
    h.pin_of_command, h.pin_of_command, h.pin_kept⟩
  case busy =>
    obtain ⟨hhead, htxe, htxeie, htdr⟩ := h.busy hx
    exact ⟨hhead, htxe, htdr, htxeie⟩
  case empty =>
    obtain ⟨hhead, htxe, htxeie, htdr⟩ := h.empty hx hc
    exact ⟨hhead, htxe, htdr, htxeie⟩
  case value =>
    obtain ⟨hcont, htxe, htdr, htxeie⟩ := h.value x rest hx hc
    exact ⟨hcont, htdr, htxe, htxeie⟩

end Sys2Proof.Machine

namespace Sys2Proof.Machine

/-! ### The dispatch micro-ops, one by one (R107 to R121) -/

/-- A micro-op row of the dispatch engine whose rule raises no fault (R72, R148, R152). -/
theorem microAtD_rule {c : SeqCode} {rule : State → State} {s r : State} (h : GoesD c s) (hc : c ≠ Seq.idle)
    (hr : rule s = r) (hf : NoFault r) : microAtD c rule s = .next (pendUpdate s r) := by
  rw [microAtD_next h hc, hr, afterRule_of_noFault _ hf]

/-- A micro-op row of the dispatch engine whose rule raises a fault: no pending update follows (R144; log entry 5). -/
theorem microAtD_raise {c : SeqCode} {rule : State → State} {s u : State} {reason : FaultReason} {site : Site}
    (h : GoesD c s) (hc : c ≠ Seq.idle) (hr : rule s = raise reason site u) :
    microAtD c rule s = .next (raise reason site u) := by
  rw [microAtD_next h hc, hr, afterRule_of_fault _ (by simp)]

theorem ruleDp3_unwritten {s : State} (h : s.d.h = .unwritten) : ruleDp3 s = raise .unwritten .dp3 s := by
  rw [ruleDp3, h, readReg_unwritten]

theorem ruleDp3_slot_unwritten {s : State} (hc : s.cfg.wf) {h : Nat} (hh : s.d.h = .holds h)
    (hv : s.buf.read (slotIndex s.cfg h) = .unwritten) : ruleDp3 s = raise .unwritten .dp3 s := by
  rw [ruleDp3, hh, readReg_holds, readSlot, if_pos (slotIndex_lt s.cfg h hc), hv, readReg_unwritten]

theorem ruleDp4_unwritten {s : State} (h : s.d.h = .unwritten) : ruleDp4 s = raise .unwritten .dp4 s := by
  rw [ruleDp4, h, readReg_unwritten]

theorem ruleDp5_overwrite {s : State} (h : s.txe2 = false) : ruleDp5 s = raise .tdrOverwrite .dp5 s := by
  rw [ruleDp5, h, if_neg Bool.false_ne_true]

theorem ruleDp5_unwritten {s : State} (hx : s.txe2 = true) (hv : s.d.v = .unwritten) :
    ruleDp5 s = raise .unwritten .dp5 s := by
  rw [ruleDp5, if_pos hx, hv, readReg_unwritten]

/-- DP6 goes to DP7 where TAIL meets HEAD (R82, R112). -/
theorem ruleDp6_eq (s : State) :
    ruleDp6 s =
      { s with d := { s.d with t := .holds s.tail }, seqD := if s.head = s.tail then Seq.dp7 else Seq.dp8 } := by
  simp only [ruleDp6, isEmpty, beq_iff_eq]

/-- DP12 goes to DP13 where the receiver overran and ends the activation where it did not (R120). -/
theorem ruleDp12_eq (s : State) :
    ruleDp12 s = { s with d := { s.d with o := .holds s.ore2 }, seqD := if s.ore2 then Seq.dp13 else Seq.idle } := by
  cases ho : s.ore2
  · rw [ruleDp12_idle ho, ho]; rfl
  · rw [ruleDp12_overrun ho, ho]; rfl

/-- Settles O26, by the rules of the three tests. -/
theorem dpFlagTestsBranch : Obligations.DpFlagTestsBranch := by
  unfold Obligations.DpFlagTestsBranch
  exact fun s => ⟨fun h => microAtD_rule h (by decide) rfl h.1, fun h => microAtD_rule h (by decide) rfl h.1,
    fun h => microAtD_rule h (by decide) (ruleDp12_eq s) h.1⟩

/-- Settles O27: DP2 by LEN against 0 and CAP. -/
theorem dp2TestsEmpty : Obligations.Dp2TestsEmpty := by
  unfold Obligations.Dp2TestsEmpty
  exact fun s h => ⟨fun hl => microAtD_rule h (by decide) (ruleDp2_empty hl) h.1,
    fun h0 hl => microAtD_rule h (by decide) (ruleDp2_some h0 hl) h.1,
    fun hl => ⟨_, microAtD_raise h (by decide) (ruleDp2_range hl), rfl⟩⟩

/-- DP3 from a safe state copies the value at the head of the queue to D.v (R81, R109). -/
theorem execDp3_contents {s : State} (hs : SafeInv s) (h : GoesD Seq.dp3 s) :
    ∃ x rest t, contents s = x :: rest ∧ execDp3 s = .next t ∧ t.d.v = x ∧ contents t = contents s := by
  obtain ⟨-, hh, hl⟩ := hs.dispatch.dp3 h.2.1
  obtain ⟨v, hv⟩ := head_written hs.data hl
  obtain ⟨hcons, -⟩ := contents_popped hs.data hl v
  exact ⟨_, _, _, hcons, microAtD_rule h (by decide) (ruleDp3_holds hs.data.cap_pos hh hv) h.1, hv.symm,
    contents_congr rfl rfl rfl rfl⟩

/-- DP4 from a safe state takes off the queue the value DP3 copied (R58, R110). -/
theorem execDp4_contents {s : State} (hs : SafeInv s) (h : GoesD Seq.dp4 s) :
    ∃ t, execDp4 s = .next t ∧ contents s = s.d.v :: contents t ∧ t.d = s.d := by
  obtain ⟨-, hh, hl, -, hv⟩ := hs.dispatch.dp4 h.2.1
  refine ⟨_, microAtD_rule h (by decide) (ruleDp4_holds hh) h.1, ?_, rfl⟩
  rw [hv]
  exact contents_pop hs.data.head_lt hs.data.tail_lt hl rfl rfl rfl rfl

/-- Settles O28: DP3 and DP4 by their operands, and what each does to the queue's contents. -/
theorem dp3ReadsAndDp4ReleasesTheSlot : Obligations.Dp3ReadsAndDp4ReleasesTheSlot := by
  unfold Obligations.Dp3ReadsAndDp4ReleasesTheSlot
  refine ⟨fun s k h hc hk => ⟨fun v hv => ?reads, fun hv => ?slotUnwritten⟩, fun s k h hk => ?publishes,
    fun s hu => ⟨fun h => ?dp3Unwritten, fun h => ?dp4Unwritten⟩,
    fun s hs => ⟨execDp3_contents hs, execDp4_contents hs⟩⟩
  case reads => exact microAtD_rule h (by decide) (ruleDp3_holds hc hk hv) h.1
  case slotUnwritten => exact microAtD_raise h (by decide) (ruleDp3_slot_unwritten hc hk hv)
  case publishes => exact microAtD_rule h (by decide) (ruleDp4_holds hk) h.1
  case dp3Unwritten => exact microAtD_raise h (by decide) (ruleDp3_unwritten hu)
  case dp4Unwritten => exact microAtD_raise h (by decide) (ruleDp4_unwritten hu)

/-- Settles O29: DP5 by TXE_2, and then by whether D.v has been written. -/
theorem dp5WritesTheTransmitRegister : Obligations.Dp5WritesTheTransmitRegister := by
  unfold Obligations.Dp5WritesTheTransmitRegister
  exact fun s h => ⟨fun v hx hv => microAtD_rule h (by decide) (ruleDp5_holds hx hv) h.1,
    fun hx => microAtD_raise h (by decide) (ruleDp5_overwrite hx),
    fun hx hv => microAtD_raise h (by decide) (ruleDp5_unwritten hx hv)⟩

/-- Settles O30, by the rules of the two micro-ops. -/
theorem dp6RetestsEmptyAndDp7ClearsTxeie : Obligations.Dp6RetestsEmptyAndDp7ClearsTxeie := by
  unfold Obligations.Dp6RetestsEmptyAndDp7ClearsTxeie
  exact fun s => ⟨fun h => microAtD_rule h (by decide) (ruleDp6_eq s) h.1,
    fun h => microAtD_rule h (by decide) rfl h.1⟩

/-- Settles O31: DP9 by whether RDR_2 has been written. -/
theorem dp9ReadsAndDecodesTheCommand : Obligations.Dp9ReadsAndDecodesTheCommand := by
  unfold Obligations.Dp9ReadsAndDecodesTheCommand
  exact fun s h => ⟨fun c hc => microAtD_rule h (by decide) (ruleDp9_holds hc) h.1,
    fun hc => microAtD_raise h (by decide) (ruleDp9_unwritten hc)⟩

/-- Settles O32, by the rules of the three micro-ops. -/
theorem dpPinAndOverrunStrobes : Obligations.DpPinAndOverrunStrobes := by
  unfold Obligations.DpPinAndOverrunStrobes
  exact fun s => ⟨fun h => microAtD_rule h (by decide) rfl h.1, fun h => microAtD_rule h (by decide) rfl h.1,
    fun h => microAtD_rule h (by decide) rfl h.1⟩

end Sys2Proof.Machine

namespace Sys2Proof.Machine

/-! ### The arbiter's coherence under EQUAL (R129, R153) -/

/-- Away from the codes between a move of the queue and the write of TXEIE that goes with it, coherence is that one
engine is active at most and that TXEIE says whether the queue holds a value. -/
theorem coherent_of_settled {s : State} (h1 : s.seqG = Seq.idle ∨ s.seqD = Seq.idle)
    (hl : s.txeie = true ↔ 0 < len s) (hG : s.seqG ≠ Seq.ig6) (h5 : s.seqD ≠ Seq.dp5) (h6 : s.seqD ≠ Seq.dp6)
    (h7 : s.seqD ≠ Seq.dp7) : Coherent s :=
  ⟨h1, fun _ _ _ _ => hl, fun e => absurd e hG, fun e => (e.elim h5 h6).elim, fun e => absurd e h7⟩

/-- Coherence speaks of the sequencers, TXEIE and the queue's length alone. -/
theorem Coherent.congr {s t : State} (h : Coherent s) (hG : t.seqG = s.seqG) (hD : t.seqD = s.seqD)
    (hx : t.txeie = s.txeie) (hl : len t = len s) : Coherent t := by
  obtain ⟨h1, h2, h3, h4, h5⟩ := h
  constructor <;> rw [hG, hD] at * <;> rw [hl] at * <;> rw [hx] at * <;> assumption

/-- While the dispatch engine is IDLE, TXEIE says whether the queue holds a value, but at IG6. -/
theorem Coherent.settled_of_ingest {s : State} (h : Coherent s) (hD : s.seqD = Seq.idle) (hG : s.seqG ≠ Seq.ig6) :
    s.txeie = true ↔ 0 < len s :=
  h.settled hG (by rw [hD]; decide) (by rw [hD]; decide) (by rw [hD]; decide)

/-- An ingest micro-op keeps the arbiter coherent: IG5 publishes a value, and IG6 then sets TXEIE (R99, R100). -/
theorem coherent_ruleG {s : State} (h : SafeInv s) (hc : Coherent s) (hne : s.seqG ≠ Seq.idle) :
    Coherent (ruleG s) := by
  have hD := hc.one_active.resolve_left hne
  have hl := hc.settled_of_ingest hD
  have key : ∀ {t : State}, t.seqD = s.seqD → (t.txeie = true ↔ 0 < len t) → t.seqG ≠ Seq.ig6 → Coherent t :=
    fun e hl hG => by
      rw [hD] at e
      refine coherent_of_settled (.inr e) hl hG ?_ ?_ ?_ <;> rw [e] <;> decide
  rcases ruleG_forms h hne with ⟨e, r⟩ | ⟨v, e, r⟩ | ⟨c, e, hq, r⟩ | ⟨v, e, r⟩ | ⟨e, hroom, r⟩ | ⟨e, r⟩ |
    ⟨c, e, hq, r⟩ | ⟨e, r⟩ <;> rw [e] at hl <;> rw [r]
  case inr.inr.inr.inr.inl =>
    have hpos : 0 < len { s with tail := nextCursor s.cfg s.tail, seqG := Seq.ig6 } := by
      have : len { s with tail := nextCursor s.cfg s.tail, seqG := Seq.ig6 } = len s + 1 :=
        cursorDiff_push s.cfg h.data.head_lt h.data.tail_lt hroom
      omega
    refine ⟨.inr hD, fun e6 => absurd rfl e6, fun _ => hpos, fun e => ?_, fun e => ?_⟩ <;> simp [hD] at e
  case inr.inr.inr.inr.inr.inl => exact key rfl (iff_of_true rfl (hc.published e)) (by decide : Seq.ig7 ≠ Seq.ig6)
  all_goals refine key rfl (hl (by decide)) ?_
  case inl => simp only [ruleIg1]; split <;> decide
  case inr.inl => simp only; split <;> decide
  case inr.inr.inl => rcases hq with rfl | rfl <;> simp
  case inr.inr.inr.inr.inr.inr.inl => rcases hq with rfl | rfl <;> simp
  all_goals simp [ruleIg8, leaveG]

/-- DP6 finds the queue empty where its length is 0 (R82, R112). -/
theorem isEmpty_eq_true {s : State} (h : DataInv s) : isEmpty s.head s.tail = true ↔ len s = 0 := by
  rw [isEmpty, beq_iff_eq, len, cursorDiff_eq_zero s.cfg h.head_lt h.tail_lt]

/-- DP6 keeps the arbiter coherent: TXEIE stays set if the queue holds a value, and DP7 is next if not (R112). -/
theorem coherent_dp6 {s : State} (h : DataInv s) (hc : Coherent s) (hG : s.seqG = Seq.idle)
    (hD : s.seqD = Seq.dp6) : Coherent (ruleDp6 s) := by
  by_cases he : isEmpty s.head s.tail = true
  · have hq : (ruleDp6 s).seqD = Seq.dp7 := if_pos he
    refine ⟨.inl hG, fun _ _ _ e => absurd hq e, fun e => ?_, fun e => ?_, fun _ => (isEmpty_eq_true h).1 he⟩
    · exact absurd (hG.symm.trans e) (by decide)
    · rw [hq] at e; exact absurd e (by decide)
  · have hq : (ruleDp6 s).seqD = Seq.dp8 := if_neg he
    have hl : 0 < len s := Nat.pos_of_ne_zero fun e => he ((isEmpty_eq_true h).2 e)
    refine coherent_of_settled (.inl hG) (iff_of_true (hc.popped (.inr hD)) hl) ?_ ?_ ?_ ?_
    · rw [show (ruleDp6 s).seqG = Seq.idle from hG]; decide
    all_goals rw [hq]; decide

/-- A dispatch micro-op keeps the arbiter coherent: DP4 takes a value while TXEIE is set, and DP7 clears TXEIE where
DP2 or DP6 found the queue empty (R110, R112, R113). -/
theorem coherent_ruleD {s : State} (h : SafeInv s) (hc : Coherent s) (hne : s.seqD ≠ Seq.idle) :
    Coherent (ruleD s) := by
  have hG := hc.one_active.resolve_right hne
  have hl := hc.settled (by rw [hG]; decide)
  have key : ∀ {t : State}, t.seqG = s.seqG → (t.txeie = true ↔ 0 < len t) →
      (t.seqD ≠ Seq.dp5 ∧ t.seqD ≠ Seq.dp6 ∧ t.seqD ≠ Seq.dp7) → Coherent t := fun e hl hq => by
    rw [hG] at e
    exact coherent_of_settled (.inl e) hl (by rw [e]; decide) hq.1 hq.2.1 hq.2.2
  have passing : ∀ {t : State} {c : SeqCode}, t.seqG = s.seqG → t.seqD = c → t.txeie = true →
      (c = Seq.dp5 ∨ c = Seq.dp6) → Coherent t := fun {t c} e eq hx hq => by
    subst eq
    refine ⟨.inl (e.trans hG), fun _ h5 h6 => (hq.elim h5 h6).elim, fun e6 => ?_, fun _ => hx, fun e7 => ?_⟩
    · rw [e, hG] at e6; exact absurd e6 (by decide)
    · rw [e7] at hq; exact absurd hq (by decide)
  rcases ruleD_forms h hne with ⟨e, r⟩ | ⟨c, e, -, hq, r⟩ | ⟨v, e, -, r⟩ | ⟨e, -, r⟩ | ⟨v, e, -, r⟩ | ⟨e, r⟩ |
    ⟨e, r⟩ | ⟨e, r⟩ | ⟨c, v, e, hq, r⟩ | ⟨e, r⟩ | ⟨e, r⟩ | ⟨c, e, hq, r⟩ | ⟨e, r⟩ <;> rw [e] at hl <;> rw [r]
  case inr.inl =>
    rcases hq with rfl | ⟨h0, rfl⟩
    · exact key rfl (hl (by decide) (by decide) (by decide)) (by simp)
    · refine ⟨.inl hG, fun _ _ _ e => absurd rfl e, fun e => ?_, fun e => ?_, fun _ => h0⟩
      · exact absurd (hG.symm.trans e) (by decide)
      · exact absurd e (by simp)
  case inr.inr.inr.inl =>
    exact passing rfl rfl ((hl (by decide) (by decide) (by decide)).2 (h.dispatch.dp4 e).2.2.1) (.inl rfl)
  case inr.inr.inr.inr.inl => exact passing rfl rfl (hc.popped (.inl e)) (.inr rfl)
  case inr.inr.inr.inr.inr.inl => exact coherent_dp6 h.data hc hG e
  case inr.inr.inr.inr.inr.inr.inl =>
    exact key rfl (iff_of_false (by simp [ruleDp7, clearTxeieBit]) (hc.emptied e).not_gt) (by simp [ruleDp7])
  all_goals refine key rfl (hl (by decide) (by decide) (by decide)) ?_
  case inl => simp only [ruleDp1]; split <;> decide
  case inr.inr.inr.inr.inr.inr.inr.inl => simp only [ruleDp8]; split <;> decide
  case inr.inr.inr.inr.inr.inr.inr.inr.inl => rcases hq with rfl | rfl | rfl <;> simp
  case inr.inr.inr.inr.inr.inr.inr.inr.inr.inr.inr.inl => rcases hq with rfl | rfl <;> simp
  all_goals simp [ruleDp10, ruleDp11, ruleDp13, leaveD]

/-- Taking IRQ_G while both engines are IDLE keeps the arbiter coherent (R149, R153). -/
theorem coherent_enterG {s t : State} (hp : s.cfg.prio = .equal) (hc : Coherent s) (hs : enterG s = .next t) :
    Coherent t := by
  obtain ⟨-, -, hG, hm, rfl⟩ := enterG_eq_next.1 hs
  have hD : s.seqD = Seq.idle := (mayEnterG_iff.1 hm).resolve_left (by simp [hp])
  refine coherent_of_settled (.inr hD) (hc.settled_of_ingest hD (by rw [hG]; decide)) (by simp) ?_ ?_ ?_ <;>
    rw [takeG_seqD, hD] <;> decide

/-- Taking IRQ_2 while both engines are IDLE keeps the arbiter coherent (R150, R153). -/
theorem coherent_enterD {s t : State} (hp : s.cfg.prio = .equal) (hc : Coherent s) (hs : enterD s = .next t) :
    Coherent t := by
  obtain ⟨-, -, hD, hm, rfl⟩ := enterD_eq_next.1 hs
  have hG : s.seqG = Seq.idle := (mayEnterD_iff.1 hm).resolve_left (by simp [hp])
  exact coherent_of_settled (.inl hG) (hc.settled_of_ingest hD (by rw [hG]; decide))
    (by rw [takeD_seqG, hG]; decide) (by simp) (by simp) (by simp)

theorem coherent_stepG {s t : State} (h : SafeInv s) (hc : Coherent s) (hs : stepG s = .next t) : Coherent t := by
  obtain ⟨hne, rfl, -⟩ := stepG_eq_next h hs
  exact coherent_pendUpdate (coherent_ruleG h hc hne)

theorem coherent_stepD {s t : State} (h : SafeInv s) (hc : Coherent s) (hs : stepD s = .next t) : Coherent t := by
  obtain ⟨hne, rfl, -⟩ := stepD_eq_next h hs
  exact coherent_pendUpdate (coherent_ruleD h hc hne)

/-- What each micro-op of an activation keeps, the whole of it keeps. -/
theorem coherent_repeat {stop : State → Bool} {f : State → Out} {n : Nat} {s t : State}
    (hf : ∀ u v, SafeInv u → Coherent u → f u = .next v → SafeInv v ∧ Coherent v) (h : SafeInv s) (hc : Coherent s)
    (hs : repeatUntil stop f n s = .next t) : Coherent t :=
  (repeatUntil_keeps (P := fun u => SafeInv u ∧ Coherent u) (fun u v hu => hf u v hu.1 hu.2) n s t ⟨h, hc⟩ hs).2

/-- RESET leaves the arbiter coherent (R171). -/
theorem coherent_ruleReset (s : State) : Coherent (ruleReset s) :=
  coherent_of_settled (.inl rfl) (by simp [ruleReset, State.start, len, cursorDiff]) (by simp [ruleReset, State.start])
    (by simp [ruleReset, State.start]) (by simp [ruleReset, State.start]) (by simp [ruleReset, State.start])

/-- Under EQUAL every word but the harness words keeps the arbiter coherent (R129). -/
theorem coherent_word {i : Instr} {s t : State} (hi : i.isStimulus = true) (h2 : i ≠ .qPop) (h3 : ∀ d, i ≠ .qPush d)
    (hp : s.cfg.prio = .equal) (h : SafeInv s) (hc : Coherent s) (hs : exec i s = .next t) : Coherent t := by
  rcases isStimulus_cases hi with hb | ⟨f, rfl | rfl⟩ | rfl | rfl | ⟨d, rfl⟩
  · simp only [blockWords, List.mem_cons, List.not_mem_nil, or_false] at hb
    rcases hb with rfl | rfl | rfl | rfl | rfl | rfl | rfl
    · exact coherent_stepG h hc hs
    · exact coherent_stepD h hc hs
    · exact coherent_enterG hp hc hs
    · exact coherent_enterD hp hc hs
    · obtain ⟨u, hu, ht⟩ := andThen_eq_next.1 hs
      exact coherent_repeat (fun _ _ a b c => ⟨safeInv_stepG a c, coherent_stepG a b c⟩) (safeInv_enterG h hu)
        (coherent_enterG hp hc hu) ht
    · obtain ⟨u, hu, ht⟩ := andThen_eq_next.1 hs
      exact coherent_repeat (fun _ _ a b c => ⟨safeInv_stepD a c, coherent_stepD a b c⟩) (safeInv_enterD h hu)
        (coherent_enterD hp hc hu) ht
    · obtain ⟨o, f, pg, pd, rfl⟩ := execTxDone_writes hs
      exact hc.congr rfl rfl rfl rfl
  · obtain ⟨r, pg, pd, rfl⟩ := execGpsRx_writes hs
    exact hc.congr rfl rfl rfl rfl
  · obtain ⟨r, pg, pd, rfl⟩ := execHostRx_writes hs
    exact hc.congr rfl rfl rfl rfl
  · rw [execReset_eq_next hs]
    exact coherent_afterRule (coherent_ruleReset s)
  · exact absurd rfl h2
  · exact absurd rfl (h3 d)

/-- Only a word of op 0xA is Q_PUSH, and only one of op 0xB is Q_POP (R69, R71). -/
theorem decodeStimulus_harness {cfg : Config} {w : StimWord} {i : Instr} (h : decodeStimulus cfg w = .ok i)
    (hA : wordOp w ≠ 0xA#4) (hB : wordOp w ≠ 0xB#4) : i ≠ .qPop ∧ ∀ d, i ≠ .qPush d := by
  have hop : ∀ n, (wordOp w).toNat = n → wordOp w = BitVec.ofNat 4 n := fun n hn => by subst hn; simp
  unfold decodeStimulus frameWord plainWord at h
  split at h
  · cases h
  · split at h
    case h_10 e => exact absurd (hop _ e) hA
    case h_11 e => exact absurd (hop _ e) hB
    case h_13 => cases h
    all_goals
      split at h <;> cases h
      exact ⟨nofun, nofun⟩

/-- The rest of the trace is no part of the safety invariant. -/
theorem safeInv_withTrace {s : State} (h : SafeInv s) (ws : List StimWord) : SafeInv (withTrace ws s) :=
  ⟨{ h.data with }, { h.ingest with }, { h.dispatch with }, h.noFault⟩

/-- Settles O51: every word but the harness words keeps the arbiter coherent, and at quiescence no engine stands
between a move of the queue and the write of TXEIE that goes with it. -/
theorem equalPriorityKeepsCoherence : Obligations.EqualPriorityKeepsCoherence := by
  unfold Obligations.EqualPriorityKeepsCoherence
  refine ⟨fun s t hp h hc hw hs => ?steps, fun s hc => ⟨hc.one_active, fun hq => ?quiescent⟩⟩
  case steps =>
    cases ht : s.trace with
    | nil => rw [step_of_nil ht] at hs; cases hs
    | cons w rest =>
      cases hd : decodeStimulus s.cfg w with
      | error e => rw [step_of_error ht hd] at hs; cases hs
      | ok i =>
        rw [step_of_decode ht hd] at hs
        have hi := decodeStimulus_isStimulus hd
        obtain ⟨h2, h3⟩ := decodeStimulus_harness hd (hw w rest ht).1 (hw w rest ht).2
        have hsafe := safeInv_withTrace h rest
        have hcoh : Coherent (withTrace rest s) := hc.congr rfl rfl rfl rfl
        exact ⟨(congrArg Config.prio (frames_word hi hs).1).trans hp, safeInv_word hi hsafe hs,
          coherent_word (s := withTrace rest s) hi h2 h3 hp hsafe hcoh hs⟩
  case quiescent =>
    obtain ⟨hG, hD⟩ := hq
    exact hc.settled_of_ingest hD (by rw [hG]; decide)

end Sys2Proof.Machine

namespace Sys2Proof.Machine

/-! ### What a run leaves of the invariants, and how it moves values (R168, R169) -/

/-- The pending update after a rule that raised no fault latches every asserted line of an idle engine (R148). -/
theorem pendInv_afterRule (s : State) {t : State} (h : NoFault t) : PendInv (afterRule s t) := by
  rw [afterRule_of_noFault s h]
  exact pendInv_pendUpdate s t

/-- Every word but RESET and the harness words loses no request (R148). -/
theorem pendInv_word {i : Instr} {s t : State} (hi : i.isStimulus = true) (h1 : i ≠ .reset) (h2 : i ≠ .qPop)
    (h3 : ∀ d, i ≠ .qPush d) (h : SafeInv s) (hp : PendInv s) (hs : exec i s = .next t) : PendInv t := by
  have arrives : ∀ l f, arrive l f s = .next t → PendInv t := fun l f hs => by
    rw [arrive_eq_next hs]
    exact pendInv_afterRule s (safeInv_receiveFrame h l f).noFault
  rcases isStimulus_cases hi with hb | ⟨f, rfl | rfl⟩ | rfl | rfl | ⟨d, rfl⟩
  · exact (lessened_block hb h hp hs).2.1
  · exact arrives .g f hs
  · exact arrives .l2 f hs
  · exact absurd rfl h1
  · exact absurd rfl h2
  · exact absurd rfl (h3 d)

/-- The values accepted and not yet sent, oldest first: in the holding register, in hand and in the queue. -/
def onTheWay (s : State) : List (Reg Slot) := inHolding s ++ inHand s ++ contents s

/-- A value on its way is in the holding register, in the queue or, at DP5, in hand. -/
theorem onTheWay_ne_nil {s : State} (h : onTheWay s ≠ []) : s.txe2 = false ∨ 0 < len s ∨ s.seqD = Seq.dp5 := by
  by_contra hno
  obtain ⟨hx, hl, hq⟩ : s.txe2 ≠ false ∧ ¬ 0 < len s ∧ s.seqD ≠ Seq.dp5 := by simpa only [not_or] using hno
  have hc : contents s = [] := contents_eq_nil.2 (by omega)
  exact h (by simp [onTheWay, inHolding, inHand, hx, hq, hc])

/-- At a final state only the queue may hold a value (R168). -/
theorem onTheWay_of_final {s : State} (h : Final s) : onTheWay s = contents s := by
  obtain ⟨-, ⟨-, hq⟩, -, -, -, -, hx⟩ := h
  simp [onTheWay, inHolding, inHand, hx, hq]

/-- At a final state the queue of a coherent arbiter is empty: a value in it would assert IRQ_2 (R129, R168). -/
theorem contents_of_final {s : State} (h : Final s) (hc : Coherent s) : contents s = [] := by
  obtain ⟨-, ⟨hG, hD⟩, -, -, -, hirq, hx⟩ := h
  have hl := hc.settled_of_ingest hD (by rw [hG]; decide)
  refine contents_eq_nil.2 (Nat.eq_zero_of_not_pos fun hpos => ?_)
  simp [irq2, hl.2 hpos, hx] at hirq

/-- From `s` to `t` the values `pushed` were accepted and the frames `fs` sent: all that was on its way or was accepted
is sent, in order, or is still on its way. -/
structure Accounts (s t : State) (pushed : List (Reg Slot)) (fs : List Slot) : Prop where
  out : t.out = s.out ++ fs
  frames : (onTheWay s ++ pushed).map (sentFrame s.cfg) = fs.map Reg.holds ++ (onTheWay t).map (sentFrame s.cfg)

/-- A run accounts for every value, by the law of the queue and that of the way from HEAD to OUT (R90, R142). -/
theorem accounts_run {is : List Instr} {s t : State} {m : Moved} (h : SafeInv s)
    (hi : ∀ i ∈ is, i.isStimulus = true ∧ i ≠ .reset ∧ i ≠ .qPop) (hr : runMoved is s = some (m, t)) :
    ∃ fs, Accounts s t m.pushed fs := by
  obtain ⟨-, hhand, fs, hout, hsent⟩ := carries_run h hi hr
  obtain ⟨-, hqueue⟩ := runMoved_fifo h (fun i hmem => ⟨(hi i hmem).1, (hi i hmem).2.1⟩) hr
  have hall : onTheWay s ++ m.pushed = (inHolding s ++ m.written) ++ (inHand t ++ contents t) :=
    calc onTheWay s ++ m.pushed = inHolding s ++ inHand s ++ (contents s ++ m.pushed) := by simp [onTheWay]
      _ = inHolding s ++ (inHand s ++ m.popped) ++ contents t := by simp [hqueue]
      _ = (inHolding s ++ m.written) ++ (inHand t ++ contents t) := by simp [hhand]
  refine ⟨fs, hout, ?_⟩
  rw [hall, List.map_append, hsent]
  simp [onTheWay]

/-- A word more at the end of a run. -/
theorem runMoved_snoc {is : List Instr} {i : Instr} {s t u : State} {m : Moved} (h : runMoved is s = some (m, t))
    (hs : exec i t = .next u) : ∃ m', runMoved (is ++ [i]) s = some (m', u) ∧ m.pushed <+: m'.pushed := by
  induction is generalizing s m with
  | nil =>
    cases h
    exact ⟨_, by simp [runMoved, hs]; rfl, List.nil_prefix⟩
  | cons j is ih =>
    obtain ⟨v, k, hv, hk, rfl⟩ := runMoved_cons h
    obtain ⟨k', hk', hpre⟩ := ih hk
    exact ⟨_, by simp [runMoved, hv, hk']; rfl, (List.prefix_append_right_inj _).2 hpre⟩

theorem wordsBefore_succ (words : Nat → Option Instr) (n : Nat) :
    wordsBefore words (n + 1) = wordsBefore words n ++ (words n).toList := by
  cases h : words n <;> simp [wordsBefore, List.range_succ, h]

section
variable {states : Nat → State} {words : Nat → Option Instr}

/-- What happens at a place of a run without RESET and harness words. -/
theorem IsRun.place (R : IsRun states words) (W : NoResetNoHarness words) (n : Nat) :
    (words n = none ∧ states (n + 1) = states n) ∨
    ∃ i, words n = some i ∧ i.isStimulus = true ∧ i ≠ .reset ∧ i ≠ .qPop ∧ (∀ d, i ≠ .qPush d) ∧
      exec i (states n) = .next (states (n + 1)) := by
  refine (R n).imp id fun ⟨i, hi, hs, hx⟩ => ⟨i, hi, hs, ?_⟩
  obtain ⟨h1, h2, h3⟩ := W n
  rw [hi] at h1 h2 h3
  exact ⟨fun e => h1 (congrArg some e), fun e => h2 (congrArg some e), fun d e => h3 d (congrArg some e), hx⟩

/-- The words of a run without RESET and harness words. -/
theorem IsRun.word_of_mem (R : IsRun states words) (W : NoResetNoHarness words) {n : Nat} {i : Instr}
    (h : i ∈ wordsBefore words n) : i.isStimulus = true ∧ i ≠ .reset ∧ i ≠ .qPop := by
  obtain ⟨k, -, hk⟩ := List.mem_filterMap.1 h
  rcases R.place W k with ⟨e, -⟩ | ⟨j, hj, hs, h1, h2, -⟩
  · rw [hk] at e; cases e
  · cases hk.symm.trans hj
    exact ⟨hs, h1, h2⟩

/-- The words of the first `k` places lead to the state at place `k`, and push what those of fewer places pushed, and
then more. -/
theorem IsRun.runMoved_later (R : IsRun states words) {n k : Nat} (hk : n ≤ k) {m : Moved}
    (h : runMoved (wordsBefore words n) (states 0) = some (m, states n)) :
    ∃ m', runMoved (wordsBefore words k) (states 0) = some (m', states k) ∧ m.pushed <+: m'.pushed := by
  induction k, hk using Nat.le_induction with
  | base => exact ⟨m, h, List.prefix_rfl⟩
  | succ k hk ih =>
    obtain ⟨m', hm', hpre⟩ := ih
    rw [wordsBefore_succ]
    rcases R k with ⟨hw, e⟩ | ⟨i, hw, -, hx⟩ <;> rw [hw]
    · rw [e, Option.toList_none, List.append_nil]
      exact ⟨m', hm', hpre⟩
    · obtain ⟨m'', hm'', hpre'⟩ := runMoved_snoc hm' hx
      exact ⟨m'', hm'', hpre.trans hpre'⟩

/-- The words of the first `n` places lead to the state at place `n`. -/
theorem IsRun.runMoved_before (R : IsRun states words) (n : Nat) :
    ∃ m, runMoved (wordsBefore words n) (states 0) = some (m, states n) :=
  let ⟨m, hm, _⟩ := R.runMoved_later (Nat.zero_le n) (m := ⟨[], [], []⟩) rfl
  ⟨m, hm⟩

/-- OUT never shrinks along a run, and no step changes the parameters (R18, R30). -/
theorem IsRun.cfg_out (R : IsRun states words) {n k : Nat} (hk : n ≤ k) :
    (states k).cfg = (states n).cfg ∧ (states n).out.length ≤ (states k).out.length := by
  induction k, hk using Nat.le_induction with
  | base => exact ⟨rfl, le_rfl⟩
  | succ k hk ih =>
    rcases R k with ⟨-, e⟩ | ⟨i, -, hs, hx⟩
    · rw [e]; exact ih
    · obtain ⟨hc, fs, ho, -⟩ := frames_word hs hx
      refine ⟨hc.trans ih.1, ih.2.trans ?_⟩
      rw [ho, List.length_append]
      exact Nat.le_add_right _ _

/-- Every state of a run from a safe one in which no request is lost is another such state (R144, R148). -/
theorem IsRun.invariants (R : IsRun states words) (W : NoResetNoHarness words) (h : SafeInv (states 0))
    (hp : PendInv (states 0)) (n : Nat) : SafeInv (states n) ∧ PendInv (states n) := by
  induction n with
  | zero => exact ⟨h, hp⟩
  | succ n ih =>
    rcases R.place W n with ⟨-, e⟩ | ⟨i, -, hs, h1, h2, h3, hx⟩
    · rw [e]; exact ih
    · exact ⟨safeInv_word hs ih.1 hx, pendInv_word hs h1 h2 h3 ih.1 ih.2 hx⟩

/-- Under EQUAL every state of a run from a coherent one is coherent (R129). -/
theorem IsRun.equalRun (R : IsRun states words) (W : NoResetNoHarness words) (he : (states 0).cfg.prio = .equal)
    (h : SafeInv (states 0)) (hp : PendInv (states 0)) (hc : Coherent (states 0)) : EqualRun states words := by
  have hinv := R.invariants W h hp
  have heq : ∀ n, (states n).cfg.prio = .equal := fun n =>
    (congrArg Config.prio (R.cfg_out (Nat.zero_le n)).1).trans he
  refine ⟨R, W, heq, fun n => (hinv n).1, fun n => (hinv n).2, fun n => ?_⟩
  induction n with
  | zero => exact hc
  | succ n ih =>
    rcases R.place W n with ⟨-, e⟩ | ⟨i, -, hs, -, h2, h3, hx⟩
    · rw [e]; exact ih
    · exact coherent_word hs h2 h3 (heq n) (hinv n).1 ih hx

/-- A run accounts at every place for every value. -/
theorem IsRun.accounts (R : IsRun states words) (W : NoResetNoHarness words) (h : SafeInv (states 0)) {n : Nat}
    {m : Moved} (hm : runMoved (wordsBefore words n) (states 0) = some (m, states n)) :
    ∃ fs, Accounts (states 0) (states n) m.pushed fs :=
  accounts_run h (fun _ hi => R.word_of_mem W hi) hm

/-! ### A run with finitely many arrivals (R168) -/

/-- Each step of the block alone is owed to a fair run (R167). -/
theorem Fair.of_mem (F : Fair states words) {i : Instr} (hi : i ∈ [Instr.mstepG, .mstepD, .enterG, .enterD, .txDone]) :
    ∃ by_, WeaklyFair i by_ states words := by
  simp only [List.mem_cons, List.not_mem_nil, or_false] at hi
  rcases hi with rfl | rfl | rfl | rfl | rfl
  · exact ⟨_, F.mstepG⟩
  · exact ⟨_, F.mstepD⟩
  · exact ⟨_, F.enterG⟩
  · exact ⟨_, F.enterD⟩
  · exact ⟨_, F.txDone⟩

/-- With no arrival to come, nothing happens any more from the place on where the work left is least. -/
theorem IsRun.rests (R : IsRun states words) (W : NoResetNoHarness words) (A : FinitelyManyArrivals words)
    (h : SafeInv (states 0)) (hp : PendInv (states 0)) :
    ∃ n, ∀ k, n ≤ k → words k = none ∧ states k = states n := by
  obtain ⟨N, hN⟩ := A
  have hstep : ∀ k, N ≤ k → (words k = none ∧ states (k + 1) = states k) ∨
      work (states (k + 1)) < work (states k) := fun k hk => by
    rcases R.place W k with e | ⟨i, hi, hs, h1, h2, h3, hx⟩
    · exact .inl e
    · obtain ⟨hsafe, hpend⟩ := R.invariants W h hp k
      rcases isStimulus_cases hs with hb | ⟨f, rfl | rfl⟩ | rfl | rfl | ⟨d, rfl⟩
      · exact .inr (lessened_block hb hsafe hpend hx).2.2
      · exact absurd hi (hN k hk f).1
      · exact absurd hi (hN k hk f).2
      · exact absurd rfl h1
      · exact absurd rfl h2
      · exact absurd rfl (h3 d)
  obtain ⟨n, hn, hmin⟩ := (measure fun k => work (states k)).wf.has_min {k | N ≤ k} ⟨N, show N ≤ N from le_rfl⟩
  have hle : ∀ k, N ≤ k → work (states n) ≤ work (states k) := fun k hk => not_lt.1 (hmin k hk)
  have hstays : ∀ k, n ≤ k → states k = states n := fun k hk => by
    induction k, hk using Nat.le_induction with
    | base => rfl
    | succ k hk ih =>
      rcases hstep k (le_trans hn hk) with ⟨-, e⟩ | hlt
      · exact e.trans ih
      · rw [ih] at hlt
        exact absurd hlt (hle _ (le_trans hn (Nat.le_succ_of_le hk))).not_gt
  refine ⟨n, fun k hk => ⟨?_, hstays k hk⟩⟩
  rcases hstep k (le_trans hn hk) with ⟨hw, -⟩ | hlt
  · exact hw
  · rw [hstays k hk, hstays (k + 1) (Nat.le_succ_of_le hk)] at hlt
    exact absurd hlt (lt_irrefl _)

/-- A fair run with finitely many arrivals reaches a final state and stays there: in any other a step of the block is
enabled, and owed (R167, R168). -/
theorem IsRun.ends (R : IsRun states words) (F : Fair states words) (W : NoResetNoHarness words)
    (A : FinitelyManyArrivals words) (h : SafeInv (states 0)) (hp : PendInv (states 0)) :
    ∃ n, Final (states n) ∧ ∀ k, n ≤ k → states k = states n := by
  obtain ⟨n, hn⟩ := R.rests W A h hp
  refine ⟨n, ?_, fun k hk => (hn k hk).2⟩
  by_contra hf
  obtain ⟨hsafe, hpend⟩ := R.invariants W h hp n
  obtain ⟨i, hi, he⟩ := enabled_of_not_final hsafe hpend hf
  obtain ⟨by_, hfair⟩ := F.of_mem hi
  obtain ⟨k, hk, j, -, hw⟩ := hfair n fun k hk => (hn k hk).2.symm ▸ he
  rw [(hn k hk).1] at hw
  cases hw

/-! ### A run under EQUAL, arrivals without end included (R131) -/

namespace EqualRun

/-- TX_DONE at a place of a run makes OUT longer by one (R142). -/
theorem out_txDone (R : EqualRun states words) {n : Nat} (hw : words n = some .txDone) :
    (states (n + 1)).out.length = (states n).out.length + 1 := by
  rcases R.place n with ⟨e, -⟩ | ⟨i, hi, -, -, -, -, hx⟩
  · rw [hw] at e; cases e
  · cases hw.symm.trans hi
    obtain ⟨v, hv⟩ := Reg.isWritten_iff.1 ((R.safe n).data.tdr2_written (execTxDone_eq_next hx).1)
    obtain ⟨-, ⟨hu, -⟩ | ⟨w, -, ho⟩⟩ := execTxDone_out hx
    · rw [hv] at hu; cases hu
    · rw [ho, List.length_append, List.length_singleton]

/-- OUT grows until it holds all that was on its way at the start or accepted by place `n`: as long as it does not, a
value is on its way, and a frame is sent (R131). -/
theorem out_grows (R : EqualRun states words) (hf : Fair states words) (hd : DispatchIsServed states words) {n : Nat}
    {m : Moved} (hm : runMoved (wordsBefore words n) (states 0) = some (m, states n)) (d : Nat) :
    ∃ k, n ≤ k ∧ ((states 0).out.length + (onTheWay (states 0) ++ m.pushed).length ≤ (states k).out.length ∨
      d ≤ (states k).out.length) := by
  induction d with
  | zero => exact ⟨n, le_rfl, .inr (Nat.zero_le _)⟩
  | succ d ih =>
    obtain ⟨k, hk, hall | hgrown⟩ := ih
    · exact ⟨k, hk, .inl hall⟩
    by_cases hall : (states 0).out.length + (onTheWay (states 0) ++ m.pushed).length ≤ (states k).out.length
    · exact ⟨k, hk, .inl hall⟩
    obtain ⟨m', hm', hpre⟩ := R.run.runMoved_later hk hm
    obtain ⟨fs, hout, hframes⟩ := R.run.accounts R.words_ok (R.safe 0) hm'
    have hne : onTheWay (states k) ≠ [] := fun hnil => by
      have hlen := congrArg List.length hframes
      have hle := hpre.length_le
      have hk := congrArg List.length hout
      simp only [hnil, List.map_nil, List.append_nil, List.length_append, List.length_map] at hlen hk hall
      omega
    obtain ⟨j, hj, hw⟩ := R.sends hf hd (onTheWay_ne_nil hne)
    refine ⟨j + 1, by omega, .inr ?_⟩
    rw [R.out_txDone hw]
    have := (R.run.cfg_out hj).2
    omega

/-- Every value accepted by place `n` is at some later place in OUT, with those before it, in order (R131). -/
theorem all_sent (R : EqualRun states words) (hf : Fair states words) (hd : DispatchIsServed states words) {n : Nat}
    {m : Moved} (hm : runMoved (wordsBefore words n) (states 0) = some (m, states n)) :
    ∃ k fs, n ≤ k ∧ (states k).out = (states 0).out ++ fs ∧
      (onTheWay (states 0) ++ m.pushed).map (sentFrame (states 0).cfg) <+: fs.map Reg.holds := by
  obtain ⟨k, hk, hlen⟩ := R.out_grows hf hd hm ((states 0).out.length + (onTheWay (states 0) ++ m.pushed).length)
  obtain ⟨m', hm', hpre⟩ := R.run.runMoved_later hk hm
  obtain ⟨fs, hout, hframes⟩ := R.run.accounts R.words_ok (R.safe 0) hm'
  refine ⟨k, fs, hk, hout, ?_⟩
  have hsent : fs.map Reg.holds <+: (onTheWay (states 0) ++ m'.pushed).map (sentFrame (states 0).cfg) :=
    ⟨_, hframes.symm⟩
  have haccepted : (onTheWay (states 0) ++ m.pushed).map (sentFrame (states 0).cfg) <+:
      (onTheWay (states 0) ++ m'.pushed).map (sentFrame (states 0).cfg) :=
    ((List.prefix_append_right_inj _).2 hpre).map _
  refine List.prefix_of_prefix_length_le haccepted hsent ?_
  rw [or_self, hout, List.length_append] at hlen
  simpa using hlen

end EqualRun

end

/-! ### A quiescent state with a value in the queue (R128, R131) -/

/-- With TXEIE set an empty transmitter asserts IRQ_2 (R146). -/
theorem irq2_of_txeie {s : State} (h : s.txeie = true) (hx : s.txe2 = true) : irq2 s = true := by simp [irq2, h, hx]

/-- After a step that leaves TXEIE set, the transmitter empty and the dispatch engine IDLE, an activation of that engine
is requested (R148). -/
theorem requested_of_txeie (s : State) {u : State} (h : u.txeie = true) (hx : u.txe2 = true)
    (hq : u.seqD = Seq.idle) :
    irq2 (pendUpdate s u) = true ∧ (pendUpdate s u).pendD = true ∧ (pendUpdate s u).txe2 = true :=
  have hirq : irq2 (pendUpdate s u) = true := irq2_of_txeie (s := pendUpdate s u) h hx
  ⟨hirq, (pendInv_pendUpdate s u).lineD hq hirq, hx⟩

/-- A dispatch activation is requested, and takes the value at the head of the queue into TDR_2 (R106 to R111). -/
theorem runD_takes_head {s : State} (hs : SafeInv s) (hp : PendInv s) (hq : Quiescent s) (hie : s.txeie = true)
    (hl : 0 < len s) (hx : s.txe2 = true) :
    irq2 s = true ∧ s.pendD = true ∧ ∃ x rest t, contents s = x :: rest ∧ exec .runD s = .next t ∧ contents t = rest ∧
      t.tdr2 = x ∧ t.txe2 = false ∧ NoFault t := by
  have hirq := irq2_of_txeie hie hx
  have hpend := hp.lineD hq.2 hirq
  obtain ⟨x, rest, hc⟩ : ∃ x rest, contents s = x :: rest :=
    List.exists_cons_of_length_pos (by rwa [length_contents])
  obtain ⟨t, ht, hst, -, hd⟩ := execRunD_dispatched hs ⟨hs.noFault, hpend, hq.2, .inr hq.1⟩
  obtain ⟨hct, hxt, htdr, -, -⟩ := hd.value x rest hx hc
  exact ⟨hirq, hpend, x, rest, t, hc, ht, hct, htdr, hxt, hst.noFault⟩

/-- With a frame in flight, its sending requests a dispatch activation (R142, R148). -/
theorem txDone_requests {s : State} (hs : SafeInv s) (hq : Quiescent s) (hie : s.txeie = true) (hx : s.txe2 = false) :
    ∃ t, exec .txDone s = .next t ∧ irq2 t = true ∧ t.pendD = true ∧ t.txe2 = true := by
  obtain ⟨v, hv⟩ := Reg.isWritten_iff.1 (hs.data.tdr2_written hx)
  exact ⟨_, execTxDone_next hs.noFault hx hv, requested_of_txeie s hie rfl hq.2⟩

/-- Settles O59: a quiescent state with a value in the queue requests its dispatch; a fair run with finitely many
arrivals ends, and accounts for every value; and under EQUAL a run sends every value it accepted. -/
theorem noStallUnderEqualPriority : Obligations.NoStallUnderEqualPriority := by
  unfold Obligations.NoStallUnderEqualPriority
  refine ⟨fun s _ hs hc hp hq hl => ?quiescent, fun states words R F W A h hp => ?ends,
    fun states words R F W D he h hp hc n => ?endless⟩
  case quiescent =>
    have hie : s.txeie = true := (hc.settled_of_ingest hq.2 (by rw [hq.1]; decide)).2 hl
    exact ⟨runD_takes_head hs hp hq hie hl, txDone_requests hs hq hie⟩
  case ends =>
    obtain ⟨n, hfinal, hstays⟩ := R.ends F W A h hp
    obtain ⟨m, hm⟩ := R.runMoved_before n
    obtain ⟨fs, hout, hframes⟩ := R.accounts W h hm
    rw [onTheWay_of_final hfinal] at hframes
    exact ⟨n, m, fs, hfinal, hstays, hm, hout, hframes,
      fun he hc => contents_of_final hfinal ((R.equalRun W he h hp hc).coherent n)⟩
  case endless =>
    obtain ⟨m, hm⟩ := R.runMoved_before n
    obtain ⟨k, fs, hk, hout, hpre⟩ := (R.equalRun W he h hp hc).all_sent F D hm
    exact ⟨k, m, fs, hk, hm, hout, hpre⟩

end Sys2Proof.Machine

namespace Sys2Proof.Machine

/-- Settles O45: with no fault recorded a primitive run alone is its own pseudocode. -/
theorem primitivesDoTheirOneAccess : Obligations.PrimitivesDoTheirOneAccess := by
  unfold Obligations.PrimitivesDoTheirOneAccess
  intro s v hn
  have alone : ∀ t : State, requiresNoFault s (.next t) = .next t := fun t => requiresNoFault_of_noFault hn _
  exact ⟨alone _, alone _, alone _, alone _, alone _, alone _, alone _⟩

/-! ### Preemption breaks the arbiter's coherence (R132, R179) -/

/-- The lost wake-up: a value is pushed between DP6, which found the queue empty, and DP7, which clears TXEIE: GPS_RX,
RUN_G, ENTER_D, DP1 to DP6, GPS_RX, RUN_G, DP7, DP8, DP12, TX_DONE. -/
def lostWakeUp : List StimWord :=
  [0x1041#16, 0x4000#16, 0x7000#16, 0x9000#16, 0x9000#16, 0x9000#16, 0x9000#16, 0x9000#16, 0x9000#16, 0x1042#16,
    0x4000#16, 0x9000#16, 0x9000#16, 0x9000#16, 0x3000#16]

/-- The spurious enable: the queue is drained between IG5, which published a value, and IG6, which sets TXEIE: GPS_RX,
RUN_G, GPS_RX, ENTER_G, IG1 to IG5, RUN_D, TX_DONE, RUN_D, IG6, IG7. -/
def spuriousEnable : List StimWord :=
  [0x1041#16, 0x4000#16, 0x1042#16, 0x6000#16, 0x8000#16, 0x8000#16, 0x8000#16, 0x8000#16, 0x8000#16, 0x5000#16,
    0x3000#16, 0x5000#16, 0x8000#16, 0x8000#16]

/-- Where the lost wake-up ends: the second value is in the queue, TXEIE is 0 and nothing is pending. -/
def lostWakeUpEnd : State :=
  { State.start { Config.default with prio := .gOverD } with
    buf := [(0, 0x041#9), (1, 0x042#9)], head := 1, tail := 2
    g := { rx := .holds true, v := .holds 0x042#9, h := .holds 1, t := .holds 1, o := .holds false }
    d := { te := .holds true, h := .holds 0, t := .holds 1, v := .holds 0x041#9, rn := .holds false, c := .unwritten,
           o := .holds false }
    rdrG := .holds 0x042#9, tdr2 := .holds 0x041#9, out := [0x041#9] }

/-- Where the spurious enable ends: both values are gone from the queue, and TXEIE is 1. -/
def spuriousEnableEnd : State :=
  { State.start { Config.default with prio := .dOverG } with
    buf := [(0, 0x041#9), (1, 0x042#9)], head := 2, tail := 2, txeie := true
    g := { rx := .holds true, v := .holds 0x042#9, h := .holds 0, t := .holds 1, o := .holds false }
    d := { te := .holds true, h := .holds 1, t := .holds 2, v := .holds 0x042#9, rn := .holds false, c := .unwritten,
           o := .holds false }
    rdrG := .holds 0x042#9, txe2 := false, tdr2 := .holds 0x042#9, out := [0x041#9] }

theorem run_lostWakeUp :
    Sys2Proof.core.run lostWakeUp.length
      { State.start { Config.default with prio := .gOverD } with trace := lostWakeUp } = .next lostWakeUpEnd := rfl

theorem run_spuriousEnable :
    Sys2Proof.core.run spuriousEnable.length
      { State.start { Config.default with prio := .dOverG } with trace := spuriousEnable } =
        .next spuriousEnableEnd := rfl

/-- Settles O60: the model runs a trace to each of the two states. -/
theorem preemptionBreaksCoherence : Obligations.PreemptionBreaksCoherence := by
  unfold Obligations.PreemptionBreaksCoherence
  refine ⟨⟨lostWakeUp, lostWakeUpEnd, run_lostWakeUp, ?noHarnessG, ?final, rfl, ?held⟩,
    ⟨spuriousEnable, spuriousEnableEnd, run_spuriousEnable, ?noHarnessD, rfl, ⟨rfl, rfl⟩, rfl, ?empty⟩⟩
  case noHarnessG => simp [lostWakeUp]
  case final => decide
  case held => decide
  case noHarnessD => simp [spuriousEnable]
  case empty => decide

end Sys2Proof.Machine

namespace Sys2Proof.Machine

/-! ### The links: frames in, frames out, and reads of a receive register (R135, R140 to R142) -/

/-- A frame at the GPS link is stored where the last one was read, and an overrun where it was not (R140). -/
theorem receiveFrame_g (f : Slot) (s : State) : receiveFrame .g f s =
    if s.rxneG = false then { s with rdrG := .holds f, rxneG := true }
    else { s with oreG := true, rdrG := if s.cfg.ovr = .keepNew then .holds f else s.rdrG } := by
  cases hr : s.rxneG
  case false => simp [receiveFrame, hr]
  case true => cases ho : s.cfg.ovr <;> simp [receiveFrame, hr, ho]

/-- A frame at link 2 is stored where the last one was read, and an overrun where it was not (R141). -/
theorem receiveFrame_l2 (f : Slot) (s : State) : receiveFrame .l2 f s =
    if s.rxne2 = false then { s with rdr2 := .holds f, rxne2 := true }
    else { s with ore2 := true, rdr2 := if s.cfg.ovr = .keepNew then .holds f else s.rdr2 } := by
  cases hr : s.rxne2
  case false => simp [receiveFrame, hr]
  case true => cases ho : s.cfg.ovr <;> simp [receiveFrame, hr, ho]

@[simp] theorem receiveFrame_fault (l : Link) (f : Slot) (s : State) : (receiveFrame l f s).fault = s.fault := by
  cases l
  case g => rw [receiveFrame_g]; split <;> rfl
  case l2 => rw [receiveFrame_l2]; split <;> rfl

/-- A frame arrives in every state with no fault recorded, safe or not (R140, R141). -/
theorem arrive_of_noFault {l : Link} {f : Slot} {s : State} (hn : NoFault s) (hf : IsFrame s.cfg f) :
    arrive l f s = .next (pendUpdate s (receiveFrame l f s)) := by
  rw [arrive, if_pos (show frameFits s.cfg f = true from decide_eq_true hf), requiresNoFault_of_noFault hn,
    afterRule_of_noFault _ ((receiveFrame_fault l f s).trans hn)]

/-- An operand that is no frame is refused, whatever the state (R70; log entry 11). -/
theorem arrive_refused {l : Link} {f : Slot} {s : State} (hf : ¬ IsFrame s.cfg f) :
    arrive l f s = .refused .frameRange :=
  if_neg (by simpa [frameFits] using hf)

/-- Settles O43: an arrival by whether its operand is a frame, and then by whether the last frame was read. -/
theorem framesArriveOrOverrun : Obligations.FramesArriveOrOverrun := by
  unfold Obligations.FramesArriveOrOverrun
  refine fun s f => ⟨fun hn hf => ?frame, fun hf => ⟨arrive_refused hf, arrive_refused hf⟩⟩
  case frame =>
    rw [← receiveFrame_g, ← receiveFrame_l2]
    exact ⟨arrive_of_noFault hn hf, arrive_of_noFault hn hf⟩

/-- TX_DONE with the holding register unwritten faults, and no pending update follows (R142, R144; log entry 5). -/
theorem execTxDone_unwritten {s : State} (hn : NoFault s) (hx : s.txe2 = false) (hv : s.tdr2 = .unwritten) :
    execTxDone s = .next (raise .unwritten .txDone s) := by
  have hr : ruleTxDone s = raise .unwritten .txDone s := by rw [ruleTxDone, hv, readReg_unwritten]
  rw [execTxDone, requiresNoFault_of_noFault hn, hx, hr, afterRule_of_fault _ (by simp)]
  rfl

/-- Settles O44, by the three cases of TX_DONE. -/
theorem txDoneSendsTheHeldFrame : Obligations.TxDoneSendsTheHeldFrame := by
  unfold Obligations.TxDoneSendsTheHeldFrame
  exact fun s hn => ⟨fun v => execTxDone_next hn, execTxDone_unwritten hn, execTxDone_stuck hn⟩

/-- ReadRDR of a written register gives its value and clears the ready flag (R135). -/
theorem readRdrOf_holds {l : Link} {s : State} {v : Slot} (hv : rdr l s = .holds v) (site : Site)
    (k : Slot → State → State) : readRdrOf l site s k = k v (setRxne l false s) := by
  rw [readRdrOf, hv, readReg_holds]

/-- ReadRDR of an unwritten register faults and clears nothing (R135, R144). -/
theorem readRdrOf_unwritten {l : Link} {s : State} (hv : rdr l s = .unwritten) (site : Site)
    (k : Slot → State → State) : readRdrOf l site s k = raise .unwritten site s := by
  rw [readRdrOf, hv, readReg_unwritten]

/-- ReadRDR run alone on a written register (R135; log entry 9). -/
theorem execReadRdr_holds {l : Link} {s : State} {v : Slot} (hn : NoFault s) (hv : rdr l s = .holds v) :
    execReadRdr l s = .next (setRxne l false s) := by
  rw [execReadRdr, requiresNoFault_of_noFault hn, readRdrOf_holds hv]

/-- ReadRDR run alone on an unwritten register faults at its own site (R135, R144; log entries 5 and 9). -/
theorem execReadRdr_unwritten {l : Link} {s : State} (hn : NoFault s) (hv : rdr l s = .unwritten) :
    execReadRdr l s = .next (raise .unwritten .readRdr s) := by
  rw [execReadRdr, requiresNoFault_of_noFault hn, readRdrOf_unwritten hv]

/-- Settles O46: each link's read by whether its register has been written. -/
theorem readRdrClearsReceiveReady : Obligations.ReadRdrClearsReceiveReady := by
  unfold Obligations.ReadRdrClearsReceiveReady
  exact fun s hn => ⟨fun v hv => ⟨execReadRdr_holds hn hv, readRdrOf_holds hv⟩,
    fun v hv => ⟨execReadRdr_holds hn hv, readRdrOf_holds hv⟩,
    fun hv => execReadRdr_unwritten hn hv, fun hv => execReadRdr_unwritten hn hv⟩

end Sys2Proof.Machine

namespace Sys2Proof.Machine

/-! ### The request lines and the entries (R145, R146, R149, R150) -/

/-- Settles O8: each line is its formula, read as a proposition. -/
theorem requestLinesFollowTheirFlags : Obligations.RequestLinesFollowTheirFlags := by
  unfold Obligations.RequestLinesFollowTheirFlags
  refine fun s => ⟨?lineG, ?line2, fun hx b => ?transmitter⟩
  case lineG => simp [ports, irqG]
  case line2 => simp [ports, irq2]
  case transmitter => simp [ports, irq2, hx]

/-- Settles O10, by the two laws of the entry. -/
theorem enterGStartsAnIngestActivation : Obligations.EnterGStartsAnIngestActivation := by
  unfold Obligations.EnterGStartsAnIngestActivation
  exact fun s => ⟨enterG_next, enterG_stuck⟩

/-- Settles O11, by the two laws of the entry. -/
theorem enterDStartsADispatchActivation : Obligations.EnterDStartsADispatchActivation := by
  unfold Obligations.EnterDStartsADispatchActivation
  exact fun s => ⟨enterD_next, enterD_stuck⟩

/-! ### Where a word is stuck (R170) -/

/-- A rule that is stuck where no fault is recorded is stuck everywhere (R144). -/
theorem requiresNoFault_stuck {s : State} {o : Out} (h : NoFault s → ∃ r, o = .fault r) :
    ∃ r, requiresNoFault s o = .fault r := by
  by_cases hn : NoFault s
  · rw [requiresNoFault_of_noFault hn]
    exact h hn
  · exact ⟨_, requiresNoFault_of_fault hn o⟩

/-- A word whose first part is stuck is stuck (R76). -/
theorem andThen_stuck {o : Out} (h : ∃ r, o = .fault r) (k : State → Out) : ∃ r, andThen o k = .fault r := by
  obtain ⟨r, rfl⟩ := h
  exact ⟨r, rfl⟩

/-- An idle ingest engine takes no micro-op (R151). -/
theorem microStepG_idle {s : State} (hn : NoFault s) (hq : s.seqG = Seq.idle) (rule : State → State) :
    microStepG rule s = .fault .engineIdle := by
  rw [microStepG, requiresNoFault_of_noFault hn, hq]
  rfl

/-- An idle dispatch engine takes no micro-op (R152). -/
theorem microStepD_idle {s : State} (hn : NoFault s) (hq : s.seqD = Seq.idle) (rule : State → State) :
    microStepD rule s = .fault .engineIdle := by
  rw [microStepD, requiresNoFault_of_noFault hn, hq]
  rfl

/-- The row IDLE where `seq_G` holds IDLE (log entry 7). -/
theorem execIdleG_idle {s : State} (hn : NoFault s) (hq : s.seqG = Seq.idle) : execIdleG s = .fault .engineIdle := by
  rw [execIdleG, microAtG, requiresNoFault_of_noFault hn, microStepG_idle hn hq, hq]
  rfl

/-- The row IDLE where `seq_D` holds IDLE (log entry 7). -/
theorem execIdleD_idle {s : State} (hn : NoFault s) (hq : s.seqD = Seq.idle) : execIdleD s = .fault .engineIdle := by
  rw [execIdleD, microAtD, requiresNoFault_of_noFault hn, microStepD_idle hn hq, hq]
  rfl

/-- The row IDLE of the ingest engine is stuck, whatever code `seq_G` holds (log entry 7). -/
theorem execIdleG_stuck (s : State) : ∃ r, execIdleG s = .fault r := by
  by_cases hq : s.seqG = Seq.idle
  · exact requiresNoFault_stuck fun hn => ⟨_, by rw [hq, microStepG_idle hn hq]; rfl⟩
  · exact requiresNoFault_stuck fun _ => ⟨.otherMicroOp, by rw [beq_false_of_ne hq, requires_false]⟩

/-- The row IDLE of the dispatch engine is stuck, whatever code `seq_D` holds (log entry 7). -/
theorem execIdleD_stuck (s : State) : ∃ r, execIdleD s = .fault r := by
  by_cases hq : s.seqD = Seq.idle
  · exact requiresNoFault_stuck fun hn => ⟨_, by rw [hq, microStepD_idle hn hq]; rfl⟩
  · exact requiresNoFault_stuck fun _ => ⟨.otherMicroOp, by rw [beq_false_of_ne hq, requires_false]⟩

/-- Settles O14, by the two codes the sequencer may stand on: IDLE and any other. -/
theorem idleEnginesTakeNoMicroOp : Obligations.IdleEnginesTakeNoMicroOp := by
  unfold Obligations.IdleEnginesTakeNoMicroOp
  exact fun s => ⟨execIdleG_stuck s, execIdleD_stuck s,
    fun hn hq => ⟨execIdleG_idle hn hq, microStepG_idle hn hq ruleG⟩,
    fun hn hq => ⟨execIdleD_idle hn hq, microStepD_idle hn hq ruleD⟩⟩

/-- A harness word is stuck while an engine is active (R92, R93). -/
theorem harnessStep_stuck {s : State} (h : ¬ Quiescent s) (rule : State → State) :
    ∃ r, harnessStep s rule = .fault r := by
  have hb : (s.seqG == Seq.idle && s.seqD == Seq.idle) = false := by simpa using h
  exact requiresNoFault_stuck fun _ => ⟨.harnessBusy, by rw [hb, requires_false]⟩

theorem execQPush_stuck {s : State} (h : ¬ Quiescent s) (d : Slot) : ∃ r, execQPush d s = .fault r :=
  harnessStep_stuck h _

theorem execQPop_stuck {s : State} (h : ¬ Quiescent s) : ∃ r, execQPop s = .fault r := harnessStep_stuck h _

/-- TX_DONE is stuck while the transmitter is empty, with a fault recorded or not (R142, R144). -/
theorem execTxDone_stuck_of_empty {s : State} (hx : s.txe2 = true) : ∃ r, execTxDone s = .fault r :=
  requiresNoFault_stuck fun _ => ⟨.transmitterEmpty, by rw [hx]; rfl⟩

/-- Settles O15: RUN_X and STEPALL_X begin with ENTER_X, and the other words have one condition each. -/
theorem runAndHarnessWordsStuckWhen : Obligations.RunAndHarnessWordsStuckWhen := by
  unfold Obligations.RunAndHarnessWordsStuckWhen
  exact fun s => ⟨fun h => ⟨andThen_stuck (enterG_stuck h) _, andThen_stuck (enterG_stuck h) _⟩,
    fun h => ⟨andThen_stuck (enterD_stuck h) _, andThen_stuck (enterD_stuck h) _⟩,
    fun h => ⟨execQPush_stuck h, execQPop_stuck h⟩, execTxDone_stuck_of_empty⟩

/-- Settles O17: a final state has no request pending, no engine active and no frame in flight. -/
theorem finalStatesHaveNoStepOfTheBlock : Obligations.FinalStatesHaveNoStepOfTheBlock := by
  unfold Obligations.FinalStatesHaveNoStepOfTheBlock
  refine fun s hfinal => ⟨?stuck, contents_of_final hfinal⟩
  case stuck =>
    obtain ⟨hn, ⟨hG, hD⟩, hpG, hpD, -, -, hx⟩ := hfinal
    have stuckG : ∃ r, enterG s = .fault r := enterG_stuck fun ⟨_, hp, _⟩ => Bool.false_ne_true (hpG.symm.trans hp)
    have stuckD : ∃ r, enterD s = .fault r := enterD_stuck fun ⟨_, hp, _⟩ => Bool.false_ne_true (hpD.symm.trans hp)
    intro i hi
    simp only [List.mem_cons, List.not_mem_nil, or_false] at hi
    rcases hi with rfl | rfl | rfl | rfl | rfl | rfl | rfl
    · exact stuckG
    · exact stuckD
    · exact ⟨_, microStepG_idle hn hG ruleG⟩
    · exact ⟨_, microStepD_idle hn hD ruleD⟩
    · exact andThen_stuck stuckG _
    · exact andThen_stuck stuckD _
    · exact ⟨_, execTxDone_stuck hn hx⟩

/-! ### A fault stops every row and every word (R34, R144) -/

/-- A word that decodes is a well-formed row: its frame operand fits FRAME_W (R70, R71). -/
theorem decodeStimulus_wf {cfg : Config} {w : StimWord} {i : Instr} (h : decodeStimulus cfg w = .ok i) :
    i.wf cfg = true := by
  unfold decodeStimulus frameWord plainWord at h
  split at h
  · cases h
  · split at h
    case h_1 | h_2 =>
      split at h <;> cases h
      assumption
    case h_10 => cases h; rfl
    case h_13 => cases h
    all_goals split at h <;> cases h; rfl

/-- A frame does not arrive once a fault is recorded (R140, R141, R144). -/
theorem arrive_of_fault {l : Link} {f : Slot} {s : State} (hf : s.fault ≠ none) (hw : Instr.frameWf s.cfg f = true) :
    arrive l f s = .fault .faultRecorded :=
  (if_pos (show frameFits s.cfg f = true from hw)).trans (requiresNoFault_of_fault hf _)

/-- Every well-formed row is stuck once a fault is recorded: a row is one rule that needs no fault, or begins with one,
and the frame of an arrival is not refused (R144). -/
theorem exec_of_fault {i : Instr} {s : State} (hf : s.fault ≠ none) (hw : i.wf s.cfg = true) :
    exec i s = .fault .faultRecorded := by
  have rule : ∀ o, requiresNoFault s o = .fault .faultRecorded := requiresNoFault_of_fault hf
  have begun : ∀ {o : Out} (k : State → Out), o = .fault .faultRecorded → andThen o k = .fault .faultRecorded :=
    fun _ ho => by rw [ho, andThen_fault]
  cases i
  case gpsRx | hostRx => exact arrive_of_fault hf hw
  case reservedOp0 | reservedOpC | reservedOpD | reservedOpE | reservedBits => cases hw
  case runG | runD | stepallG | stepallD => exact begun _ (rule _)
  case xmit => exact begun _ (begun _ (rule _))
  case feed | cmd => exact begun _ (arrive_of_fault hf hw)
  case feeds cs =>
    match cs with
    | [] => exact rule _
    | [c] =>
      have hc : Instr.frameWf s.cfg c = true := List.all_eq_true.1 hw c (by simp)
      exact begun _ (arrive_of_fault hf hc)
    | c :: c' :: rest =>
      have hc : Instr.frameWf s.cfg c = true := List.all_eq_true.1 hw c (by simp)
      exact begun _ (begun _ (arrive_of_fault hf hc))
  all_goals exact rule _

/-- Settles O16: a word that decodes is a well-formed row. -/
theorem faultedStateHasNoStep : Obligations.FaultedStateHasNoStep := by
  unfold Obligations.FaultedStateHasNoStep
  refine fun s hf => ⟨fun i hw => exec_of_fault hf hw, fun w rest i ht hd => ?_⟩
  rw [step_of_decode ht hd]
  exact exec_of_fault (s := withTrace rest s) hf (decodeStimulus_wf hd)

/-! ### MSTEP_X takes the micro-op the sequencer names (R72, R151, R152) -/

/-- The row of the code `seq_G` holds has the next state of MSTEP_G, if its rule is the one that code selects. -/
theorem microAtG_of_stepG {c : SeqCode} {rule : State → State} {s t : State} (hc : s.seqG = c)
    (hr : ruleG s = rule s) (h : stepG s = .next t) : microAtG c rule s = .next t := by
  obtain ⟨hn, hne, hp, rfl⟩ := microStepG_eq_next.1 h
  exact microAtG_eq_next.2 ⟨hc, microStepG_eq_next.2 ⟨hn, hne, hp, by rw [hr]⟩⟩

/-- The row of the code `seq_D` holds has the next state of MSTEP_D, if its rule is the one that code selects. -/
theorem microAtD_of_stepD {c : SeqCode} {rule : State → State} {s t : State} (hc : s.seqD = c)
    (hr : ruleD s = rule s) (h : stepD s = .next t) : microAtD c rule s = .next t := by
  obtain ⟨hn, hne, hp, rfl⟩ := microStepD_eq_next.1 h
  exact microAtD_eq_next.2 ⟨hc, microStepD_eq_next.2 ⟨hn, hne, hp, by rw [hr]⟩⟩

theorem decodeSeqG_unused {c : SeqCode} (h : 9 ≤ c.toNat) : decodeSeqG c = .unusedG c := by
  revert c; decide

theorem decodeSeqD_unused {c : SeqCode} (h : 14 ≤ c.toNat) : decodeSeqD c = .unusedD c := by
  revert c; decide

/-- The row that the code in `seq_G` names has the next state of MSTEP_G (R72, R151). -/
theorem exec_decodeSeqG {s t : State} (h : stepG s = .next t) : exec (decodeSeqG s.seqG) s = .next t := by
  obtain ⟨hn, hne, hp, -⟩ := microStepG_eq_next.1 h
  rcases Nat.lt_or_ge 8 s.seqG.toNat with hu | hu
  · have hunused := (unusedCodesRaiseSeqCode s s.seqG).1 ⟨hn, rfl, preemptedG_eq_false.1 hp⟩ hu
    rw [decodeSeqG_unused hu, hunused.1, ← hunused.2]
    exact h
  rcases seqG_cases hu hne with e | e | e | e | e | e | e | e <;> rw [e]
  · exact microAtG_of_stepG e (ruleG_ig1 e) h
  · exact microAtG_of_stepG e (ruleG_ig2 e) h
  · exact microAtG_of_stepG e (ruleG_ig3 e) h
  · exact microAtG_of_stepG e (ruleG_ig4 e) h
  · exact microAtG_of_stepG e (ruleG_ig5 e) h
  · exact microAtG_of_stepG e (ruleG_ig6 e) h
  · exact microAtG_of_stepG e (ruleG_ig7 e) h
  · exact microAtG_of_stepG e (ruleG_ig8 e) h

/-- The row that the code in `seq_D` names has the next state of MSTEP_D (R72, R152). -/
theorem exec_decodeSeqD {s t : State} (h : stepD s = .next t) : exec (decodeSeqD s.seqD) s = .next t := by
  obtain ⟨hn, hne, hp, -⟩ := microStepD_eq_next.1 h
  rcases Nat.lt_or_ge 13 s.seqD.toNat with hu | hu
  · have hunused := (unusedCodesRaiseSeqCode s s.seqD).2 ⟨hn, rfl, preemptedD_eq_false.1 hp⟩ hu
    rw [decodeSeqD_unused hu, hunused.1, ← hunused.2]
    exact h
  rcases seqD_cases hu hne with e | e | e | e | e | e | e | e | e | e | e | e | e <;> rw [e]
  · exact microAtD_of_stepD e (ruleD_dp1 e) h
  · exact microAtD_of_stepD e (ruleD_dp2 e) h
  · exact microAtD_of_stepD e (ruleD_dp3 e) h
  · exact microAtD_of_stepD e (ruleD_dp4 e) h
  · exact microAtD_of_stepD e (ruleD_dp5 e) h
  · exact microAtD_of_stepD e (ruleD_dp6 e) h
  · exact microAtD_of_stepD e (ruleD_dp7 e) h
  · exact microAtD_of_stepD e (ruleD_dp8 e) h
  · exact microAtD_of_stepD e (ruleD_dp9 e) h
  · exact microAtD_of_stepD e (ruleD_dp10 e) h
  · exact microAtD_of_stepD e (ruleD_dp11 e) h
  · exact microAtD_of_stepD e (ruleD_dp12 e) h
  · exact microAtD_of_stepD e (ruleD_dp13 e) h

/-- Settles O12: MSTEP_X is taken under R151 and R152's conditions, and is then the row of the sequencer's code. -/
theorem mstepTakesTheCurrentMicroOp : Obligations.MstepTakesTheCurrentMicroOp := by
  unfold Obligations.MstepTakesTheCurrentMicroOp
  refine fun s => ⟨fun ⟨hn, hne, hp⟩ => ?ingest, fun h => microStepG_stuck h ruleG, fun ⟨hn, hne, hp⟩ => ?dispatch,
    fun h => microStepD_stuck h ruleD⟩
  case ingest =>
    have h := microStepG_next hn hne hp ruleG
    exact ⟨_, h, exec_decodeSeqG h⟩
  case dispatch =>
    have h := microStepD_next hn hne hp ruleD
    exact ⟨_, h, exec_decodeSeqD h⟩

/-! ### The latches after each word (R148) -/

/-- What Q_PUSH does where it has a next state (R92). -/
theorem execQPush_eq_next {d : Slot} {s t : State} (h : execQPush d s = .next t) :
    t = afterRule s (pushSlot d .qPush s fun r u => { u with res := r }) := (harnessStep_eq_next h).2.2

/-- What Q_POP does where it has a next state (R93). -/
theorem execQPop_eq_next {s t : State} (h : execQPop s = .next t) :
    t = afterRule s (popSlot .qPop s fun r u => { u with res := r }) := (harnessStep_eq_next h).2.2

/-- The words of one micro-op, the boundary events and the harness words: those a pending update follows, once. -/
def IsUpdated (i : Instr) : Prop :=
  i ∈ [Instr.txDone, .mstepG, .mstepD, .qPop] ∨ ∃ d, i = .gpsRx d ∨ i = .hostRx d ∨ i = .qPush d

/-- Such a word runs a rule that writes no latch, and what follows a rule. -/
theorem exec_eq_afterRule {i : Instr} {s t : State} (hi : IsUpdated i) (h : exec i s = .next t) :
    ∃ u, t = afterRule s u ∧ u.pendG = s.pendG ∧ u.pendD = s.pendD := by
  obtain hi | ⟨d, rfl | rfl | rfl⟩ := hi
  · simp only [List.mem_cons, List.not_mem_nil, or_false] at hi
    rcases hi with rfl | rfl | rfl | rfl
    · obtain ⟨o, f, e⟩ := ruleTxDone_writes s
      exact ⟨_, (execTxDone_eq_next h).2, by rw [e], by rw [e]⟩
    · obtain ⟨-, -, -, ht⟩ := microStepG_eq_next.1 h
      exact ⟨_, ht, (ruleG_linesMove s).2⟩
    · obtain ⟨-, -, -, ht⟩ := microStepD_eq_next.1 h
      obtain ⟨c, d, f, hd, p, pl, tdr, e⟩ := ruleD_writes s
      exact ⟨_, ht, by rw [e], by rw [e]⟩
    · refine ⟨_, execQPop_eq_next h, ?_⟩
      unfold popSlot readSlot
      split_ifs <;> [skip; skip; cases s.buf.read (slotIndex s.cfg s.head); skip] <;> exact ⟨rfl, rfl⟩
  · obtain ⟨r, e⟩ := receiveFrame_g_writes d s
    exact ⟨_, arrive_eq_next h, by rw [e], by rw [e]⟩
  · obtain ⟨r, e⟩ := receiveFrame_l2_writes d s
    exact ⟨_, arrive_eq_next h, by rw [e], by rw [e]⟩
  · refine ⟨_, execQPush_eq_next h, ?_⟩
    unfold pushSlot writeSlot
    split_ifs <;> exact ⟨rfl, rfl⟩

/-- The latches after a rule that wrote none and raised no fault (R148). -/
theorem latches_afterRule {s u : State} (hn : NoFault (afterRule s u)) (hG : u.pendG = s.pendG)
    (hD : u.pendD = s.pendD) :
    ((afterRule s u).pendG = true ↔ s.pendG = true ∨
      (irqG (afterRule s u) = true ∧ (irqG s = false ∨ (afterRule s u).seqG = Seq.idle))) ∧
    ((afterRule s u).pendD = true ↔ s.pendD = true ∨
      (irq2 (afterRule s u) = true ∧ (irq2 s = false ∨ (afterRule s u).seqD = Seq.idle))) := by
  rw [NoFault, afterRule_fault] at hn
  have hirqG : irqG (pendUpdate s u) = irqG u := rfl
  have hirq2 : irq2 (pendUpdate s u) = irq2 u := rfl
  rw [afterRule_of_noFault s hn, hirqG, hirq2]
  simp [hG, hD]

/-- RESET leaves no line asserted, so the pending update after it sets no latch (R171; log entry 20). -/
theorem afterRule_ruleReset (s : State) : afterRule s (ruleReset s) = ruleReset s := by
  unfold afterRule
  split
  · rfl
  · simp [pendUpdate, irqG, irq2, ruleReset, State.start]

/-- Settles O9: the pending update after a rule, the entries, which no update follows, and RESET. -/
theorem latchesAreSetByTheirLines : Obligations.LatchesAreSetByTheirLines := by
  unfold Obligations.LatchesAreSetByTheirLines
  refine ⟨fun i s t hi h hn => ?update, fun s t h => ?enterG, fun s t h => ?enterD, fun s t h => ?reset⟩
  case update =>
    obtain ⟨u, rfl, hG, hD⟩ := exec_eq_afterRule hi h
    exact latches_afterRule hn hG hD
  case enterG =>
    obtain ⟨-, -, -, -, rfl⟩ := enterG_eq_next.1 h
    exact ⟨rfl, rfl⟩
  case enterD =>
    obtain ⟨-, -, -, -, rfl⟩ := enterD_eq_next.1 h
    exact ⟨rfl, rfl⟩
  case reset =>
    rw [execReset_eq_next h, afterRule_ruleReset]
    exact ⟨rfl, rfl⟩

/-! ### The invariants along a trace (R80, R144, R148, R184) -/

/-- Settles O50: every stimulus word keeps the safety invariant, and the rest of the trace is no part of it. -/
theorem everyStepKeepsSafety : Obligations.EveryStepKeepsSafety := by
  unfold Obligations.EveryStepKeepsSafety
  intro s t h hs
  obtain ⟨i, rest, hi, hs⟩ := step_eq_next hs
  have ht : SafeInv t := safeInv_word hi (safeInv_withTrace h rest) hs
  exact ⟨ht, ht.noFault, ht.data.len_le⟩

/-- Every stimulus word loses no request: RESET and the harness words are followed by the pending update, as the other
words are (R148). -/
theorem pendInv_stimulus {i : Instr} {s t : State} (hi : i.isStimulus = true) (h : SafeInv s) (hp : PendInv s)
    (hs : exec i s = .next t) : PendInv t := by
  have updated : ∀ u, t = afterRule s u → PendInv t := fun u ht => by
    have hn : NoFault t := (safeInv_word hi h hs).noFault
    rw [ht] at hn ⊢
    exact pendInv_afterRule s ((afterRule_fault s u).symm.trans hn)
  by_cases h1 : i = .reset
  · subst h1
    exact updated _ (execReset_eq_next hs)
  by_cases h2 : i = .qPop
  · subst h2
    exact updated _ (execQPop_eq_next hs)
  by_cases h3 : ∃ d, i = .qPush d
  · obtain ⟨d, rfl⟩ := h3
    exact updated _ (execQPush_eq_next hs)
  exact pendInv_word hi h1 h2 (not_exists.1 h3) h hp hs

/-- Settles O52: every stimulus word keeps requests latched, and the rest of the trace is no part of the invariants. -/
theorem requestsAreNotLost : Obligations.RequestsAreNotLost := by
  unfold Obligations.RequestsAreNotLost
  intro s t h hp hs
  obtain ⟨i, rest, hi, hs⟩ := step_eq_next hs
  have hpend : PendInv (withTrace rest s) := ⟨hp.lineG, hp.lineD⟩
  exact pendInv_stimulus hi (safeInv_withTrace h rest) hpend hs

end Sys2Proof.Machine

namespace Sys2Proof.Machine

/-! ### RESET and the start state (R171, R172) -/

/-- RESET in an unfaulted state: the reset table alone, the pending update after it setting no latch (R171). -/
theorem execReset_of_noFault {s : State} (h : NoFault s) : execReset s = .next (ruleReset s) := by
  rw [execReset, requiresNoFault_of_noFault h, afterRule_ruleReset]

/-- Settles O48: the state RESET leaves is the reset table with OUT, PINLOG and FAULT kept. -/
theorem resetRestoresTheResetTable : Obligations.ResetRestoresTheResetTable := by
  unfold Obligations.ResetRestoresTheResetTable
  intro s h
  exact execReset_of_noFault h

/-- With both lines low no request can be lost (R33, R148). -/
theorem pendInv_of_linesLow {s : State} (hG : irqG s = false) (h2 : irq2 s = false) : PendInv s :=
  ⟨fun _ h => absurd (hG.symm.trans h) Bool.false_ne_true, fun _ h => absurd (h2.symm.trans h) Bool.false_ne_true⟩

/-- CleanStart is a final state: both lines are low, since TXEIE and every receive flag are clear (R168, R172). -/
theorem final_of_cleanStart {s : State} (h : CleanStart s) : Final s := by
  obtain ⟨-, -, hie, -, hq, hrG, hoG, hr2, ho2, hx, -, -, hpG, hpD, -, -, -, hn⟩ := h
  exact ⟨hn, hq, hpG, hpD, by simp [irqG, hrG, hoG], by simp [irq2, hie, hr2, ho2], hx⟩

/-- The start state is CleanStart, whatever trace is loaded (R172). -/
theorem cleanStart_start (cfg : Config) (tr : List StimWord) : CleanStart { State.start cfg with trace := tr } := by
  simp [CleanStart, State.start]

/-- The start state is RESET's state with nothing observed yet, so its arbiter is coherent (R171, R172). -/
theorem coherent_start (cfg : Config) (tr : List StimWord) : Coherent { State.start cfg with trace := tr } :=
  coherent_ruleReset { State.start cfg with trace := tr }

/-- Settles O49: the start state is CleanStart, hence final, and a final coherent state has an empty queue. -/
theorem startStateIsCleanStart : Obligations.StartStateIsCleanStart := by
  unfold Obligations.StartStateIsCleanStart
  rintro cfg ws s hcfg rfl
  have hclean := cleanStart_start cfg ws
  have hcoh := coherent_start cfg ws
  have hfinal := final_of_cleanStart hclean
  have hout : OutFrames { State.start cfg with trace := ws } := fun v hv => absurd hv List.not_mem_nil
  exact ⟨hclean, safeInv_start cfg hcfg ws, hcoh, pendInv_of_linesLow rfl rfl, hout, contents_of_final hfinal hcoh,
    rfl, rfl, hfinal⟩

end Sys2Proof.Machine

namespace Sys2Proof.Machine

/-! ### The stimulus encoding, both ways (R68 to R71) -/

/-- A word is its three fields (R68). -/
theorem stimulusWord_ext {w w' : StimWord} (hop : wordOp w = wordOp w') (hz : wordZero w = wordZero w')
    (hd : wordOperand w = wordOperand w') : w = w' := by
  have hop := congrArg BitVec.toNat hop
  have hz := congrArg BitVec.toNat hz
  have hd := congrArg BitVec.toNat hd
  simp only [wordOp, wordZero, wordOperand, BitVec.extractLsb'_toNat, Nat.shiftRight_eq_div_pow] at hop hz hd
  bv_omega

/-- A word with bits 11:9 zero is its op's word with its operand in bits 8:0 (R68). -/
theorem opWord_or_operand {w op : StimWord} (hop : wordOp w = wordOp op) (hz : wordZero w = 0#3)
    (hz' : wordZero op = 0#3) (hd' : wordOperand op = 0#9) : op ||| (wordOperand w).setWidth 16 = w :=
  stimulusWord_ext ((wordOp_operand op _).trans hop.symm) ((Laws.wordZero_operand op hz' _).trans hz.symm)
    (wordOperand_operand hd' _)

/-- A word whose operand is a frame gives its operation where the frame fits (R70 case 4). -/
theorem frameWord_eq_ok {cfg : Config} {d : Slot} {i j : Instr} :
    frameWord cfg d i = .ok j ↔ frameFits cfg d = true ∧ i = j := by
  by_cases h : frameFits cfg d = true <;> simp [frameWord, h]

/-- An SN word gives its operation where its operand is zero (R70 case 3). -/
theorem plainWord_eq_ok {d : Slot} {i j : Instr} : plainWord d i = .ok j ↔ d = 0#9 ∧ i = j := by
  by_cases h : d = 0#9 <;> simp [plainWord, h]

/-- The word of a GPS arrival is refused for its operand alone (R69, R71). -/
theorem decodeStimulus_gpsRx (cfg : Config) (d : Slot) :
    decodeStimulus cfg (0x1000#16 ||| d.setWidth 16) = frameWord cfg d (.gpsRx d) := by
  rw [decodeStimulus, Laws.wordZero_operand _ (by decide), wordOp_operand, wordOperand_operand (by decide)]
  rfl

/-- The word of a host arrival, likewise (R69, R71). -/
theorem decodeStimulus_hostRx (cfg : Config) (d : Slot) :
    decodeStimulus cfg (0x2000#16 ||| d.setWidth 16) = frameWord cfg d (.hostRx d) := by
  rw [decodeStimulus, Laws.wordZero_operand _ (by decide), wordOp_operand, wordOperand_operand (by decide)]
  rfl

/-- A Q_PUSH word takes any operand (R69). -/
theorem decodeStimulus_qPushWord (cfg : Config) (d : Slot) :
    decodeStimulus cfg (0xA000#16 ||| d.setWidth 16) = .ok (.qPush d) := by
  rw [decodeStimulus_qPush (Laws.wordZero_operand _ (by decide) d) (wordOp_operand _ d),
    wordOperand_operand (by decide)]

/-- Every well-formed stimulus operation has one word, which decodes to it (R69, R71). -/
theorem decodeStimulus_encode {cfg : Config} {i : Instr} (hi : i.isStimulus = true) (hwf : i.wf cfg = true) :
    ∃ w, encode i = .stimulus w ∧ decodeStimulus cfg w = .ok i := by
  cases i with
  | gpsRx d => exact ⟨_, rfl, (decodeStimulus_gpsRx cfg d).trans (frameWord_eq_ok.2 ⟨hwf, rfl⟩)⟩
  | hostRx d => exact ⟨_, rfl, (decodeStimulus_hostRx cfg d).trans (frameWord_eq_ok.2 ⟨hwf, rfl⟩)⟩
  | qPush d => exact ⟨_, rfl, decodeStimulus_qPushWord cfg d⟩
  | txDone | runG | runD | enterG | enterD | mstepG | mstepD | qPop | reset => exact ⟨_, rfl, rfl⟩
  | _ => cases hi

/-- A word of an SN op decodes to nothing but the operation whose word it is (R69, R71). -/
theorem encode_of_plainWord {cfg : Config} {w op : StimWord} {i j : Instr}
    (h : plainWord (wordOperand w) j = .ok i) (hj : j.wf cfg = true) (he : encode j = .stimulus op)
    (hop : (wordOp w).toNat = (wordOp op).toNat) (hz : wordZero w = wordZero op) (hd : wordOperand op = 0#9) :
    i.wf cfg = true ∧ encode i = .stimulus w := by
  obtain ⟨hw, rfl⟩ := plainWord_eq_ok.1 h
  rw [stimulusWord_ext (BitVec.eq_of_toNat_eq hop) hz (hw.trans hd.symm)]
  exact ⟨hj, he⟩

/-- A word of a frame op decodes to nothing but the operation with its operand, whose word it is (R69, R71). -/
theorem encode_of_frameWord {cfg : Config} {w op : StimWord} {i j : Instr}
    (h : frameWord cfg (wordOperand w) j = .ok i) (hj : j.wf cfg = frameFits cfg (wordOperand w))
    (he : encode j = .stimulus (op ||| (wordOperand w).setWidth 16)) (hop : (wordOp w).toNat = (wordOp op).toNat)
    (hz : wordZero w = 0#3) (hz' : wordZero op = 0#3) (hd : wordOperand op = 0#9) :
    i.wf cfg = true ∧ encode i = .stimulus w := by
  obtain ⟨hf, rfl⟩ := frameWord_eq_ok.1 h
  rw [opWord_or_operand (BitVec.eq_of_toNat_eq hop) hz hz' hd] at he
  exact ⟨hj.trans hf, he⟩

/-- A word that decodes is the encoding of a well-formed operation (R69, R71). -/
theorem encode_of_decodeStimulus {cfg : Config} {w : StimWord} {i : Instr} (h : decodeStimulus cfg w = .ok i) :
    i.wf cfg = true ∧ encode i = .stimulus w := by
  have hz : wordZero w = 0#3 := by
    by_contra hz
    rw [decodeStimulus_bits hz] at h
    cases h
  rw [decodeStimulus, if_neg (not_not_intro hz)] at h
  split at h
  case h_1 hop | h_2 hop => exact encode_of_frameWord h rfl rfl hop hz rfl rfl
  case h_10 hop =>
    cases h
    exact ⟨rfl, congrArg _ (opWord_or_operand (op := 0xA000#16) (BitVec.eq_of_toNat_eq hop) hz rfl rfl)⟩
  case h_13 => cases h
  all_goals exact encode_of_plainWord h rfl rfl ‹_› hz rfl

/-- Settles O3: a word is its three fields, and every op of the decoder has its operation's encoding. -/
theorem stimulusEncodeDecodeAgree : Obligations.StimulusEncodeDecodeAgree := by
  unfold Obligations.StimulusEncodeDecodeAgree
  exact ⟨fun cfg i => decodeStimulus_encode, fun cfg w i h =>
    ⟨decodeStimulus_isStimulus h, encode_of_decodeStimulus h⟩⟩

end Sys2Proof.Machine

namespace Sys2Proof.Machine

/-! ### The data classes and the sequencer codes, both ways (R66, R67, R72) -/

theorem decodeIngest_eq_ingNull {v : Slot} : decodeIngest v = .ingNull ↔ v = 0x000#9 := by
  by_cases h : v = 0x000#9 <;> simp [decodeIngest, h]

theorem encode_decodeIngest (v : Slot) : encode (decodeIngest v) = .ingestValue v := by
  by_cases h : v = 0x000#9 <;> simp [decodeIngest, h, encode]

theorem wf_decodeIngest (cfg : Config) (v : Slot) : (decodeIngest v).wf cfg = true := by
  by_cases h : v = 0x000#9 <;> simp [decodeIngest, h, Instr.wf]

/-- A well-formed row of an ingest class is the class of its value (R66). -/
theorem decodeIngest_of_encode {cfg : Config} {i : Instr} {v : Slot} (hwf : i.wf cfg = true)
    (h : encode i = .ingestValue v) : decodeIngest v = i := by
  cases i with
  | ingNull => cases h; rfl
  | ingData u => cases h; exact if_neg (bne_iff_ne.1 hwf)
  | _ => cases h

theorem decodeCommand_eq_cmdPinOff {v : Slot} : decodeCommand v = .cmdPinOff ↔ v = 0x030#9 := by
  by_cases h : v = 0x030#9
  · simp [decodeCommand, h]
  · by_cases h1 : v = 0x031#9 <;> simp [decodeCommand, h, h1]

theorem decodeCommand_eq_cmdPinOn {v : Slot} : decodeCommand v = .cmdPinOn ↔ v = 0x031#9 := by
  by_cases h : v = 0x030#9
  · simp [decodeCommand, h]
  · by_cases h1 : v = 0x031#9 <;> simp [decodeCommand, h, h1]

theorem decodeCommand_other {v : Slot} (h : v ≠ 0x030#9) (h1 : v ≠ 0x031#9) : decodeCommand v = .cmdOther v := by
  rw [decodeCommand, if_neg h, if_neg h1]

theorem encode_decodeCommand (v : Slot) : encode (decodeCommand v) = .commandValue v := by
  unfold decodeCommand
  split
  · simp [encode, *]
  split
  · simp [encode, *]
  · rfl

theorem wf_decodeCommand (cfg : Config) (v : Slot) : (decodeCommand v).wf cfg = true := by
  unfold decodeCommand
  split
  · rfl
  split
  · rfl
  · simp [Instr.wf, *]

/-- A well-formed row of a command class is the class of its value (R67). -/
theorem decodeCommand_of_encode {cfg : Config} {i : Instr} {v : Slot} (hwf : i.wf cfg = true)
    (h : encode i = .commandValue v) : decodeCommand v = i := by
  cases i with
  | cmdPinOff | cmdPinOn => cases h; rfl
  | cmdOther u =>
    cases h
    obtain ⟨h, h1⟩ := Bool.and_eq_true_iff.1 hwf
    exact decodeCommand_other (bne_iff_ne.1 h) (bne_iff_ne.1 h1)
  | _ => cases h

theorem encode_decodeSeqG : ∀ c, encode (decodeSeqG c) = .seqG c := by decide

theorem encode_decodeSeqD : ∀ c, encode (decodeSeqD c) = .seqD c := by decide

/-- A code of `seq_G` below 9 names a micro-op or IDLE, which are well formed, and any other is unused (R72). -/
theorem wf_decodeSeqG (cfg : Config) (c : SeqCode) : (decodeSeqG c).wf cfg = true := by
  unfold decodeSeqG
  split
  case h_10 => simp only [Instr.wf, decide_eq_true_eq]; grind
  all_goals rfl

/-- A code of `seq_D` below 14 names a micro-op or IDLE, which are well formed, and any other is unused (R72). -/
theorem wf_decodeSeqD (cfg : Config) (c : SeqCode) : (decodeSeqD c).wf cfg = true := by
  unfold decodeSeqD
  split
  case h_15 => simp only [Instr.wf, decide_eq_true_eq]; grind
  all_goals rfl

/-- A well-formed row of a code of `seq_G` is what its code names (R72). -/
theorem decodeSeqG_of_encode {cfg : Config} {i : Instr} {c : SeqCode} (hwf : i.wf cfg = true)
    (h : encode i = .seqG c) : decodeSeqG c = i := by
  cases i with
  | idleG | ig1 | ig2 | ig3 | ig4 | ig5 | ig6 | ig7 | ig8 => cases h; rfl
  | unusedG => cases h; exact decodeSeqG_unused (of_decide_eq_true hwf)
  | _ => cases h

/-- A well-formed row of a code of `seq_D` is what its code names (R72). -/
theorem decodeSeqD_of_encode {cfg : Config} {i : Instr} {c : SeqCode} (hwf : i.wf cfg = true)
    (h : encode i = .seqD c) : decodeSeqD c = i := by
  cases i with
  | idleD | dp1 | dp2 | dp3 | dp4 | dp5 | dp6 | dp7 | dp8 | dp9 | dp10 | dp11 | dp12 | dp13 => cases h; rfl
  | unusedD => cases h; exact decodeSeqD_unused (of_decide_eq_true hwf)
  | _ => cases h

/-- Settles O4: in each of the four spaces a row is what its encoding decodes to, and a value or code encodes what it
decodes to. -/
theorem classAndSequencerCodesRoundTrip : Obligations.ClassAndSequencerCodesRoundTrip := by
  unfold Obligations.ClassAndSequencerCodesRoundTrip
  refine ⟨fun cfg i hwf => ?_, fun cfg v => ?_, fun cfg c => ?_⟩
  · exact ⟨fun _ => decodeIngest_of_encode hwf, fun _ => decodeCommand_of_encode hwf,
      fun _ => decodeSeqG_of_encode hwf, fun _ => decodeSeqD_of_encode hwf⟩
  · exact ⟨encode_decodeIngest v, wf_decodeIngest cfg v, decodeIngest_eq_ingNull, encode_decodeCommand v,
      wf_decodeCommand cfg v, decodeCommand_eq_cmdPinOff, decodeCommand_eq_cmdPinOn⟩
  · exact ⟨encode_decodeSeqG c, wf_decodeSeqG cfg c, encode_decodeSeqD c, wf_decodeSeqD cfg c⟩

end Sys2Proof.Machine

namespace Sys2Proof.Machine

/-! ### Reserved rows and known words (R69, R70) -/

/-- The op of a word built from its fields (R68). -/
theorem wordOp_stimWord (op : BitVec 4) (z : BitVec 3) (d : Slot) : wordOp (stimWord op z d) = op := by
  apply BitVec.eq_of_getLsbD_eq
  intro k hk
  have hz : z.getLsbD (12 + k - 9) = false := BitVec.getLsbD_of_ge z _ (by omega)
  have hd : d.getLsbD (12 + k) = false := BitVec.getLsbD_of_ge d _ (by omega)
  simp [wordOp, stimWord, hk, hz, hd, show 12 + k < 16 by omega]

/-- Bits 11:9 of a word built from its fields (R68). -/
theorem wordZero_stimWord (op : BitVec 4) (z : BitVec 3) (d : Slot) : wordZero (stimWord op z d) = z := by
  apply BitVec.eq_of_getLsbD_eq
  intro k hk
  simp [wordZero, stimWord, hk, show 9 + k < 12 by omega, show 9 + k < 16 by omega]

/-- A word with bits 11:9 not zero is refused for RESERVED_BITS, whatever its op (R70, R71). -/
theorem decodeStimulus_stimWord_bits (cfg : Config) (op : BitVec 4) {z : BitVec 3} (d : Slot) (hz : z ≠ 0#3) :
    decodeStimulus cfg (stimWord op z d) = .error .reservedBits :=
  decodeStimulus_bits ((wordZero_stimWord op z d).trans_ne hz)

/-- A word of a reserved op with bits 11:9 zero is refused for RESERVED_OP (R70, R71). -/
theorem decodeStimulus_stimWord_reserved (cfg : Config) {op : BitVec 4} (hop : op ∈ reservedOps) (d : Slot) :
    decodeStimulus cfg (stimWord op 0#3 d) = .error .reservedOp :=
  decodeStimulus_reserved (wordZero_stimWord op 0#3 d) ((wordOp_stimWord op 0#3 d).symm ▸ hop)

/-- The row of a reserved op is refused for the reason for which its word is (R70, R71). -/
theorem reservedOp_refused_as_its_word (cfg : Config) {s : State} {i : Instr} {op : BitVec 4} {z : BitVec 3} {d : Slot}
    (hx : exec i s = refuseReservedOp z) (he : encode i = .stimulus (stimWord op z d)) (hop : op ∈ reservedOps) :
    (z = 0#3 → exec i s = .refused .reservedOp) ∧ (z ≠ 0#3 → exec i s = .refused .reservedBits) ∧
    ∃ w, encode i = .stimulus w ∧ (z = 0#3 → decodeStimulus cfg w = .error .reservedOp) ∧
      (z ≠ 0#3 → decodeStimulus cfg w = .error .reservedBits) := by
  refine ⟨fun hz => hx.trans (if_pos hz), fun hz => hx.trans (if_neg hz), _, he, ?_, ?_⟩
  · rintro rfl
    exact decodeStimulus_stimWord_reserved cfg hop d
  · exact decodeStimulus_stimWord_bits cfg op d

/-- Settles O5: the rows of the four reserved ops share one refusal, and their words keep op and bits 11:9 apart. -/
theorem reservedRowsAreRefused : Obligations.ReservedRowsAreRefused := by
  unfold Obligations.ReservedRowsAreRefused
  intro cfg s op z d
  refine ⟨fun i hi => ?_, rfl, _, rfl, decodeStimulus_stimWord_bits cfg op d⟩
  simp only [List.mem_cons, List.not_mem_nil, or_false] at hi
  rcases hi with rfl | rfl | rfl | rfl <;> exact reservedOp_refused_as_its_word cfg rfl rfl (by decide)

/-- Settles O1: the decoder is evaluated on each word. -/
theorem knownStimulusWordsDecode : Obligations.KnownStimulusWordsDecode := by
  unfold Obligations.KnownStimulusWordsDecode
  exact ⟨rfl, rfl, rfl, rfl, rfl, rfl, rfl, rfl, rfl, rfl, rfl, rfl, rfl, rfl, rfl, rfl, rfl, rfl⟩

end Sys2Proof.Machine
